-- ==== Sys2Proof/Word.lean ====
section
/-! DEFINITION. The words RPIGPIO-CORE computes with (spec/00_scope.md R8, R10, R13). -/

namespace Sys2Proof

/-- A pin id: a BCM number of `W_PIN` = 8 bits (R8, R61). -/
abbrev Pin := BitVec 8

/-- A logic level, R13: `true` is 1, "high", and `false` is 0, "low". -/
abbrev Level := Bool

/-- A `NUMERIC` value, R8: the 64 bits of an IEEE 754 binary64. -/
abbrev F64 := BitVec 64

/-- A 32-bit unsigned count (`W_COUNT`, R8): `n_steps`, `steps_per_rev`, `n_obs`. -/
abbrev Count := BitVec 32

/-- A stored HX711 reading (`W_READING` = 32 bits, two's complement, R8, R88). -/
abbrev Reading := BitVec 32

end Sys2Proof
end

