-- ==== Sys2Proof/Config.lean ====
section
/-! DEFINITION. What an implementation fixes (the parameters of spec/00_scope.md R8), the scheduling choices a run is
given, and the free values: constants without a body, of which nothing can be proved. -/

namespace Sys2Proof

/-- The pull setting of an input pin (spec/20_memory.md R62). -/
inductive Pull
  | none | up | down
  deriving DecidableEq, Repr, Inhabited

/-- The parameters of R8. They are fixed before a run and never change during it (spec/70_reset_and_hazards.md R254).
The times are in seconds. -/
structure Params where
  /-- `T_SETTLE`, OPEN in [0.005, 0.010]. -/
  tSettle : F64
  /-- `T_STEP_HIGH`, OPEN, at least 0. -/
  tStepHigh : F64
  /-- `T_HX_HIGH`, OPEN, at least 0. -/
  tHxHigh : F64
  /-- `T_HX_LOW`, OPEN, at least 0. -/
  tHxLow : F64
  /-- `T_POLL`, OPEN, at least 0. -/
  tPoll : F64
  /-- `HX_DATA_PULL`, OPEN. -/
  hxDataPull : Pull
  /-- `PROFILE_DEPTH`, OPEN, at least 1. -/
  profileDepth : Nat
  /-- `HAS_CANCEL`, `true` in RPIGPIO-CORE (D15); the rules and vector V-K6 also speak of the instance `false`. -/
  hasCancel : Bool
  deriving DecidableEq, Repr, Inhabited

/-- The reference values of R8. `T_SETTLE` has none there: 0.005 seconds is this model's DESIGN CHOICE (log 6). -/
def Params.reference : Params where
  tSettle := 0x3F747AE147AE147B#64
  tStepHigh := 0#64
  tHxHigh := 0#64
  tHxLow := 0#64
  tPoll := 0#64
  hxDataPull := .none
  profileDepth := 2 ^ 32 - 1
  hasCancel := true

/-- Which agent moves (spec/60_exceptions.md R235). HOST has two kinds of move. The last two are no agent of the block's:
other users of the Pin Controller, whom the spec asks a model to refuse where they meet a unit's pin (R243, U1, U3). -/
inductive Move
  /-- HOST presents the next command of its program. -/
  | present
  /-- HOST presents `STP_CANCEL`, which it may do at any time. -/
  | cancel
  /-- STEPPER goes on with its command. -/
  | stepper
  /-- HX711 goes on with its host command. -/
  | hx711
  /-- EDGE presents `HX_EDGE`, or goes on with the cycle it started. -/
  | edge
  /-- An agent outside the block, the host as a user of other pins included, writes or configures a pin, and holds it
  from then on (spec/20_memory.md R67, log 15). -/
  | outside (p : Pin)
  /-- The agents outside the block give a pin up (log 15). -/
  | release (p : Pin)
  deriving DecidableEq, Repr, Inhabited

/-- One turn of the interleaving (R74): the agent that moves, and how many actions of the unit it drives follow before
another agent's turn (log 3). -/
structure Turn where
  move : Move
  quantum : Nat
  deriving DecidableEq, Repr, Inhabited

/-- The turns of a run beyond the listed ones: any interleaving (R74, U7). Free value, log 3. -/
opaque Config.freeTurn : Nat → Turn

/-- The level of a `PinRead` beyond the listed ones: any level (R65, U4). Free value, log 5. -/
opaque Config.freeLevel : Nat → Level

/-- The Pin Controller's answer to a configure request of the STEPPER unit beyond the listed ones: ok or fail (R63, U5).
Free value, log 5. -/
opaque Config.freeStepperAnswer : Nat → Bool

/-- The same for the HX711 unit: a constant of its own, so that no law ties the two units' answers together (R236). Free
value, log 5. -/
opaque Config.freeHxAnswer : Nat → Bool

/-- The contents of a working register of the given width outside the command that uses it (R29, R36, R37, U10), by the
register's slot and the drawing counter. Free value, log 2. -/
opaque Config.freeBits (w : Nat) (slot tick : Nat) : BitVec w

end Sys2Proof
end

