-- ==== Sys2Proof/Syntax.lean ====
section
/-! DEFINITION. The commands of RPIGPIO-CORE with their typed argument records (spec/30_encoding.md R82, R83). -/

namespace Sys2Proof

/-- The driver model tag (spec/40_stepper_config.md R101). -/
inductive Model
  /-- The source's "Model A", `model = 0`. -/
  | a4988
  /-- The source's "Model B (default)", `model = 1`. -/
  | drv8825
  deriving DecidableEq, Repr

/-- The HX711 channel (R83: 0 = A, 1 = B). -/
inductive Channel
  | a | b
  deriving DecidableEq, Repr

/-- The argument record of `STP_CONFIG` (R83, spec/40_stepper_config.md R102). -/
structure StpConfigArgs where
  dirPin : Pin
  stepPin : Pin
  sleepValid : Bool
  sleepPin : Pin
  msPin0 : Pin
  msPin1 : Pin
  msPin2 : Pin
  stepsPerRev : Count
  acceleration : F64
  startingRpm : F64
  microstep : Count
  model : Model
  deriving DecidableEq, Repr

/-- The argument record of `HX_CONFIG` (R83, spec/43_hx711_decoder.md R182). -/
structure HxConfigArgs where
  dataPin : Pin
  clockPin : Pin
  channel : Channel
  gain : BitVec 8
  useEdge : Bool
  deriving DecidableEq, Repr

/-- The twelve commands of R82 with their operands, in the table's order. -/
inductive Instr
  | stpConfig (args : StpConfigArgs)
  | msEncode (model : Model) (microstep : Count)
  | stpSetMicrostep (microstep : Count)
  | ramp (nSteps : Count) (targetRpm : F64)
  | wake
  | sleep
  | step (nSteps : Count) (direction : Bool) (rpm : F64) (useRamp : Bool)
  | stpCancel
  | hxConfig (args : HxConfigArgs)
  | hxReadCycle
  | hxGetReading (nObs : Count)
  | hxEdge
  deriving DecidableEq, Repr

/-- The mnemonics of R82: what a command word alone says. -/
inductive Opcode
  | stpConfig | msEncode | stpSetMicrostep | ramp | wake | sleep | step | stpCancel
  | hxConfig | hxReadCycle | hxGetReading | hxEdge
  deriving DecidableEq, Repr

/-- Where a word is presented (R80): on the host's command ports, which the word's UNIT field tells apart (R81), or on
the HX711 unit's event port, where only the edge dispatcher presents. -/
inductive Port
  | command | event
  deriving DecidableEq, Repr

/-- One value of an argument record, with its type of R83. -/
inductive ArgVal
  | u8 (v : BitVec 8)
  | u32 (v : BitVec 32)
  | bit (v : Bool)
  | f64 (v : F64)
  deriving DecidableEq, Repr

/-- The types of R83. -/
inductive ArgType
  | u8 | u32 | bit | f64
  deriving DecidableEq, Repr

/-- What the host presents on a command port (R80): a word and an argument record, its fields in R83's order. -/
structure HostCommand where
  word : BitVec 8
  args : List ArgVal
  deriving DecidableEq, Repr

/-- The mnemonic of a command. -/
def Instr.opcode : Instr → Opcode
  | .stpConfig _ => .stpConfig
  | .msEncode _ _ => .msEncode
  | .stpSetMicrostep _ => .stpSetMicrostep
  | .ramp _ _ => .ramp
  | .wake => .wake
  | .sleep => .sleep
  | .step _ _ _ _ => .step
  | .stpCancel => .stpCancel
  | .hxConfig _ => .hxConfig
  | .hxReadCycle => .hxReadCycle
  | .hxGetReading _ => .hxGetReading
  | .hxEdge => .hxEdge

end Sys2Proof
end

