-- ==== Sys2Proof/WellFormed.lean ====
section
/-! DEFINITION. Which commands may be presented where. Every value of a field's type can be presented (spec/30_encoding.md
R83), so the fields' types are the whole check on operands; the port is the one thing a command can be wrong about. -/

namespace Sys2Proof

/-- The port of R82's table on which a command is presented. -/
def Opcode.port : Opcode → Port
  | .hxEdge => .event
  | .stpConfig | .msEncode | .stpSetMicrostep | .ramp | .wake | .sleep | .step | .stpCancel
  | .hxConfig | .hxReadCycle | .hxGetReading => .command

/-- A command is well formed on a port when R82 gives it that port: `HX_EDGE` only on the event port (R89: reserved on the
command port), every other command only on the command port. -/
def Instr.wellFormed (p : Port) (i : Instr) : Bool :=
  i.opcode.port == p

end Sys2Proof
end

