-- ==== Sys2Proof/Decode.lean ====
section
/-! DEFINITION. Decoding a command word and its argument record, and encoding a command (spec/30_encoding.md R81 to R91). -/

namespace Sys2Proof

/-- What decoding answers: a command, or a rejection by name. -/
inductive Decoded
  | instr (i : Instr)
  /-- The word is reserved on this port (R89). -/
  | reserved
  /-- The record is not of the word's own layout (R83, R91): no such presentation exists. -/
  | malformed
  deriving DecidableEq, Repr

/-- The UNIT field, `CMD[7:4]` (R81). -/
def unitField (w : BitVec 8) : BitVec 4 := w.extractLsb' 4 4

/-- The OP field, `CMD[3:0]` (R81). -/
def opField (w : BitVec 8) : BitVec 4 := w.extractLsb' 0 4

/-- The word of each mnemonic: R82's table. -/
def Opcode.word : Opcode → BitVec 8
  | .stpConfig => 0x10
  | .msEncode => 0x11
  | .stpSetMicrostep => 0x12
  | .ramp => 0x13
  | .wake => 0x14
  | .sleep => 0x15
  | .step => 0x16
  | .stpCancel => 0x17
  | .hxConfig => 0x20
  | .hxReadCycle => 0x21
  | .hxGetReading => 0x22
  | .hxEdge => 0x23

/-- The rows of R82's table, in its order. -/
def commandTable : List Opcode :=
  [.stpConfig, .msEncode, .stpSetMicrostep, .ramp, .wake, .sleep, .step, .stpCancel,
   .hxConfig, .hxReadCycle, .hxGetReading, .hxEdge]

/-- `Decode(CMD)` of R90: the one mnemonic whose row matches the whole word (mask 0xFF), or none for `Reserved`. -/
def decodeWord (w : BitVec 8) : Option Opcode :=
  commandTable.find? fun o => o.word == w

/-- R83: `model: b`, 0 = A4988, 1 = DRV8825. -/
def Model.ofBit (b : Bool) : Model := if b then .drv8825 else .a4988

/-- The inverse of `Model.ofBit`. -/
def Model.toBit : Model → Bool
  | .a4988 => false
  | .drv8825 => true

/-- R83: `channel: b`, 0 = A, 1 = B. -/
def Channel.ofBit (b : Bool) : Channel := if b then .b else .a

/-- The inverse of `Channel.ofBit`. -/
def Channel.toBit : Channel → Bool
  | .a => false
  | .b => true

/-- The layout of each argument record (R83, R91: it follows from the word alone). -/
def Opcode.layout : Opcode → List ArgType
  | .stpConfig => [.u8, .u8, .bit, .u8, .u8, .u8, .u8, .u32, .f64, .f64, .u32, .bit]
  | .msEncode => [.bit, .u32]
  | .stpSetMicrostep => [.u32]
  | .ramp => [.u32, .f64]
  | .step => [.u32, .bit, .f64, .bit]
  | .hxConfig => [.u8, .u8, .bit, .u8, .bit]
  | .hxGetReading => [.u32]
  | .wake | .sleep | .stpCancel | .hxReadCycle | .hxEdge => []

/-- The value of a type whose bits are all 0. -/
def ArgType.zero : ArgType → ArgVal
  | .u8 => .u8 0
  | .u32 => .u32 0
  | .bit => .bit false
  | .f64 => .f64 0

/-- Taking a `u8` off a record. -/
def takeU8 (k : BitVec 8 → List ArgVal → Option Instr) : List ArgVal → Option Instr
  | .u8 v :: rest => k v rest
  | _ => none

/-- Taking a `u32` off a record. -/
def takeU32 (k : BitVec 32 → List ArgVal → Option Instr) : List ArgVal → Option Instr
  | .u32 v :: rest => k v rest
  | _ => none

/-- Taking a `b` off a record. -/
def takeBit (k : Bool → List ArgVal → Option Instr) : List ArgVal → Option Instr
  | .bit v :: rest => k v rest
  | _ => none

/-- Taking an `f64` off a record. -/
def takeF64 (k : F64 → List ArgVal → Option Instr) : List ArgVal → Option Instr
  | .f64 v :: rest => k v rest
  | _ => none

/-- The end of a record. -/
def takeEnd (i : Instr) : List ArgVal → Option Instr
  | [] => some i
  | _ :: _ => none

/-- Reading the argument record of a mnemonic: each operand is the whole value of one field, used as is (R93). None
where the record is not of the mnemonic's layout. -/
def readRecord : Opcode → List ArgVal → Option Instr
  | .stpConfig =>
    takeU8 fun dir => takeU8 fun st => takeBit fun sv => takeU8 fun sl => takeU8 fun m0 => takeU8 fun m1 =>
    takeU8 fun m2 => takeU32 fun spr => takeF64 fun acc => takeF64 fun rpm => takeU32 fun ms => takeBit fun md =>
      takeEnd (.stpConfig ⟨dir, st, sv, sl, m0, m1, m2, spr, acc, rpm, ms, Model.ofBit md⟩)
  | .msEncode => takeBit fun md => takeU32 fun ms => takeEnd (.msEncode (Model.ofBit md) ms)
  | .stpSetMicrostep => takeU32 fun ms => takeEnd (.stpSetMicrostep ms)
  | .ramp => takeU32 fun n => takeF64 fun rpm => takeEnd (.ramp n rpm)
  | .wake => takeEnd .wake
  | .sleep => takeEnd .sleep
  | .step => takeU32 fun n => takeBit fun d => takeF64 fun rpm => takeBit fun ur => takeEnd (.step n d rpm ur)
  | .stpCancel => takeEnd .stpCancel
  | .hxConfig =>
    takeU8 fun dp => takeU8 fun cp => takeBit fun ch => takeU8 fun g => takeBit fun ue =>
      takeEnd (.hxConfig ⟨dp, cp, Channel.ofBit ch, g, ue⟩)
  | .hxReadCycle => takeEnd .hxReadCycle
  | .hxGetReading => takeU32 fun n => takeEnd (.hxGetReading n)
  | .hxEdge => takeEnd .hxEdge

/-- Decoding what is presented on a port: total, with every rejection by name. A word whose row belongs to the other
port is reserved on this one (R89: `0x23` on the host command port). -/
def decode (p : Port) (w : BitVec 8) (args : List ArgVal) : Decoded :=
  match decodeWord w with
  | none => .reserved
  | some o =>
    if o.port == p then
      match readRecord o args with
      | some i => .instr i
      | none => .malformed
    else .reserved

/-- The argument record of a command, its fields in R83's order. -/
def Instr.record : Instr → List ArgVal
  | .stpConfig a =>
    [.u8 a.dirPin, .u8 a.stepPin, .bit a.sleepValid, .u8 a.sleepPin, .u8 a.msPin0, .u8 a.msPin1, .u8 a.msPin2,
     .u32 a.stepsPerRev, .f64 a.acceleration, .f64 a.startingRpm, .u32 a.microstep, .bit a.model.toBit]
  | .msEncode md ms => [.bit md.toBit, .u32 ms]
  | .stpSetMicrostep ms => [.u32 ms]
  | .ramp n rpm => [.u32 n, .f64 rpm]
  | .step n d rpm ur => [.u32 n, .bit d, .f64 rpm, .bit ur]
  | .hxConfig a => [.u8 a.dataPin, .u8 a.clockPin, .bit a.channel.toBit, .u8 a.gain, .bit a.useEdge]
  | .hxGetReading n => [.u32 n]
  | .wake | .sleep | .stpCancel | .hxReadCycle | .hxEdge => []

/-- The word and record that present a command. -/
def encode (i : Instr) : HostCommand := ⟨i.opcode.word, i.record⟩

/-- The record of a mnemonic with every value 0. -/
def Opcode.zeroRecord (o : Opcode) : List ArgVal := o.layout.map ArgType.zero

/-- The command of a table word whose operands are all 0, decoded on the port R82's table gives the word: the operands
are no bits of the word (R83), so every one of them is 0 here. None for a reserved word and for a number that is no
8-bit word. -/
def decodeTableWord (nbits w : Nat) : Option Instr :=
  if nbits = 8 ∧ w < 256 then
    match decodeWord (BitVec.ofNat 8 w) with
    | none => none
    | some o =>
      match decode o.port (BitVec.ofNat 8 w) o.zeroRecord with
      | .instr i => some i
      | .reserved | .malformed => none
  else none

end Sys2Proof
end

