-- ==== Sys2Proof/Machine/State.lean ====
section
/-! DEFINITION. The state of RPIGPIO-CORE as plain data (spec/10_state.md), its value at power-on
(spec/70_reset_and_hazards.md R251), and the reasons a step can stop.
An `Option` register that is `none` is the spec's own "unset" (R22), never a stand-in for a missing reset value (log 1). -/

namespace Sys2Proof.Machine

/-- `STP.POWER` (R26). -/
inductive Power
  | asleep | awake
  deriving DecidableEq, Repr

/-- `RG.PHASE` (R29); the codes 5..7 never occur (U18). -/
inductive RgPhase
  | idle | accel | cruise | mirror | done
  deriving DecidableEq, Repr

/-- `SQ.PHASE` (R31); the codes 5..7 never occur (U18). -/
inductive SqPhase
  | idle | build | wake | dir | pulse
  deriving DecidableEq, Repr

/-- `HX.PHASE` (R35); the codes 2 and 3 never occur (U18). -/
inductive HxPhase
  | idle | reading
  deriving DecidableEq, Repr

/-- The status codes of spec/60_exceptions.md R220. -/
inductive Status
  | ok | invalidConfiguration | hardwareUnavailable | unknownCommand | notConfigured
  deriving DecidableEq, Repr

/-- The result of a command (spec/30_encoding.md R84). -/
inductive Result
  | none
  /-- `MS_ENCODE`: the pattern `b2 b1 b0`. -/
  | pattern (p : BitVec 3)
  /-- `RAMP`: the profile, in pulse order. -/
  | profile (p : List F64)
  /-- `STEP`: the pulses emitted. -/
  | pulses (n : Count)
  /-- `HX_READ_CYCLE`: the Reading. -/
  | reading (v : Reading)
  /-- `HX_GET_READING`: the mean. -/
  | mean (m : F64)
  deriving DecidableEq, Repr

/-- What a response port holds (R39). -/
structure Response where
  status : Status
  result : Result
  deriving DecidableEq, Repr

/-- The edge kinds of spec/00_scope.md R12. -/
inductive EdgeKind
  | rising | falling | both
  deriving DecidableEq, Repr

/-- The events of spec/20_memory.md R60. -/
inductive Event
  | cfgOut (p : Pin) (ok : Bool)
  | cfgIn (p : Pin) (pull : Pull) (ok : Bool)
  | edge (p : Pin) (e : EdgeKind) (ok : Bool)
  | wr (p : Pin) (l : Level)
  | rd (p : Pin) (l : Level)
  | wait (t : F64)
  | emit (v : Reading)
  | resp (s : Status) (r : Result)
  deriving DecidableEq, Repr

/-- Whose trace an event belongs to; `hostPort` is the host's command port, which answers a word that names no unit (R89). -/
inductive Source
  | stepper | hx711 | hostPort
  deriving DecidableEq, Repr

/-- The profile memory (R30, R68): entries by number, strictly rising, an unlisted entry unset. -/
abbrev Memory := List (Nat × F64)

/-- The StepperConfig registers S1 to S12 (R23). All of them are unset until an `STP_CONFIG` succeeds, which writes them
together (spec/40_stepper_config.md R104). -/
structure StepperConfig where
  /-- S1 `STP.DIR_PIN`. -/
  dirPin : Pin
  /-- S2 `STP.STEP_PIN`. -/
  stepPin : Pin
  /-- S3 `STP.SLEEP_PIN`: bit 8 VALID, bits 7..0 PIN. -/
  sleepPin : BitVec 9
  /-- S4 `STP.MS_PIN0`. -/
  msPin0 : Pin
  /-- S5 `STP.MS_PIN1`. -/
  msPin1 : Pin
  /-- S6 `STP.MS_PIN2`. -/
  msPin2 : Pin
  /-- S7 `STP.SPR`. -/
  stepsPerRev : Count
  /-- S8 `STP.ACCEL`. -/
  acceleration : F64
  /-- S9 `STP.START_RPM`. -/
  startingRpm : F64
  /-- S10 `STP.MODEL`. -/
  model : Model
  /-- S11 `STP.MICROSTEP`. -/
  microstep : BitVec 6
  /-- S12 `STP.MS_PATTERN`: bit `i` is `b_i`. -/
  msPattern : BitVec 3
  deriving DecidableEq, Repr

/-- The working registers G0 to G6 of the Ramp Profile Generator (R29), written together by R122. -/
structure RampRegs where
  /-- G0 `RG.N`. -/
  n : BitVec 32
  /-- G1 `RG.HALF`. -/
  half : BitVec 31
  /-- G2 `RG.TARGET_DELAY`. -/
  targetDelay : F64
  /-- G3 `RG.DELAY`. -/
  delay : F64
  /-- G4 `RG.ELAPSED`. -/
  elapsed : F64
  /-- G5 `RG.CUR_RPM`. -/
  curRpm : F64
  /-- G6 `RG.COUNT`. -/
  count : BitVec 31
  deriving DecidableEq, Repr

/-- What the STEPPER unit has still to do of the command it runs: the lines of the command's rule, one action each. -/
inductive StpOp
  /-- `PinCfgOut(p)`. -/
  | cfgOut (p : Pin)
  /-- `PinWrite(p, l)`. -/
  | wr (p : Pin) (l : Level)
  /-- `Wait(t)`. -/
  | wait (t : F64)
  /-- `STP.POWER <- w` (R151, R153). -/
  | setPower (w : Power)
  /-- `SQ.PHASE <- ph` (R157). -/
  | setPhase (ph : SqPhase)
  /-- The register writes of R104. -/
  | store (c : StepperConfig)
  /-- The register writes of R109. -/
  | storeMicrostep (d : BitVec 6) (pattern : BitVec 3)
  /-- `SQ.PHASE <- PULSE; SQ.INDEX <- 0` (R157). -/
  | startPulses
  /-- The head of R157's loop: the end test, the cancellation check, `PinWrite(STEP_PIN, 1)`. -/
  | pulse
  /-- `PinWrite(STEP_PIN, 0); SQ.INDEX <- SQ.INDEX + 1` (R157). -/
  | pulseLow
  /-- `Wait(P[i])` (R157). -/
  | hold (i : Nat)
  /-- The response of a `RAMP`, with its profile (R127). -/
  | respProfile (p : List F64)
  /-- `Resp(s, r)`. -/
  | resp (s : Status) (r : Result)
  deriving DecidableEq, Repr

/-- What becomes of the Reading of a protocol cycle. -/
inductive CycleUse
  /-- `HX_READ_CYCLE` responds with it (R189). -/
  | respond
  /-- `HX_GET_READING(n)` adds it to the sum (R191). -/
  | average (n : Count)
  /-- `HX_EDGE` emits it (R195). -/
  | emit
  deriving DecidableEq, Repr

/-- The HX711Config registers H1 to H5 (R32), written together by `HX_CONFIG`. -/
structure HxConfig where
  /-- H1 `HX.DATA_PIN`. -/
  dataPin : Pin
  /-- H2 `HX.CLOCK_PIN`. -/
  clockPin : Pin
  /-- H3 `HX.CHANNEL`. -/
  channel : Channel
  /-- H4 `HX.GAIN`. -/
  gain : BitVec 8
  /-- H5 `HX.EXTRA`. -/
  extra : BitVec 2
  deriving DecidableEq, Repr

/-- What the HX711 unit has still to do of a host command or of an edge-triggered cycle, one action each. -/
inductive HxOp
  /-- `PinCfgIn(p, pull)`. -/
  | cfgIn (p : Pin) (pull : Pull)
  /-- `PinCfgOut(p)`. -/
  | cfgOut (p : Pin)
  /-- `EdgeRegister(p, falling)`. -/
  | register (p : Pin)
  /-- `PinWrite(p, l)`. -/
  | wr (p : Pin) (l : Level)
  /-- `Wait(t)`. -/
  | wait (t : F64)
  /-- The register writes of R184. -/
  | store (c : HxConfig) (useEdge : Bool)
  /-- One pass of `PollEnter`'s loop (R186). -/
  | poll (u : CycleUse)
  /-- `HX.ACC <- 0; HX.BITCNT <- 0` (R187). -/
  | clear (u : CycleUse)
  /-- The head of R187's loop of 24 data clocks. -/
  | dataClock (u : CycleUse)
  /-- `bit <- PinRead(D)` (R187). -/
  | sample
  /-- `HX.ACC <- (HX.ACC << 1) | bit; HX.BITCNT <- HX.BITCNT + 1` (R187). -/
  | shift (l : Level)
  /-- The head of R187's loop of extra pulses; it holds the Reading `v`. -/
  | extraClock (u : CycleUse) (v : Reading)
  /-- `HX.PULSECNT <- HX.PULSECNT + 1` (R187). -/
  | countPulse
  /-- What the cycle's caller does with the Reading. -/
  | deliver (u : CycleUse) (v : Reading)
  /-- `Resp(s, r)`. -/
  | resp (s : Status) (r : Result)
  deriving DecidableEq, Repr

/-- The STEPPER unit. -/
structure Stepper where
  /-- S0 `STP.CFGD`. -/
  cfgd : Bool
  /-- S1 to S12. -/
  config : Option StepperConfig
  /-- S16 `STP.POWER`. -/
  power : Option Power
  /-- S17 `STP.BUSY`. -/
  busy : Bool
  /-- S18 `STP.CANCEL_REQ`. -/
  cancelReq : Bool
  /-- G0 to G6. -/
  ramp : Option RampRegs
  /-- G7 `RG.PHASE`. -/
  rampPhase : RgPhase
  /-- `PROF`. -/
  prof : Memory
  /-- `PROF_LEN`. -/
  profLen : Option Count
  /-- `SQ.INDEX`. -/
  sqIndex : Count
  /-- `SQ.PHASE`. -/
  sqPhase : SqPhase
  /-- The response port (R39). -/
  response : Option Response
  /-- The unit's trace, oldest event first (R40). -/
  trace : List Event
  /-- The rest of the command in progress (log 4). -/
  todo : List StpOp
  /-- The Pin Controller's next answers to this unit: free input (R63, log 5). -/
  answers : List Bool
  /-- How many free values this unit has drawn (log 2, log 5). -/
  tick : Nat
  deriving DecidableEq, Repr

/-- The HX711 unit. -/
structure Hx711 where
  /-- H0 `HX.CFGD`. -/
  cfgd : Bool
  /-- H1 to H5. -/
  config : Option HxConfig
  /-- H6 `HX.EDGE_EN`. -/
  edgeEn : Bool
  /-- H16 `HX.READING`. -/
  reading : Bool
  /-- H17 `HX.PHASE`. -/
  phase : HxPhase
  /-- H18 `HX.ACC`. -/
  acc : Option (BitVec 24)
  /-- H19 `HX.BITCNT`. -/
  bitCnt : Option (BitVec 5)
  /-- H20 `HX.PULSECNT`. -/
  pulseCnt : Option (BitVec 2)
  /-- H21 `HX.SUM`, two's complement. -/
  sum : Option (BitVec 64)
  /-- H22 `HX.OBS`. -/
  obs : Option Count
  /-- H23 `HX.BUSY`. -/
  busy : Bool
  /-- The response port (R39). -/
  response : Option Response
  /-- The result port: the last value emitted (R39, log 21). -/
  resultPort : Option Reading
  /-- The unit's trace, oldest event first (R40). -/
  trace : List Event
  /-- The rest of the host command in progress (log 4). -/
  todo : List HxOp
  /-- The rest of the edge-triggered cycle in progress (log 4). -/
  edgeTodo : List HxOp
  /-- The next levels of the data line: free input (R65, log 5). -/
  levels : List Level
  /-- The Pin Controller's next answers to this unit: free input (R63, log 5). -/
  answers : List Bool
  /-- How many free values this unit has drawn (log 2, log 5). -/
  tick : Nat
  deriving DecidableEq, Repr

/-- The whole machine and what a run is given. -/
structure State where
  /-- The parameters of R8. -/
  params : Params
  stepper : Stepper
  hx : Hx711
  /-- The rest of the host's program (R21, R80). -/
  program : List HostCommand
  /-- The answer of the host's command port to a word that names no unit (R89, log 9). -/
  hostResponse : Option Response
  /-- The trace of the host's command port. -/
  hostTrace : List Event
  /-- The order in which the traces were merged (R60, R74), oldest first. -/
  order : List Source
  /-- The pins that users of the Pin Controller outside the block hold, without repeats (spec/20_memory.md R67, log 15). -/
  outsidePins : List Pin
  /-- The next turns of the interleaving: free input (R74, log 3). -/
  turns : List Turn
  /-- The actions the moving unit may still take in this turn (log 3). -/
  quantum : Nat
  /-- How many free turns have been drawn (log 3). -/
  tick : Nat
  deriving DecidableEq, Repr

/-- The registers whose "unset" a read can meet (R22). -/
inductive RegName
  | stpConfig | stpPower | profLen | profEntry | hxConfig | hxAcc | hxBitCnt | hxPulseCnt | hxSum | hxObs
  deriving DecidableEq, Repr

/-- Why a step can end in a fault. -/
inductive Fault
  /-- A read of an unset register, raised by every read of one (R22, U9). Safe: the spec asks for this fault. -/
  | unsetRegister (r : RegName)
  /-- An entry number outside the profile memory, raised by its writes and reads (R72). Safe: no such entry exists. -/
  | profileAddress
  deriving DecidableEq, Repr

/-- Why a step can be refused. -/
inductive Refusal
  /-- The instruction has no meaning yet, raised by `exec`'s own arms only. Safe. No arm of this model says it. -/
  | notModelled (mnemonic : String)
  /-- A configuration whose pins overlap, within it, with the other unit's or with those held outside the block, raised by
  `STP_CONFIG` and `HX_CONFIG` (R67, U2). Safe: the spec asks for this refusal. -/
  | pinOverlap
  /-- An argument record that is not of its word's layout, raised where the host presents one (R83, R91). Safe: no such
  presentation exists. -/
  | malformedRecord
  /-- An agent outside the block writes or configures a pin that a unit uses, raised by such a turn (R67,
  spec/70_reset_and_hazards.md R256, U1, U3). Safe: the spec asks for this refusal. -/
  | outsideWriter
  deriving DecidableEq, Repr

/-- What a step or a meaning answers. -/
abbrev Outcome := Host.Outcome State Fault Refusal

/-- The STEPPER unit at power-on (R251). -/
def Stepper.reset : Stepper where
  cfgd := false
  config := none
  power := none
  busy := false
  cancelReq := false
  ramp := none
  rampPhase := .idle
  prof := []
  profLen := none
  sqIndex := 0
  sqPhase := .idle
  response := none
  trace := []
  todo := []
  answers := []
  tick := 0

/-- The HX711 unit at power-on (R251). -/
def Hx711.reset : Hx711 where
  cfgd := false
  config := none
  edgeEn := false
  reading := false
  phase := .idle
  acc := none
  bitCnt := none
  pulseCnt := none
  sum := none
  obs := none
  busy := false
  response := none
  resultPort := none
  trace := []
  todo := []
  edgeTodo := []
  levels := []
  answers := []
  tick := 0

/-- The machine at power-on (R250, R251): no command presented, no event performed. -/
def State.reset : State where
  params := Params.reference
  stepper := Stepper.reset
  hx := Hx711.reset
  program := []
  hostResponse := none
  hostTrace := []
  order := []
  outsidePins := []
  turns := []
  quantum := 0
  tick := 0

end Sys2Proof.Machine
end

