-- ==== Sys2Proof/Machine/Real.lean ====
section
/-! DEFINITION. The real operators of spec/00_scope.md R11 in `NUMERIC` = binary64: each returns the exact result rounded
once, to nearest with ties to even (R8, D5). A finite magnitude is held as a whole number of units of 2^-1074, the least
positive binary64. The operators are irreducible, so that no proof about the machine computes with them by accident. -/

namespace Sys2Proof.Machine

/-- A binary64 taken apart. -/
inductive RealVal
  | nan
  | inf (neg : Bool)
  /-- The value is `mag` units of 2^-1074, negative where `neg`. -/
  | fin (neg : Bool) (mag : Nat)
  deriving DecidableEq, Repr

/-- How many units of 2^-1074 make 1. -/
def realOne : Nat := 2 ^ 1074

/-- The exponent field, bits 62..52. -/
def realExponent (x : F64) : Nat := (x.extractLsb' 52 11).toNat

/-- The fraction field, bits 51..0. -/
def realFraction (x : F64) : Nat := (x.extractLsb' 0 52).toNat

/-- The value of a bit pattern. -/
def realUnpack (x : F64) : RealVal :=
  if realExponent x = 2047 then
    if realFraction x = 0 then .inf x.msb else .nan
  else if realExponent x = 0 then .fin x.msb (realFraction x)
  else .fin x.msb ((2 ^ 52 + realFraction x) * 2 ^ (realExponent x - 1))

/-- The pattern of a NaN result. Its payload is PRESUMED, the usual one of IEEE 754 (log 16); no rule of the spec produces
a NaN (R132). -/
def realNan : F64 := 0x7FF8000000000000#64

/-- A pattern from its sign and its other 63 bits. -/
def realPack (neg : Bool) (bits : Nat) : F64 :=
  BitVec.ofNat 64 ((if neg then 2 ^ 63 else 0) + bits)

/-- Plus or minus infinity. -/
def realInf (neg : Bool) : F64 := realPack neg (2047 * 2 ^ 52)

/-- How far a magnitude of `q` units must be shifted down to fit 53 bits. -/
def realShift (q : Nat) : Nat := if q < 2 ^ 53 then 0 else Nat.log2 q - 52

/-- The whole number nearest to `num / d`, the even one of two as near. -/
def nearestEven (num d : Nat) : Nat :=
  let q := num / d
  let r := num % d
  if d < 2 * r ∨ (2 * r = d ∧ q % 2 = 1) then q + 1 else q

/-- The exact magnitude `num / den` units of 2^-1074, rounded once to binary64 (R11); past the largest finite value it
is infinity. -/
@[irreducible] def realRound (neg : Bool) (num den : Nat) : F64 :=
  let e := realShift (num / den)
  let bits := 2 ^ 52 * e + nearestEven num (den * 2 ^ e)
  if 2047 * 2 ^ 52 ≤ bits then realInf neg else realPack neg bits

/-- An unsigned integer converted to `NUMERIC` (R11: exact, every integer here has fewer than 53 bits). -/
def realOfNat (n : Nat) : F64 := realRound false (realOne * n) 1

/-- `⊕` of R11. -/
@[irreducible] def realAdd (x y : F64) : F64 :=
  match realUnpack x, realUnpack y with
  | .nan, _ => realNan
  | _, .nan => realNan
  | .inf a, .inf b => if a = b then realInf a else realNan
  | .inf a, .fin _ _ => realInf a
  | .fin _ _, .inf b => realInf b
  | .fin a m, .fin b n =>
    if a = b then realRound a (m + n) 1
    else if m = n then realPack false 0
    else if n < m then realRound a (m - n) 1
    else realRound b (n - m) 1

/-- `⊖` of R11: the sum with the sign bit of the second operand turned over. No rule uses it. -/
def realSub (x y : F64) : F64 := realAdd x (y ^^^ 0x8000000000000000#64)

/-- `⊗` of R11. -/
@[irreducible] def realMul (x y : F64) : F64 :=
  match realUnpack x, realUnpack y with
  | .nan, _ => realNan
  | _, .nan => realNan
  | .inf a, .inf b => realInf (a ^^ b)
  | .inf a, .fin b n => if n = 0 then realNan else realInf (a ^^ b)
  | .fin a m, .inf b => if m = 0 then realNan else realInf (a ^^ b)
  | .fin a m, .fin b n => realRound (a ^^ b) (m * n) realOne

/-- `⊘` of R11. No rule divides by zero (R132); IEEE 754 gives that case its infinity or NaN. -/
@[irreducible] def realDiv (x y : F64) : F64 :=
  match realUnpack x, realUnpack y with
  | .nan, _ => realNan
  | _, .nan => realNan
  | .inf _, .inf _ => realNan
  | .inf a, .fin b _ => realInf (a ^^ b)
  | .fin a _, .inf b => realPack (a ^^ b) 0
  | .fin a m, .fin b n =>
    if n = 0 then (if m = 0 then realNan else realInf (a ^^ b))
    else realRound (a ^^ b) (realOne * m) n

/-- The value in units of 2^-1074, infinities beyond every finite value; none for a NaN. -/
def realKey (x : F64) : Option Int :=
  match realUnpack x with
  | .nan => none
  | .inf neg => some (if neg then -(2 ^ 2099) else 2 ^ 2099)
  | .fin neg m => some (if neg then -(m : Int) else m)

/-- The exact comparison `<` of R11; no comparison with a NaN is true. -/
def realLt (x y : F64) : Bool :=
  match realKey x, realKey y with
  | some a, some b => decide (a < b)
  | _, _ => false

/-- The exact comparison `<=` of R11; no comparison with a NaN is true. -/
def realLe (x y : F64) : Bool :=
  match realKey x, realKey y with
  | some a, some b => decide (a ≤ b)
  | _, _ => false

/-- Neither an infinity nor a NaN. -/
def realFinite (x : F64) : Bool := realExponent x != 2047

/-- Finite and greater than 0: what the checks of R103, R122 and R156 ask of a speed or an acceleration. -/
def realPositive (x : F64) : Bool := realFinite x && realLt 0#64 x

/-- `RoundToBinary64(sum / n)` of spec/43_hx711_decoder.md R192: the exact rational rounded once. A mean of exactly 0 is
+0, where R192's "nearest value" leaves the sign of the zero open (log 25). -/
def realMean (sum : BitVec 64) (n : Count) : F64 :=
  realRound (decide (sum.toInt < 0)) (realOne * sum.toInt.natAbs) n.toNat

end Sys2Proof.Machine
end

