-- ==== Sys2Proof/Machine/Operands.lean ====
section
/-! DEFINITION. What the rules compute from operands and parameters, before any state: the legal ranges of the
parameters (spec/00_scope.md R8), the encoders (spec/30_encoding.md R85, R86), the checks of the commands' arguments, the
pin sets, and the codes of the enumerations. -/

namespace Sys2Proof.Machine

/-- A time of R8: finite and at least 0 seconds. -/
def timeLegal (t : F64) : Bool := realFinite t && realLe 0#64 t

/-- The binary64 nearest to 0.005, the lower end of `T_SETTLE`'s range. -/
def settleMin : F64 := 0x3F747AE147AE147B#64

/-- The binary64 nearest to 0.010, the upper end of `T_SETTLE`'s range. -/
def settleMax : F64 := 0x3F847AE147AE147B#64

/-- The ranges R8 gives the OPEN parameters. -/
def paramsLegal (p : Params) : Bool :=
  realLe settleMin p.tSettle && realLe p.tSettle settleMax && timeLegal p.tStepHigh && timeLegal p.tHxHigh
    && timeLegal p.tHxLow && timeLegal p.tPoll && decide (1 ≤ p.profileDepth)

/-- `Keys(model)` of spec/40_stepper_config.md R100. -/
def msKeys : Model → List Count
  | .a4988 => [1, 2, 4, 8, 16]
  | .drv8825 => [1, 2, 4, 8, 16, 32]

/-- The pattern tables of R85, each entry `b2 b1 b0`. -/
def msTable : Model → List (Count × BitVec 3)
  | .a4988 => [(1, 0b000), (2, 0b001), (4, 0b010), (8, 0b011), (16, 0b111)]
  | .drv8825 => [(1, 0b000), (2, 0b001), (4, 0b010), (8, 0b011), (16, 0b100), (32, 0b101)]

/-- `MsEncode(model, d)` of R100; none where it fails with `InvalidConfiguration`. -/
def msEncode (m : Model) (d : Count) : Option (BitVec 3) :=
  (msTable m).lookup d

/-- The level `b_i` of a pattern (R13, R85). -/
def patternBit (p : BitVec 3) (i : Nat) : Level := p.getLsbD i

/-- `ExtraPulses(channel, gain)` of spec/43_hx711_decoder.md R181; none where it fails with `InvalidConfiguration`. -/
def extraPulses (ch : Channel) (gain : BitVec 8) : Option (BitVec 2) :=
  match ch with
  | .a => if gain = 128 then some 1 else if gain = 64 then some 3 else none
  | .b => if gain = 32 then some 2 else none

/-- `SignExtend24` of R188: the bits above bit 23 are ORed in when bit 23 is set. -/
def signExtend24 (a : BitVec 24) : Reading :=
  let v := a.setWidth 32
  if a &&& 0x800000#24 ≠ 0#24 then v ||| 0xFF000000#32 else v

/-- `60`, as a `NUMERIC` value. -/
def sixty : F64 := realOfNat 60

/-- The delay at a speed, `60 ⊘ (SPR ⊗ rpm)`: the product is rounded first, the quotient second
(spec/41_ramp_generator.md R121). -/
def delayAt (spr : Count) (rpm : F64) : F64 :=
  realDiv sixty (realMul (realOfNat spr.toNat) rpm)

/-- A speed a `RAMP` or `STEP` may be given: finite, greater than 0, with a finite delay (checks P2 and P3 of R122, the
same two of spec/42_motion_sequencer.md R156). -/
def speedLegal (spr : Count) (rpm : F64) : Bool :=
  realPositive rpm && realFinite (delayAt spr rpm)

/-- The checks V1 to V5 of R103. -/
def stpConfigLegal (a : StpConfigArgs) : Bool :=
  a.stepsPerRev != 0 && realPositive a.acceleration && realPositive a.startingRpm
    && realFinite (delayAt a.stepsPerRev a.startingRpm) && (msKeys a.model).contains a.microstep

/-- The checks P1 to P4 of R122. -/
def rampLegal (p : Params) (spr n : Count) (rpm : F64) : Bool :=
  n != 0 && speedLegal spr rpm && decide (2 * (n.toNat / 2) ≤ p.profileDepth)

/-- The checks of R156 for `use_ramp = 0`. -/
def constantLegal (p : Params) (spr n : Count) (rpm : F64) : Bool :=
  n != 0 && speedLegal spr rpm && decide (n.toNat ≤ p.profileDepth)

/-- The checks of R183. -/
def hxConfigLegal (a : HxConfigArgs) : Bool :=
  [32, 64, 128].contains a.gain && (extraPulses a.channel a.gain).isSome

/-- `STP.SLEEP_PIN` as S3 of R23 lays it out: VALID in bit 8, PIN in bits 7..0. R104 stores `{sleep_valid, sleep_pin}`: PIN
holds the argument also where VALID is 0, and is then ignored (R105). -/
def sleepPinReg (valid : Bool) (p : Pin) : BitVec 9 := BitVec.ofBool valid ++ p

/-- `STP.SLEEP_PIN[8]`. -/
def sleepValid (r : BitVec 9) : Bool := r.getLsbD 8

/-- `STP.SLEEP_PIN[7:0]`. -/
def sleepPinOf (r : BitVec 9) : Pin := r.extractLsb' 0 8

/-- The pins of an `STP_CONFIG`, in the order R104 configures them. -/
def argPins (a : StpConfigArgs) : List Pin :=
  [a.dirPin, a.stepPin] ++ (if a.sleepValid then [a.sleepPin] else []) ++ [a.msPin0, a.msPin1, a.msPin2]

/-- The pins a configured STEPPER unit uses (spec/20_memory.md R67). -/
def stepperPins (c : StepperConfig) : List Pin :=
  [c.dirPin, c.stepPin] ++ (if sleepValid c.sleepPin then [sleepPinOf c.sleepPin] else []) ++ [c.msPin0, c.msPin1, c.msPin2]

/-- The pins a configured HX711 unit uses (R67). -/
def hxPins (c : HxConfig) : List Pin := [c.dataPin, c.clockPin]

/-- The pins of an `STP_CONFIG` in progress: those of the configuration it has still to store. -/
def pendingStepperPins (l : List StpOp) : List Pin :=
  l.flatMap fun
    | .store c => stepperPins c
    | .cfgOut _ | .wr _ _ | .wait _ | .setPower _ | .setPhase _ | .storeMicrostep _ _ | .startPulses | .pulse
    | .pulseLow | .hold _ | .respProfile _ | .resp _ _ => []

/-- The pins of an `HX_CONFIG` in progress. -/
def pendingHxPins (l : List HxOp) : List Pin :=
  l.flatMap fun
    | .store c _ => hxPins c
    | .cfgIn _ _ | .cfgOut _ | .register _ | .wr _ _ | .wait _ | .poll _ | .clear _ | .dataClock _ | .sample | .shift _
    | .extraClock _ _ | .countPulse | .deliver _ _ | .resp _ _ => []

/-- The pins the STEPPER unit uses (R67): those of its configuration and of one in progress; none where that takes the
read of a configuration that is unset (spec/10_state.md R22). -/
def stepperHeld (u : Stepper) : Option (List Pin) :=
  if u.cfgd then u.config.map fun c => stepperPins c ++ pendingStepperPins u.todo
  else some (pendingStepperPins u.todo)

/-- The pins the HX711 unit uses (R67), in the same way. -/
def hxHeld (u : Hx711) : Option (List Pin) :=
  if u.cfgd then u.config.map fun c => hxPins c ++ pendingHxPins u.todo else some (pendingHxPins u.todo)

/-- No pin has two roles in a list of roles. -/
def pinsDistinct (ps : List Pin) : Bool := decide ps.Nodup

/-- The two lists share no pin. -/
def pinsDisjoint (ps qs : List Pin) : Bool := ps.all fun p => !qs.contains p

/-- The status code of R220. -/
def statusCode : Status → BitVec 3
  | .ok => 0
  | .invalidConfiguration => 1
  | .hardwareUnavailable => 2
  | .unknownCommand => 3
  | .notConfigured => 4

/-- `STP.POWER`'s bit (R26). -/
def powerCode : Power → BitVec 1
  | .asleep => 0
  | .awake => 1

/-- `RG.PHASE`'s bits (R29). -/
def rgPhaseCode : RgPhase → BitVec 3
  | .idle => 0
  | .accel => 1
  | .cruise => 2
  | .mirror => 3
  | .done => 4

/-- `SQ.PHASE`'s bits (R31). -/
def sqPhaseCode : SqPhase → BitVec 3
  | .idle => 0
  | .build => 1
  | .wake => 2
  | .dir => 3
  | .pulse => 4

/-- `HX.PHASE`'s bits (R35). -/
def hxPhaseCode : HxPhase → BitVec 2
  | .idle => 0
  | .reading => 1

end Sys2Proof.Machine
end

