-- ==== Sys2Proof/Machine/Ops.lean ====
section
/-! DEFINITION. The named operations over the state: reading a register that may be unset, the profile memory, the events
of each unit, the environment's draws, and ending a command with a response or an error. -/

namespace Sys2Proof.Machine

/-- Going on with a next state; a fault or a refusal ends there. -/
def andThen {α β : Type} (o : Host.Outcome α Fault Refusal) (k : α → Host.Outcome β Fault Refusal) :
    Host.Outcome β Fault Refusal :=
  match o with
  | .next a => k a
  | .fault r => .fault r
  | .refused r => .refused r

/-- Reading a register: an unset one faults (spec/10_state.md R22). -/
def readReg {α β : Type} (v : Option α) (r : RegName) (k : α → Host.Outcome β Fault Refusal) :
    Host.Outcome β Fault Refusal :=
  match v with
  | some a => k a
  | none => .fault (.unsetRegister r)

/-! ### The profile memory (spec/20_memory.md R68) -/

/-- `ProfRead(i)`: an unlisted entry is unset. -/
def memRead (m : Memory) (i : Nat) : Option F64 := m.lookup i

/-- `ProfWrite(i, d)`, keeping the entry numbers strictly rising. -/
def memWrite : Memory → Nat → F64 → Memory
  | [], i, d => [(i, d)]
  | (j, e) :: m, i, d =>
    if i < j then (i, d) :: (j, e) :: m
    else if i = j then (i, d) :: m
    else (j, e) :: memWrite m i d

/-- The canonical form: entry numbers strictly rising. An unlisted entry is unset, which no written value equals. -/
def Memory.wf (m : Memory) : Bool := decide (m.Pairwise fun a b => a.1 < b.1)

/-- Writing consecutive entries from `i` on. -/
def memWriteList : Memory → Nat → List F64 → Memory
  | m, _, [] => m
  | m, i, d :: ds => memWriteList (memWrite m i d) (i + 1) ds

/-! ### Writing registers -/

/-- A write of registers of the STEPPER unit. -/
def onStepper (f : Stepper → Stepper) (s : State) : State := { s with stepper := f s.stepper }

/-- A write of registers of the HX711 unit. -/
def onHx (f : Hx711 → Hx711) (s : State) : State := { s with hx := f s.hx }

/-! ### Events of the STEPPER unit -/

/-- One event on the STEPPER unit's trace (R60, R73). -/
def stpLog (e : Event) (s : State) : State :=
  { s with stepper := { s.stepper with trace := s.stepper.trace ++ [e] }, order := s.order ++ [.stepper] }

/-- The rest of the STEPPER unit's command. -/
def stpTodo (l : List StpOp) (s : State) : State :=
  onStepper (fun x => { x with todo := l }) s

/-- The Pin Controller's answer to a configure request of the STEPPER unit (R63): the next listed one, else a free one. -/
def stpAnswer (s : State) : Bool × State :=
  match s.stepper.answers with
  | a :: rest => (a, onStepper (fun x => { x with answers := rest }) s)
  | [] => (Config.freeStepperAnswer s.stepper.tick, onStepper (fun x => { x with tick := x.tick + 1 }) s)

/-- `Resp(s, r)` of the STEPPER unit: the response port is written (R39), BUSY is cleared (R231), and `SQ.PHASE` and
`SQ.INDEX` are 0 after every response (R31). -/
def stpRespond (st : Status) (r : Result) (s : State) : State :=
  stpLog (.resp st r)
    (onStepper (fun x => { x with
        response := some ⟨st, r⟩, busy := false, sqPhase := .idle, sqIndex := 0, todo := [] }) s)

/-- `raise E` in the STEPPER unit (spec/60_exceptions.md R220, R226): what is left of the command is its error response. -/
def stpRaise (st : Status) (s : State) : State := stpTodo [.resp st .none] s

/-- What the working registers of the ramp hold outside their command: free values (R29, U10, log 2). -/
def freeRamp (tick : Nat) : RampRegs where
  n := Config.freeBits 32 0 tick
  half := Config.freeBits 31 1 tick
  targetDelay := Config.freeBits 64 2 tick
  delay := Config.freeBits 64 3 tick
  elapsed := Config.freeBits 64 4 tick
  curRpm := Config.freeBits 64 5 tick
  count := Config.freeBits 31 6 tick

/-- The caller has taken the ramp's result: `RG.PHASE` returns to IDLE and the working registers are unspecified
(spec/41_ramp_generator.md R126). -/
def releaseRamp (s : State) : State :=
  onStepper (fun x => { x with
      ramp := some (freeRamp x.tick), rampPhase := .idle, tick := x.tick + 1 }) s

/-- After its command the profile memory holds unspecified values (R30): every written entry and `PROF_LEN` are free. -/
def releaseProfile (s : State) : State :=
  onStepper (fun x => { x with
      prof := x.prof.map fun e => (e.1, Config.freeBits 64 (16 + e.1) x.tick)
      profLen := some (Config.freeBits 32 7 x.tick)
      tick := x.tick + 1 }) s

/-! ### Events of the HX711 unit -/

/-- One event on the HX711 unit's trace (R60, R73). -/
def hxLog (e : Event) (s : State) : State :=
  { s with hx := { s.hx with trace := s.hx.trace ++ [e] }, order := s.order ++ [.hx711] }

/-- The rest of the HX711 unit's host command. -/
def hxTodo (l : List HxOp) (s : State) : State := onHx (fun x => { x with todo := l }) s

/-- The rest of the edge-triggered cycle. -/
def hxEdgeTodo (l : List HxOp) (s : State) : State := onHx (fun x => { x with edgeTodo := l }) s

/-- The Pin Controller's answer to a configure request of the HX711 unit (R63). -/
def hxAnswer (s : State) : Bool × State :=
  match s.hx.answers with
  | a :: rest => (a, onHx (fun x => { x with answers := rest }) s)
  | [] => (Config.freeHxAnswer s.hx.tick, onHx (fun x => { x with tick := x.tick + 1 }) s)

/-- The level of the data line at this read (R65): the next listed one, else a free one. -/
def hxLevel (s : State) : Level × State :=
  match s.hx.levels with
  | l :: rest => (l, onHx (fun x => { x with levels := rest }) s)
  | [] => (Config.freeLevel s.hx.tick, onHx (fun x => { x with tick := x.tick + 1 }) s)

/-- `Resp(s, r)` of the HX711 unit (R39, R231). -/
def hxRespond (st : Status) (r : Result) (s : State) : State :=
  hxLog (.resp st r) (onHx (fun x => { x with response := some ⟨st, r⟩, busy := false }) s)

/-- `Emit(v)` on the HX711 unit's result port (R39, spec/43_hx711_decoder.md R195). -/
def hxEmit (v : Reading) (s : State) : State :=
  hxLog (.emit v) (onHx (fun x => { x with resultPort := some v }) s)

/-- `raise E` in the HX711 unit (R220, R226): what is left of the host command is its error response. -/
def hxRaise (st : Status) (s : State) : State := hxTodo [.resp st .none] s

/-- Between cycles `HX.ACC`, `HX.BITCNT` and `HX.PULSECNT` are unspecified (R36, U10): free values (log 2). -/
def releaseCycle (s : State) : State :=
  onHx (fun x => { x with
      acc := some (Config.freeBits 24 8 x.tick)
      bitCnt := some (Config.freeBits 5 9 x.tick)
      pulseCnt := some (Config.freeBits 2 10 x.tick)
      tick := x.tick + 1 }) s

/-- Outside `HX_GET_READING`, `HX.SUM` and `HX.OBS` are unspecified (R37, U10): free values (log 2). -/
def releaseSum (s : State) : State :=
  onHx (fun x => { x with
      sum := some (Config.freeBits 64 11 x.tick)
      obs := some (Config.freeBits 32 12 x.tick)
      tick := x.tick + 1 }) s

/-! ### Users of the Pin Controller outside the block (spec/20_memory.md R67, log 15) -/

/-- A user outside the block holds this pin from now on. -/
def outsideHold (p : Pin) (s : State) : State := { s with outsidePins := s.outsidePins.insert p }

/-- No user outside the block holds this pin any more. -/
def outsideRelease (p : Pin) (s : State) : State := { s with outsidePins := s.outsidePins.erase p }

/-! ### The host's command port -/

/-- The host's command port answers a word that names no unit (spec/30_encoding.md R89). -/
def hostUnknown (s : State) : State :=
  { s with
    hostResponse := some ⟨.unknownCommand, .none⟩
    hostTrace := s.hostTrace ++ [.resp .unknownCommand .none]
    order := s.order ++ [.hostPort] }

end Sys2Proof.Machine
end

