-- ==== Sys2Proof/Machine/Flags.lean ====
section
/-! DEFINITION. The flags (spec/10_state.md R43) as the rules test and write them: when a unit accepts a command
(spec/60_exceptions.md R231), whether a unit is configured (R222), whether pins overlap (spec/20_memory.md R67), the
indivisible ready gate (spec/43_hx711_decoder.md R186), and when a run has ended (R242). -/

namespace Sys2Proof.Machine

/-- R231, STEPPER unit: any command when `STP.BUSY = 0`, only `STP_CANCEL` when it is 1; HX711 unit: only when
`HX.BUSY = 0`, and `HX_CONFIG` only when `HX.READING = 0` too. `HX_EDGE` on the event port is always taken or lost at once
(R229). With `HAS_CANCEL = false`, `0x17` is a reserved word like any other (spec/42_motion_sequencer.md R160). -/
def canAccept (i : Instr) (s : State) : Bool :=
  match i with
  | .stpConfig _ | .msEncode _ _ | .stpSetMicrostep _ | .ramp _ _ | .wake | .sleep | .step _ _ _ _ => !s.stepper.busy
  | .stpCancel => s.params.hasCancel || !s.stepper.busy
  | .hxConfig _ => !s.hx.busy && !s.hx.reading
  | .hxReadCycle | .hxGetReading _ => !s.hx.busy
  | .hxEdge => true

/-- R222: a command that needs `STP.CFGD = 1` raises `NotConfigured` without it, before any other check. -/
def stpConfigured (s : State) (k : StepperConfig → Outcome) : Outcome :=
  if s.stepper.cfgd then readReg s.stepper.config .stpConfig k
  else .next (stpRaise .notConfigured s)

/-- R222: a command that needs `HX.CFGD = 1` raises `NotConfigured` without it, before any other check. -/
def hxConfigured (s : State) (k : Outcome) : Outcome :=
  if s.hx.cfgd then k else .next (hxRaise .notConfigured s)

/-- R67: pins that meet none the STEPPER unit uses go on; others are refused. -/
def clearOfStepper (ps : List Pin) (refusal : Refusal) (s : State) (k : Outcome) : Outcome :=
  readReg (stepperHeld s.stepper) .stpConfig fun held => if pinsDisjoint ps held then k else .refused refusal

/-- R67: pins that meet none the HX711 unit uses go on; others are refused. -/
def clearOfHx (ps : List Pin) (refusal : Refusal) (s : State) (k : Outcome) : Outcome :=
  readReg (hxHeld s.hx) .hxConfig fun held => if pinsDisjoint ps held then k else .refused refusal

/-- The pins of a configuration have one role each, and no user outside the block holds one (R67). -/
def pinsFree (ps : List Pin) (s : State) : Bool := pinsDistinct ps && pinsDisjoint ps s.outsidePins

/-- `TryEnter` of R186, one indivisible step (R76): while a cycle runs it is false with no event; else the data line is
read, and a 0 sets `HX.READING` and `HX.PHASE`. -/
def tryEnter (s : State) : Host.Outcome (Bool × State) Fault Refusal :=
  if s.hx.reading then .next (false, s)
  else
    readReg s.hx.config .hxConfig fun c =>
      match hxLevel s with
      | (true, s') => .next (false, hxLog (.rd c.dataPin true) s')
      | (false, s') =>
        .next (true, hxLog (.rd c.dataPin false) (onHx (fun x => { x with reading := true, phase := .reading }) s'))

/-- A wait whose time is a parameter of R8: none when the parameter is 0 (R9). -/
def waitFor (t : F64) : Bool := realLt 0#64 t

/-- R242: the program is at its end, neither unit is busy and no cycle runs. A unit is busy from a command's acceptance
to its response, so every accepted command then has its response. -/
def runEnded (s : State) : Bool :=
  s.program.isEmpty && !s.stepper.busy && !s.hx.busy && !s.hx.reading

end Sys2Proof.Machine
end

