-- ==== Sys2Proof/Machine/Profile.lean ====
section
/-! DEFINITION. The Ramp Profile Generator (spec/41_ramp_generator.md) and the profile of a `STEP`
(spec/42_motion_sequencer.md R156). -/

namespace Sys2Proof.Machine

/-- The initialisation of R122, after its checks. -/
def rampInit (c : StepperConfig) (n : Count) (rpm : F64) : RampRegs where
  n := n
  half := (n >>> 1).setWidth 31
  targetDelay := delayAt c.stepsPerRev rpm
  delay := delayAt c.stepsPerRev c.startingRpm
  elapsed := 0
  curRpm := c.startingRpm
  count := 0

/-- The loop test of R123. -/
def rampGoesOn (rpm : F64) (r : RampRegs) : Bool :=
  decide (r.count.toNat < r.half.toNat) && realLt r.curRpm rpm

/-- The register writes of one pass of R123, in its order; the pass appends `RG.DELAY` first. -/
def rampPass (c : StepperConfig) (r : RampRegs) : RampRegs :=
  let elapsed := realAdd r.elapsed r.delay
  let curRpm := realAdd c.startingRpm (realMul elapsed c.acceleration)
  { r with elapsed := elapsed, curRpm := curRpm, delay := delayAt c.stepsPerRev curRpm, count := r.count + 1 }

/-- The acceleration phase of R123: the appended entries and the registers after the loop, which passes at most `RG.HALF`
times. -/
def rampAccel (c : StepperConfig) (rpm : F64) : Nat → RampRegs → List F64 × RampRegs
  | 0, r => ([], r)
  | k + 1, r =>
    if rampGoesOn rpm r then
      let t := rampAccel c rpm k (rampPass c r)
      (r.delay :: t.1, t.2)
    else ([], r)

/-- The cruise phase of R124: the first half padded to `RG.HALF` entries. -/
def rampCruise (h : List F64) (r : RampRegs) : List F64 :=
  h ++ List.replicate (r.half.toNat - r.count.toNat) r.targetDelay

/-- The mirror phase of R125. -/
def rampMirror (h : List F64) (r : RampRegs) : List F64 :=
  if 1 < r.n.toNat then h ++ h.reverse else h

/-- `RampProfile(n, target_rpm)` of R120 after its checks: the profile and the working registers it leaves. -/
def rampProfile (c : StepperConfig) (n : Count) (rpm : F64) : List F64 × RampRegs :=
  let r := rampInit c n rpm
  let a := rampAccel c rpm r.half.toNat r
  (rampMirror (rampCruise a.1 a.2) a.2, a.2)

/-- The constant profile of R156, `use_ramp = 0`. -/
def constantProfile (c : StepperConfig) (n : Count) (rpm : F64) : List F64 :=
  List.replicate n.toNat (delayAt c.stepsPerRev rpm)

/-- A profile put into the profile memory (R125, R156). The checks P4 of R122 and of R156 keep it within
`PROFILE_DEPTH`; past it no entry exists (spec/20_memory.md R72). -/
def storeProfile (p : List F64) (s : State) (k : State → Outcome) : Outcome :=
  if p.length ≤ s.params.profileDepth then
    k (onStepper (fun x => { x with
          prof := memWriteList x.prof 0 p, profLen := some (BitVec.ofNat 32 p.length) }) s)
  else .fault .profileAddress

/-- `ProfRead(i)` (R68): past `PROFILE_DEPTH` no entry exists, an entry nothing has written is unset. -/
def readProfile (i : Nat) (s : State) (k : F64 → Outcome) : Outcome :=
  if i < s.params.profileDepth then readReg (memRead s.stepper.prof i) .profEntry k
  else .fault .profileAddress

/-- `RampProfile` run in the machine (R134: one transition): the profile is stored, and the working registers hold the
algorithm's last values with `RG.PHASE` DONE until the caller has taken the result. -/
def buildRamp (c : StepperConfig) (n : Count) (rpm : F64) (s : State) (k : List F64 → State → Outcome) : Outcome :=
  let t := rampProfile c n rpm
  storeProfile t.1 (onStepper (fun x => { x with ramp := some t.2, rampPhase := .done }) s) (k t.1)

end Sys2Proof.Machine
end

