-- ==== Sys2Proof/Machine/Sequencer.lean ====
section
/-! DEFINITION. How the STEPPER unit runs a command: one action after another, each a line of the command's rule
(spec/40_stepper_config.md, spec/42_motion_sequencer.md), at most one event an action (spec/20_memory.md R73). -/

namespace Sys2Proof.Machine

/-- A parameter's wait, where R9 performs one. -/
def stpWait (t : F64) : List StpOp := if waitFor t then [.wait t] else []

/-- `WakeBody` of R151. -/
def wakeBody (p : Params) (c : StepperConfig) : List StpOp :=
  (if sleepValid c.sleepPin then [.wr (sleepPinOf c.sleepPin) true, .wait p.tSettle] else []) ++ [.setPower .awake]

/-- `SLEEP`'s body, R153. -/
def sleepBody (c : StepperConfig) : List StpOp :=
  (if sleepValid c.sleepPin then [.wr (sleepPinOf c.sleepPin) false] else []) ++ [.setPower .asleep]

/-- The three writes of the select pins (R104, R109): tuple element `b_i` drives select pin `i` (R13). -/
def selectWrites (p0 p1 p2 : Pin) (pattern : BitVec 3) : List StpOp :=
  [.wr p0 (patternBit pattern 0), .wr p1 (patternBit pattern 1), .wr p2 (patternBit pattern 2)]

/-- The registers R104 stores. -/
def configOf (a : StpConfigArgs) (pattern : BitVec 3) : StepperConfig where
  dirPin := a.dirPin
  stepPin := a.stepPin
  sleepPin := sleepPinReg a.sleepValid a.sleepPin
  msPin0 := a.msPin0
  msPin1 := a.msPin1
  msPin2 := a.msPin2
  stepsPerRev := a.stepsPerRev
  acceleration := a.acceleration
  startingRpm := a.startingRpm
  model := a.model
  microstep := a.microstep.setWidth 6
  msPattern := pattern

/-- `STP_CONFIG`'s actions after its checks (R104). -/
def configBody (a : StpConfigArgs) (pattern : BitVec 3) : List StpOp :=
  (argPins a).map .cfgOut ++ selectWrites a.msPin0 a.msPin1 a.msPin2 pattern
    ++ [.store (configOf a pattern), .resp .ok .none]

/-- `STP_SET_MICROSTEP`'s actions after its checks (R109). -/
def setMicrostepBody (c : StepperConfig) (d : Count) (pattern : BitVec 3) : List StpOp :=
  [.cfgOut c.msPin0, .cfgOut c.msPin1, .cfgOut c.msPin2] ++ selectWrites c.msPin0 c.msPin1 c.msPin2 pattern
    ++ [.storeMicrostep (d.setWidth 6) pattern, .resp .ok .none]

/-- `STEP`'s actions after its profile is built (R157). -/
def stepBody (p : Params) (c : StepperConfig) (power : Power) (direction : Bool) : List StpOp :=
  [.setPhase .wake] ++ (if power = .asleep then wakeBody p c else [])
    ++ [.setPhase .dir, .wr c.dirPin direction, .startPulses, .pulse]

/-- The rest of one pass of R157's loop after `PinWrite(STEP_PIN, 1)`, then the loop again. -/
def pulseRest (p : Params) (i : Nat) : List StpOp :=
  stpWait p.tStepHigh ++ [.pulseLow, .hold i, .pulse]

/-- The end of `STEP` (R157): the response carries the pulses emitted, and the profile is not persisted (R30). -/
def finishStep (s : State) : State :=
  stpRespond .ok (.pulses s.stepper.sqIndex) (releaseProfile s)

/-- The configure request R63: on `ok` the command goes on, on `fail` it ends with `HardwareUnavailable` (R225). -/
def stpConfigure (p : Pin) (rest : List StpOp) (s : State) : State :=
  match stpAnswer s with
  | (true, s') => stpTodo rest (stpLog (.cfgOut p true) s')
  | (false, s') => stpRaise .hardwareUnavailable (stpLog (.cfgOut p false) s')

/-- The register writes of R104. -/
def storeConfig (c : StepperConfig) (s : State) : State :=
  onStepper (fun x => { x with
    config := some c, power := some .asleep, cancelReq := false, sqIndex := 0, sqPhase := .idle, cfgd := true }) s

/-- The head of R157's loop: past the profile the `STEP` ends; a cancellation request is honoured here, between pulses
only; else the step pin goes high next. The check is an action of its own (log 12). -/
def pulseHead (s : State) : Outcome :=
  readReg s.stepper.profLen .profLen fun len =>
    if s.stepper.sqIndex.toNat < len.toNat then
      if s.params.hasCancel && s.stepper.cancelReq then
        .next (finishStep (onStepper (fun x => { x with cancelReq := false }) s))
      else
        readReg s.stepper.config .stpConfig fun c =>
          .next (stpTodo (.wr c.stepPin true :: pulseRest s.params s.stepper.sqIndex.toNat) s)
    else .next (finishStep s)

/-- One action of the STEPPER unit, `rest` being what follows it. -/
def stpAct (op : StpOp) (rest : List StpOp) (s : State) : Outcome :=
  match op with
  | .cfgOut p => .next (stpConfigure p rest s)
  | .wr p l => .next (stpTodo rest (stpLog (.wr p l) s))
  | .wait t => .next (stpTodo rest (stpLog (.wait t) s))
  | .setPower w => .next (stpTodo rest (onStepper (fun x => { x with power := some w }) s))
  | .setPhase ph => .next (stpTodo rest (onStepper (fun x => { x with sqPhase := ph }) s))
  | .store c => .next (stpTodo rest (storeConfig c s))
  | .storeMicrostep d pattern =>
    readReg s.stepper.config .stpConfig fun c =>
      .next (stpTodo rest
        (onStepper (fun x => { x with config := some { c with microstep := d, msPattern := pattern } }) s))
  | .startPulses => .next (stpTodo rest (onStepper (fun x => { x with sqPhase := .pulse, sqIndex := 0 }) s))
  | .pulse => pulseHead s
  | .pulseLow =>
    readReg s.stepper.config .stpConfig fun c =>
      .next (stpTodo rest (stpLog (.wr c.stepPin false)
        (onStepper (fun x => { x with sqIndex := x.sqIndex + 1 }) s)))
  | .hold i => readProfile i s fun d => .next (stpTodo rest (stpLog (.wait d) s))
  | .respProfile p => .next (stpRespond .ok (.profile p) (releaseProfile (releaseRamp s)))
  | .resp st r => .next (stpRespond st r s)

/-- The STEPPER unit goes on for at most `k` actions; with nothing to do it takes no step. -/
def runStepper : Nat → State → Outcome
  | 0, s => .next s
  | k + 1, s =>
    match s.stepper.todo with
    | [] => .next s
    | op :: rest => andThen (stpAct op rest s) (runStepper k)

/-- The STEPPER unit accepts a command (R231): while busy it does not, and the host waits; on acceptance BUSY is 1, the
command's rule decides what is to be done, and the unit goes on for the quantum of this turn (log 4). -/
def acceptStepper (s : State) (body : State → Outcome) : Outcome :=
  if s.stepper.busy then .next s
  else andThen (body (onStepper (fun x => { x with busy := true }) s)) (runStepper s.quantum)

/-- A reserved word on the STEPPER unit (spec/60_exceptions.md R223). -/
def stpUnknown (s : State) : Outcome :=
  acceptStepper s fun s => .next (stpRaise .unknownCommand s)

end Sys2Proof.Machine
end

