-- ==== Sys2Proof/Machine/Decoder.lean ====
section
/-! DEFINITION. How the HX711 unit runs a host command and an edge-triggered cycle: one action after another, each a line
of the rules of spec/43_hx711_decoder.md, at most one event an action (spec/20_memory.md R73). -/

namespace Sys2Proof.Machine

/-- A parameter's wait, where R9 performs one. -/
def hxWait (t : F64) : List HxOp := if waitFor t then [.wait t] else []

/-- The registers R184 stores. -/
def hxConfigOf (a : HxConfigArgs) (extra : BitVec 2) : HxConfig where
  dataPin := a.dataPin
  clockPin := a.clockPin
  channel := a.channel
  gain := a.gain
  extra := extra

/-- `HX_CONFIG`'s actions after its checks (R184). -/
def hxConfigBody (p : Params) (a : HxConfigArgs) (extra : BitVec 2) : List HxOp :=
  [.cfgIn a.dataPin p.hxDataPull, .cfgOut a.clockPin, .wr a.clockPin false]
    ++ (if a.useEdge then [.register a.dataPin] else []) ++ [.store (hxConfigOf a extra) a.useEdge, .resp .ok .none]

/-- A configure request (R63): on `ok` the command goes on, on `fail` it ends with `HardwareUnavailable` (R225). -/
def hxConfigure (e : Bool → Event) (rest : List HxOp) (s : State) : Host.Outcome (List HxOp × State) Fault Refusal :=
  match hxAnswer s with
  | (true, s') => .next (rest, hxLog (e true) s')
  | (false, s') => .next ([.resp .hardwareUnavailable .none], hxLog (e false) s')

/-- The register writes of R184. -/
def hxStore (c : HxConfig) (useEdge : Bool) (s : State) : State :=
  onHx (fun x => { x with
    config := some c, reading := false, phase := .idle, edgeEn := useEdge, cfgd := true }) s

/-- The head of R187's loop of data clocks: 24 of them, then the sign extension and the extra pulses. -/
def dataClockHead (u : CycleUse) (rest : List HxOp) (s : State) : Host.Outcome (List HxOp × State) Fault Refusal :=
  readReg s.hx.config .hxConfig fun c =>
    readReg s.hx.bitCnt .hxBitCnt fun n =>
      if n.toNat < 24 then
        .next (hxWait s.params.tHxHigh ++ .wr c.clockPin false :: .sample :: .dataClock u :: rest,
          hxLog (.wr c.clockPin true) s)
      else
        readReg s.hx.acc .hxAcc fun a =>
          .next (.extraClock u (signExtend24 a) :: rest, onHx (fun x => { x with pulseCnt := some 0 }) s)

/-- The data read of a data clock, immediately after the low transition, and the low-time wait after it (R187, D19). -/
def sampleBit (rest : List HxOp) (s : State) : Host.Outcome (List HxOp × State) Fault Refusal :=
  readReg s.hx.config .hxConfig fun c =>
    match hxLevel s with
    | (l, s') => .next (hxWait s.params.tHxLow ++ [.shift l] ++ rest, hxLog (.rd c.dataPin l) s')

/-- `HX.ACC <- (HX.ACC << 1) | bit; HX.BITCNT <- HX.BITCNT + 1` (R187). -/
def shiftBit (l : Level) (rest : List HxOp) (s : State) : Host.Outcome (List HxOp × State) Fault Refusal :=
  readReg s.hx.acc .hxAcc fun a =>
    readReg s.hx.bitCnt .hxBitCnt fun n =>
      .next (rest, onHx (fun x => { x with
        acc := some ((a <<< 1) ||| (BitVec.ofBool l).setWidth 24), bitCnt := some (n + 1) }) s)

/-- The head of R187's loop of extra pulses: `HX.EXTRA` of them, then the cycle is over. -/
def extraClockHead (u : CycleUse) (v : Reading) (rest : List HxOp) (s : State) :
    Host.Outcome (List HxOp × State) Fault Refusal :=
  readReg s.hx.config .hxConfig fun c =>
    readReg s.hx.pulseCnt .hxPulseCnt fun n =>
      if n.toNat < c.extra.toNat then
        .next (hxWait s.params.tHxHigh ++ [.wr c.clockPin false] ++ hxWait s.params.tHxLow
                ++ .countPulse :: .extraClock u v :: rest,
          hxLog (.wr c.clockPin true) s)
      else
        .next (.deliver u v :: rest, releaseCycle (onHx (fun x => { x with reading := false, phase := .idle }) s))

/-- One observation of `HX_GET_READING(n)` is complete (R191): the sum and the count go on, and after the last one the
response carries the mean, rounded once (R192). -/
def accumulate (n : Count) (v : Reading) (rest : List HxOp) (s : State) :
    Host.Outcome (List HxOp × State) Fault Refusal :=
  readReg s.hx.sum .hxSum fun sum =>
    readReg s.hx.obs .hxObs fun obs =>
      let sum' := sum + v.signExtend 64
      let obs' := obs + 1
      if obs'.toNat < n.toNat then
        .next (.poll (.average n) :: rest, onHx (fun x => { x with sum := some sum', obs := some obs' }) s)
      else .next ([], hxRespond .ok (.mean (realMean sum' n)) (releaseSum s))

/-- What the caller of a cycle does with its Reading (R189, R191, R195). A response ends its command; an `Emit` ends a
cycle of the edge dispatcher, which then goes on with what it began next (log 23). -/
def deliverReading (u : CycleUse) (v : Reading) (rest : List HxOp) (s : State) :
    Host.Outcome (List HxOp × State) Fault Refusal :=
  match u with
  | .respond => .next ([], hxRespond .ok (.reading v) s)
  | .average n => accumulate n v rest s
  | .emit => .next (rest, hxEmit v s)

/-- One pass of `PollEnter` (R186): it has no timeout. -/
def pollOnce (u : CycleUse) (rest : List HxOp) (s : State) : Host.Outcome (List HxOp × State) Fault Refusal :=
  andThen (tryEnter s) fun t =>
    if t.1 then .next (.clear u :: rest, t.2) else .next (hxWait s.params.tPoll ++ .poll u :: rest, t.2)

/-- One action of the HX711 unit, `rest` being what follows it: the actions to go on with, and the state. -/
def hxAct (op : HxOp) (rest : List HxOp) (s : State) : Host.Outcome (List HxOp × State) Fault Refusal :=
  match op with
  | .cfgIn p pull => hxConfigure (.cfgIn p pull) rest s
  | .cfgOut p => hxConfigure (.cfgOut p) rest s
  | .register p => hxConfigure (.edge p .falling) rest s
  | .wr p l => .next (rest, hxLog (.wr p l) s)
  | .wait t => .next (rest, hxLog (.wait t) s)
  | .store c useEdge => .next (rest, hxStore c useEdge s)
  | .poll u => pollOnce u rest s
  | .clear u => .next (.dataClock u :: rest, onHx (fun x => { x with acc := some 0, bitCnt := some 0 }) s)
  | .dataClock u => dataClockHead u rest s
  | .sample => sampleBit rest s
  | .shift l => shiftBit l rest s
  | .extraClock u v => extraClockHead u v rest s
  | .countPulse =>
    readReg s.hx.pulseCnt .hxPulseCnt fun n => .next (rest, onHx (fun x => { x with pulseCnt := some (n + 1) }) s)
  | .deliver u v => deliverReading u v rest s
  | .resp st r => .next ([], hxRespond st r s)

/-- The HX711 unit goes on with its host command for at most `k` actions. -/
def runHx : Nat → State → Outcome
  | 0, s => .next s
  | k + 1, s =>
    match s.hx.todo with
    | [] => .next s
    | op :: rest => andThen (hxAct op rest s) fun t => runHx k (hxTodo t.1 t.2)

/-- The edge dispatcher goes on with its cycle for at most `k` actions. -/
def runEdge : Nat → State → Outcome
  | 0, s => .next s
  | k + 1, s =>
    match s.hx.edgeTodo with
    | [] => .next s
    | op :: rest => andThen (hxAct op rest s) fun t => runEdge k (hxEdgeTodo t.1 t.2)

/-- The HX711 unit accepts a host command (spec/60_exceptions.md R231): while busy it does not, and the host waits; on
acceptance BUSY is 1, the command's rule decides what is to be done, and the unit goes on for the quantum of this turn
(log 4). -/
def acceptHx (s : State) (body : State → Outcome) : Outcome :=
  if s.hx.busy then .next s
  else andThen (body (onHx (fun x => { x with busy := true }) s)) (runHx s.quantum)

/-- A reserved word on the HX711 unit (R223). It is accepted while an edge-triggered cycle runs too (R231), and that cycle
goes on beside the error (log 26). -/
def hxUnknown (s : State) : Outcome :=
  acceptHx s fun s => .next (hxRaise .unknownCommand s)

end Sys2Proof.Machine
end

