-- ==== Sys2Proof/Machine/LoadCell.lean ====
section
/-! DEFINITION. `HX_CONFIG`, `HX_READ_CYCLE`, `HX_GET_READING` and `HX_EDGE` (spec/43_hx711_decoder.md). -/

namespace Sys2Proof.Machine

/-- `HX_CONFIG` (R182 to R185). It is accepted only while no cycle runs (spec/60_exceptions.md R231). The checks come
first and change nothing when one fails. Then a configuration whose pins overlap is refused (spec/20_memory.md R67, log
14), the earlier configuration is dropped, and R184's actions follow. -/
def execHxConfig (a : HxConfigArgs) (s : State) : Outcome :=
  if s.hx.reading then .next s
  else
    acceptHx s fun s =>
      match hxConfigLegal a, extraPulses a.channel a.gain with
      | true, some extra =>
        if pinsFree [a.dataPin, a.clockPin] s then
          clearOfStepper [a.dataPin, a.clockPin] .pinOverlap s
            (.next (hxTodo (hxConfigBody s.params a extra)
              (onHx (fun x => { x with cfgd := false, edgeEn := false }) s)))
        else .refused .pinOverlap
      | _, _ => .next (hxRaise .invalidConfiguration s)

/-- `HX_READ_CYCLE` (R189, R190): poll, read out, respond with the Reading. -/
def execHxReadCycle (s : State) : Outcome :=
  acceptHx s fun s => hxConfigured s (.next (hxTodo [.poll .respond] s))

/-- `HX_GET_READING` (R191 to R193): `n_obs` cycles, then their mean. An `InvalidConfiguration` or `NotConfigured` raised
while an edge-triggered cycle runs leaves that cycle and `HX.READING` as they are (log 26). -/
def execHxGetReading (n : Count) (s : State) : Outcome :=
  acceptHx s fun s =>
    hxConfigured s
      (if n = 0 then .next (hxRaise .invalidConfiguration s)
       else .next (hxTodo [.poll (.average n)] (onHx (fun x => { x with sum := some 0, obs := some 0 }) s)))

/-- `HX_EDGE` (R194 to R196): nothing unless the unit is configured with edges on; ignored when the gate does not open;
else a cycle whose Reading is emitted. It does not look at `HX.BUSY`. The dispatcher first ends what it has begun,
down to its `Emit`, and the new cycle follows (log 23). -/
def execHxEdge (s : State) : Outcome :=
  if s.hx.cfgd && s.hx.edgeEn then
    andThen (tryEnter s) fun t =>
      if t.1 then runEdge t.2.quantum (hxEdgeTodo (t.2.hx.edgeTodo ++ [.clear .emit]) t.2) else .next t.2
  else .next s

end Sys2Proof.Machine
end

