-- ==== Sys2Proof/Machine/Microstep.lean ====
section
/-! DEFINITION. `STP_CONFIG`, `MS_ENCODE` and `STP_SET_MICROSTEP` (spec/40_stepper_config.md). -/

namespace Sys2Proof.Machine

/-- `STP_CONFIG` (R102 to R105). The checks V1 to V5 come first and change nothing when one fails. Then a configuration
whose pins overlap is refused (spec/20_memory.md R67, log 14), the earlier configuration is dropped, and R104's actions
follow. -/
def execStpConfig (a : StpConfigArgs) (s : State) : Outcome :=
  acceptStepper s fun s =>
    match stpConfigLegal a, msEncode a.model a.microstep with
    | true, some pattern =>
      if pinsFree (argPins a) s then
        clearOfHx (argPins a) .pinOverlap s
          (.next (stpTodo (configBody a pattern) (onStepper (fun x => { x with cfgd := false }) s)))
      else .refused .pinOverlap
    | _, _ => .next (stpRaise .invalidConfiguration s)

/-- `MS_ENCODE` (R106, R107): the encoder's pattern, read from no register. -/
def execMsEncode (m : Model) (d : Count) (s : State) : Outcome :=
  acceptStepper s fun s =>
    match msEncode m d with
    | some pattern => .next (stpTodo [.resp .ok (.pattern pattern)] s)
    | none => .next (stpRaise .invalidConfiguration s)

/-- `STP_SET_MICROSTEP` (R108, R109): the denominator must be a key of the configured model's table. -/
def execStpSetMicrostep (d : Count) (s : State) : Outcome :=
  acceptStepper s fun s =>
    stpConfigured s fun c =>
      match msEncode c.model d with
      | some pattern => .next (stpTodo (setMicrostepBody c d pattern) s)
      | none => .next (stpRaise .invalidConfiguration s)

end Sys2Proof.Machine
end

