-- ==== Sys2Proof/Machine/Motion.lean ====
section
/-! DEFINITION. `WAKE`, `SLEEP`, `STEP` and `STP_CANCEL` (spec/42_motion_sequencer.md). -/

namespace Sys2Proof.Machine

/-- `WAKE` (R151, R152), in either power state. -/
def execWake (s : State) : Outcome :=
  acceptStepper s fun s =>
    stpConfigured s fun c => .next (stpTodo (wakeBody s.params c ++ [.resp .ok .none]) s)

/-- `SLEEP` (R153, R154), in either power state. -/
def execSleep (s : State) : Outcome :=
  acceptStepper s fun s =>
    stpConfigured s fun c => .next (stpTodo (sleepBody c ++ [.resp .ok .none]) s)

/-- `BuildProfile` of R156 and what follows it in R157. The ramp's result is taken at once (spec/41_ramp_generator.md
R126). -/
def startStep (n : Count) (direction : Bool) (rpm : F64) (useRamp : Bool) (c : StepperConfig) (power : Power)
    (s : State) : Outcome :=
  if useRamp then
    if rampLegal s.params c.stepsPerRev n rpm then
      buildRamp c n rpm s fun _ s => .next (stpTodo (stepBody s.params c power direction) (releaseRamp s))
    else .next (stpRaise .invalidConfiguration s)
  else if constantLegal s.params c.stepsPerRev n rpm then
    storeProfile (constantProfile c n rpm) s fun s => .next (stpTodo (stepBody s.params c power direction) s)
  else .next (stpRaise .invalidConfiguration s)

/-- `STEP` (R155 to R158): the cancellation request is cleared at its start (spec/10_state.md R28; log 11), then the
profile is built, and the wake, direction and pulse actions follow. -/
def execStep (n : Count) (direction : Bool) (rpm : F64) (useRamp : Bool) (s : State) : Outcome :=
  acceptStepper s fun s =>
    stpConfigured s fun c =>
      readReg s.stepper.power .stpPower fun power =>
        startStep n direction rpm useRamp c power
          (onStepper (fun x => { x with cancelReq := false, sqPhase := .build }) s)

/-- `STP_CANCEL` (R160, R161): one indivisible step beside a running command; it neither sets nor clears BUSY
(spec/60_exceptions.md R231). So its response comes before that of whatever command runs, of a `STEP` as R232 says and of
any other by the model's choice (log 27). With `HAS_CANCEL = false`, `0x17` is a reserved word (spec/30_encoding.md R89). -/
def execStpCancel (s : State) : Outcome :=
  if s.params.hasCancel then
    .next (stpLog (.resp .ok .none)
      (onStepper (fun x => { x with
          cancelReq := x.cancelReq || x.sqPhase != .idle, response := some ⟨.ok, .none⟩ }) s))
  else stpUnknown s

end Sys2Proof.Machine
end

