-- ==== Sys2Proof/Machine/Ramp.lean ====
section
/-! DEFINITION. `RAMP` (spec/41_ramp_generator.md R127). -/

namespace Sys2Proof.Machine

/-- `RAMP` (R120 to R127): the checks P1 to P4 come first and change nothing when one fails; the profile is computed in
one transition (R134) and is the result. No pin event. -/
def execRamp (n : Count) (rpm : F64) (s : State) : Outcome :=
  acceptStepper s fun s =>
    stpConfigured s fun c =>
      if rampLegal s.params c.stepsPerRev n rpm then
        buildRamp c n rpm s fun p s => .next (stpTodo [.respProfile p] s)
      else .next (stpRaise .invalidConfiguration s)

end Sys2Proof.Machine
end

