-- ==== Sys2Proof/Machine/Dispatch.lean ====
section
/-! DEFINITION. The meaning of each command, one arm a constructor of `Instr`. -/

namespace Sys2Proof.Machine

def exec (i : Instr) (s : State) : Host.Outcome State Fault Refusal :=
  match i with
  | .stpConfig args => Sys2Proof.Machine.execStpConfig args s
  | .msEncode model microstep => Sys2Proof.Machine.execMsEncode model microstep s
  | .stpSetMicrostep microstep => Sys2Proof.Machine.execStpSetMicrostep microstep s
  | .ramp nSteps targetRpm => Sys2Proof.Machine.execRamp nSteps targetRpm s
  | .wake => Sys2Proof.Machine.execWake s
  | .sleep => Sys2Proof.Machine.execSleep s
  | .step nSteps direction rpm useRamp => Sys2Proof.Machine.execStep nSteps direction rpm useRamp s
  | .stpCancel => Sys2Proof.Machine.execStpCancel s
  | .hxConfig args => Sys2Proof.Machine.execHxConfig args s
  | .hxReadCycle => Sys2Proof.Machine.execHxReadCycle s
  | .hxGetReading nObs => Sys2Proof.Machine.execHxGetReading nObs s
  | .hxEdge => Sys2Proof.Machine.execHxEdge s

end Sys2Proof.Machine
end

