-- ==== Sys2Proof/Machine/Fetch.lean ====
section
/-! DEFINITION. Which agent moves next and what it presents (spec/60_exceptions.md R231, R235): what stands here in the
place of an instruction fetch, since commands come from no memory (spec/10_state.md R21, spec/20_memory.md R78). -/

namespace Sys2Proof.Machine

/-- What a turn comes to. -/
inductive Fetched
  /-- A unit accepts this command, or the edge dispatcher presents it. -/
  | run (i : Instr) (s : State)
  /-- Any other move: its outcome. -/
  | act (o : Outcome)
  deriving Repr

/-- The next turn: the next listed one, else a free one (R74, U7, log 3). Its quantum becomes the state's. -/
def drawTurn (s : State) : Move × State :=
  match s.turns with
  | t :: rest => (t.move, { s with turns := rest, quantum := t.quantum })
  | [] =>
    ((Config.freeTurn s.tick).move, { s with quantum := (Config.freeTurn s.tick).quantum, tick := s.tick + 1 })

/-- Whether a reserved word can be accepted, and what its addressee answers (spec/30_encoding.md R89): UNIT 1 is the
STEPPER unit, UNIT 2 the HX711 unit, and the host's command port itself answers for every other UNIT. While the addressee
is busy the host waits (R231). -/
def presentReserved (w : BitVec 8) (taken waiting : State) : Outcome :=
  if unitField w = 1 then (if waiting.stepper.busy then .next waiting else stpUnknown taken)
  else if unitField w = 2 then (if waiting.hx.busy then .next waiting else hxUnknown taken)
  else .next (hostUnknown taken)

/-- Where `HAS_CANCEL` is false the word of `STP_CANCEL` is reserved too (spec/42_motion_sequencer.md R160), and no
record is its own (logs 8 and 18). -/
def cancelReserved (w : BitVec 8) (s : State) : Bool := w == Opcode.stpCancel.word && !s.params.hasCancel

/-- HOST presents the next command of its program. One that cannot be accepted stays where it is (R231, U15). -/
def presentNext (s : State) : Fetched :=
  match s.program with
  | [] => .act (.next s)
  | c :: rest =>
    match decode .command c.word c.args with
    | .instr i => if canAccept i s then .run i { s with program := rest } else .act (.next s)
    | .reserved => .act (presentReserved c.word { s with program := rest } s)
    | .malformed =>
      .act (if cancelReserved c.word s then presentReserved c.word { s with program := rest } s
        else .refused .malformedRecord)

/-- An agent outside the block writes or configures a pin: a run in which a unit uses that pin is refused
(spec/20_memory.md R67, spec/60_exceptions.md R243, spec/70_reset_and_hazards.md R256); any other pin is from then on one
that a user outside the block holds. The block holds no pin state of its own (R61). -/
def outsideWrite (p : Pin) (s : State) : Outcome :=
  clearOfStepper [p] .outsideWriter s (clearOfHx [p] .outsideWriter s (.next (outsideHold p s)))

/-- The move of an agent. An agent with nothing to do takes no step. -/
def moveOf (m : Move) (s : State) : Fetched :=
  match m with
  | .present => presentNext s
  | .cancel => if canAccept .stpCancel s then .run .stpCancel s else .act (.next s)
  | .stepper => .act (runStepper s.quantum s)
  | .hx711 => .act (runHx s.quantum s)
  | .edge => if s.hx.edgeTodo.isEmpty then .run .hxEdge s else .act (runEdge s.quantum s)
  | .outside p => .act (outsideWrite p s)
  | .release p => .act (.next (outsideRelease p s))

/-- The next turn taken. -/
def fetch (s : State) : Fetched := moveOf (drawTurn s).1 (drawTurn s).2

/-- A quantum that is enough for any command of a table word (its operands are 0) to run to its response. -/
def placedQuantum : Nat := 4096

/-- The state in which the very next turn presents this table word with operands of 0 on its own port: a word of the
event port is presented by the edge dispatcher, every other one by the host. -/
def placeWord (s : State) (nbits w : Nat) : State :=
  if nbits = 8 ∧ w < 256 then
    match decodeWord (BitVec.ofNat 8 w) with
    | some o =>
      if o.port = .event then { s with turns := ⟨.edge, placedQuantum⟩ :: s.turns }
      else
        { s with
          turns := ⟨.present, placedQuantum⟩ :: s.turns
          program := ⟨BitVec.ofNat 8 w, o.zeroRecord⟩ :: s.program }
    | none =>
      { s with
        turns := ⟨.present, placedQuantum⟩ :: s.turns
        program := ⟨BitVec.ofNat 8 w, []⟩ :: s.program }
  else s

end Sys2Proof.Machine
end

