-- ==== Sys2Proof/Machine/Step.lean ====
section
/-! DEFINITION. One step: the next turn of the interleaving (spec/20_memory.md R74, spec/60_exceptions.md R235). -/

namespace Sys2Proof.Machine

/-- One turn: the command it brings is executed, any other move is performed. -/
def step (s : State) : Host.Outcome State Fault Refusal :=
  match fetch s with
  | .run i s' => exec i s'
  | .act o => o

/-- The state with a table word, its operands 0, placed where the next step takes its command from. -/
def State.withFetchWord (s : State) (nbits w : Nat) : State := placeWord s nbits w

end Sys2Proof.Machine
end

