-- ==== Sys2Proof/Machine/Assembler.lean ====
section
/-! DEFINITION. The assembler syntax of spec/30_encoding.md R92: a line is a mnemonic and `name=value` pairs, and stands
for a command word with its argument record. A line the syntax does not give a meaning is rejected (log 24). -/

namespace Sys2Proof.Machine

/-- The mnemonic of R82. -/
def asmMnemonic : Opcode → String
  | .stpConfig => "STP_CONFIG"
  | .msEncode => "MS_ENCODE"
  | .stpSetMicrostep => "STP_SET_MICROSTEP"
  | .ramp => "RAMP"
  | .wake => "WAKE"
  | .sleep => "SLEEP"
  | .step => "STEP"
  | .stpCancel => "STP_CANCEL"
  | .hxConfig => "HX_CONFIG"
  | .hxReadCycle => "HX_READ_CYCLE"
  | .hxGetReading => "HX_GET_READING"
  | .hxEdge => "HX_EDGE"

/-- How a field's value is written. -/
inductive AsmKind
  | u8 | u32 | bit | f64 | model | channel
  /-- `sleep_pin=p`, which gives both `sleep_valid=1` and `sleep_pin=p`. -/
  | sleepPin
  deriving DecidableEq, Repr

/-- The fields a line of each mnemonic may name, in R83's order. -/
def asmFields : Opcode → List (String × AsmKind)
  | .stpConfig =>
    [("dir_pin", .u8), ("step_pin", .u8), ("sleep_pin", .sleepPin), ("ms_pin0", .u8), ("ms_pin1", .u8), ("ms_pin2", .u8),
     ("steps_per_rev", .u32), ("acceleration", .f64), ("starting_rpm", .f64), ("microstep", .u32), ("model", .model)]
  | .msEncode => [("model", .model), ("microstep", .u32)]
  | .stpSetMicrostep => [("microstep", .u32)]
  | .ramp => [("n_steps", .u32), ("target_rpm", .f64)]
  | .step => [("n_steps", .u32), ("direction", .bit), ("rpm", .f64), ("use_ramp", .bit)]
  | .hxConfig => [("data_pin", .u8), ("clock_pin", .u8), ("channel", .channel), ("gain", .u8), ("use_edge", .bit)]
  | .hxGetReading => [("n_obs", .u32)]
  | .wake | .sleep | .stpCancel | .hxReadCycle | .hxEdge => []

/-- The default of an omitted field; none where the field is required. For an omitted `sleep_pin` R92 gives
`sleep_valid=0` alone; that the record's `sleep_pin` is then 0 is the model's choice (log 28). -/
def asmDefault (name : String) : Option (List ArgVal) :=
  if name = "model" then some [.bit (Model.toBit .drv8825)]
  else if name = "sleep_pin" then some [.bit false, .u8 0]
  else if name = "use_edge" then some [.bit false]
  else if name = "use_ramp" then some [.bit true]
  else none

/-- Splitting at every occurrence of a character. -/
def asmSplit (sep : Char) : List Char → List (List Char)
  | [] => [[]]
  | c :: cs =>
    if c = sep then [] :: asmSplit sep cs
    else
      match asmSplit sep cs with
      | [] => [[c]]
      | w :: ws => (c :: w) :: ws

/-- Dropping the blanks around a text. -/
def asmTrim (cs : List Char) : List Char :=
  ((cs.dropWhile (· = ' ')).reverse.dropWhile (· = ' ')).reverse

/-- The value of a digit. -/
def asmDigit (c : Char) : Option Nat :=
  if '0' ≤ c ∧ c ≤ '9' then some (c.toNat - 48)
  else if 'a' ≤ c ∧ c ≤ 'f' then some (c.toNat - 87)
  else if 'A' ≤ c ∧ c ≤ 'F' then some (c.toNat - 55)
  else none

/-- Digits of a base after a value read so far. -/
def asmDigits (base acc : Nat) : List Char → Option Nat
  | [] => some acc
  | c :: cs =>
    match asmDigit c with
    | some d => if d < base then asmDigits base (acc * base + d) cs else none
    | none => none

/-- One or more digits of a base. -/
def asmDigits1 (base : Nat) (cs : List Char) : Option Nat :=
  if cs.isEmpty then none else asmDigits base 0 cs

/-- An integer: decimal, or hexadecimal after `0x`. -/
def asmNat : List Char → Option Nat
  | '0' :: 'x' :: cs => asmDigits1 16 cs
  | cs => asmDigits1 10 cs

/-- A signed decimal exponent. -/
def asmExponent : List Char → Option Int
  | '-' :: cs => (asmDigits1 10 cs).map fun n => -(n : Int)
  | '+' :: cs => (asmDigits1 10 cs).map Int.ofNat
  | cs => (asmDigits1 10 cs).map Int.ofNat

/-- Digits with at most one point: their value without the point, and how many stand after it. -/
def asmMantissa (base : Nat) (cs : List Char) : Option (Nat × Nat) :=
  match asmSplit '.' cs with
  | [a] => (asmDigits1 base a).map fun n => (n, 0)
  | [a, b] => if a.isEmpty ∨ b.isEmpty then none else (asmDigits base 0 (a ++ b)).map fun n => (n, b.length)
  | _ => none

/-- A mantissa and an optional exponent after its mark. -/
def asmScaled (base : Nat) (mark : Char) (cs : List Char) : Option (Nat × Nat × Int) :=
  match asmSplit mark cs with
  | [m] => (asmMantissa base m).map fun t => (t.1, t.2, 0)
  | [m, e] =>
    match asmMantissa base m, asmExponent e with
    | some t, some x => some (t.1, t.2, x)
    | _, _ => none
  | _ => none

/-- `m * b^x` as a rational. -/
def asmRational (m b : Nat) (x : Int) : Nat × Nat :=
  if 0 ≤ x then (m * b ^ x.toNat, 1) else (m, b ^ (-x).toNat)

/-- An unsigned real: a decimal literal rounded to the nearest `f64`, ties to even, or a hexadecimal literal, which must
be exact. -/
def asmUnsignedReal (neg : Bool) (cs : List Char) : Option F64 :=
  match cs with
  | '0' :: 'x' :: h =>
    match asmScaled 16 'p' h with
    | some (m, k, x) =>
      let q := asmRational m 2 (x - 4 * k)
      let r := realRound neg (q.1 * realOne) q.2
      if realUnpack r = .fin neg (q.1 * realOne / q.2) ∧ q.1 * realOne % q.2 = 0 then some r else none
    | none => none
  | _ =>
    (asmScaled 10 'e' cs).map fun (m, k, x) =>
      let q := asmRational m 10 (x - k)
      realRound neg (q.1 * realOne) q.2

/-- A real literal with an optional sign. -/
def asmReal : List Char → Option F64
  | '-' :: cs => asmUnsignedReal true cs
  | '+' :: cs => asmUnsignedReal false cs
  | cs => asmUnsignedReal false cs

/-- A written value of a kind, as the fields of the record it gives. -/
def asmValue (k : AsmKind) (cs : List Char) : Option (List ArgVal) :=
  match k with
  | .u8 => (asmNat cs).bind fun n => if n < 2 ^ 8 then some [.u8 (BitVec.ofNat 8 n)] else none
  | .u32 => (asmNat cs).bind fun n => if n < 2 ^ 32 then some [.u32 (BitVec.ofNat 32 n)] else none
  | .bit => if cs = ['0'] then some [.bit false] else if cs = ['1'] then some [.bit true] else none
  | .f64 => (asmReal cs).map fun x => [.f64 x]
  | .model =>
    if cs = "A4988".toList then some [.bit (Model.toBit .a4988)]
    else if cs = "DRV8825".toList then some [.bit (Model.toBit .drv8825)] else none
  | .channel =>
    if cs = ['A'] then some [.bit (Channel.toBit .a)] else if cs = ['B'] then some [.bit (Channel.toBit .b)] else none
  | .sleepPin =>
    (asmNat cs).bind fun n => if n < 2 ^ 8 then some [.bit true, .u8 (BitVec.ofNat 8 n)] else none

/-- A `name=value` pair. -/
def asmPair (cs : List Char) : Option (List Char × List Char) :=
  match asmSplit '=' cs with
  | [n, v] => some (asmTrim n, asmTrim v)
  | _ => none

/-- The pairs after the mnemonic. -/
def asmPairs (cs : List Char) : Option (List (List Char × List Char)) :=
  if (asmTrim cs).isEmpty then some [] else (asmSplit ',' cs).mapM asmPair

/-- The record of the fields, each the written value or the default. -/
def asmRecord (pairs : List (List Char × List Char)) : List (String × AsmKind) → Option (List ArgVal)
  | [] => some []
  | (name, k) :: fs =>
    let v :=
      match pairs.lookup name.toList with
      | some cs => asmValue k cs
      | none => asmDefault name
    match v, asmRecord pairs fs with
    | some a, some r => some (a ++ r)
    | _, _ => none

/-- Every written name is a field of the mnemonic, and none is written twice. -/
def asmNamesGood (pairs : List (List Char × List Char)) (fs : List (String × AsmKind)) : Bool :=
  (pairs.all fun p => fs.any fun f => f.1.toList == p.1) && decide (pairs.map Prod.fst).Nodup

/-- A line of the assembler; none where it is rejected. -/
def assemble (line : String) : Option HostCommand :=
  let cs := asmTrim line.toList
  let mn := cs.takeWhile (· ≠ ' ')
  match commandTable.find? fun o => (asmMnemonic o).toList == mn, asmPairs (cs.drop mn.length) with
  | some o, some pairs =>
    if asmNamesGood pairs (asmFields o) then (asmRecord pairs (asmFields o)).map fun r => ⟨o.word, r⟩ else none
  | _, _ => none

end Sys2Proof.Machine
end

