-- ==== Sys2Proof/Safety.lean ====
section
/-! DEFINITION. The terms claims are made in: what a command leaves, the events of the spec's rules, and the invariant of
the machine. -/

namespace Sys2Proof.Machine

/-! ### What a command leaves -/

/-- The state in which a STEPPER command has performed `events` and then responded: the unit's registers are those of
`u`, but that BUSY, `SQ.PHASE` and `SQ.INDEX` are 0, nothing is left to do, and the response stands on the port and at the
end of the trace (spec/10_state.md R27, R31, R39). Nothing outside the unit differs from `s` but the merge order. -/
def stepperDone (s : State) (events : List Event) (st : Status) (r : Result) (u : Stepper) : State :=
  { s with
    stepper := { u with
      busy := false, sqPhase := .idle, sqIndex := 0, todo := [], response := some ⟨st, r⟩
      trace := s.stepper.trace ++ events ++ [.resp st r] }
    order := s.order ++ List.replicate (events.length + 1) .stepper }

/-- The state in which an HX711 host command has performed `events` and then responded, the unit's other registers being
those of `u` (R38, R39). Nothing outside the unit differs from `s` but the merge order. -/
def hxDone (s : State) (events : List Event) (st : Status) (r : Result) (u : Hx711) : State :=
  { s with
    hx := { u with
      busy := false, todo := [], response := some ⟨st, r⟩
      trace := s.hx.trace ++ events ++ [.resp st r] }
    order := s.order ++ List.replicate (events.length + 1) .hx711 }

/-! ### The events of the rules -/

/-- A parameter's wait: none for 0, else exactly one (spec/00_scope.md R9). -/
def waitEvents (t : F64) : List Event := if realLt 0#64 t then [.wait t] else []

/-- `WakeBody`'s events (spec/42_motion_sequencer.md R151). -/
def wakeEvents (p : Params) (c : StepperConfig) : List Event :=
  if sleepValid c.sleepPin then [.wr (sleepPinOf c.sleepPin) true, .wait p.tSettle] else []

/-- One pulse and its hold (R157). -/
def pulseEvents (p : Params) (c : StepperConfig) (d : F64) : List Event :=
  [.wr c.stepPin true] ++ waitEvents p.tStepHigh ++ [.wr c.stepPin false, .wait d]

/-- The wake, direction and pulse events of a `STEP` with this profile (R157). -/
def stepEvents (p : Params) (c : StepperConfig) (power : Power) (direction : Bool) (profile : List F64) : List Event :=
  (if power = .asleep then wakeEvents p c else []) ++ [.wr c.dirPin direction] ++ profile.flatMap (pulseEvents p c)

/-- The ready gate of the host path, with `g` reads of 1 before the read of 0 (spec/43_hx711_decoder.md R186). -/
def gateEvents (p : Params) (c : HxConfig) (g : Nat) : List Event :=
  (List.replicate g ([Event.rd c.dataPin true] ++ waitEvents p.tPoll)).flatten ++ [.rd c.dataPin false]

/-- One data clock that samples `l` (R187). -/
def clockEvents (p : Params) (c : HxConfig) (l : Level) : List Event :=
  [.wr c.clockPin true] ++ waitEvents p.tHxHigh ++ [.wr c.clockPin false, .rd c.dataPin l] ++ waitEvents p.tHxLow

/-- One extra pulse (R187). -/
def extraEvents (p : Params) (c : HxConfig) : List Event :=
  [.wr c.clockPin true] ++ waitEvents p.tHxHigh ++ [.wr c.clockPin false] ++ waitEvents p.tHxLow

/-- The 24 levels of a raw value in the order the data clocks sample them: clock `k` samples bit `23 - k`
(spec/30_encoding.md R87). -/
def rawLevels (raw : BitVec 24) : List Level := (List.range 24).map fun k => raw.getLsbD (23 - k)

/-- The read-out of a raw value: 24 data clocks, then the extra pulses (R187). -/
def readOutEvents (p : Params) (c : HxConfig) (raw : BitVec 24) : List Event :=
  (rawLevels raw).flatMap (clockEvents p c) ++ (List.replicate c.extra.toNat (extraEvents p c)).flatten

/-- One cycle of the host path: `g` reads of 1 at the gate, then the raw value. -/
def cycleEvents (p : Params) (c : HxConfig) (cycle : Nat × BitVec 24) : List Event :=
  gateEvents p c cycle.1 ++ readOutEvents p c cycle.2

/-- The levels the data line gives in such a cycle. -/
def cycleLevels (cycle : Nat × BitVec 24) : List Level :=
  List.replicate cycle.1 true ++ false :: rawLevels cycle.2

/-- More actions than such a cycle takes. -/
def cycleQuantum (cycle : Nat × BitVec 24) : Nat := 2 * cycle.1 + 200

/-- The exact integer sum of the Readings of some cycles (R191). -/
def readingSum (cycles : List (Nat × BitVec 24)) : Int := (cycles.map fun c => c.2.toInt).sum

/-- Halfway between the largest finite binary64 and 2^1024, in units of 2^-1074: from here on rounding gives infinity. -/
@[irreducible] def overflowFrom : Nat := (2 ^ 54 - 1) * 2 ^ 2044

/-- `PROF` and `PROF_LEN` of `t` hold this profile, and every other entry is as in `s` (spec/41_ramp_generator.md R125,
spec/42_motion_sequencer.md R156, spec/20_memory.md R68). -/
def profileHeld (s t : State) (profile : List F64) : Prop :=
  t.stepper.profLen = some (BitVec.ofNat 32 profile.length) ∧
  (∀ i < profile.length, memRead t.stepper.prof i = profile[i]?) ∧
  ∀ i, profile.length ≤ i → memRead t.stepper.prof i = memRead s.stepper.prof i

/-- The ramp generator's registers after `k` passes of R123's body. -/
def rampAfter (c : StepperConfig) (n : Count) (rpm : F64) (k : Nat) : RampRegs :=
  (rampPass c)^[k] (rampInit c n rpm)

/-- A word that R89 reserves on the host's command port, by its fields. -/
def reservedWord (w : BitVec 8) : Prop :=
  (unitField w ≠ 1 ∧ unitField w ≠ 2) ∨ (unitField w = 1 ∧ 8 ≤ (opField w).toNat) ∨
  (unitField w = 2 ∧ 4 ≤ (opField w).toNat) ∨ w = 0x23

/-- What only the host, the scheduler and the environment's other inputs write: everything outside the two units but the
merge order. -/
def outsideKept (s t : State) : Prop :=
  t.params = s.params ∧ t.program = s.program ∧ t.hostResponse = s.hostResponse ∧ t.hostTrace = s.hostTrace ∧
  t.turns = s.turns ∧ t.quantum = s.quantum ∧ t.tick = s.tick ∧ t.outsidePins = s.outsidePins

/-! ### The invariant of the machine -/

/-- The legal values of the StepperConfig registers (spec/10_state.md R23), the pattern invariant R24, and no pin with two
roles (spec/20_memory.md R67). -/
def stepperConfigGood (c : StepperConfig) : Prop :=
  c.stepsPerRev ≠ 0 ∧ realPositive c.acceleration = true ∧ realPositive c.startingRpm = true ∧
  realFinite (delayAt c.stepsPerRev c.startingRpm) = true ∧
  msEncode c.model (c.microstep.setWidth 32) = some c.msPattern ∧ (stepperPins c).Nodup

/-- The HX711Config invariant R33, and no pin with two roles. -/
def hxConfigGood (c : HxConfig) : Prop :=
  extraPulses c.channel c.gain = some c.extra ∧ (hxPins c).Nodup

/-- `PROF` holds `PROF_LEN` entries, all of them within its depth. -/
def profileReady (depth : Nat) (profLen : Option Count) (prof : Memory) : Prop :=
  ∃ len, profLen = some len ∧ len.toNat ≤ depth ∧ ∀ i < len.toNat, ∃ d, memRead prof i = some d

/-- What is left of a STEPPER command is what its rule can leave: it ends in the one response, and whatever it will read
holds a value. -/
def stpTodoGood (depth : Nat) (config : Option StepperConfig) (profLen : Option Count) (prof : Memory) :
    List StpOp → Prop
  | [] => True
  | .store c :: rest => stepperConfigGood c ∧ rest = [.resp .ok .none]
  | .storeMicrostep d pattern :: rest =>
    (∃ c, config = some c ∧ stepperConfigGood c ∧ msEncode c.model (d.setWidth 32) = some pattern) ∧
    rest = [.resp .ok .none]
  | .resp _ _ :: rest => rest = []
  | .respProfile _ :: rest => rest = []
  | .pulse :: rest => profileReady depth profLen prof ∧ config ≠ none ∧ rest = []
  | .pulseLow :: rest => config ≠ none ∧ rest ≠ [] ∧ stpTodoGood depth config profLen prof rest
  | .hold i :: rest =>
    (∃ len, profLen = some len ∧ i < len.toNat) ∧ profileReady depth profLen prof ∧ rest ≠ [] ∧
    stpTodoGood depth config profLen prof rest
  | .cfgOut _ :: rest => rest ≠ [] ∧ stpTodoGood depth config profLen prof rest
  | .wr _ _ :: rest => rest ≠ [] ∧ stpTodoGood depth config profLen prof rest
  | .wait _ :: rest => rest ≠ [] ∧ stpTodoGood depth config profLen prof rest
  | .setPower _ :: rest => rest ≠ [] ∧ stpTodoGood depth config profLen prof rest
  | .setPhase _ :: rest => rest ≠ [] ∧ stpTodoGood depth config profLen prof rest
  | .startPulses :: rest => rest ≠ [] ∧ stpTodoGood depth config profLen prof rest

/-- The STEPPER unit's invariant: a configured unit holds a legal configuration and a power state (R22 to R24); BUSY says
whether a command is in progress (R27); between commands `SQ.PHASE` and `SQ.INDEX` are 0 (R31); the profile memory is in
its canonical form. -/
structure StepperInv (p : Params) (u : Stepper) : Prop where
  configured : u.cfgd = true → (∃ c, u.config = some c ∧ stepperConfigGood c) ∧ u.power ≠ none
  busyTodo : u.busy = !u.todo.isEmpty
  idle : u.busy = false → u.sqPhase = .idle ∧ u.sqIndex = 0
  memory : Memory.wf u.prof = true
  todoGood : stpTodoGood p.profileDepth u.config u.profLen u.prof u.todo

/-- An action within a protocol cycle that leads to its end: a list of actions that holds one is a cycle in progress. -/
def isCycleOp : HxOp → Bool
  | .clear _ | .dataClock _ | .extraClock _ _ => true
  | _ => false

/-- A protocol cycle is in progress in a list of actions. -/
def hasCycle (l : List HxOp) : Bool := l.any isCycleOp

/-- A cycle's Reading goes where its agent may send it: the edge dispatcher emits it, a host command never does; a sum
is kept for an average. -/
def useGood (host : Bool) (u : Hx711) : CycleUse → Prop
  | .respond => host = true
  | .average _ => host = true ∧ u.sum ≠ none ∧ u.obs ≠ none
  | .emit => host = false

/-- An `HX_CONFIG` in progress: the earlier configuration is dropped and no cycle runs (spec/43_hx711_decoder.md R184,
spec/60_exceptions.md R231). -/
def configuring (host : Bool) (u : Hx711) : Prop :=
  host = true ∧ u.cfgd = false ∧ u.edgeEn = false ∧ u.reading = false

/-- What is left of a host command (`host`) or of an edge-triggered cycle is what its rule can leave: it ends where its
rule ends, and whatever it will read holds a value. -/
def hxTodoGood (host : Bool) (u : Hx711) : List HxOp → Prop
  | [] => True
  | .cfgIn _ _ :: rest => configuring host u ∧ hasCycle rest = false ∧ rest ≠ [] ∧ hxTodoGood host u rest
  | .cfgOut _ :: rest => configuring host u ∧ hasCycle rest = false ∧ rest ≠ [] ∧ hxTodoGood host u rest
  | .register _ :: rest => configuring host u ∧ hasCycle rest = false ∧ rest ≠ [] ∧ hxTodoGood host u rest
  | .store c _ :: rest => configuring host u ∧ hxConfigGood c ∧ rest = [.resp .ok .none]
  | .resp _ _ :: rest => host = true ∧ rest = []
  | .poll use :: rest => useGood host u use ∧ host = true ∧ u.config ≠ none ∧ rest = []
  | .clear use :: rest => useGood host u use ∧ u.config ≠ none ∧ rest = []
  | .dataClock use :: rest => useGood host u use ∧ u.config ≠ none ∧ u.acc ≠ none ∧ u.bitCnt ≠ none ∧ rest = []
  | .sample :: rest =>
    u.config ≠ none ∧ u.acc ≠ none ∧ u.bitCnt ≠ none ∧ rest ≠ [] ∧ hxTodoGood host u rest
  | .shift _ :: rest => u.acc ≠ none ∧ u.bitCnt ≠ none ∧ rest ≠ [] ∧ hxTodoGood host u rest
  | .extraClock use _ :: rest => useGood host u use ∧ u.config ≠ none ∧ u.pulseCnt ≠ none ∧ rest = []
  | .countPulse :: rest => u.pulseCnt ≠ none ∧ rest ≠ [] ∧ hxTodoGood host u rest
  | .deliver use _ :: rest => useGood host u use ∧ u.config ≠ none ∧ rest = []
  | .wr _ _ :: rest => rest ≠ [] ∧ hxTodoGood host u rest
  | .wait _ :: rest => rest ≠ [] ∧ hxTodoGood host u rest

/-- The HX711 unit's invariant: a configured unit holds a valid pair and its pulse count (R33); edges are on only in a
configured unit (R185); `HX.PHASE` equals `HX.READING` (R35); BUSY says whether a host command is in progress (R38);
`HX.READING` is 1 exactly while one cycle is in progress, and never are two (R34, R77). -/
structure HxInv (u : Hx711) : Prop where
  configured : u.cfgd = true → ∃ c, u.config = some c ∧ hxConfigGood c
  edges : u.edgeEn = true → u.cfgd = true
  phase : u.phase = if u.reading then .reading else .idle
  busyTodo : u.busy = !u.todo.isEmpty
  todoGood : hxTodoGood true u u.todo
  edgeGood : hxTodoGood false u u.edgeTodo
  reading : u.reading = (hasCycle u.todo || hasCycle u.edgeTodo)
  exclusive : (hasCycle u.todo && hasCycle u.edgeTodo) = false

/-- The STEPPER unit uses this pin (spec/20_memory.md R67, log 14): it stands in its configuration, or in the one an
`STP_CONFIG` in progress has still to store. -/
def stepperUses (u : Stepper) (p : Pin) : Prop :=
  (∃ c, u.cfgd = true ∧ u.config = some c ∧ p ∈ stepperPins c) ∨ ∃ c, .store c ∈ u.todo ∧ p ∈ stepperPins c

/-- The HX711 unit uses this pin, in the same way. -/
def hxUses (u : Hx711) (p : Pin) : Prop :=
  (∃ c, u.cfgd = true ∧ u.config = some c ∧ p ∈ hxPins c) ∨ ∃ c useEdge, .store c useEdge ∈ u.todo ∧ p ∈ hxPins c

/-- Some unit uses this pin. -/
def pinInUse (s : State) (p : Pin) : Prop := stepperUses s.stepper p ∨ hxUses s.hx p

/-- Pins that R67 lets an `STP_CONFIG` take: one role each, none used by the HX711 unit, whose configuration can be read
where it counts (spec/10_state.md R22), and none held by an agent outside the block. -/
def stepperMayTake (ps : List Pin) (s : State) : Prop :=
  ps.Nodup ∧ (s.hx.cfgd = true → s.hx.config ≠ none) ∧ ∀ p ∈ ps, ¬hxUses s.hx p ∧ p ∉ s.outsidePins

/-- Pins that R67 lets an `HX_CONFIG` take, in the same way. -/
def hxMayTake (ps : List Pin) (s : State) : Prop :=
  ps.Nodup ∧ (s.stepper.cfgd = true → s.stepper.config ≠ none) ∧
  ∀ p ∈ ps, ¬stepperUses s.stepper p ∧ p ∉ s.outsidePins

/-- A unit that counts as configured holds a configuration to read (spec/10_state.md R22). -/
def configsSet (s : State) : Prop :=
  (s.stepper.cfgd = true → s.stepper.config ≠ none) ∧ (s.hx.cfgd = true → s.hx.config ≠ none)

/-- No pin has two users: not both units, nor a unit and an agent outside the block (R67, log 15). -/
def pinsApart (s : State) : Prop :=
  (∀ p, stepperUses s.stepper p → ¬hxUses s.hx p) ∧ ∀ p ∈ s.outsidePins, ¬pinInUse s p

/-- The invariant of the machine. -/
structure Inv (s : State) : Prop where
  stepper : StepperInv s.params s.stepper
  hx : HxInv s.hx
  pins : pinsApart s
  outside : s.outsidePins.Nodup

/-- The merge order lists each trace's events (spec/20_memory.md R60, R74). -/
def orderGood (s : State) : Prop :=
  s.order.count .stepper = s.stepper.trace.length ∧ s.order.count .hx711 = s.hx.trace.length ∧
  s.order.count .hostPort = s.hostTrace.length

end Sys2Proof.Machine
end

