-- ==== Sys2Proof/Certificates/Slice0/Obligations.lean ====
section
/-! DEFINITION. The statements for the provers. Each holds for every state that meets its hypotheses, reached by a run or
not. Where a unit's own actions are counted (`quantum`), the hypothesis only gives the unit enough of them in this turn. -/

section
open Sys2Proof Sys2Proof.Machine

/-! ### Encoding (spec/30_encoding.md) -/

/-- R82: the words of the command table, written out bit by bit, decode to their mnemonics. -/
def Obligations.CommandWordsDecode : Prop :=
  decodeWord 0b00010000 = some .stpConfig ∧ decodeWord 0b00010001 = some .msEncode ∧
  decodeWord 0b00010010 = some .stpSetMicrostep ∧ decodeWord 0b00010011 = some .ramp ∧
  decodeWord 0b00010100 = some .wake ∧ decodeWord 0b00010101 = some .sleep ∧ decodeWord 0b00010110 = some .step ∧
  decodeWord 0b00010111 = some .stpCancel ∧ decodeWord 0b00100000 = some .hxConfig ∧
  decodeWord 0b00100001 = some .hxReadCycle ∧ decodeWord 0b00100010 = some .hxGetReading ∧
  decodeWord 0b00100011 = some .hxEdge

/-- R90: for every 8-bit word `Decode` answers a mnemonic exactly when the word is that mnemonic's row, and no two rows
share a word; every other word is reserved. -/
def Obligations.DecodeTotalAndUnique : Prop :=
  (∀ (w : BitVec 8) (o : Opcode), decodeWord w = some o ↔ o.word = w) ∧
  ∀ o o' : Opcode, o.word = o'.word → o = o'

/-- Every command with any operands, presented on its own port, decodes to itself (R82, R83, R93). -/
def Obligations.DecodeOfEncode : Prop :=
  ∀ (p : Port) (i : Instr), i.wellFormed p = true → decode p (encode i).word (encode i).args = .instr i

/-- A presentation has one meaning: what decodes to a command is that command's own word and record, on its own port. -/
def Obligations.EncodeOfDecode : Prop :=
  ∀ (p : Port) (w : BitVec 8) (args : List ArgVal) (i : Instr), decode p w args = .instr i →
    encode i = ⟨w, args⟩ ∧ i.wellFormed p = true

/-- R89: the words reserved on the host's command port, whatever record stands beside them. -/
def Obligations.ReservedWordsListed : Prop :=
  ∀ (w : BitVec 8) (args : List ArgVal), decode .command w args = .reserved ↔ reservedWord w

/-! ### The step (spec/60_exceptions.md R231, R235) -/

/-- A turn of HOST runs the decoded command where the unit can accept it, and else changes nothing but the turn: the
command stays in the program (R231). -/
def Obligations.PresentTurnRunsCommand : Prop :=
  ∀ (s : State) (k : Nat) (ts : List Turn) (c : HostCommand) (ps : List HostCommand) (i : Instr),
    s.turns = ⟨.present, k⟩ :: ts → s.program = c :: ps → decode .command c.word c.args = .instr i →
    step s = if canAccept i s then exec i { s with turns := ts, quantum := k, program := ps }
      else .next { s with turns := ts, quantum := k }

/-- A turn of EDGE with no cycle begun presents `HX_EDGE`, and HOST may present `STP_CANCEL` at any time (R235). -/
def Obligations.EventTurnsRunTheirCommands : Prop :=
  ∀ (s : State) (k : Nat) (ts : List Turn),
    (s.turns = ⟨.edge, k⟩ :: ts → s.hx.edgeTodo = [] → step s = exec .hxEdge { s with turns := ts, quantum := k }) ∧
    (s.turns = ⟨.cancel, k⟩ :: ts → s.params.hasCancel = true →
      step s = exec .stpCancel { s with turns := ts, quantum := k })

/-- A turn of STEPPER, of HX711 or of EDGE within its cycle goes on with what is left of its command for the turn's
quantum of actions (R235, spec/20_memory.md R74). -/
def Obligations.UnitTurnsContinueTheirCommands : Prop :=
  ∀ (s : State) (k : Nat) (ts : List Turn),
    (s.turns = ⟨.stepper, k⟩ :: ts → step s = runStepper k { s with turns := ts, quantum := k }) ∧
    (s.turns = ⟨.hx711, k⟩ :: ts → step s = runHx k { s with turns := ts, quantum := k }) ∧
    (s.turns = ⟨.edge, k⟩ :: ts → s.hx.edgeTodo ≠ [] → step s = runEdge k { s with turns := ts, quantum := k })

/-- R231: an idle STEPPER unit accepts any of its commands, an idle HX711 unit any host command, but that `HX_CONFIG` also
waits for a running cycle to end; a busy STEPPER unit takes no command but `STP_CANCEL`, a busy HX711 unit no host command:
such a command is not accepted, and nothing changes. -/
def Obligations.BusyUnitMakesHostWait : Prop :=
  ∀ (i : Instr) (s : State),
    (i.opcode ∈ [.stpConfig, .msEncode, .stpSetMicrostep, .ramp, .wake, .sleep, .step] → s.stepper.busy = true →
      canAccept i s = false ∧ exec i s = .next s) ∧
    (i.opcode ∈ [.hxConfig, .hxReadCycle, .hxGetReading] → s.hx.busy = true →
      canAccept i s = false ∧ exec i s = .next s) ∧
    (i.opcode = .hxConfig → s.hx.reading = true → canAccept i s = false ∧ exec i s = .next s) ∧
    (i.opcode ∈ [.stpConfig, .msEncode, .stpSetMicrostep, .ramp, .wake, .sleep, .step, .stpCancel] →
      s.stepper.busy = false → canAccept i s = true) ∧
    (i.opcode ∈ [.hxReadCycle, .hxGetReading] → s.hx.busy = false → canAccept i s = true) ∧
    (i.opcode = .hxConfig → s.hx.busy = false → s.hx.reading = false → canAccept i s = true)

/-- R27, R38, R231: on acceptance BUSY is 1 before any event of the command: in a turn that gives the unit no action yet
(quantum 0) nothing is on the trace and the port, and the command is still to be run. -/
def Obligations.AcceptanceSetsBusy : Prop :=
  ∀ (i : Instr) (s t : State), s.quantum = 0 → exec i s = .next t →
    (i.opcode ∈ [.stpConfig, .msEncode, .stpSetMicrostep, .ramp, .wake, .sleep, .step] → s.stepper.busy = false →
      t.stepper.busy = true ∧ t.stepper.todo ≠ [] ∧ t.stepper.trace = s.stepper.trace ∧
      t.stepper.response = s.stepper.response) ∧
    (i.opcode ∈ [.hxReadCycle, .hxGetReading] → s.hx.busy = false →
      t.hx.busy = true ∧ t.hx.todo ≠ [] ∧ t.hx.trace = s.hx.trace ∧ t.hx.response = s.hx.response) ∧
    (i.opcode = .hxConfig → s.hx.busy = false → s.hx.reading = false →
      t.hx.busy = true ∧ t.hx.todo ≠ [] ∧ t.hx.trace = s.hx.trace ∧ t.hx.response = s.hx.response)

/-- R223, R89: a reserved word the host presents is answered with `UnknownCommand`, by the unit it names or by the host's
own port, with no event but the response and no register written but the ports and the sequencer's idle values, which a
response writes (spec/10_state.md R31). While the unit it names is busy it waits like any other command (R231): it stays in
the program, and nothing changes but the turn. `0x17` is one of them where `HAS_CANCEL` is false (R160, log 18), whatever
record stands beside it (log 8). The host port's own trace is the model's (log 9). Nothing is assumed of `HX.READING`: that
the HX711 unit answers beside an edge-triggered cycle, and leaves `HX.READING` and that cycle as they are, is the model's
choice (log 26). -/
def Obligations.ReservedWordAnswered : Prop :=
  ∀ (s : State) (k : Nat) (ts : List Turn) (c : HostCommand) (ps : List HostCommand),
    s.turns = ⟨.present, k + 1⟩ :: ts → s.program = c :: ps →
    (reservedWord c.word ∨ c.word = 0x17 ∧ s.params.hasCancel = false) →
    let u : State := { s with turns := ts, quantum := k + 1, program := ps }
    (unitField c.word = 1 → s.stepper.busy = false →
      step s = .next (stepperDone u [] .unknownCommand .none u.stepper)) ∧
    (unitField c.word = 2 → s.hx.busy = false → step s = .next (hxDone u [] .unknownCommand .none u.hx)) ∧
    ((unitField c.word = 1 ∧ s.stepper.busy = true) ∨ (unitField c.word = 2 ∧ s.hx.busy = true) →
      step s = .next { s with turns := ts, quantum := k + 1 }) ∧
    (unitField c.word ≠ 1 → unitField c.word ≠ 2 →
      step s = .next { u with
        hostResponse := some ⟨.unknownCommand, .none⟩
        hostTrace := s.hostTrace ++ [.resp .unknownCommand .none]
        order := s.order ++ [.hostPort] })

/-! ### Reset and invariants (spec/70_reset_and_hazards.md, spec/10_state.md) -/

/-- R251: the power-on value of every register, and that a read of an unset one faults. -/
def Obligations.PowerOnRegisterValues : Prop :=
  let u := State.reset.stepper
  let h := State.reset.hx
  u.cfgd = false ∧ u.config = none ∧ u.power = none ∧ u.busy = false ∧ u.cancelReq = false ∧
  u.ramp = none ∧ u.rampPhase = .idle ∧ (∀ i, memRead u.prof i = none) ∧ u.profLen = none ∧
  u.sqPhase = .idle ∧ u.sqIndex = 0 ∧
  h.cfgd = false ∧ h.config = none ∧ h.edgeEn = false ∧ h.reading = false ∧ h.phase = .idle ∧
  h.acc = none ∧ h.bitCnt = none ∧ h.pulseCnt = none ∧ h.sum = none ∧ h.obs = none ∧ h.busy = false ∧
  ∀ (r : RegName) (k : BitVec 64 → Outcome), readReg none r k = .fault (.unsetRegister r)

/-- R250: at power-on both traces are empty and no response port holds a value; and the machine's invariant holds there. -/
def Obligations.PowerOnMeetsTheInvariant : Prop :=
  Inv State.reset ∧ orderGood State.reset ∧ State.reset.stepper.trace = [] ∧ State.reset.hx.trace = [] ∧
  State.reset.stepper.response = none ∧ State.reset.hx.response = none

/-- Every step keeps the machine's invariant (R23, R24, R27, R31, R33, R34, R35, R38, spec/20_memory.md R67, R77): the
configurations are legal, BUSY and READING say what is in progress, never two cycles at once, no pin has two users (an
agent outside the block being one, log 15), and the profile memory keeps its canonical form. -/
def Obligations.EveryStepKeepsTheInvariant : Prop :=
  ∀ s t : State, Inv s → step s = .next t → Inv t

/-- R22, R72: from a state that meets the invariant no step reads an unset register or an entry outside the profile
memory; and the only refusals are overlapping pins (spec/20_memory.md R67), an outside writer of a pin in use (the
same rule) and a record that is not its word's own (spec/30_encoding.md R83), from any state. -/
def Obligations.NoStepReadsAnUnsetRegister : Prop :=
  (∀ (s : State) (f : Fault), Inv s → step s ≠ .fault f) ∧
  ∀ (s : State) (r : Refusal), step s = .refused r → r = .pinOverlap ∨ r = .outsideWriter ∨ r = .malformedRecord

/-- R40, R60, R66, R73: a step only appends events: none is dropped, merged, changed or reordered, and the merge order
lists each appended event of each trace once. -/
def Obligations.TracesOnlyGrow : Prop :=
  ∀ s t : State, step s = .next t → ∃ es fs gs : List Event, ∃ o : List Source,
    t.stepper.trace = s.stepper.trace ++ es ∧ t.hx.trace = s.hx.trace ++ fs ∧ t.hostTrace = s.hostTrace ++ gs ∧
    t.order = s.order ++ o ∧ o.count .stepper = es.length ∧ o.count .hx711 = fs.length ∧
    o.count .hostPort = gs.length

/-- R254: the parameters never change; and the program is only ever shortened at its head (R80). -/
def Obligations.ParametersNeverChange : Prop :=
  ∀ s t : State, step s = .next t → t.params = s.params ∧ (t.program = s.program ∨ t.program = s.program.tail)

/-- R242: once the program is at its end, no unit is busy and no cycle runs, a turn of HOST presenting, of STEPPER or of
HX711 has no step but the turn itself. -/
def Obligations.EndedRunIsQuiet : Prop :=
  ∀ (s : State) (t : Turn) (ts : List Turn), Inv s → runEnded s = true → s.turns = t :: ts →
    t.move ∈ [.present, .stepper, .hx711] → step s = .next { s with turns := ts, quantum := t.quantum }

/-! ### Errors (spec/60_exceptions.md) -/

/-- R222: the seven commands that need their unit configured answer `NotConfigured` without it, before any other check or
event; the other four host commands are accepted whether configured or not. -/
def Obligations.UnconfiguredUnitAnswersNotConfigured : Prop :=
  ∀ (i : Instr) (s : State), 1 ≤ s.quantum →
    (i.opcode ∈ [.stpSetMicrostep, .ramp, .wake, .sleep, .step] → s.stepper.busy = false → s.stepper.cfgd = false →
      exec i s = .next (stepperDone s [] .notConfigured .none s.stepper)) ∧
    (i.opcode ∈ [.hxReadCycle, .hxGetReading] → s.hx.busy = false → s.hx.cfgd = false →
      exec i s = .next (hxDone s [] .notConfigured .none s.hx)) ∧
    (i.opcode ∈ [.stpConfig, .msEncode, .stpCancel] → s.stepper.busy = false → canAccept i s = true) ∧
    (i.opcode = .hxConfig → s.hx.busy = false → s.hx.reading = false → canAccept i s = true)

/-- R225, spec/40_stepper_config.md R105, R109, spec/43_hx711_decoder.md R185: the first configure request answered fail
ends the command with `HardwareUnavailable`; the requests before it stay performed, no select pin is written, and what the
command's rule says of the registers holds. For `HX_CONFIG` the requests are the data pin's, the clock pin's and, with
`use_edge`, the edge registration, which comes after the clock's write. -/
def Obligations.FailedConfigureRequestEndsCommand : Prop :=
  (∀ (a : StpConfigArgs) (s : State) (k : Nat) (rest : List Bool) (p : Pin), s.stepper.busy = false →
    stpConfigLegal a = true → stepperMayTake (argPins a) s →
    s.stepper.answers = List.replicate k true ++ false :: rest → (argPins a)[k]? = some p → k + 2 ≤ s.quantum →
    exec (.stpConfig a) s = .next (stepperDone s
      (((argPins a).take k).map (.cfgOut · true) ++ [.cfgOut p false]) .hardwareUnavailable .none
      { s.stepper with cfgd := false, answers := rest })) ∧
  (∀ (d : Count) (s : State) (c : StepperConfig) (pattern : BitVec 3) (k : Nat) (rest : List Bool) (p : Pin),
    s.stepper.busy = false → s.stepper.cfgd = true → s.stepper.config = some c →
    msEncode c.model d = some pattern →
    s.stepper.answers = List.replicate k true ++ false :: rest → [c.msPin0, c.msPin1, c.msPin2][k]? = some p →
    k + 2 ≤ s.quantum →
    exec (.stpSetMicrostep d) s = .next (stepperDone s
      (([c.msPin0, c.msPin1, c.msPin2].take k).map (.cfgOut · true) ++ [.cfgOut p false]) .hardwareUnavailable .none
      { s.stepper with answers := rest })) ∧
  ∀ (a : HxConfigArgs) (s : State) (rest : List Bool), s.hx.busy = false → s.hx.reading = false →
    hxConfigLegal a = true → hxMayTake [a.dataPin, a.clockPin] s → 5 ≤ s.quantum →
    (s.hx.answers = false :: rest →
      exec (.hxConfig a) s = .next (hxDone s [.cfgIn a.dataPin s.params.hxDataPull false] .hardwareUnavailable .none
        { s.hx with cfgd := false, edgeEn := false, answers := rest })) ∧
    (s.hx.answers = true :: false :: rest →
      exec (.hxConfig a) s = .next (hxDone s
        [.cfgIn a.dataPin s.params.hxDataPull true, .cfgOut a.clockPin false] .hardwareUnavailable .none
        { s.hx with cfgd := false, edgeEn := false, answers := rest })) ∧
    (a.useEdge = true → s.hx.answers = true :: true :: false :: rest →
      exec (.hxConfig a) s = .next (hxDone s
        [.cfgIn a.dataPin s.params.hxDataPull true, .cfgOut a.clockPin true, .wr a.clockPin false,
         .edge a.dataPin .falling false] .hardwareUnavailable .none
        { s.hx with cfgd := false, edgeEn := false, answers := rest }))

/-- spec/40_stepper_config.md R103: an `STP_CONFIG` that fails one of the checks V1 to V5 answers
`InvalidConfiguration`, with no pin event and every register as it was. -/
def Obligations.InvalidStepperConfigurationRejected : Prop :=
  ∀ (a : StpConfigArgs) (s : State), s.stepper.busy = false → 1 ≤ s.quantum →
    (a.stepsPerRev = 0 ∨ ¬(realFinite a.acceleration = true ∧ realLt 0#64 a.acceleration = true) ∨
      ¬(realFinite a.startingRpm = true ∧ realLt 0#64 a.startingRpm = true) ∨
      realFinite (realDiv (realOfNat 60) (realMul (realOfNat a.stepsPerRev.toNat) a.startingRpm)) = false ∨
      a.microstep ∉ msKeys a.model) →
    exec (.stpConfig a) s = .next (stepperDone s [] .invalidConfiguration .none s.stepper)

/-- spec/43_hx711_decoder.md R183: an `HX_CONFIG` whose gain or whose pair of channel and gain is not valid answers
`InvalidConfiguration`, with no pin event and every register as it was. -/
def Obligations.InvalidHxConfigurationRejected : Prop :=
  ∀ (a : HxConfigArgs) (s : State), s.hx.busy = false → s.hx.reading = false → 1 ≤ s.quantum →
    (a.gain ∉ [32, 64, 128] ∨ (a.channel, a.gain) ∉ [(Channel.a, 128), (Channel.b, 32), (Channel.a, 64)]) →
    exec (.hxConfig a) s = .next (hxDone s [] .invalidConfiguration .none s.hx)

/-- The checks of spec/41_ramp_generator.md R122 for `RAMP` and for `STEP` with the ramp, and of
spec/42_motion_sequencer.md R156 for `STEP` without it: a failed one answers `InvalidConfiguration` with no pin event. The
`STEP` has then cleared the cancellation request (the model's choice, log 11: R157's order of actions over R221's). -/
def Obligations.InvalidMotionRejected : Prop :=
  ∀ (n : Count) (rpm : F64) (d : Bool) (s : State) (c : StepperConfig) (w : Power), s.stepper.busy = false →
    s.stepper.cfgd = true → s.stepper.config = some c → s.stepper.power = some w → 1 ≤ s.quantum →
    let bad := n = 0 ∨ ¬(realFinite rpm = true ∧ realLt 0#64 rpm = true) ∨
      realFinite (realDiv (realOfNat 60) (realMul (realOfNat c.stepsPerRev.toNat) rpm)) = false
    let cleared : Stepper := { s.stepper with cancelReq := false }
    (bad ∨ s.params.profileDepth < 2 * (n.toNat / 2) →
      exec (.ramp n rpm) s = .next (stepperDone s [] .invalidConfiguration .none s.stepper) ∧
      exec (.step n d rpm true) s = .next (stepperDone s [] .invalidConfiguration .none cleared)) ∧
    (bad ∨ s.params.profileDepth < n.toNat →
      exec (.step n d rpm false) s = .next (stepperDone s [] .invalidConfiguration .none cleared))

/-- spec/40_stepper_config.md R108, R109 and spec/43_hx711_decoder.md R191: a denominator that is no key of the configured
model's table, and a count of 0 observations, answer `InvalidConfiguration` with no event and every register as it was.
Nothing is assumed of `HX.READING`: that the error is answered beside an edge-triggered cycle, and leaves `HX.READING` and
that cycle as they are, is the model's choice (log 26). -/
def Obligations.InvalidArgumentsRejected : Prop :=
  (∀ (d : Count) (s : State) (c : StepperConfig), s.stepper.busy = false → s.stepper.cfgd = true →
    s.stepper.config = some c → d ∉ msKeys c.model → 1 ≤ s.quantum →
    exec (.stpSetMicrostep d) s = .next (stepperDone s [] .invalidConfiguration .none s.stepper)) ∧
  ∀ s : State, s.hx.busy = false → s.hx.cfgd = true → 1 ≤ s.quantum →
    exec (.hxGetReading 0) s = .next (hxDone s [] .invalidConfiguration .none s.hx)

/-- spec/20_memory.md R67: a legal configuration in which one pin has two roles, or a pin that the other unit uses or that
an agent outside the block holds, is refused (at its acceptance, and a configuration in progress counts, log 14). A turn of
an agent outside the block that writes or configures a pin is refused exactly where a unit uses that pin
(spec/70_reset_and_hazards.md R256); any other pin it holds from then on, until the turn in which it gives it up (log
15). Where the check has to read the configuration of a unit that counts as configured and has none, it faults
(spec/10_state.md R22). -/
def Obligations.OverlappingPinsRefused : Prop :=
  (∀ (a : StpConfigArgs) (s : State), s.stepper.busy = false → stpConfigLegal a = true →
    (¬(argPins a).Nodup ∨ (∃ p ∈ argPins a, p ∈ s.outsidePins) ∨
      (configsSet s ∧ ∃ p ∈ argPins a, hxUses s.hx p)) →
    exec (.stpConfig a) s = .refused .pinOverlap) ∧
  (∀ (a : StpConfigArgs) (s : State), s.stepper.busy = false → stpConfigLegal a = true → (argPins a).Nodup →
    (∀ p ∈ argPins a, p ∉ s.outsidePins) → s.hx.cfgd = true → s.hx.config = none →
    exec (.stpConfig a) s = .fault (.unsetRegister .hxConfig)) ∧
  (∀ (a : HxConfigArgs) (s : State), s.hx.busy = false → s.hx.reading = false → hxConfigLegal a = true →
    (a.dataPin = a.clockPin ∨ (∃ p ∈ [a.dataPin, a.clockPin], p ∈ s.outsidePins) ∨
      (configsSet s ∧ ∃ p ∈ [a.dataPin, a.clockPin], stepperUses s.stepper p)) →
    exec (.hxConfig a) s = .refused .pinOverlap) ∧
  (∀ (a : HxConfigArgs) (s : State), s.hx.busy = false → s.hx.reading = false → hxConfigLegal a = true →
    a.dataPin ≠ a.clockPin → (∀ p ∈ [a.dataPin, a.clockPin], p ∉ s.outsidePins) → s.stepper.cfgd = true →
    s.stepper.config = none → exec (.hxConfig a) s = .fault (.unsetRegister .stpConfig)) ∧
  ∀ (s : State) (p : Pin) (k : Nat) (ts : List Turn),
    (s.turns = ⟨.outside p, k⟩ :: ts → configsSet s →
      (pinInUse s p → step s = .refused .outsideWriter) ∧
      (¬pinInUse s p →
        step s = .next { s with turns := ts, quantum := k, outsidePins := s.outsidePins.insert p })) ∧
    (s.turns = ⟨.outside p, k⟩ :: ts → s.stepper.cfgd = true → s.stepper.config = none →
      step s = .fault (.unsetRegister .stpConfig)) ∧
    (s.turns = ⟨.release p, k⟩ :: ts →
      step s = .next { s with turns := ts, quantum := k, outsidePins := s.outsidePins.erase p })

/-! ### Configuration (spec/40_stepper_config.md, spec/43_hx711_decoder.md) -/

/-- spec/40_stepper_config.md R100 with spec/30_encoding.md R85's tables, and spec/43_hx711_decoder.md R181: the two
encoders, on every argument. -/
def Obligations.EncoderTables : Prop :=
  (∀ d : Count, msEncode .a4988 d =
    if d = 1 then some 0b000 else if d = 2 then some 0b001 else if d = 4 then some 0b010
    else if d = 8 then some 0b011 else if d = 16 then some 0b111 else none) ∧
  (∀ d : Count, msEncode .drv8825 d =
    if d = 1 then some 0b000 else if d = 2 then some 0b001 else if d = 4 then some 0b010
    else if d = 8 then some 0b011 else if d = 16 then some 0b100 else if d = 32 then some 0b101 else none) ∧
  ∀ (ch : Channel) (g : BitVec 8), extraPulses ch g =
    if ch = .a ∧ g = 128 then some 1 else if ch = .b ∧ g = 32 then some 2
    else if ch = .a ∧ g = 64 then some 3 else none

/-- spec/40_stepper_config.md R104: a legal `STP_CONFIG` drops the earlier configuration at once, configures its pins as
outputs in the rule's order, writes the three select pins with `b_i` on select pin `i`, stores every register
(`STP.SLEEP_PIN` as `{sleep_valid, sleep_pin}`, valid or not) and responds. -/
def Obligations.StpConfigCompletes : Prop :=
  ∀ (a : StpConfigArgs) (s : State) (pattern : BitVec 3), s.stepper.busy = false → stpConfigLegal a = true →
    msEncode a.model a.microstep = some pattern → stepperMayTake (argPins a) s →
    (s.quantum = 0 → ∃ t, exec (.stpConfig a) s = .next t ∧ t.stepper.cfgd = false ∧ t.stepper.trace = s.stepper.trace) ∧
    ∀ rest : List Bool, s.stepper.answers = List.replicate (argPins a).length true ++ rest →
      (argPins a).length + 5 ≤ s.quantum →
      exec (.stpConfig a) s = .next (stepperDone s
        ((argPins a).map (.cfgOut · true) ++ [.wr a.msPin0 (pattern.getLsbD 0), .wr a.msPin1 (pattern.getLsbD 1),
          .wr a.msPin2 (pattern.getLsbD 2)]) .ok .none
        { s.stepper with
          config := some
            { dirPin := a.dirPin, stepPin := a.stepPin, sleepPin := BitVec.ofBool a.sleepValid ++ a.sleepPin
              msPin0 := a.msPin0, msPin1 := a.msPin1, msPin2 := a.msPin2, stepsPerRev := a.stepsPerRev
              acceleration := a.acceleration, startingRpm := a.startingRpm, model := a.model
              microstep := a.microstep.setWidth 6, msPattern := pattern }
          power := some .asleep, cancelReq := false, cfgd := true, answers := rest })

/-- spec/40_stepper_config.md R106: `MS_ENCODE` answers the encoder's pattern, or `InvalidConfiguration` where the
denominator is no key, whether configured or not; no pin event, no register written. Its word and record come first. -/
def Obligations.MsEncodeCompletes : Prop :=
  (∀ (m : Model) (d : Count), encode (.msEncode m d) = ⟨0x11, [.bit (decide (m = .drv8825)), .u32 d]⟩) ∧
  ∀ (m : Model) (d : Count) (s : State), s.stepper.busy = false → 1 ≤ s.quantum →
    (∀ pattern, msEncode m d = some pattern →
      exec (.msEncode m d) s = .next (stepperDone s [] .ok (.pattern pattern) s.stepper)) ∧
    (d ∉ msKeys m → exec (.msEncode m d) s = .next (stepperDone s [] .invalidConfiguration .none s.stepper))

/-- spec/40_stepper_config.md R109: `STP_SET_MICROSTEP` configures and writes the three select pins and stores the
denominator and its pattern; every other register of the configuration stays. -/
def Obligations.StpSetMicrostepCompletes : Prop :=
  ∀ (d : Count) (s : State) (c : StepperConfig) (pattern : BitVec 3) (rest : List Bool), s.stepper.busy = false →
    s.stepper.cfgd = true → s.stepper.config = some c → msEncode c.model d = some pattern →
    s.stepper.answers = true :: true :: true :: rest → 8 ≤ s.quantum →
    exec (.stpSetMicrostep d) s = .next (stepperDone s
      [.cfgOut c.msPin0 true, .cfgOut c.msPin1 true, .cfgOut c.msPin2 true, .wr c.msPin0 (pattern.getLsbD 0),
       .wr c.msPin1 (pattern.getLsbD 1), .wr c.msPin2 (pattern.getLsbD 2)] .ok .none
      { s.stepper with config := some { c with microstep := d.setWidth 6, msPattern := pattern }, answers := rest })

/-- spec/43_hx711_decoder.md R184: a legal `HX_CONFIG` drops the earlier configuration at once, configures the data pin as
an input and the clock pin as an output, drives the clock low, registers the falling edge where asked, stores every
register and responds. -/
def Obligations.HxConfigCompletes : Prop :=
  ∀ (a : HxConfigArgs) (s : State) (extra : BitVec 2), s.hx.busy = false → s.hx.reading = false →
    hxConfigLegal a = true → extraPulses a.channel a.gain = some extra →
    hxMayTake [a.dataPin, a.clockPin] s →
    (s.quantum = 0 → ∃ t, exec (.hxConfig a) s = .next t ∧ t.hx.cfgd = false ∧ t.hx.edgeEn = false ∧
      t.hx.trace = s.hx.trace) ∧
    ∀ rest : List Bool, s.hx.answers = List.replicate (if a.useEdge then 3 else 2) true ++ rest → 6 ≤ s.quantum →
      exec (.hxConfig a) s = .next (hxDone s
        ([.cfgIn a.dataPin s.params.hxDataPull true, .cfgOut a.clockPin true, .wr a.clockPin false]
          ++ (if a.useEdge then [.edge a.dataPin .falling true] else [])) .ok .none
        { s.hx with
          config := some
            { dataPin := a.dataPin, clockPin := a.clockPin, channel := a.channel, gain := a.gain, extra := extra }
          reading := false, phase := .idle, edgeEn := a.useEdge, cfgd := true, answers := rest })

/-! ### The ramp (spec/41_ramp_generator.md) -/

/-- R127: a `RAMP` that passes the checks responds with its profile and performs no pin event; `RG.PHASE` is back at IDLE
(R126), and only the ramp's registers, `PROF` and `PROF_LEN` are written, which then hold unspecified values. -/
def Obligations.RampCompletes : Prop :=
  ∀ (n : Count) (rpm : F64) (s : State) (c : StepperConfig), s.stepper.busy = false → s.stepper.cfgd = true →
    s.stepper.config = some c → rampLegal s.params c.stepsPerRev n rpm = true → 1 ≤ s.quantum →
    ∃ (rg : Option RampRegs) (prof : Memory) (len : Option Count) (tick : Nat),
      exec (.ramp n rpm) s = .next (stepperDone s [] .ok (.profile (rampProfile c n rpm).1)
        { s.stepper with ramp := rg, rampPhase := .idle, prof := prof, profLen := len, tick := tick })

/-- R125, spec/42_motion_sequencer.md R156: once accepted, before its first event, a `RAMP` or `STEP` holds its profile in
`PROF` and its length in `PROF_LEN`, and no other entry has changed (spec/20_memory.md R68). -/
def Obligations.ProfileIsHeldInMemory : Prop :=
  ∀ (n : Count) (rpm : F64) (d : Bool) (s : State) (c : StepperConfig) (w : Power), s.stepper.busy = false →
    s.stepper.cfgd = true → s.stepper.config = some c → s.stepper.power = some w → s.quantum = 0 →
    (rampLegal s.params c.stepsPerRev n rpm = true →
      (∃ t, exec (.ramp n rpm) s = .next t ∧ profileHeld s t (rampProfile c n rpm).1 ∧
        t.stepper.rampPhase = .done ∧ t.stepper.trace = s.stepper.trace) ∧
      ∃ t, exec (.step n d rpm true) s = .next t ∧ profileHeld s t (rampProfile c n rpm).1 ∧
        t.stepper.sqPhase = .build ∧ t.stepper.trace = s.stepper.trace) ∧
    (constantLegal s.params c.stepsPerRev n rpm = true →
      ∃ t, exec (.step n d rpm false) s = .next t ∧ profileHeld s t (List.replicate n.toNat (delayAt c.stepsPerRev rpm)) ∧
        t.stepper.sqPhase = .build ∧ t.stepper.trace = s.stepper.trace)

/-- R128, R133 property 1: the profile has `2 * floor(n / 2)` entries, one less than `n` for an odd `n`. -/
def Obligations.RampLengthIsTwiceTheHalf : Prop :=
  ∀ (c : StepperConfig) (n : Count) (rpm : F64), (rampProfile c n rpm).1.length = 2 * (n.toNat / 2)

/-- R133 property 2: the profile is a palindrome. -/
def Obligations.RampIsPalindrome : Prop :=
  ∀ (c : StepperConfig) (n : Count) (rpm : F64), (rampProfile c n rpm).1.reverse = (rampProfile c n rpm).1

/-- R123, R124: entry `i` of the first half is the delay after `i` passes of the body where every speed up to then is below
the target, and the target delay from the first speed that is not. -/
def Obligations.RampFirstHalfFollowsTheLoop : Prop :=
  ∀ (c : StepperConfig) (n : Count) (rpm : F64) (i : Nat), i < n.toNat / 2 →
    ((∀ j ≤ i, realLt (rampAfter c n rpm j).curRpm rpm = true) →
      (rampProfile c n rpm).1[i]? = some (rampAfter c n rpm i).delay) ∧
    ((∃ j ≤ i, realLt (rampAfter c n rpm j).curRpm rpm = false) →
      (rampProfile c n rpm).1[i]? = some (delayAt c.stepsPerRev rpm))

/-- R121 to R123: the registers the loop starts with, and one pass of its body, each operator rounded once. -/
def Obligations.RampPassRecurrence : Prop :=
  ∀ (c : StepperConfig) (n : Count) (rpm : F64) (k : Nat),
    let r := rampAfter c n rpm k
    let r' := rampAfter c n rpm (k + 1)
    (rampAfter c n rpm 0).elapsed = 0 ∧ (rampAfter c n rpm 0).curRpm = c.startingRpm ∧
    (rampAfter c n rpm 0).delay =
      realDiv (realOfNat 60) (realMul (realOfNat c.stepsPerRev.toNat) c.startingRpm) ∧
    r'.elapsed = realAdd r.elapsed r.delay ∧
    r'.curRpm = realAdd c.startingRpm (realMul r'.elapsed c.acceleration) ∧
    r'.delay = realDiv (realOfNat 60) (realMul (realOfNat c.stepsPerRev.toNat) r'.curRpm)

/-- R129, R133 property 4: a target at or below the starting speed gives a profile of target delays alone. -/
def Obligations.DegenerateRampIsConstant : Prop :=
  ∀ (c : StepperConfig) (n : Count) (rpm : F64), realLe rpm c.startingRpm = true →
    (rampProfile c n rpm).1 = List.replicate (2 * (n.toNat / 2)) (delayAt c.stepsPerRev rpm)

/-- R133 property 3: over the whole first half successive delays do not increase, for a legal configuration and target. -/
def Obligations.RampUpDelaysDoNotIncrease : Prop :=
  ∀ (c : StepperConfig) (n : Count) (rpm : F64) (i : Nat) (x y : F64), stepperConfigGood c →
    speedLegal c.stepsPerRev rpm = true → i + 1 < n.toNat / 2 →
    (rampProfile c n rpm).1[i]? = some x → (rampProfile c n rpm).1[i + 1]? = some y → realLe y x = true

/-- R132: for a legal configuration and target every delay of the profile is finite and at least 0, and is the target
delay or at most the starting delay. -/
def Obligations.RampDelaysAreFinite : Prop :=
  ∀ (c : StepperConfig) (n : Count) (rpm x : F64), stepperConfigGood c → speedLegal c.stepsPerRev rpm = true →
    x ∈ (rampProfile c n rpm).1 → realFinite x = true ∧ realLe 0#64 x = true ∧
      (x = delayAt c.stepsPerRev rpm ∨ realLe x (delayAt c.stepsPerRev c.startingRpm) = true)

/-! ### Motion (spec/42_motion_sequencer.md) -/

/-- R151: `WAKE` writes 1 to the sleep pin and waits `T_SETTLE` where there is a sleep pin, in either power state, and the
power state is AWAKE; nothing else changes. Its word is `0x14`, and `NotConfigured` is its only exception. -/
def Obligations.WakeCompletes : Prop :=
  encode .wake = ⟨0x14, []⟩ ∧ ∀ s : State, s.stepper.busy = false → 4 ≤ s.quantum →
    (∀ c : StepperConfig, s.stepper.cfgd = true → s.stepper.config = some c →
      exec .wake s = .next (stepperDone s
        (if c.sleepPin.getLsbD 8 then [.wr (c.sleepPin.extractLsb' 0 8) true, .wait s.params.tSettle] else [])
        .ok .none { s.stepper with power := some .awake })) ∧
    (s.stepper.cfgd = false → exec .wake s = .next (stepperDone s [] .notConfigured .none s.stepper))

/-- R153: `SLEEP` writes 0 to the sleep pin where there is one, in either power state, waits for nothing, and the power
state is ASLEEP; nothing else changes. Its word is `0x15`, and `NotConfigured` is its only exception. -/
def Obligations.SleepCompletes : Prop :=
  encode .sleep = ⟨0x15, []⟩ ∧ ∀ s : State, s.stepper.busy = false → 3 ≤ s.quantum →
    (∀ c : StepperConfig, s.stepper.cfgd = true → s.stepper.config = some c →
      exec .sleep s = .next (stepperDone s
        (if c.sleepPin.getLsbD 8 then [.wr (c.sleepPin.extractLsb' 0 8) false] else [])
        .ok .none { s.stepper with power := some .asleep })) ∧
    (s.stepper.cfgd = false → exec .sleep s = .next (stepperDone s [] .notConfigured .none s.stepper))

/-- R155 to R157: a `STEP` that is not cancelled wakes the driver if it is asleep, writes the direction pin once, pulses
once for each entry of its profile, each pulse followed by its hold, and responds with the number of pulses. It leaves the
power state AWAKE (R150), the cancellation request clear, the sequencer idle, and writes no other register but the
profile's and, with the ramp, the ramp's. -/
def Obligations.StepCompletes : Prop :=
  ∀ (n : Count) (d : Bool) (rpm : F64) (useRamp : Bool) (s : State) (c : StepperConfig) (w : Power)
    (profile : List F64), s.stepper.busy = false → s.stepper.cfgd = true → s.stepper.config = some c →
    s.stepper.power = some w →
    ((useRamp = true ∧ rampLegal s.params c.stepsPerRev n rpm = true ∧ profile = (rampProfile c n rpm).1) ∨
      (useRamp = false ∧ constantLegal s.params c.stepsPerRev n rpm = true ∧
        profile = List.replicate n.toNat (delayAt c.stepsPerRev rpm))) →
    8 + 5 * profile.length ≤ s.quantum →
    ∃ (rg : Option RampRegs) (ph : RgPhase) (prof : Memory) (len : Option Count) (tick : Nat),
      exec (.step n d rpm useRamp) s = .next (stepperDone s (stepEvents s.params c w d profile) .ok
        (.pulses (BitVec.ofNat 32 profile.length))
        { s.stepper with
          power := some .awake, cancelReq := false, ramp := rg, rampPhase := ph, prof := prof, profLen := len
          tick := tick }) ∧
      (useRamp = true → ph = .idle) ∧ (useRamp = false → rg = s.stepper.ramp ∧ ph = s.stepper.rampPhase)

/-- R160: `STP_CANCEL` is accepted in every state and records its request exactly while a `STEP` runs, in one indivisible
step beside the running command, which it leaves as it is (spec/60_exceptions.md R231). Without `HAS_CANCEL` its word is
reserved. R232 names a `STEP` alone as the command whose response it may precede; that it also precedes the response of a
running `WAKE`, `RAMP`, `STP_CONFIG` or other command is the model's choice (log 27). -/
def Obligations.StpCancelCompletes : Prop :=
  ∀ s : State,
    (s.params.hasCancel = true → canAccept .stpCancel s = true ∧
      exec .stpCancel s = .next { s with
        stepper := { s.stepper with
          cancelReq := if s.stepper.sqPhase = .idle then s.stepper.cancelReq else true
          response := some ⟨.ok, .none⟩
          trace := s.stepper.trace ++ [.resp .ok .none] }
        order := s.order ++ [.stepper] }) ∧
    (s.params.hasCancel = false → s.stepper.busy = false → 1 ≤ s.quantum →
      exec .stpCancel s = .next (stepperDone s [] .unknownCommand .none s.stepper))

/-- R157, R161: at the check before a pulse a recorded request ends the `STEP`, with the pulses emitted so far as its
result and no further event. -/
def Obligations.CancelIsHonouredBeforeAPulse : Prop :=
  ∀ (s : State) (k : Nat) (len : Count), s.stepper.todo = [.pulse] → s.stepper.profLen = some len →
    s.stepper.sqIndex.toNat < len.toNat → s.params.hasCancel = true → s.stepper.cancelReq = true → 1 ≤ k →
    ∃ (prof : Memory) (len' : Option Count) (tick : Nat),
      runStepper k s = .next (stepperDone s [] .ok (.pulses s.stepper.sqIndex)
        { s.stepper with cancelReq := false, prof := prof, profLen := len', tick := tick })

/-- spec/70_reset_and_hazards.md R257: once the step pin is high, the pulse runs to its end, cancelled or not: the pin goes
low, the pulse is counted, and its hold is performed before the next check. -/
def Obligations.PulseIsNeverCutShort : Prop :=
  ∀ (s : State) (c : StepperConfig) (i : Nat) (d : F64), s.stepper.todo = pulseRest s.params i →
    s.stepper.config = some c → i < s.params.profileDepth → memRead s.stepper.prof i = some d →
    let es : List Event := waitEvents s.params.tStepHigh ++ [.wr c.stepPin false, .wait d]
    runStepper es.length s = .next { s with
      stepper := { s.stepper with
        sqIndex := s.stepper.sqIndex + 1, todo := [.pulse], trace := s.stepper.trace ++ es }
      order := s.order ++ List.replicate es.length .stepper }

/-- R161: a request recorded during pulse `i` of a longer profile ends the `STEP` after that pulse and its hold, with
`i + 1` pulses. -/
def Obligations.CancelDuringPulseEndsAfterIt : Prop :=
  ∀ (s : State) (c : StepperConfig) (i : Nat) (d : F64) (len : Count), s.stepper.todo = pulseRest s.params i →
    s.stepper.config = some c → i < s.params.profileDepth → memRead s.stepper.prof i = some d →
    s.stepper.profLen = some len → s.stepper.sqIndex = BitVec.ofNat 32 i → i + 1 < len.toNat →
    s.params.hasCancel = true → s.stepper.cancelReq = true →
    let es : List Event := waitEvents s.params.tStepHigh ++ [.wr c.stepPin false, .wait d]
    ∃ (prof : Memory) (len' : Option Count) (tick : Nat),
      runStepper (es.length + 1) s = .next (stepperDone s es .ok (.pulses (BitVec.ofNat 32 (i + 1)))
        { s.stepper with cancelReq := false, prof := prof, profLen := len', tick := tick })

/-! ### The HX711 protocol (spec/43_hx711_decoder.md) -/

/-- R186, R187, R189: `HX_READ_CYCLE` polls until the data line reads 0, reads the 24 bits most significant first, gives the
extra pulses and responds with the sign-extended Reading. Only the protocol registers are written (unspecified after the
cycle, spec/10_state.md R36), and `HX.READING` is 0 again. -/
def Obligations.HxReadCycleCompletes : Prop :=
  ∀ (s : State) (c : HxConfig) (g : Nat) (raw : BitVec 24) (rest : List Level), s.hx.busy = false →
    s.hx.cfgd = true → s.hx.config = some c → s.hx.reading = false →
    s.hx.levels = cycleLevels (g, raw) ++ rest → cycleQuantum (g, raw) ≤ s.quantum →
    ∃ (acc : Option (BitVec 24)) (bits : Option (BitVec 5)) (pulses : Option (BitVec 2)) (tick : Nat),
      exec .hxReadCycle s = .next (hxDone s (cycleEvents s.params c (g, raw)) .ok (.reading (raw.signExtend 32))
        { s.hx with
          reading := false, phase := .idle, levels := rest, acc := acc, bitCnt := bits, pulseCnt := pulses
          tick := tick })

/-- R191, R192: `HX_GET_READING(n)` performs `n` cycles, each gated by its own ready condition, and responds with the exact
integer sum of the Readings over `n`, rounded once. That a sum of exactly 0 gives the pattern of +0 is the model's choice
(log 25). -/
def Obligations.HxGetReadingCompletes : Prop :=
  ∀ (n : Count) (s : State) (c : HxConfig) (cycles : List (Nat × BitVec 24)) (rest : List Level), n ≠ 0 →
    cycles.length = n.toNat → s.hx.busy = false → s.hx.cfgd = true → s.hx.config = some c →
    s.hx.reading = false → s.hx.levels = cycles.flatMap cycleLevels ++ rest →
    (cycles.map cycleQuantum).sum ≤ s.quantum →
    ∃ (acc : Option (BitVec 24)) (bits : Option (BitVec 5)) (pulses : Option (BitVec 2)) (sum : Option (BitVec 64))
      (obs : Option Count) (tick : Nat),
      exec (.hxGetReading n) s = .next (hxDone s (cycles.flatMap (cycleEvents s.params c)) .ok
        (.mean (realRound (decide (readingSum cycles < 0)) (realOne * (readingSum cycles).natAbs) n.toNat))
        { s.hx with
          reading := false, phase := .idle, levels := rest, acc := acc, bitCnt := bits, pulseCnt := pulses, sum := sum
          obs := obs, tick := tick })

/-- R186, spec/70_reset_and_hazards.md R259: the poll has no timeout: after whatever number `g` of polls the command is
still polling, with no response and no cycle begun. With no cycle running each poll is a read of 1; while an edge-triggered
cycle runs the gate is closed with no read at all (R190), and only the poll's own waits are performed. -/
def Obligations.PollHasNoTimeout : Prop :=
  ∀ (s : State) (g : Nat) (n : Count), s.hx.busy = false → s.hx.cfgd = true → n ≠ 0 →
    let w := waitEvents s.params.tPoll
    s.quantum = g * (1 + w.length) →
    (∀ (c : HxConfig) (rest : List Level), s.hx.config = some c → s.hx.reading = false →
      s.hx.levels = List.replicate g true ++ rest →
      let polling : Hx711 := { s.hx with
        busy := true, levels := rest
        trace := s.hx.trace ++ (List.replicate g ([Event.rd c.dataPin true] ++ w)).flatten }
      exec .hxReadCycle s = .next { s with
        hx := { polling with todo := [.poll .respond] }
        order := s.order ++ List.replicate s.quantum .hx711 } ∧
      exec (.hxGetReading n) s = .next { s with
        hx := { polling with todo := [.poll (.average n)], sum := some 0, obs := some 0 }
        order := s.order ++ List.replicate s.quantum .hx711 }) ∧
    (s.hx.reading = true →
      let polling : Hx711 := { s.hx with
        busy := true, trace := s.hx.trace ++ (List.replicate g w).flatten }
      exec .hxReadCycle s = .next { s with
        hx := { polling with todo := [.poll .respond] }
        order := s.order ++ List.replicate (g * w.length) .hx711 } ∧
      exec (.hxGetReading n) s = .next { s with
        hx := { polling with todo := [.poll (.average n)], sum := some 0, obs := some 0 }
        order := s.order ++ List.replicate (g * w.length) .hx711 })

/-- R195: an `HX_EDGE` at a configured unit with edges on, no cycle running and the line low performs one cycle and emits
its Reading on the result port, with no response; BUSY, the host's command and its sum stay as they are. -/
def Obligations.HxEdgeCompletes : Prop :=
  ∀ (s : State) (c : HxConfig) (raw : BitVec 24) (rest : List Level), s.hx.cfgd = true → s.hx.edgeEn = true →
    s.hx.config = some c → s.hx.reading = false → s.hx.edgeTodo = [] →
    s.hx.levels = cycleLevels (0, raw) ++ rest → cycleQuantum (0, raw) ≤ s.quantum →
    ∃ (acc : Option (BitVec 24)) (bits : Option (BitVec 5)) (pulses : Option (BitVec 2)) (tick : Nat),
      exec .hxEdge s = .next { s with
        hx := { s.hx with
          reading := false, phase := .idle, levels := rest, acc := acc, bitCnt := bits, pulseCnt := pulses
          resultPort := some (raw.signExtend 32)
          trace := s.hx.trace ++ cycleEvents s.params c (0, raw) ++ [.emit (raw.signExtend 32)]
          tick := tick }
        order := s.order ++ List.replicate ((cycleEvents s.params c (0, raw)).length + 1) .hx711 }

/-- R195, R196: an `HX_EDGE` at a unit that is not configured, has edges off, or is reading performs nothing and leaves
nothing pending; one whose gate read is 1 performs that read alone. -/
def Obligations.HxEdgeIgnored : Prop :=
  ∀ s : State,
    (s.hx.cfgd = false ∨ s.hx.edgeEn = false ∨ s.hx.reading = true → exec .hxEdge s = .next s) ∧
    ∀ (c : HxConfig) (rest : List Level), s.hx.cfgd = true → s.hx.edgeEn = true → s.hx.config = some c →
      s.hx.reading = false → s.hx.levels = true :: rest →
      exec .hxEdge s = .next { s with
        hx := { s.hx with levels := rest, trace := s.hx.trace ++ [.rd c.dataPin true] }
        order := s.order ++ [.hx711] }

/-- R188: the Reading is the 24-bit value sign-extended to 32 bits: as an integer, `a - 2^24` where bit 23 is set and `a`
where it is not. -/
def Obligations.SignExtensionOfReadings : Prop :=
  ∀ a : BitVec 24, signExtend24 a = a.signExtend 32 ∧
    (signExtend24 a).toInt = if a.getLsbD 23 then (a.toNat : Int) - (2 ^ 24 : Int) else (a.toNat : Int)

/-! ### Arithmetic (spec/00_scope.md R8, R11) -/

/-- R11, D5: the one rounding every real operator ends in gives a value nearest to the exact one among all finite binary64
values, the one with an even last bit where another is as near, with the exact value's sign; it is an infinity exactly
from halfway between the largest finite value and 2^1024 on, and never a NaN. Of finite operands the four operators are
the exact result rounded once by it (magnitudes in units of 2^-1074), the conversion of an integer below 2^53 is exact, and
the comparisons are exact. With an infinite operand (R132) a sum and a product are infinite, a quotient by it is zero, and
it lies beyond every finite value; no comparison with a NaN is true. The sign of an exact zero sum is that of IEEE 754,
which R8 names. -/
def Obligations.RoundingIsToNearestEven : Prop :=
  (∀ (neg : Bool) (num den : Nat), 0 < den →
    (if overflowFrom * den ≤ num then realUnpack (realRound neg num den) = .inf neg
     else ∃ m : Nat, realUnpack (realRound neg num den) = .fin neg m ∧
       ∀ (x : F64) (b : Bool) (q : Nat), realUnpack x = .fin b q →
         let dm := Int.natAbs (((m * den : Nat) : Int) - (num : Int))
         let dq := Int.natAbs (((q * den : Nat) : Int) - (num : Int))
         dm ≤ dq ∧ (q ≠ m → dm = dq → (realRound neg num den).getLsbD 0 = false))) ∧
  (∀ (x y : F64) (a b : Bool) (m n : Nat), realUnpack x = .fin a m → realUnpack y = .fin b n →
    let sx : Int := if a then -(m : Int) else m
    let sy : Int := if b then -(n : Int) else n
    realAdd x y = realRound (if sx + sy = 0 then a && b else decide (sx + sy < 0)) (sx + sy).natAbs 1 ∧
    realSub x y = realRound (if sx - sy = 0 then a && !b else decide (sx - sy < 0)) (sx - sy).natAbs 1 ∧
    realMul x y = realRound (a ^^ b) (m * n) realOne ∧
    (n ≠ 0 → realDiv x y = realRound (a ^^ b) (realOne * m) n) ∧
    realLt x y = decide (sx < sy) ∧ realLe x y = decide (sx ≤ sy)) ∧
  (∀ n : Nat, n < 2 ^ 53 → realUnpack (realOfNat n) = .fin false (realOne * n)) ∧
  (∀ (x y : F64) (a b : Bool) (m : Nat), realUnpack x = .fin a m → realUnpack y = .inf b →
    realUnpack (realAdd x y) = .inf b ∧ realUnpack (realAdd y x) = .inf b ∧
    (m ≠ 0 → realUnpack (realMul x y) = .inf (a ^^ b) ∧ realUnpack (realMul y x) = .inf (a ^^ b)) ∧
    realUnpack (realDiv x y) = .fin (a ^^ b) 0 ∧ realLt x y = !b ∧ realLe x y = !b ∧ realLt y x = b ∧
    realLe y x = b) ∧
  ∀ x y : F64, realUnpack x = .nan ∨ realUnpack y = .nan → realLt x y = false ∧ realLe x y = false

/-! ### Frames and isolation -/

/-- R42: a STEPPER command changes nothing of the HX711 unit and an HX711 command nothing of the STEPPER unit; neither
changes anything outside the units but the merge order. -/
def Obligations.CommandsLeaveTheOtherUnitAlone : Prop :=
  ∀ (i : Instr) (s t : State), exec i s = .next t →
    outsideKept s t ∧
    (i.opcode ∈ [.stpConfig, .msEncode, .stpSetMicrostep, .ramp, .wake, .sleep, .step, .stpCancel] → t.hx = s.hx) ∧
    (i.opcode ∈ [.hxConfig, .hxReadCycle, .hxGetReading, .hxEdge] → t.stepper = s.stepper)

/-- Frame of the STEPPER commands, for any number of actions run: the configuration registers but those of `STP_CONFIG` and
`STP_SET_MICROSTEP` (R104, R109), CFGD but `STP_CONFIG`'s, the power state but for `STP_CONFIG`, `WAKE`, `SLEEP` and `STEP`
(R26), the cancellation request but for `STP_CONFIG`, `STEP` and `STP_CANCEL` (R28). -/
def Obligations.StepperRegisterFrame : Prop :=
  ∀ (i : Instr) (s t : State), exec i s = .next t →
    (i.opcode ∈ [.msEncode, .ramp, .wake, .sleep, .step, .stpCancel] → t.stepper.config = s.stepper.config) ∧
    (i.opcode ∈ [.msEncode, .stpSetMicrostep, .ramp, .wake, .sleep, .step, .stpCancel] →
      t.stepper.cfgd = s.stepper.cfgd) ∧
    (i.opcode ∈ [.msEncode, .stpSetMicrostep, .ramp, .stpCancel] → t.stepper.power = s.stepper.power) ∧
    (i.opcode ∈ [.msEncode, .stpSetMicrostep, .ramp, .wake, .sleep] →
      t.stepper.cancelReq = s.stepper.cancelReq)

/-- Frame of the STEPPER commands over the ramp generator and the profile memory: every entry of `PROF`, `PROF_LEN` and the
`RG` registers stay but for `RAMP` and `STEP`, and the `RG` registers also for a `STEP` without the ramp (R127, R157). -/
def Obligations.ProfileMemoryFrame : Prop :=
  ∀ (i : Instr) (s t : State), exec i s = .next t →
    (i.opcode ∈ [.stpConfig, .msEncode, .stpSetMicrostep, .wake, .sleep, .stpCancel] →
      (∀ entry, memRead t.stepper.prof entry = memRead s.stepper.prof entry) ∧
      t.stepper.profLen = s.stepper.profLen) ∧
    (i.opcode ∈ [.stpConfig, .msEncode, .stpSetMicrostep, .wake, .sleep, .stpCancel] ∨
        (∃ n d rpm, i = .step n d rpm false) →
      t.stepper.ramp = s.stepper.ramp ∧ t.stepper.rampPhase = s.stepper.rampPhase)

/-- R109: of the configuration `STP_SET_MICROSTEP` changes the denominator and its pattern alone, and only together, to a
key of the configured model's table. -/
def Obligations.SetMicrostepWritesTwoRegisters : Prop :=
  ∀ (d : Count) (s t : State) (c : StepperConfig), exec (.stpSetMicrostep d) s = .next t →
    s.stepper.config = some c →
    t.stepper.config = some c ∨ ∃ pattern, msEncode c.model d = some pattern ∧
      t.stepper.config = some { c with microstep := d.setWidth 6, msPattern := pattern }

/-- Frame of the HX711 unit's host commands: only `HX_CONFIG` writes the configuration registers, CFGD and EDGE_EN (R184,
R32); it writes none of the accumulator, the counters, the sum and the count; none of them touches the result port or the
edge dispatcher's cycle. -/
def Obligations.HxCommandFrame : Prop :=
  ∀ (i : Instr) (s t : State), exec i s = .next t →
    (i.opcode ∈ [.hxReadCycle, .hxGetReading] →
      t.hx.cfgd = s.hx.cfgd ∧ t.hx.config = s.hx.config ∧ t.hx.edgeEn = s.hx.edgeEn) ∧
    (i.opcode = .hxConfig → t.hx.acc = s.hx.acc ∧ t.hx.bitCnt = s.hx.bitCnt ∧ t.hx.pulseCnt = s.hx.pulseCnt ∧
      t.hx.sum = s.hx.sum ∧ t.hx.obs = s.hx.obs ∧ t.hx.levels = s.hx.levels) ∧
    (i.opcode ∈ [.hxConfig, .hxReadCycle, .hxGetReading] →
      t.hx.resultPort = s.hx.resultPort ∧ t.hx.edgeTodo = s.hx.edgeTodo) ∧
    (i.opcode = .hxReadCycle → t.hx.sum = s.hx.sum ∧ t.hx.obs = s.hx.obs)

/-- Frame of `HX_EDGE` (R195): it writes no configuration register, not BUSY, not the response port, and neither the sum
nor the count nor the rest of a host command in progress. -/
def Obligations.HxEdgeFrame : Prop :=
  ∀ s t : State, exec .hxEdge s = .next t → s.hx.edgeTodo = [] →
    t.hx.cfgd = s.hx.cfgd ∧ t.hx.config = s.hx.config ∧ t.hx.edgeEn = s.hx.edgeEn ∧ t.hx.busy = s.hx.busy ∧
    t.hx.response = s.hx.response ∧ t.hx.sum = s.hx.sum ∧ t.hx.obs = s.hx.obs ∧ t.hx.todo = s.hx.todo

/-- spec/20_memory.md R74: moves of the two units commute: in either order each unit ends the same, with the same trace. -/
def Obligations.UnitMovesCommute : Prop :=
  ∀ (j k : Nat) (s a b a' b' : State),
    (runStepper j s = .next a → runHx k a = .next b → runHx k s = .next a' → runStepper j a' = .next b' →
      b'.stepper = b.stepper ∧ b'.hx = b.hx) ∧
    (runStepper j s = .next a → runEdge k a = .next b → runEdge k s = .next a' → runStepper j a' = .next b' →
      b'.stepper = b.stepper ∧ b'.hx = b.hx)

end
end

