-- ==== Sys2Proof/Laws/Outcome.lean ====
section
/-! SUPPORT. What `andThen` and `readReg` answer. -/

namespace Sys2Proof.Machine

@[simp] theorem andThen_next {α β : Type} (a : α) (k : α → Host.Outcome β Fault Refusal) :
    andThen (.next a) k = k a := rfl

@[simp] theorem andThen_fault {α β : Type} (r : Fault) (k : α → Host.Outcome β Fault Refusal) :
    andThen (.fault r) k = .fault r := rfl

@[simp] theorem andThen_refused {α β : Type} (r : Refusal) (k : α → Host.Outcome β Fault Refusal) :
    andThen (.refused r) k = .refused r := rfl

theorem andThen_eq_next {α β : Type} {o : Host.Outcome α Fault Refusal}
    {k : α → Host.Outcome β Fault Refusal} {b : β} : andThen o k = .next b ↔ ∃ a, o = .next a ∧ k a = .next b := by
  cases o <;> simp

theorem andThen_eq_fault {α β : Type} {o : Host.Outcome α Fault Refusal} {k : α → Host.Outcome β Fault Refusal}
    {f : Fault} : andThen o k = .fault f ↔ o = .fault f ∨ ∃ a, o = .next a ∧ k a = .fault f := by
  cases o <;> simp

theorem andThen_assoc {α β γ : Type} (o : Host.Outcome α Fault Refusal) (k : α → Host.Outcome β Fault Refusal)
    (l : β → Host.Outcome γ Fault Refusal) : andThen (andThen o k) l = andThen o fun a => andThen (k a) l := by
  cases o <;> rfl

@[simp] theorem readReg_some {α β : Type} (a : α) (r : RegName) (k : α → Host.Outcome β Fault Refusal) :
    readReg (some a) r k = k a := rfl

@[simp] theorem readReg_none {α β : Type} (r : RegName) (k : α → Host.Outcome β Fault Refusal) :
    readReg none r k = .fault (.unsetRegister r) := rfl

theorem readReg_eq_next {α β : Type} {v : Option α} {r : RegName} {k : α → Host.Outcome β Fault Refusal}
    {b : β} : readReg v r k = .next b ↔ ∃ a, v = some a ∧ k a = .next b := by
  cases v <;> simp

theorem readReg_eq_fault {α β : Type} {v : Option α} {r : RegName} {k : α → Host.Outcome β Fault Refusal}
    {f : Fault} : readReg v r k = .fault f ↔
      (v = none ∧ f = .unsetRegister r) ∨ ∃ a, v = some a ∧ k a = .fault f := by
  cases v <;> simp [eq_comm]

end Sys2Proof.Machine
end

