-- ==== Sys2Proof/Laws/State.lean ====
section
/-! SUPPORT. What each named update of Machine/Ops.lean, Sequencer.lean and Decoder.lean does to each field: one lemma a field, so that no proof unfolds
a record update. -/

namespace Sys2Proof.Machine

/-! ### onStepper -/

@[simp] theorem onStepper_stepper (f : Stepper → Stepper) (s : State) : (onStepper f s).stepper = f s.stepper := rfl
@[simp] theorem onStepper_hx (f : Stepper → Stepper) (s : State) : (onStepper f s).hx = s.hx := rfl
@[simp] theorem onStepper_params (f : Stepper → Stepper) (s : State) : (onStepper f s).params = s.params := rfl
@[simp] theorem onStepper_program (f : Stepper → Stepper) (s : State) : (onStepper f s).program = s.program := rfl
@[simp] theorem onStepper_hostResponse (f : Stepper → Stepper) (s : State) :
    (onStepper f s).hostResponse = s.hostResponse := rfl
@[simp] theorem onStepper_hostTrace (f : Stepper → Stepper) (s : State) :
    (onStepper f s).hostTrace = s.hostTrace := rfl
@[simp] theorem onStepper_order (f : Stepper → Stepper) (s : State) : (onStepper f s).order = s.order := rfl
@[simp] theorem onStepper_outsidePins (f : Stepper → Stepper) (s : State) :
    (onStepper f s).outsidePins = s.outsidePins := rfl
@[simp] theorem onStepper_turns (f : Stepper → Stepper) (s : State) : (onStepper f s).turns = s.turns := rfl
@[simp] theorem onStepper_quantum (f : Stepper → Stepper) (s : State) : (onStepper f s).quantum = s.quantum := rfl
@[simp] theorem onStepper_tick (f : Stepper → Stepper) (s : State) : (onStepper f s).tick = s.tick := rfl

/-! ### onHx -/

@[simp] theorem onHx_stepper (f : Hx711 → Hx711) (s : State) : (onHx f s).stepper = s.stepper := rfl
@[simp] theorem onHx_hx (f : Hx711 → Hx711) (s : State) : (onHx f s).hx = f s.hx := rfl
@[simp] theorem onHx_params (f : Hx711 → Hx711) (s : State) : (onHx f s).params = s.params := rfl
@[simp] theorem onHx_program (f : Hx711 → Hx711) (s : State) : (onHx f s).program = s.program := rfl
@[simp] theorem onHx_hostResponse (f : Hx711 → Hx711) (s : State) : (onHx f s).hostResponse = s.hostResponse := rfl
@[simp] theorem onHx_hostTrace (f : Hx711 → Hx711) (s : State) : (onHx f s).hostTrace = s.hostTrace := rfl
@[simp] theorem onHx_order (f : Hx711 → Hx711) (s : State) : (onHx f s).order = s.order := rfl
@[simp] theorem onHx_outsidePins (f : Hx711 → Hx711) (s : State) : (onHx f s).outsidePins = s.outsidePins := rfl
@[simp] theorem onHx_turns (f : Hx711 → Hx711) (s : State) : (onHx f s).turns = s.turns := rfl
@[simp] theorem onHx_quantum (f : Hx711 → Hx711) (s : State) : (onHx f s).quantum = s.quantum := rfl
@[simp] theorem onHx_tick (f : Hx711 → Hx711) (s : State) : (onHx f s).tick = s.tick := rfl

/-! ### stpLog -/

@[simp] theorem stpLog_stepper_cfgd (e : Event) (s : State) : (stpLog e s).stepper.cfgd = s.stepper.cfgd := rfl
@[simp] theorem stpLog_stepper_config (e : Event) (s : State) : (stpLog e s).stepper.config = s.stepper.config := rfl
@[simp] theorem stpLog_stepper_power (e : Event) (s : State) : (stpLog e s).stepper.power = s.stepper.power := rfl
@[simp] theorem stpLog_stepper_busy (e : Event) (s : State) : (stpLog e s).stepper.busy = s.stepper.busy := rfl
@[simp] theorem stpLog_stepper_cancelReq (e : Event) (s : State) :
    (stpLog e s).stepper.cancelReq = s.stepper.cancelReq := rfl
@[simp] theorem stpLog_stepper_ramp (e : Event) (s : State) : (stpLog e s).stepper.ramp = s.stepper.ramp := rfl
@[simp] theorem stpLog_stepper_rampPhase (e : Event) (s : State) :
    (stpLog e s).stepper.rampPhase = s.stepper.rampPhase := rfl
@[simp] theorem stpLog_stepper_prof (e : Event) (s : State) : (stpLog e s).stepper.prof = s.stepper.prof := rfl
@[simp] theorem stpLog_stepper_profLen (e : Event) (s : State) :
    (stpLog e s).stepper.profLen = s.stepper.profLen := rfl
@[simp] theorem stpLog_stepper_sqIndex (e : Event) (s : State) :
    (stpLog e s).stepper.sqIndex = s.stepper.sqIndex := rfl
@[simp] theorem stpLog_stepper_sqPhase (e : Event) (s : State) :
    (stpLog e s).stepper.sqPhase = s.stepper.sqPhase := rfl
@[simp] theorem stpLog_stepper_response (e : Event) (s : State) :
    (stpLog e s).stepper.response = s.stepper.response := rfl
@[simp] theorem stpLog_stepper_trace (e : Event) (s : State) :
    (stpLog e s).stepper.trace = s.stepper.trace ++ [e] := rfl
@[simp] theorem stpLog_stepper_todo (e : Event) (s : State) : (stpLog e s).stepper.todo = s.stepper.todo := rfl
@[simp] theorem stpLog_stepper_answers (e : Event) (s : State) :
    (stpLog e s).stepper.answers = s.stepper.answers := rfl
@[simp] theorem stpLog_stepper_tick (e : Event) (s : State) : (stpLog e s).stepper.tick = s.stepper.tick := rfl
@[simp] theorem stpLog_hx (e : Event) (s : State) : (stpLog e s).hx = s.hx := rfl
@[simp] theorem stpLog_params (e : Event) (s : State) : (stpLog e s).params = s.params := rfl
@[simp] theorem stpLog_program (e : Event) (s : State) : (stpLog e s).program = s.program := rfl
@[simp] theorem stpLog_hostResponse (e : Event) (s : State) : (stpLog e s).hostResponse = s.hostResponse := rfl
@[simp] theorem stpLog_hostTrace (e : Event) (s : State) : (stpLog e s).hostTrace = s.hostTrace := rfl
@[simp] theorem stpLog_order (e : Event) (s : State) : (stpLog e s).order = s.order ++ [.stepper] := rfl
@[simp] theorem stpLog_outsidePins (e : Event) (s : State) : (stpLog e s).outsidePins = s.outsidePins := rfl
@[simp] theorem stpLog_turns (e : Event) (s : State) : (stpLog e s).turns = s.turns := rfl
@[simp] theorem stpLog_quantum (e : Event) (s : State) : (stpLog e s).quantum = s.quantum := rfl
@[simp] theorem stpLog_tick (e : Event) (s : State) : (stpLog e s).tick = s.tick := rfl

/-! ### stpTodo -/

@[simp] theorem stpTodo_stepper_cfgd (l : List StpOp) (s : State) : (stpTodo l s).stepper.cfgd = s.stepper.cfgd := rfl
@[simp] theorem stpTodo_stepper_config (l : List StpOp) (s : State) :
    (stpTodo l s).stepper.config = s.stepper.config := rfl
@[simp] theorem stpTodo_stepper_power (l : List StpOp) (s : State) :
    (stpTodo l s).stepper.power = s.stepper.power := rfl
@[simp] theorem stpTodo_stepper_busy (l : List StpOp) (s : State) : (stpTodo l s).stepper.busy = s.stepper.busy := rfl
@[simp] theorem stpTodo_stepper_cancelReq (l : List StpOp) (s : State) :
    (stpTodo l s).stepper.cancelReq = s.stepper.cancelReq := rfl
@[simp] theorem stpTodo_stepper_ramp (l : List StpOp) (s : State) : (stpTodo l s).stepper.ramp = s.stepper.ramp := rfl
@[simp] theorem stpTodo_stepper_rampPhase (l : List StpOp) (s : State) :
    (stpTodo l s).stepper.rampPhase = s.stepper.rampPhase := rfl
@[simp] theorem stpTodo_stepper_prof (l : List StpOp) (s : State) : (stpTodo l s).stepper.prof = s.stepper.prof := rfl
@[simp] theorem stpTodo_stepper_profLen (l : List StpOp) (s : State) :
    (stpTodo l s).stepper.profLen = s.stepper.profLen := rfl
@[simp] theorem stpTodo_stepper_sqIndex (l : List StpOp) (s : State) :
    (stpTodo l s).stepper.sqIndex = s.stepper.sqIndex := rfl
@[simp] theorem stpTodo_stepper_sqPhase (l : List StpOp) (s : State) :
    (stpTodo l s).stepper.sqPhase = s.stepper.sqPhase := rfl
@[simp] theorem stpTodo_stepper_response (l : List StpOp) (s : State) :
    (stpTodo l s).stepper.response = s.stepper.response := rfl
@[simp] theorem stpTodo_stepper_trace (l : List StpOp) (s : State) :
    (stpTodo l s).stepper.trace = s.stepper.trace := rfl
@[simp] theorem stpTodo_stepper_todo (l : List StpOp) (s : State) : (stpTodo l s).stepper.todo = l := rfl
@[simp] theorem stpTodo_stepper_answers (l : List StpOp) (s : State) :
    (stpTodo l s).stepper.answers = s.stepper.answers := rfl
@[simp] theorem stpTodo_stepper_tick (l : List StpOp) (s : State) : (stpTodo l s).stepper.tick = s.stepper.tick := rfl
@[simp] theorem stpTodo_hx (l : List StpOp) (s : State) : (stpTodo l s).hx = s.hx := rfl
@[simp] theorem stpTodo_params (l : List StpOp) (s : State) : (stpTodo l s).params = s.params := rfl
@[simp] theorem stpTodo_program (l : List StpOp) (s : State) : (stpTodo l s).program = s.program := rfl
@[simp] theorem stpTodo_hostResponse (l : List StpOp) (s : State) : (stpTodo l s).hostResponse = s.hostResponse := rfl
@[simp] theorem stpTodo_hostTrace (l : List StpOp) (s : State) : (stpTodo l s).hostTrace = s.hostTrace := rfl
@[simp] theorem stpTodo_order (l : List StpOp) (s : State) : (stpTodo l s).order = s.order := rfl
@[simp] theorem stpTodo_outsidePins (l : List StpOp) (s : State) : (stpTodo l s).outsidePins = s.outsidePins := rfl
@[simp] theorem stpTodo_turns (l : List StpOp) (s : State) : (stpTodo l s).turns = s.turns := rfl
@[simp] theorem stpTodo_quantum (l : List StpOp) (s : State) : (stpTodo l s).quantum = s.quantum := rfl
@[simp] theorem stpTodo_tick (l : List StpOp) (s : State) : (stpTodo l s).tick = s.tick := rfl

/-! ### stpRespond -/

@[simp] theorem stpRespond_stepper_cfgd (st : Status) (r : Result) (s : State) :
    (stpRespond st r s).stepper.cfgd = s.stepper.cfgd := rfl
@[simp] theorem stpRespond_stepper_config (st : Status) (r : Result) (s : State) :
    (stpRespond st r s).stepper.config = s.stepper.config := rfl
@[simp] theorem stpRespond_stepper_power (st : Status) (r : Result) (s : State) :
    (stpRespond st r s).stepper.power = s.stepper.power := rfl
@[simp] theorem stpRespond_stepper_busy (st : Status) (r : Result) (s : State) :
    (stpRespond st r s).stepper.busy = false := rfl
@[simp] theorem stpRespond_stepper_cancelReq (st : Status) (r : Result) (s : State) :
    (stpRespond st r s).stepper.cancelReq = s.stepper.cancelReq := rfl
@[simp] theorem stpRespond_stepper_ramp (st : Status) (r : Result) (s : State) :
    (stpRespond st r s).stepper.ramp = s.stepper.ramp := rfl
@[simp] theorem stpRespond_stepper_rampPhase (st : Status) (r : Result) (s : State) :
    (stpRespond st r s).stepper.rampPhase = s.stepper.rampPhase := rfl
@[simp] theorem stpRespond_stepper_prof (st : Status) (r : Result) (s : State) :
    (stpRespond st r s).stepper.prof = s.stepper.prof := rfl
@[simp] theorem stpRespond_stepper_profLen (st : Status) (r : Result) (s : State) :
    (stpRespond st r s).stepper.profLen = s.stepper.profLen := rfl
@[simp] theorem stpRespond_stepper_sqIndex (st : Status) (r : Result) (s : State) :
    (stpRespond st r s).stepper.sqIndex = 0 := rfl
@[simp] theorem stpRespond_stepper_sqPhase (st : Status) (r : Result) (s : State) :
    (stpRespond st r s).stepper.sqPhase = .idle := rfl
@[simp] theorem stpRespond_stepper_response (st : Status) (r : Result) (s : State) :
    (stpRespond st r s).stepper.response = some ⟨st, r⟩ := rfl
@[simp] theorem stpRespond_stepper_trace (st : Status) (r : Result) (s : State) :
    (stpRespond st r s).stepper.trace = s.stepper.trace ++ [.resp st r] := rfl
@[simp] theorem stpRespond_stepper_todo (st : Status) (r : Result) (s : State) :
    (stpRespond st r s).stepper.todo = [] := rfl
@[simp] theorem stpRespond_stepper_answers (st : Status) (r : Result) (s : State) :
    (stpRespond st r s).stepper.answers = s.stepper.answers := rfl
@[simp] theorem stpRespond_stepper_tick (st : Status) (r : Result) (s : State) :
    (stpRespond st r s).stepper.tick = s.stepper.tick := rfl
@[simp] theorem stpRespond_hx (st : Status) (r : Result) (s : State) : (stpRespond st r s).hx = s.hx := rfl
@[simp] theorem stpRespond_params (st : Status) (r : Result) (s : State) :
    (stpRespond st r s).params = s.params := rfl
@[simp] theorem stpRespond_program (st : Status) (r : Result) (s : State) :
    (stpRespond st r s).program = s.program := rfl
@[simp] theorem stpRespond_hostResponse (st : Status) (r : Result) (s : State) :
    (stpRespond st r s).hostResponse = s.hostResponse := rfl
@[simp] theorem stpRespond_hostTrace (st : Status) (r : Result) (s : State) :
    (stpRespond st r s).hostTrace = s.hostTrace := rfl
@[simp] theorem stpRespond_order (st : Status) (r : Result) (s : State) :
    (stpRespond st r s).order = s.order ++ [.stepper] := rfl
@[simp] theorem stpRespond_outsidePins (st : Status) (r : Result) (s : State) :
    (stpRespond st r s).outsidePins = s.outsidePins := rfl
@[simp] theorem stpRespond_turns (st : Status) (r : Result) (s : State) : (stpRespond st r s).turns = s.turns := rfl
@[simp] theorem stpRespond_quantum (st : Status) (r : Result) (s : State) :
    (stpRespond st r s).quantum = s.quantum := rfl
@[simp] theorem stpRespond_tick (st : Status) (r : Result) (s : State) : (stpRespond st r s).tick = s.tick := rfl

/-! ### stpRaise -/

@[simp] theorem stpRaise_stepper_cfgd (st : Status) (s : State) : (stpRaise st s).stepper.cfgd = s.stepper.cfgd := rfl
@[simp] theorem stpRaise_stepper_config (st : Status) (s : State) :
    (stpRaise st s).stepper.config = s.stepper.config := rfl
@[simp] theorem stpRaise_stepper_power (st : Status) (s : State) :
    (stpRaise st s).stepper.power = s.stepper.power := rfl
@[simp] theorem stpRaise_stepper_busy (st : Status) (s : State) : (stpRaise st s).stepper.busy = s.stepper.busy := rfl
@[simp] theorem stpRaise_stepper_cancelReq (st : Status) (s : State) :
    (stpRaise st s).stepper.cancelReq = s.stepper.cancelReq := rfl
@[simp] theorem stpRaise_stepper_ramp (st : Status) (s : State) : (stpRaise st s).stepper.ramp = s.stepper.ramp := rfl
@[simp] theorem stpRaise_stepper_rampPhase (st : Status) (s : State) :
    (stpRaise st s).stepper.rampPhase = s.stepper.rampPhase := rfl
@[simp] theorem stpRaise_stepper_prof (st : Status) (s : State) : (stpRaise st s).stepper.prof = s.stepper.prof := rfl
@[simp] theorem stpRaise_stepper_profLen (st : Status) (s : State) :
    (stpRaise st s).stepper.profLen = s.stepper.profLen := rfl
@[simp] theorem stpRaise_stepper_sqIndex (st : Status) (s : State) :
    (stpRaise st s).stepper.sqIndex = s.stepper.sqIndex := rfl
@[simp] theorem stpRaise_stepper_sqPhase (st : Status) (s : State) :
    (stpRaise st s).stepper.sqPhase = s.stepper.sqPhase := rfl
@[simp] theorem stpRaise_stepper_response (st : Status) (s : State) :
    (stpRaise st s).stepper.response = s.stepper.response := rfl
@[simp] theorem stpRaise_stepper_trace (st : Status) (s : State) :
    (stpRaise st s).stepper.trace = s.stepper.trace := rfl
@[simp] theorem stpRaise_stepper_todo (st : Status) (s : State) :
    (stpRaise st s).stepper.todo = [.resp st .none] := rfl
@[simp] theorem stpRaise_stepper_answers (st : Status) (s : State) :
    (stpRaise st s).stepper.answers = s.stepper.answers := rfl
@[simp] theorem stpRaise_stepper_tick (st : Status) (s : State) : (stpRaise st s).stepper.tick = s.stepper.tick := rfl
@[simp] theorem stpRaise_hx (st : Status) (s : State) : (stpRaise st s).hx = s.hx := rfl
@[simp] theorem stpRaise_params (st : Status) (s : State) : (stpRaise st s).params = s.params := rfl
@[simp] theorem stpRaise_program (st : Status) (s : State) : (stpRaise st s).program = s.program := rfl
@[simp] theorem stpRaise_hostResponse (st : Status) (s : State) : (stpRaise st s).hostResponse = s.hostResponse := rfl
@[simp] theorem stpRaise_hostTrace (st : Status) (s : State) : (stpRaise st s).hostTrace = s.hostTrace := rfl
@[simp] theorem stpRaise_order (st : Status) (s : State) : (stpRaise st s).order = s.order := rfl
@[simp] theorem stpRaise_outsidePins (st : Status) (s : State) : (stpRaise st s).outsidePins = s.outsidePins := rfl
@[simp] theorem stpRaise_turns (st : Status) (s : State) : (stpRaise st s).turns = s.turns := rfl
@[simp] theorem stpRaise_quantum (st : Status) (s : State) : (stpRaise st s).quantum = s.quantum := rfl
@[simp] theorem stpRaise_tick (st : Status) (s : State) : (stpRaise st s).tick = s.tick := rfl

/-! ### releaseRamp -/

@[simp] theorem releaseRamp_stepper_cfgd (s : State) : (releaseRamp s).stepper.cfgd = s.stepper.cfgd := rfl
@[simp] theorem releaseRamp_stepper_config (s : State) : (releaseRamp s).stepper.config = s.stepper.config := rfl
@[simp] theorem releaseRamp_stepper_power (s : State) : (releaseRamp s).stepper.power = s.stepper.power := rfl
@[simp] theorem releaseRamp_stepper_busy (s : State) : (releaseRamp s).stepper.busy = s.stepper.busy := rfl
@[simp] theorem releaseRamp_stepper_cancelReq (s : State) :
    (releaseRamp s).stepper.cancelReq = s.stepper.cancelReq := rfl
@[simp] theorem releaseRamp_stepper_ramp (s : State) :
    (releaseRamp s).stepper.ramp = some (freeRamp s.stepper.tick) := rfl
@[simp] theorem releaseRamp_stepper_rampPhase (s : State) : (releaseRamp s).stepper.rampPhase = .idle := rfl
@[simp] theorem releaseRamp_stepper_prof (s : State) : (releaseRamp s).stepper.prof = s.stepper.prof := rfl
@[simp] theorem releaseRamp_stepper_profLen (s : State) : (releaseRamp s).stepper.profLen = s.stepper.profLen := rfl
@[simp] theorem releaseRamp_stepper_sqIndex (s : State) : (releaseRamp s).stepper.sqIndex = s.stepper.sqIndex := rfl
@[simp] theorem releaseRamp_stepper_sqPhase (s : State) : (releaseRamp s).stepper.sqPhase = s.stepper.sqPhase := rfl
@[simp] theorem releaseRamp_stepper_response (s : State) :
    (releaseRamp s).stepper.response = s.stepper.response := rfl
@[simp] theorem releaseRamp_stepper_trace (s : State) : (releaseRamp s).stepper.trace = s.stepper.trace := rfl
@[simp] theorem releaseRamp_stepper_todo (s : State) : (releaseRamp s).stepper.todo = s.stepper.todo := rfl
@[simp] theorem releaseRamp_stepper_answers (s : State) : (releaseRamp s).stepper.answers = s.stepper.answers := rfl
@[simp] theorem releaseRamp_stepper_tick (s : State) : (releaseRamp s).stepper.tick = s.stepper.tick + 1 := rfl
@[simp] theorem releaseRamp_hx (s : State) : (releaseRamp s).hx = s.hx := rfl
@[simp] theorem releaseRamp_params (s : State) : (releaseRamp s).params = s.params := rfl
@[simp] theorem releaseRamp_program (s : State) : (releaseRamp s).program = s.program := rfl
@[simp] theorem releaseRamp_hostResponse (s : State) : (releaseRamp s).hostResponse = s.hostResponse := rfl
@[simp] theorem releaseRamp_hostTrace (s : State) : (releaseRamp s).hostTrace = s.hostTrace := rfl
@[simp] theorem releaseRamp_order (s : State) : (releaseRamp s).order = s.order := rfl
@[simp] theorem releaseRamp_outsidePins (s : State) : (releaseRamp s).outsidePins = s.outsidePins := rfl
@[simp] theorem releaseRamp_turns (s : State) : (releaseRamp s).turns = s.turns := rfl
@[simp] theorem releaseRamp_quantum (s : State) : (releaseRamp s).quantum = s.quantum := rfl
@[simp] theorem releaseRamp_tick (s : State) : (releaseRamp s).tick = s.tick := rfl

/-! ### releaseProfile -/

@[simp] theorem releaseProfile_stepper_cfgd (s : State) : (releaseProfile s).stepper.cfgd = s.stepper.cfgd := rfl
@[simp] theorem releaseProfile_stepper_config (s : State) :
    (releaseProfile s).stepper.config = s.stepper.config := rfl
@[simp] theorem releaseProfile_stepper_power (s : State) : (releaseProfile s).stepper.power = s.stepper.power := rfl
@[simp] theorem releaseProfile_stepper_busy (s : State) : (releaseProfile s).stepper.busy = s.stepper.busy := rfl
@[simp] theorem releaseProfile_stepper_cancelReq (s : State) :
    (releaseProfile s).stepper.cancelReq = s.stepper.cancelReq := rfl
@[simp] theorem releaseProfile_stepper_ramp (s : State) : (releaseProfile s).stepper.ramp = s.stepper.ramp := rfl
@[simp] theorem releaseProfile_stepper_rampPhase (s : State) :
    (releaseProfile s).stepper.rampPhase = s.stepper.rampPhase := rfl
@[simp] theorem releaseProfile_stepper_prof (s : State) :
    (releaseProfile s).stepper.prof = s.stepper.prof.map fun e => (e.1, Config.freeBits 64 (16 + e.1) s.stepper.tick)
        := rfl
@[simp] theorem releaseProfile_stepper_profLen (s : State) :
    (releaseProfile s).stepper.profLen = some (Config.freeBits 32 7 s.stepper.tick) := rfl
@[simp] theorem releaseProfile_stepper_sqIndex (s : State) :
    (releaseProfile s).stepper.sqIndex = s.stepper.sqIndex := rfl
@[simp] theorem releaseProfile_stepper_sqPhase (s : State) :
    (releaseProfile s).stepper.sqPhase = s.stepper.sqPhase := rfl
@[simp] theorem releaseProfile_stepper_response (s : State) :
    (releaseProfile s).stepper.response = s.stepper.response := rfl
@[simp] theorem releaseProfile_stepper_trace (s : State) : (releaseProfile s).stepper.trace = s.stepper.trace := rfl
@[simp] theorem releaseProfile_stepper_todo (s : State) : (releaseProfile s).stepper.todo = s.stepper.todo := rfl
@[simp] theorem releaseProfile_stepper_answers (s : State) :
    (releaseProfile s).stepper.answers = s.stepper.answers := rfl
@[simp] theorem releaseProfile_stepper_tick (s : State) : (releaseProfile s).stepper.tick = s.stepper.tick + 1 := rfl
@[simp] theorem releaseProfile_hx (s : State) : (releaseProfile s).hx = s.hx := rfl
@[simp] theorem releaseProfile_params (s : State) : (releaseProfile s).params = s.params := rfl
@[simp] theorem releaseProfile_program (s : State) : (releaseProfile s).program = s.program := rfl
@[simp] theorem releaseProfile_hostResponse (s : State) : (releaseProfile s).hostResponse = s.hostResponse := rfl
@[simp] theorem releaseProfile_hostTrace (s : State) : (releaseProfile s).hostTrace = s.hostTrace := rfl
@[simp] theorem releaseProfile_order (s : State) : (releaseProfile s).order = s.order := rfl
@[simp] theorem releaseProfile_outsidePins (s : State) : (releaseProfile s).outsidePins = s.outsidePins := rfl
@[simp] theorem releaseProfile_turns (s : State) : (releaseProfile s).turns = s.turns := rfl
@[simp] theorem releaseProfile_quantum (s : State) : (releaseProfile s).quantum = s.quantum := rfl
@[simp] theorem releaseProfile_tick (s : State) : (releaseProfile s).tick = s.tick := rfl

/-! ### hxLog -/

@[simp] theorem hxLog_stepper (e : Event) (s : State) : (hxLog e s).stepper = s.stepper := rfl
@[simp] theorem hxLog_hx_cfgd (e : Event) (s : State) : (hxLog e s).hx.cfgd = s.hx.cfgd := rfl
@[simp] theorem hxLog_hx_config (e : Event) (s : State) : (hxLog e s).hx.config = s.hx.config := rfl
@[simp] theorem hxLog_hx_edgeEn (e : Event) (s : State) : (hxLog e s).hx.edgeEn = s.hx.edgeEn := rfl
@[simp] theorem hxLog_hx_reading (e : Event) (s : State) : (hxLog e s).hx.reading = s.hx.reading := rfl
@[simp] theorem hxLog_hx_phase (e : Event) (s : State) : (hxLog e s).hx.phase = s.hx.phase := rfl
@[simp] theorem hxLog_hx_acc (e : Event) (s : State) : (hxLog e s).hx.acc = s.hx.acc := rfl
@[simp] theorem hxLog_hx_bitCnt (e : Event) (s : State) : (hxLog e s).hx.bitCnt = s.hx.bitCnt := rfl
@[simp] theorem hxLog_hx_pulseCnt (e : Event) (s : State) : (hxLog e s).hx.pulseCnt = s.hx.pulseCnt := rfl
@[simp] theorem hxLog_hx_sum (e : Event) (s : State) : (hxLog e s).hx.sum = s.hx.sum := rfl
@[simp] theorem hxLog_hx_obs (e : Event) (s : State) : (hxLog e s).hx.obs = s.hx.obs := rfl
@[simp] theorem hxLog_hx_busy (e : Event) (s : State) : (hxLog e s).hx.busy = s.hx.busy := rfl
@[simp] theorem hxLog_hx_response (e : Event) (s : State) : (hxLog e s).hx.response = s.hx.response := rfl
@[simp] theorem hxLog_hx_resultPort (e : Event) (s : State) : (hxLog e s).hx.resultPort = s.hx.resultPort := rfl
@[simp] theorem hxLog_hx_trace (e : Event) (s : State) : (hxLog e s).hx.trace = s.hx.trace ++ [e] := rfl
@[simp] theorem hxLog_hx_todo (e : Event) (s : State) : (hxLog e s).hx.todo = s.hx.todo := rfl
@[simp] theorem hxLog_hx_edgeTodo (e : Event) (s : State) : (hxLog e s).hx.edgeTodo = s.hx.edgeTodo := rfl
@[simp] theorem hxLog_hx_levels (e : Event) (s : State) : (hxLog e s).hx.levels = s.hx.levels := rfl
@[simp] theorem hxLog_hx_answers (e : Event) (s : State) : (hxLog e s).hx.answers = s.hx.answers := rfl
@[simp] theorem hxLog_hx_tick (e : Event) (s : State) : (hxLog e s).hx.tick = s.hx.tick := rfl
@[simp] theorem hxLog_params (e : Event) (s : State) : (hxLog e s).params = s.params := rfl
@[simp] theorem hxLog_program (e : Event) (s : State) : (hxLog e s).program = s.program := rfl
@[simp] theorem hxLog_hostResponse (e : Event) (s : State) : (hxLog e s).hostResponse = s.hostResponse := rfl
@[simp] theorem hxLog_hostTrace (e : Event) (s : State) : (hxLog e s).hostTrace = s.hostTrace := rfl
@[simp] theorem hxLog_order (e : Event) (s : State) : (hxLog e s).order = s.order ++ [.hx711] := rfl
@[simp] theorem hxLog_outsidePins (e : Event) (s : State) : (hxLog e s).outsidePins = s.outsidePins := rfl
@[simp] theorem hxLog_turns (e : Event) (s : State) : (hxLog e s).turns = s.turns := rfl
@[simp] theorem hxLog_quantum (e : Event) (s : State) : (hxLog e s).quantum = s.quantum := rfl
@[simp] theorem hxLog_tick (e : Event) (s : State) : (hxLog e s).tick = s.tick := rfl

/-! ### hxTodo -/

@[simp] theorem hxTodo_stepper (l : List HxOp) (s : State) : (hxTodo l s).stepper = s.stepper := rfl
@[simp] theorem hxTodo_hx_cfgd (l : List HxOp) (s : State) : (hxTodo l s).hx.cfgd = s.hx.cfgd := rfl
@[simp] theorem hxTodo_hx_config (l : List HxOp) (s : State) : (hxTodo l s).hx.config = s.hx.config := rfl
@[simp] theorem hxTodo_hx_edgeEn (l : List HxOp) (s : State) : (hxTodo l s).hx.edgeEn = s.hx.edgeEn := rfl
@[simp] theorem hxTodo_hx_reading (l : List HxOp) (s : State) : (hxTodo l s).hx.reading = s.hx.reading := rfl
@[simp] theorem hxTodo_hx_phase (l : List HxOp) (s : State) : (hxTodo l s).hx.phase = s.hx.phase := rfl
@[simp] theorem hxTodo_hx_acc (l : List HxOp) (s : State) : (hxTodo l s).hx.acc = s.hx.acc := rfl
@[simp] theorem hxTodo_hx_bitCnt (l : List HxOp) (s : State) : (hxTodo l s).hx.bitCnt = s.hx.bitCnt := rfl
@[simp] theorem hxTodo_hx_pulseCnt (l : List HxOp) (s : State) : (hxTodo l s).hx.pulseCnt = s.hx.pulseCnt := rfl
@[simp] theorem hxTodo_hx_sum (l : List HxOp) (s : State) : (hxTodo l s).hx.sum = s.hx.sum := rfl
@[simp] theorem hxTodo_hx_obs (l : List HxOp) (s : State) : (hxTodo l s).hx.obs = s.hx.obs := rfl
@[simp] theorem hxTodo_hx_busy (l : List HxOp) (s : State) : (hxTodo l s).hx.busy = s.hx.busy := rfl
@[simp] theorem hxTodo_hx_response (l : List HxOp) (s : State) : (hxTodo l s).hx.response = s.hx.response := rfl
@[simp] theorem hxTodo_hx_resultPort (l : List HxOp) (s : State) : (hxTodo l s).hx.resultPort = s.hx.resultPort := rfl
@[simp] theorem hxTodo_hx_trace (l : List HxOp) (s : State) : (hxTodo l s).hx.trace = s.hx.trace := rfl
@[simp] theorem hxTodo_hx_todo (l : List HxOp) (s : State) : (hxTodo l s).hx.todo = l := rfl
@[simp] theorem hxTodo_hx_edgeTodo (l : List HxOp) (s : State) : (hxTodo l s).hx.edgeTodo = s.hx.edgeTodo := rfl
@[simp] theorem hxTodo_hx_levels (l : List HxOp) (s : State) : (hxTodo l s).hx.levels = s.hx.levels := rfl
@[simp] theorem hxTodo_hx_answers (l : List HxOp) (s : State) : (hxTodo l s).hx.answers = s.hx.answers := rfl
@[simp] theorem hxTodo_hx_tick (l : List HxOp) (s : State) : (hxTodo l s).hx.tick = s.hx.tick := rfl
@[simp] theorem hxTodo_params (l : List HxOp) (s : State) : (hxTodo l s).params = s.params := rfl
@[simp] theorem hxTodo_program (l : List HxOp) (s : State) : (hxTodo l s).program = s.program := rfl
@[simp] theorem hxTodo_hostResponse (l : List HxOp) (s : State) : (hxTodo l s).hostResponse = s.hostResponse := rfl
@[simp] theorem hxTodo_hostTrace (l : List HxOp) (s : State) : (hxTodo l s).hostTrace = s.hostTrace := rfl
@[simp] theorem hxTodo_order (l : List HxOp) (s : State) : (hxTodo l s).order = s.order := rfl
@[simp] theorem hxTodo_outsidePins (l : List HxOp) (s : State) : (hxTodo l s).outsidePins = s.outsidePins := rfl
@[simp] theorem hxTodo_turns (l : List HxOp) (s : State) : (hxTodo l s).turns = s.turns := rfl
@[simp] theorem hxTodo_quantum (l : List HxOp) (s : State) : (hxTodo l s).quantum = s.quantum := rfl
@[simp] theorem hxTodo_tick (l : List HxOp) (s : State) : (hxTodo l s).tick = s.tick := rfl

/-! ### hxEdgeTodo -/

@[simp] theorem hxEdgeTodo_stepper (l : List HxOp) (s : State) : (hxEdgeTodo l s).stepper = s.stepper := rfl
@[simp] theorem hxEdgeTodo_hx_cfgd (l : List HxOp) (s : State) : (hxEdgeTodo l s).hx.cfgd = s.hx.cfgd := rfl
@[simp] theorem hxEdgeTodo_hx_config (l : List HxOp) (s : State) : (hxEdgeTodo l s).hx.config = s.hx.config := rfl
@[simp] theorem hxEdgeTodo_hx_edgeEn (l : List HxOp) (s : State) : (hxEdgeTodo l s).hx.edgeEn = s.hx.edgeEn := rfl
@[simp] theorem hxEdgeTodo_hx_reading (l : List HxOp) (s : State) : (hxEdgeTodo l s).hx.reading = s.hx.reading := rfl
@[simp] theorem hxEdgeTodo_hx_phase (l : List HxOp) (s : State) : (hxEdgeTodo l s).hx.phase = s.hx.phase := rfl
@[simp] theorem hxEdgeTodo_hx_acc (l : List HxOp) (s : State) : (hxEdgeTodo l s).hx.acc = s.hx.acc := rfl
@[simp] theorem hxEdgeTodo_hx_bitCnt (l : List HxOp) (s : State) : (hxEdgeTodo l s).hx.bitCnt = s.hx.bitCnt := rfl
@[simp] theorem hxEdgeTodo_hx_pulseCnt (l : List HxOp) (s : State) :
    (hxEdgeTodo l s).hx.pulseCnt = s.hx.pulseCnt := rfl
@[simp] theorem hxEdgeTodo_hx_sum (l : List HxOp) (s : State) : (hxEdgeTodo l s).hx.sum = s.hx.sum := rfl
@[simp] theorem hxEdgeTodo_hx_obs (l : List HxOp) (s : State) : (hxEdgeTodo l s).hx.obs = s.hx.obs := rfl
@[simp] theorem hxEdgeTodo_hx_busy (l : List HxOp) (s : State) : (hxEdgeTodo l s).hx.busy = s.hx.busy := rfl
@[simp] theorem hxEdgeTodo_hx_response (l : List HxOp) (s : State) :
    (hxEdgeTodo l s).hx.response = s.hx.response := rfl
@[simp] theorem hxEdgeTodo_hx_resultPort (l : List HxOp) (s : State) :
    (hxEdgeTodo l s).hx.resultPort = s.hx.resultPort := rfl
@[simp] theorem hxEdgeTodo_hx_trace (l : List HxOp) (s : State) : (hxEdgeTodo l s).hx.trace = s.hx.trace := rfl
@[simp] theorem hxEdgeTodo_hx_todo (l : List HxOp) (s : State) : (hxEdgeTodo l s).hx.todo = s.hx.todo := rfl
@[simp] theorem hxEdgeTodo_hx_edgeTodo (l : List HxOp) (s : State) : (hxEdgeTodo l s).hx.edgeTodo = l := rfl
@[simp] theorem hxEdgeTodo_hx_levels (l : List HxOp) (s : State) : (hxEdgeTodo l s).hx.levels = s.hx.levels := rfl
@[simp] theorem hxEdgeTodo_hx_answers (l : List HxOp) (s : State) : (hxEdgeTodo l s).hx.answers = s.hx.answers := rfl
@[simp] theorem hxEdgeTodo_hx_tick (l : List HxOp) (s : State) : (hxEdgeTodo l s).hx.tick = s.hx.tick := rfl
@[simp] theorem hxEdgeTodo_params (l : List HxOp) (s : State) : (hxEdgeTodo l s).params = s.params := rfl
@[simp] theorem hxEdgeTodo_program (l : List HxOp) (s : State) : (hxEdgeTodo l s).program = s.program := rfl
@[simp] theorem hxEdgeTodo_hostResponse (l : List HxOp) (s : State) :
    (hxEdgeTodo l s).hostResponse = s.hostResponse := rfl
@[simp] theorem hxEdgeTodo_hostTrace (l : List HxOp) (s : State) : (hxEdgeTodo l s).hostTrace = s.hostTrace := rfl
@[simp] theorem hxEdgeTodo_order (l : List HxOp) (s : State) : (hxEdgeTodo l s).order = s.order := rfl
@[simp] theorem hxEdgeTodo_outsidePins (l : List HxOp) (s : State) :
    (hxEdgeTodo l s).outsidePins = s.outsidePins := rfl
@[simp] theorem hxEdgeTodo_turns (l : List HxOp) (s : State) : (hxEdgeTodo l s).turns = s.turns := rfl
@[simp] theorem hxEdgeTodo_quantum (l : List HxOp) (s : State) : (hxEdgeTodo l s).quantum = s.quantum := rfl
@[simp] theorem hxEdgeTodo_tick (l : List HxOp) (s : State) : (hxEdgeTodo l s).tick = s.tick := rfl

/-! ### hxRespond -/

@[simp] theorem hxRespond_stepper (st : Status) (r : Result) (s : State) :
    (hxRespond st r s).stepper = s.stepper := rfl
@[simp] theorem hxRespond_hx_cfgd (st : Status) (r : Result) (s : State) :
    (hxRespond st r s).hx.cfgd = s.hx.cfgd := rfl
@[simp] theorem hxRespond_hx_config (st : Status) (r : Result) (s : State) :
    (hxRespond st r s).hx.config = s.hx.config := rfl
@[simp] theorem hxRespond_hx_edgeEn (st : Status) (r : Result) (s : State) :
    (hxRespond st r s).hx.edgeEn = s.hx.edgeEn := rfl
@[simp] theorem hxRespond_hx_reading (st : Status) (r : Result) (s : State) :
    (hxRespond st r s).hx.reading = s.hx.reading := rfl
@[simp] theorem hxRespond_hx_phase (st : Status) (r : Result) (s : State) :
    (hxRespond st r s).hx.phase = s.hx.phase := rfl
@[simp] theorem hxRespond_hx_acc (st : Status) (r : Result) (s : State) : (hxRespond st r s).hx.acc = s.hx.acc := rfl
@[simp] theorem hxRespond_hx_bitCnt (st : Status) (r : Result) (s : State) :
    (hxRespond st r s).hx.bitCnt = s.hx.bitCnt := rfl
@[simp] theorem hxRespond_hx_pulseCnt (st : Status) (r : Result) (s : State) :
    (hxRespond st r s).hx.pulseCnt = s.hx.pulseCnt := rfl
@[simp] theorem hxRespond_hx_sum (st : Status) (r : Result) (s : State) : (hxRespond st r s).hx.sum = s.hx.sum := rfl
@[simp] theorem hxRespond_hx_obs (st : Status) (r : Result) (s : State) : (hxRespond st r s).hx.obs = s.hx.obs := rfl
@[simp] theorem hxRespond_hx_busy (st : Status) (r : Result) (s : State) : (hxRespond st r s).hx.busy = false := rfl
@[simp] theorem hxRespond_hx_response (st : Status) (r : Result) (s : State) :
    (hxRespond st r s).hx.response = some ⟨st, r⟩ := rfl
@[simp] theorem hxRespond_hx_resultPort (st : Status) (r : Result) (s : State) :
    (hxRespond st r s).hx.resultPort = s.hx.resultPort := rfl
@[simp] theorem hxRespond_hx_trace (st : Status) (r : Result) (s : State) :
    (hxRespond st r s).hx.trace = s.hx.trace ++ [.resp st r] := rfl
@[simp] theorem hxRespond_hx_todo (st : Status) (r : Result) (s : State) :
    (hxRespond st r s).hx.todo = s.hx.todo := rfl
@[simp] theorem hxRespond_hx_edgeTodo (st : Status) (r : Result) (s : State) :
    (hxRespond st r s).hx.edgeTodo = s.hx.edgeTodo := rfl
@[simp] theorem hxRespond_hx_levels (st : Status) (r : Result) (s : State) :
    (hxRespond st r s).hx.levels = s.hx.levels := rfl
@[simp] theorem hxRespond_hx_answers (st : Status) (r : Result) (s : State) :
    (hxRespond st r s).hx.answers = s.hx.answers := rfl
@[simp] theorem hxRespond_hx_tick (st : Status) (r : Result) (s : State) :
    (hxRespond st r s).hx.tick = s.hx.tick := rfl
@[simp] theorem hxRespond_params (st : Status) (r : Result) (s : State) : (hxRespond st r s).params = s.params := rfl
@[simp] theorem hxRespond_program (st : Status) (r : Result) (s : State) :
    (hxRespond st r s).program = s.program := rfl
@[simp] theorem hxRespond_hostResponse (st : Status) (r : Result) (s : State) :
    (hxRespond st r s).hostResponse = s.hostResponse := rfl
@[simp] theorem hxRespond_hostTrace (st : Status) (r : Result) (s : State) :
    (hxRespond st r s).hostTrace = s.hostTrace := rfl
@[simp] theorem hxRespond_order (st : Status) (r : Result) (s : State) :
    (hxRespond st r s).order = s.order ++ [.hx711] := rfl
@[simp] theorem hxRespond_outsidePins (st : Status) (r : Result) (s : State) :
    (hxRespond st r s).outsidePins = s.outsidePins := rfl
@[simp] theorem hxRespond_turns (st : Status) (r : Result) (s : State) : (hxRespond st r s).turns = s.turns := rfl
@[simp] theorem hxRespond_quantum (st : Status) (r : Result) (s : State) :
    (hxRespond st r s).quantum = s.quantum := rfl
@[simp] theorem hxRespond_tick (st : Status) (r : Result) (s : State) : (hxRespond st r s).tick = s.tick := rfl

/-! ### hxEmit -/

@[simp] theorem hxEmit_stepper (v : Reading) (s : State) : (hxEmit v s).stepper = s.stepper := rfl
@[simp] theorem hxEmit_hx_cfgd (v : Reading) (s : State) : (hxEmit v s).hx.cfgd = s.hx.cfgd := rfl
@[simp] theorem hxEmit_hx_config (v : Reading) (s : State) : (hxEmit v s).hx.config = s.hx.config := rfl
@[simp] theorem hxEmit_hx_edgeEn (v : Reading) (s : State) : (hxEmit v s).hx.edgeEn = s.hx.edgeEn := rfl
@[simp] theorem hxEmit_hx_reading (v : Reading) (s : State) : (hxEmit v s).hx.reading = s.hx.reading := rfl
@[simp] theorem hxEmit_hx_phase (v : Reading) (s : State) : (hxEmit v s).hx.phase = s.hx.phase := rfl
@[simp] theorem hxEmit_hx_acc (v : Reading) (s : State) : (hxEmit v s).hx.acc = s.hx.acc := rfl
@[simp] theorem hxEmit_hx_bitCnt (v : Reading) (s : State) : (hxEmit v s).hx.bitCnt = s.hx.bitCnt := rfl
@[simp] theorem hxEmit_hx_pulseCnt (v : Reading) (s : State) : (hxEmit v s).hx.pulseCnt = s.hx.pulseCnt := rfl
@[simp] theorem hxEmit_hx_sum (v : Reading) (s : State) : (hxEmit v s).hx.sum = s.hx.sum := rfl
@[simp] theorem hxEmit_hx_obs (v : Reading) (s : State) : (hxEmit v s).hx.obs = s.hx.obs := rfl
@[simp] theorem hxEmit_hx_busy (v : Reading) (s : State) : (hxEmit v s).hx.busy = s.hx.busy := rfl
@[simp] theorem hxEmit_hx_response (v : Reading) (s : State) : (hxEmit v s).hx.response = s.hx.response := rfl
@[simp] theorem hxEmit_hx_resultPort (v : Reading) (s : State) : (hxEmit v s).hx.resultPort = some v := rfl
@[simp] theorem hxEmit_hx_trace (v : Reading) (s : State) : (hxEmit v s).hx.trace = s.hx.trace ++ [.emit v] := rfl
@[simp] theorem hxEmit_hx_todo (v : Reading) (s : State) : (hxEmit v s).hx.todo = s.hx.todo := rfl
@[simp] theorem hxEmit_hx_edgeTodo (v : Reading) (s : State) : (hxEmit v s).hx.edgeTodo = s.hx.edgeTodo := rfl
@[simp] theorem hxEmit_hx_levels (v : Reading) (s : State) : (hxEmit v s).hx.levels = s.hx.levels := rfl
@[simp] theorem hxEmit_hx_answers (v : Reading) (s : State) : (hxEmit v s).hx.answers = s.hx.answers := rfl
@[simp] theorem hxEmit_hx_tick (v : Reading) (s : State) : (hxEmit v s).hx.tick = s.hx.tick := rfl
@[simp] theorem hxEmit_params (v : Reading) (s : State) : (hxEmit v s).params = s.params := rfl
@[simp] theorem hxEmit_program (v : Reading) (s : State) : (hxEmit v s).program = s.program := rfl
@[simp] theorem hxEmit_hostResponse (v : Reading) (s : State) : (hxEmit v s).hostResponse = s.hostResponse := rfl
@[simp] theorem hxEmit_hostTrace (v : Reading) (s : State) : (hxEmit v s).hostTrace = s.hostTrace := rfl
@[simp] theorem hxEmit_order (v : Reading) (s : State) : (hxEmit v s).order = s.order ++ [.hx711] := rfl
@[simp] theorem hxEmit_outsidePins (v : Reading) (s : State) : (hxEmit v s).outsidePins = s.outsidePins := rfl
@[simp] theorem hxEmit_turns (v : Reading) (s : State) : (hxEmit v s).turns = s.turns := rfl
@[simp] theorem hxEmit_quantum (v : Reading) (s : State) : (hxEmit v s).quantum = s.quantum := rfl
@[simp] theorem hxEmit_tick (v : Reading) (s : State) : (hxEmit v s).tick = s.tick := rfl

/-! ### hxRaise -/

@[simp] theorem hxRaise_stepper (st : Status) (s : State) : (hxRaise st s).stepper = s.stepper := rfl
@[simp] theorem hxRaise_hx_cfgd (st : Status) (s : State) : (hxRaise st s).hx.cfgd = s.hx.cfgd := rfl
@[simp] theorem hxRaise_hx_config (st : Status) (s : State) : (hxRaise st s).hx.config = s.hx.config := rfl
@[simp] theorem hxRaise_hx_edgeEn (st : Status) (s : State) : (hxRaise st s).hx.edgeEn = s.hx.edgeEn := rfl
@[simp] theorem hxRaise_hx_reading (st : Status) (s : State) : (hxRaise st s).hx.reading = s.hx.reading := rfl
@[simp] theorem hxRaise_hx_phase (st : Status) (s : State) : (hxRaise st s).hx.phase = s.hx.phase := rfl
@[simp] theorem hxRaise_hx_acc (st : Status) (s : State) : (hxRaise st s).hx.acc = s.hx.acc := rfl
@[simp] theorem hxRaise_hx_bitCnt (st : Status) (s : State) : (hxRaise st s).hx.bitCnt = s.hx.bitCnt := rfl
@[simp] theorem hxRaise_hx_pulseCnt (st : Status) (s : State) : (hxRaise st s).hx.pulseCnt = s.hx.pulseCnt := rfl
@[simp] theorem hxRaise_hx_sum (st : Status) (s : State) : (hxRaise st s).hx.sum = s.hx.sum := rfl
@[simp] theorem hxRaise_hx_obs (st : Status) (s : State) : (hxRaise st s).hx.obs = s.hx.obs := rfl
@[simp] theorem hxRaise_hx_busy (st : Status) (s : State) : (hxRaise st s).hx.busy = s.hx.busy := rfl
@[simp] theorem hxRaise_hx_response (st : Status) (s : State) : (hxRaise st s).hx.response = s.hx.response := rfl
@[simp] theorem hxRaise_hx_resultPort (st : Status) (s : State) :
    (hxRaise st s).hx.resultPort = s.hx.resultPort := rfl
@[simp] theorem hxRaise_hx_trace (st : Status) (s : State) : (hxRaise st s).hx.trace = s.hx.trace := rfl
@[simp] theorem hxRaise_hx_todo (st : Status) (s : State) : (hxRaise st s).hx.todo = [.resp st .none] := rfl
@[simp] theorem hxRaise_hx_edgeTodo (st : Status) (s : State) : (hxRaise st s).hx.edgeTodo = s.hx.edgeTodo := rfl
@[simp] theorem hxRaise_hx_levels (st : Status) (s : State) : (hxRaise st s).hx.levels = s.hx.levels := rfl
@[simp] theorem hxRaise_hx_answers (st : Status) (s : State) : (hxRaise st s).hx.answers = s.hx.answers := rfl
@[simp] theorem hxRaise_hx_tick (st : Status) (s : State) : (hxRaise st s).hx.tick = s.hx.tick := rfl
@[simp] theorem hxRaise_params (st : Status) (s : State) : (hxRaise st s).params = s.params := rfl
@[simp] theorem hxRaise_program (st : Status) (s : State) : (hxRaise st s).program = s.program := rfl
@[simp] theorem hxRaise_hostResponse (st : Status) (s : State) : (hxRaise st s).hostResponse = s.hostResponse := rfl
@[simp] theorem hxRaise_hostTrace (st : Status) (s : State) : (hxRaise st s).hostTrace = s.hostTrace := rfl
@[simp] theorem hxRaise_order (st : Status) (s : State) : (hxRaise st s).order = s.order := rfl
@[simp] theorem hxRaise_outsidePins (st : Status) (s : State) : (hxRaise st s).outsidePins = s.outsidePins := rfl
@[simp] theorem hxRaise_turns (st : Status) (s : State) : (hxRaise st s).turns = s.turns := rfl
@[simp] theorem hxRaise_quantum (st : Status) (s : State) : (hxRaise st s).quantum = s.quantum := rfl
@[simp] theorem hxRaise_tick (st : Status) (s : State) : (hxRaise st s).tick = s.tick := rfl

/-! ### releaseCycle -/

@[simp] theorem releaseCycle_stepper (s : State) : (releaseCycle s).stepper = s.stepper := rfl
@[simp] theorem releaseCycle_hx_cfgd (s : State) : (releaseCycle s).hx.cfgd = s.hx.cfgd := rfl
@[simp] theorem releaseCycle_hx_config (s : State) : (releaseCycle s).hx.config = s.hx.config := rfl
@[simp] theorem releaseCycle_hx_edgeEn (s : State) : (releaseCycle s).hx.edgeEn = s.hx.edgeEn := rfl
@[simp] theorem releaseCycle_hx_reading (s : State) : (releaseCycle s).hx.reading = s.hx.reading := rfl
@[simp] theorem releaseCycle_hx_phase (s : State) : (releaseCycle s).hx.phase = s.hx.phase := rfl
@[simp] theorem releaseCycle_hx_acc (s : State) :
    (releaseCycle s).hx.acc = some (Config.freeBits 24 8 s.hx.tick) := rfl
@[simp] theorem releaseCycle_hx_bitCnt (s : State) :
    (releaseCycle s).hx.bitCnt = some (Config.freeBits 5 9 s.hx.tick) := rfl
@[simp] theorem releaseCycle_hx_pulseCnt (s : State) :
    (releaseCycle s).hx.pulseCnt = some (Config.freeBits 2 10 s.hx.tick) := rfl
@[simp] theorem releaseCycle_hx_sum (s : State) : (releaseCycle s).hx.sum = s.hx.sum := rfl
@[simp] theorem releaseCycle_hx_obs (s : State) : (releaseCycle s).hx.obs = s.hx.obs := rfl
@[simp] theorem releaseCycle_hx_busy (s : State) : (releaseCycle s).hx.busy = s.hx.busy := rfl
@[simp] theorem releaseCycle_hx_response (s : State) : (releaseCycle s).hx.response = s.hx.response := rfl
@[simp] theorem releaseCycle_hx_resultPort (s : State) : (releaseCycle s).hx.resultPort = s.hx.resultPort := rfl
@[simp] theorem releaseCycle_hx_trace (s : State) : (releaseCycle s).hx.trace = s.hx.trace := rfl
@[simp] theorem releaseCycle_hx_todo (s : State) : (releaseCycle s).hx.todo = s.hx.todo := rfl
@[simp] theorem releaseCycle_hx_edgeTodo (s : State) : (releaseCycle s).hx.edgeTodo = s.hx.edgeTodo := rfl
@[simp] theorem releaseCycle_hx_levels (s : State) : (releaseCycle s).hx.levels = s.hx.levels := rfl
@[simp] theorem releaseCycle_hx_answers (s : State) : (releaseCycle s).hx.answers = s.hx.answers := rfl
@[simp] theorem releaseCycle_hx_tick (s : State) : (releaseCycle s).hx.tick = s.hx.tick + 1 := rfl
@[simp] theorem releaseCycle_params (s : State) : (releaseCycle s).params = s.params := rfl
@[simp] theorem releaseCycle_program (s : State) : (releaseCycle s).program = s.program := rfl
@[simp] theorem releaseCycle_hostResponse (s : State) : (releaseCycle s).hostResponse = s.hostResponse := rfl
@[simp] theorem releaseCycle_hostTrace (s : State) : (releaseCycle s).hostTrace = s.hostTrace := rfl
@[simp] theorem releaseCycle_order (s : State) : (releaseCycle s).order = s.order := rfl
@[simp] theorem releaseCycle_outsidePins (s : State) : (releaseCycle s).outsidePins = s.outsidePins := rfl
@[simp] theorem releaseCycle_turns (s : State) : (releaseCycle s).turns = s.turns := rfl
@[simp] theorem releaseCycle_quantum (s : State) : (releaseCycle s).quantum = s.quantum := rfl
@[simp] theorem releaseCycle_tick (s : State) : (releaseCycle s).tick = s.tick := rfl

/-! ### releaseSum -/

@[simp] theorem releaseSum_stepper (s : State) : (releaseSum s).stepper = s.stepper := rfl
@[simp] theorem releaseSum_hx_cfgd (s : State) : (releaseSum s).hx.cfgd = s.hx.cfgd := rfl
@[simp] theorem releaseSum_hx_config (s : State) : (releaseSum s).hx.config = s.hx.config := rfl
@[simp] theorem releaseSum_hx_edgeEn (s : State) : (releaseSum s).hx.edgeEn = s.hx.edgeEn := rfl
@[simp] theorem releaseSum_hx_reading (s : State) : (releaseSum s).hx.reading = s.hx.reading := rfl
@[simp] theorem releaseSum_hx_phase (s : State) : (releaseSum s).hx.phase = s.hx.phase := rfl
@[simp] theorem releaseSum_hx_acc (s : State) : (releaseSum s).hx.acc = s.hx.acc := rfl
@[simp] theorem releaseSum_hx_bitCnt (s : State) : (releaseSum s).hx.bitCnt = s.hx.bitCnt := rfl
@[simp] theorem releaseSum_hx_pulseCnt (s : State) : (releaseSum s).hx.pulseCnt = s.hx.pulseCnt := rfl
@[simp] theorem releaseSum_hx_sum (s : State) : (releaseSum s).hx.sum = some (Config.freeBits 64 11 s.hx.tick) := rfl
@[simp] theorem releaseSum_hx_obs (s : State) : (releaseSum s).hx.obs = some (Config.freeBits 32 12 s.hx.tick) := rfl
@[simp] theorem releaseSum_hx_busy (s : State) : (releaseSum s).hx.busy = s.hx.busy := rfl
@[simp] theorem releaseSum_hx_response (s : State) : (releaseSum s).hx.response = s.hx.response := rfl
@[simp] theorem releaseSum_hx_resultPort (s : State) : (releaseSum s).hx.resultPort = s.hx.resultPort := rfl
@[simp] theorem releaseSum_hx_trace (s : State) : (releaseSum s).hx.trace = s.hx.trace := rfl
@[simp] theorem releaseSum_hx_todo (s : State) : (releaseSum s).hx.todo = s.hx.todo := rfl
@[simp] theorem releaseSum_hx_edgeTodo (s : State) : (releaseSum s).hx.edgeTodo = s.hx.edgeTodo := rfl
@[simp] theorem releaseSum_hx_levels (s : State) : (releaseSum s).hx.levels = s.hx.levels := rfl
@[simp] theorem releaseSum_hx_answers (s : State) : (releaseSum s).hx.answers = s.hx.answers := rfl
@[simp] theorem releaseSum_hx_tick (s : State) : (releaseSum s).hx.tick = s.hx.tick + 1 := rfl
@[simp] theorem releaseSum_params (s : State) : (releaseSum s).params = s.params := rfl
@[simp] theorem releaseSum_program (s : State) : (releaseSum s).program = s.program := rfl
@[simp] theorem releaseSum_hostResponse (s : State) : (releaseSum s).hostResponse = s.hostResponse := rfl
@[simp] theorem releaseSum_hostTrace (s : State) : (releaseSum s).hostTrace = s.hostTrace := rfl
@[simp] theorem releaseSum_order (s : State) : (releaseSum s).order = s.order := rfl
@[simp] theorem releaseSum_outsidePins (s : State) : (releaseSum s).outsidePins = s.outsidePins := rfl
@[simp] theorem releaseSum_turns (s : State) : (releaseSum s).turns = s.turns := rfl
@[simp] theorem releaseSum_quantum (s : State) : (releaseSum s).quantum = s.quantum := rfl
@[simp] theorem releaseSum_tick (s : State) : (releaseSum s).tick = s.tick := rfl

/-! ### hostUnknown -/

@[simp] theorem hostUnknown_stepper (s : State) : (hostUnknown s).stepper = s.stepper := rfl
@[simp] theorem hostUnknown_hx (s : State) : (hostUnknown s).hx = s.hx := rfl
@[simp] theorem hostUnknown_params (s : State) : (hostUnknown s).params = s.params := rfl
@[simp] theorem hostUnknown_program (s : State) : (hostUnknown s).program = s.program := rfl
@[simp] theorem hostUnknown_hostResponse (s : State) :
    (hostUnknown s).hostResponse = some ⟨.unknownCommand, .none⟩ := rfl
@[simp] theorem hostUnknown_hostTrace (s : State) :
    (hostUnknown s).hostTrace = s.hostTrace ++ [.resp .unknownCommand .none] := rfl
@[simp] theorem hostUnknown_order (s : State) : (hostUnknown s).order = s.order ++ [.hostPort] := rfl
@[simp] theorem hostUnknown_outsidePins (s : State) : (hostUnknown s).outsidePins = s.outsidePins := rfl
@[simp] theorem hostUnknown_turns (s : State) : (hostUnknown s).turns = s.turns := rfl
@[simp] theorem hostUnknown_quantum (s : State) : (hostUnknown s).quantum = s.quantum := rfl
@[simp] theorem hostUnknown_tick (s : State) : (hostUnknown s).tick = s.tick := rfl

/-! ### storeConfig -/

@[simp] theorem storeConfig_stepper_cfgd (c : StepperConfig) (s : State) :
    (storeConfig c s).stepper.cfgd = true := rfl
@[simp] theorem storeConfig_stepper_config (c : StepperConfig) (s : State) :
    (storeConfig c s).stepper.config = some c := rfl
@[simp] theorem storeConfig_stepper_power (c : StepperConfig) (s : State) :
    (storeConfig c s).stepper.power = some .asleep := rfl
@[simp] theorem storeConfig_stepper_busy (c : StepperConfig) (s : State) :
    (storeConfig c s).stepper.busy = s.stepper.busy := rfl
@[simp] theorem storeConfig_stepper_cancelReq (c : StepperConfig) (s : State) :
    (storeConfig c s).stepper.cancelReq = false := rfl
@[simp] theorem storeConfig_stepper_ramp (c : StepperConfig) (s : State) :
    (storeConfig c s).stepper.ramp = s.stepper.ramp := rfl
@[simp] theorem storeConfig_stepper_rampPhase (c : StepperConfig) (s : State) :
    (storeConfig c s).stepper.rampPhase = s.stepper.rampPhase := rfl
@[simp] theorem storeConfig_stepper_prof (c : StepperConfig) (s : State) :
    (storeConfig c s).stepper.prof = s.stepper.prof := rfl
@[simp] theorem storeConfig_stepper_profLen (c : StepperConfig) (s : State) :
    (storeConfig c s).stepper.profLen = s.stepper.profLen := rfl
@[simp] theorem storeConfig_stepper_sqIndex (c : StepperConfig) (s : State) :
    (storeConfig c s).stepper.sqIndex = 0 := rfl
@[simp] theorem storeConfig_stepper_sqPhase (c : StepperConfig) (s : State) :
    (storeConfig c s).stepper.sqPhase = .idle := rfl
@[simp] theorem storeConfig_stepper_response (c : StepperConfig) (s : State) :
    (storeConfig c s).stepper.response = s.stepper.response := rfl
@[simp] theorem storeConfig_stepper_trace (c : StepperConfig) (s : State) :
    (storeConfig c s).stepper.trace = s.stepper.trace := rfl
@[simp] theorem storeConfig_stepper_todo (c : StepperConfig) (s : State) :
    (storeConfig c s).stepper.todo = s.stepper.todo := rfl
@[simp] theorem storeConfig_stepper_answers (c : StepperConfig) (s : State) :
    (storeConfig c s).stepper.answers = s.stepper.answers := rfl
@[simp] theorem storeConfig_stepper_tick (c : StepperConfig) (s : State) :
    (storeConfig c s).stepper.tick = s.stepper.tick := rfl
@[simp] theorem storeConfig_hx (c : StepperConfig) (s : State) : (storeConfig c s).hx = s.hx := rfl
@[simp] theorem storeConfig_params (c : StepperConfig) (s : State) : (storeConfig c s).params = s.params := rfl
@[simp] theorem storeConfig_program (c : StepperConfig) (s : State) : (storeConfig c s).program = s.program := rfl
@[simp] theorem storeConfig_hostResponse (c : StepperConfig) (s : State) :
    (storeConfig c s).hostResponse = s.hostResponse := rfl
@[simp] theorem storeConfig_hostTrace (c : StepperConfig) (s : State) :
    (storeConfig c s).hostTrace = s.hostTrace := rfl
@[simp] theorem storeConfig_order (c : StepperConfig) (s : State) : (storeConfig c s).order = s.order := rfl
@[simp] theorem storeConfig_outsidePins (c : StepperConfig) (s : State) :
    (storeConfig c s).outsidePins = s.outsidePins := rfl
@[simp] theorem storeConfig_turns (c : StepperConfig) (s : State) : (storeConfig c s).turns = s.turns := rfl
@[simp] theorem storeConfig_quantum (c : StepperConfig) (s : State) : (storeConfig c s).quantum = s.quantum := rfl
@[simp] theorem storeConfig_tick (c : StepperConfig) (s : State) : (storeConfig c s).tick = s.tick := rfl

/-! ### hxStore -/

@[simp] theorem hxStore_stepper (c : HxConfig) (useEdge : Bool) (s : State) :
    (hxStore c useEdge s).stepper = s.stepper := rfl
@[simp] theorem hxStore_hx_cfgd (c : HxConfig) (useEdge : Bool) (s : State) :
    (hxStore c useEdge s).hx.cfgd = true := rfl
@[simp] theorem hxStore_hx_config (c : HxConfig) (useEdge : Bool) (s : State) :
    (hxStore c useEdge s).hx.config = some c := rfl
@[simp] theorem hxStore_hx_edgeEn (c : HxConfig) (useEdge : Bool) (s : State) :
    (hxStore c useEdge s).hx.edgeEn = useEdge := rfl
@[simp] theorem hxStore_hx_reading (c : HxConfig) (useEdge : Bool) (s : State) :
    (hxStore c useEdge s).hx.reading = false := rfl
@[simp] theorem hxStore_hx_phase (c : HxConfig) (useEdge : Bool) (s : State) :
    (hxStore c useEdge s).hx.phase = .idle := rfl
@[simp] theorem hxStore_hx_acc (c : HxConfig) (useEdge : Bool) (s : State) :
    (hxStore c useEdge s).hx.acc = s.hx.acc := rfl
@[simp] theorem hxStore_hx_bitCnt (c : HxConfig) (useEdge : Bool) (s : State) :
    (hxStore c useEdge s).hx.bitCnt = s.hx.bitCnt := rfl
@[simp] theorem hxStore_hx_pulseCnt (c : HxConfig) (useEdge : Bool) (s : State) :
    (hxStore c useEdge s).hx.pulseCnt = s.hx.pulseCnt := rfl
@[simp] theorem hxStore_hx_sum (c : HxConfig) (useEdge : Bool) (s : State) :
    (hxStore c useEdge s).hx.sum = s.hx.sum := rfl
@[simp] theorem hxStore_hx_obs (c : HxConfig) (useEdge : Bool) (s : State) :
    (hxStore c useEdge s).hx.obs = s.hx.obs := rfl
@[simp] theorem hxStore_hx_busy (c : HxConfig) (useEdge : Bool) (s : State) :
    (hxStore c useEdge s).hx.busy = s.hx.busy := rfl
@[simp] theorem hxStore_hx_response (c : HxConfig) (useEdge : Bool) (s : State) :
    (hxStore c useEdge s).hx.response = s.hx.response := rfl
@[simp] theorem hxStore_hx_resultPort (c : HxConfig) (useEdge : Bool) (s : State) :
    (hxStore c useEdge s).hx.resultPort = s.hx.resultPort := rfl
@[simp] theorem hxStore_hx_trace (c : HxConfig) (useEdge : Bool) (s : State) :
    (hxStore c useEdge s).hx.trace = s.hx.trace := rfl
@[simp] theorem hxStore_hx_todo (c : HxConfig) (useEdge : Bool) (s : State) :
    (hxStore c useEdge s).hx.todo = s.hx.todo := rfl
@[simp] theorem hxStore_hx_edgeTodo (c : HxConfig) (useEdge : Bool) (s : State) :
    (hxStore c useEdge s).hx.edgeTodo = s.hx.edgeTodo := rfl
@[simp] theorem hxStore_hx_levels (c : HxConfig) (useEdge : Bool) (s : State) :
    (hxStore c useEdge s).hx.levels = s.hx.levels := rfl
@[simp] theorem hxStore_hx_answers (c : HxConfig) (useEdge : Bool) (s : State) :
    (hxStore c useEdge s).hx.answers = s.hx.answers := rfl
@[simp] theorem hxStore_hx_tick (c : HxConfig) (useEdge : Bool) (s : State) :
    (hxStore c useEdge s).hx.tick = s.hx.tick := rfl
@[simp] theorem hxStore_params (c : HxConfig) (useEdge : Bool) (s : State) :
    (hxStore c useEdge s).params = s.params := rfl
@[simp] theorem hxStore_program (c : HxConfig) (useEdge : Bool) (s : State) :
    (hxStore c useEdge s).program = s.program := rfl
@[simp] theorem hxStore_hostResponse (c : HxConfig) (useEdge : Bool) (s : State) :
    (hxStore c useEdge s).hostResponse = s.hostResponse := rfl
@[simp] theorem hxStore_hostTrace (c : HxConfig) (useEdge : Bool) (s : State) :
    (hxStore c useEdge s).hostTrace = s.hostTrace := rfl
@[simp] theorem hxStore_order (c : HxConfig) (useEdge : Bool) (s : State) :
    (hxStore c useEdge s).order = s.order := rfl
@[simp] theorem hxStore_outsidePins (c : HxConfig) (useEdge : Bool) (s : State) :
    (hxStore c useEdge s).outsidePins = s.outsidePins := rfl
@[simp] theorem hxStore_turns (c : HxConfig) (useEdge : Bool) (s : State) :
    (hxStore c useEdge s).turns = s.turns := rfl
@[simp] theorem hxStore_quantum (c : HxConfig) (useEdge : Bool) (s : State) :
    (hxStore c useEdge s).quantum = s.quantum := rfl
@[simp] theorem hxStore_tick (c : HxConfig) (useEdge : Bool) (s : State) : (hxStore c useEdge s).tick = s.tick := rfl

/-! ### outsideHold -/

@[simp] theorem outsideHold_stepper (p : Pin) (s : State) : (outsideHold p s).stepper = s.stepper := rfl
@[simp] theorem outsideHold_hx (p : Pin) (s : State) : (outsideHold p s).hx = s.hx := rfl
@[simp] theorem outsideHold_params (p : Pin) (s : State) : (outsideHold p s).params = s.params := rfl
@[simp] theorem outsideHold_program (p : Pin) (s : State) : (outsideHold p s).program = s.program := rfl
@[simp] theorem outsideHold_hostResponse (p : Pin) (s : State) :
    (outsideHold p s).hostResponse = s.hostResponse := rfl
@[simp] theorem outsideHold_hostTrace (p : Pin) (s : State) : (outsideHold p s).hostTrace = s.hostTrace := rfl
@[simp] theorem outsideHold_order (p : Pin) (s : State) : (outsideHold p s).order = s.order := rfl
@[simp] theorem outsideHold_outsidePins (p : Pin) (s : State) :
    (outsideHold p s).outsidePins = s.outsidePins.insert p := rfl
@[simp] theorem outsideHold_turns (p : Pin) (s : State) : (outsideHold p s).turns = s.turns := rfl
@[simp] theorem outsideHold_quantum (p : Pin) (s : State) : (outsideHold p s).quantum = s.quantum := rfl
@[simp] theorem outsideHold_tick (p : Pin) (s : State) : (outsideHold p s).tick = s.tick := rfl

/-! ### outsideRelease -/

@[simp] theorem outsideRelease_stepper (p : Pin) (s : State) : (outsideRelease p s).stepper = s.stepper := rfl
@[simp] theorem outsideRelease_hx (p : Pin) (s : State) : (outsideRelease p s).hx = s.hx := rfl
@[simp] theorem outsideRelease_params (p : Pin) (s : State) : (outsideRelease p s).params = s.params := rfl
@[simp] theorem outsideRelease_program (p : Pin) (s : State) : (outsideRelease p s).program = s.program := rfl
@[simp] theorem outsideRelease_hostResponse (p : Pin) (s : State) :
    (outsideRelease p s).hostResponse = s.hostResponse := rfl
@[simp] theorem outsideRelease_hostTrace (p : Pin) (s : State) : (outsideRelease p s).hostTrace = s.hostTrace := rfl
@[simp] theorem outsideRelease_order (p : Pin) (s : State) : (outsideRelease p s).order = s.order := rfl
@[simp] theorem outsideRelease_outsidePins (p : Pin) (s : State) :
    (outsideRelease p s).outsidePins = s.outsidePins.erase p := rfl
@[simp] theorem outsideRelease_turns (p : Pin) (s : State) : (outsideRelease p s).turns = s.turns := rfl
@[simp] theorem outsideRelease_quantum (p : Pin) (s : State) : (outsideRelease p s).quantum = s.quantum := rfl
@[simp] theorem outsideRelease_tick (p : Pin) (s : State) : (outsideRelease p s).tick = s.tick := rfl

end Sys2Proof.Machine
end

