-- ==== Sys2Proof/Laws/Hx.lean ====
section
/-! SUPPORT. What one action of the HX711 unit can do, and what follows for any number of them, on the host's path and on
the edge dispatcher's. -/

namespace Sys2Proof.Machine

/-! ### The environment's draws -/

theorem hxAnswer_cons {s : State} {a : Bool} {rest : List Bool} (h : s.hx.answers = a :: rest) :
    hxAnswer s = (a, (onHx (fun x => { x with answers := rest }) s)) := by
  simp only [hxAnswer, h]

theorem hxAnswer_eq (s : State) : ∃ b answers tick,
    hxAnswer s = (b, (onHx (fun x => { x with answers := answers, tick := tick }) s)) := by
  unfold hxAnswer
  split
  · exact ⟨_, _, _, rfl⟩
  · exact ⟨_, s.hx.answers, _, rfl⟩

theorem hxLevel_cons {s : State} {l : Level} {rest : List Level} (h : s.hx.levels = l :: rest) :
    hxLevel s = (l, (onHx (fun x => { x with levels := rest }) s)) := by
  simp only [hxLevel, h]

theorem hxLevel_eq (s : State) : ∃ l levels tick,
    hxLevel s = (l, (onHx (fun x => { x with levels := levels, tick := tick }) s)) := by
  unfold hxLevel
  split
  · exact ⟨_, _, _, rfl⟩
  · exact ⟨_, s.hx.levels, _, rfl⟩

theorem hxConfigure_eq (e : Bool → Event) (rest : List HxOp) (s : State) : ∃ b answers tick,
    hxConfigure e rest s = .next (if b then rest else [.resp .hardwareUnavailable .none],
      hxLog (e b) (onHx (fun x => { x with answers := answers, tick := tick }) s)) := by
  obtain ⟨b, answers, tick, h⟩ := hxAnswer_eq s
  refine ⟨b, answers, tick, ?_⟩
  unfold hxConfigure
  rw [h]
  cases b <;> rfl

theorem hxConfigure_cons {s : State} {b : Bool} {rest : List Bool} (e : Bool → Event) (l : List HxOp)
    (h : s.hx.answers = b :: rest) :
    hxConfigure e l s = .next (if b then l else [.resp .hardwareUnavailable .none],
      hxLog (e b) (onHx (fun x => { x with answers := rest }) s)) := by
  unfold hxConfigure
  rw [hxAnswer_cons h]
  cases b <;> rfl

/-! ### The ready gate -/

/-- Everything `TryEnter` can do (spec/43_hx711_decoder.md R186): nothing while a cycle runs; else one read, and on a 0
the two flags. -/
theorem tryEnter_eq {s : State} {t : Bool × State} (h : tryEnter s = .next t) :
    (s.hx.reading = true ∧ t = (false, s)) ∨
    (s.hx.reading = false ∧ ∃ c levels tick, s.hx.config = some c ∧
      (t = (false, hxLog (.rd c.dataPin true) (onHx (fun x => { x with levels := levels, tick := tick }) s)) ∨
       t = (true, hxLog (.rd c.dataPin false)
          (onHx (fun x => { x with levels := levels, tick := tick, reading := true, phase := .reading }) s)))) := by
  unfold tryEnter at h
  split at h
  · rename_i hr; cases h; exact .inl ⟨hr, rfl⟩
  · rename_i hr
    refine .inr ⟨by simpa using hr, ?_⟩
    rw [readReg_eq_next] at h
    obtain ⟨c, hc, h⟩ := h
    obtain ⟨l, levels, tick, hl⟩ := hxLevel_eq s
    rw [hl] at h
    refine ⟨c, levels, tick, hc, ?_⟩
    cases l <;> cases h
    · exact .inr rfl
    · exact .inl rfl

/-! ### Running -/

@[simp] theorem runHx_zero (s : State) : runHx 0 s = .next s := rfl

@[simp] theorem runEdge_zero (s : State) : runEdge 0 s = .next s := rfl

theorem runHx_nil (k : Nat) {s : State} (h : s.hx.todo = []) : runHx k s = .next s := by
  cases k <;> simp [runHx, h]

theorem runEdge_nil (k : Nat) {s : State} (h : s.hx.edgeTodo = []) : runEdge k s = .next s := by
  cases k <;> simp [runEdge, h]

theorem runHx_cons (k : Nat) {s : State} {op : HxOp} {rest : List HxOp} (h : s.hx.todo = op :: rest) :
    runHx (k + 1) s = andThen (hxAct op rest s) fun t => runHx k (hxTodo t.1 t.2) := by
  simp [runHx, h]

theorem runEdge_cons (k : Nat) {s : State} {op : HxOp} {rest : List HxOp} (h : s.hx.edgeTodo = op :: rest) :
    runEdge (k + 1) s = andThen (hxAct op rest s) fun t => runEdge k (hxEdgeTodo t.1 t.2) := by
  simp [runEdge, h]

/-- Where a turn ends leaves no mark on the unit (spec/20_memory.md R74). -/
theorem runHx_add (a b : Nat) (s : State) : runHx (a + b) s = andThen (runHx a s) (runHx b) := by
  induction a generalizing s with
  | zero => simp
  | succ a ih =>
    rw [Nat.add_right_comm]
    cases h : s.hx.todo with
    | nil => rw [runHx_nil _ h, runHx_nil _ h, andThen_next, runHx_nil _ h]
    | cons op rest =>
      rw [runHx_cons _ h, runHx_cons _ h, andThen_assoc]
      congr 1
      funext t
      exact ih _

/-- Where a turn ends leaves no mark on the edge dispatcher. -/
theorem runEdge_add (a b : Nat) (s : State) : runEdge (a + b) s = andThen (runEdge a s) (runEdge b) := by
  induction a generalizing s with
  | zero => simp
  | succ a ih =>
    rw [Nat.add_right_comm]
    cases h : s.hx.edgeTodo with
    | nil => rw [runEdge_nil _ h, runEdge_nil _ h, andThen_next, runEdge_nil _ h]
    | cons op rest =>
      rw [runEdge_cons _ h, runEdge_cons _ h, andThen_assoc]
      congr 1
      funext t
      exact ih _

theorem runHx_act (k : Nat) {s t : State} {op : HxOp} {rest l : List HxOp} (h : s.hx.todo = op :: rest)
    (ha : hxAct op rest s = .next (l, t)) : runHx (k + 1) s = runHx k (hxTodo l t) := by
  rw [runHx_cons k h, ha, andThen_next]

theorem runHx_to {n k : Nat} {s t : State} (hk : n ≤ k) (h : runHx n s = .next t) (ht : t.hx.todo = []) :
    runHx k s = .next t := by
  obtain ⟨m, rfl⟩ := Nat.exists_eq_add_of_le hk
  rw [runHx_add, h, andThen_next, runHx_nil _ ht]

theorem runHx_trans {a b : Nat} {s t u : State} (h : runHx a s = .next t) (h' : runHx b t = .next u) :
    runHx (a + b) s = .next u := by
  rw [runHx_add, h, andThen_next, h']

theorem runEdge_act (k : Nat) {s t : State} {op : HxOp} {rest l : List HxOp} (h : s.hx.edgeTodo = op :: rest)
    (ha : hxAct op rest s = .next (l, t)) : runEdge (k + 1) s = runEdge k (hxEdgeTodo l t) := by
  rw [runEdge_cons k h, ha, andThen_next]

theorem runEdge_to {n k : Nat} {s t : State} (hk : n ≤ k) (h : runEdge n s = .next t) (ht : t.hx.edgeTodo = []) :
    runEdge k s = .next t := by
  obtain ⟨m, rfl⟩ := Nat.exists_eq_add_of_le hk
  rw [runEdge_add, h, andThen_next, runEdge_nil _ ht]

theorem runEdge_trans {a b : Nat} {s t u : State} (h : runEdge a s = .next t) (h' : runEdge b t = .next u) :
    runEdge (a + b) s = .next u := by
  rw [runEdge_add, h, andThen_next, h']

theorem runHx_keeps {P : State → Prop}
    (step : ∀ op rest s t, s.hx.todo = op :: rest → P s → hxAct op rest s = .next t → P (hxTodo t.1 t.2))
    {k : Nat} {s t : State} (hs : P s) (h : runHx k s = .next t) : P t := by
  induction k generalizing s with
  | zero => cases h; exact hs
  | succ k ih =>
    cases ht : s.hx.todo with
    | nil => rw [runHx_nil _ ht] at h; cases h; exact hs
    | cons op rest =>
      rw [runHx_cons _ ht, andThen_eq_next] at h
      obtain ⟨u, hu, h⟩ := h
      exact ih (step op rest s u ht hs hu) h

theorem runEdge_keeps {P : State → Prop}
    (step : ∀ op rest s t, s.hx.edgeTodo = op :: rest → P s → hxAct op rest s = .next t → P (hxEdgeTodo t.1 t.2))
    {k : Nat} {s t : State} (hs : P s) (h : runEdge k s = .next t) : P t := by
  induction k generalizing s with
  | zero => cases h; exact hs
  | succ k ih =>
    cases ht : s.hx.edgeTodo with
    | nil => rw [runEdge_nil _ ht] at h; cases h; exact hs
    | cons op rest =>
      rw [runEdge_cons _ ht, andThen_eq_next] at h
      obtain ⟨u, hu, h⟩ := h
      exact ih (step op rest s u ht hs hu) h

/-! ### The frame of the unit -/

/-- What a move of the HX711 unit leaves alone, and how it writes its trace (spec/10_state.md R42, spec/20_memory.md R60,
R73). -/
structure HxFrame (s t : State) : Prop where
  stepper : t.stepper = s.stepper
  params : t.params = s.params
  program : t.program = s.program
  hostResponse : t.hostResponse = s.hostResponse
  hostTrace : t.hostTrace = s.hostTrace
  turns : t.turns = s.turns
  quantum : t.quantum = s.quantum
  tick : t.tick = s.tick
  outsidePins : t.outsidePins = s.outsidePins
  grows : ∃ es, t.hx.trace = s.hx.trace ++ es ∧ t.order = s.order ++ List.replicate es.length .hx711

theorem HxFrame.refl (s : State) : HxFrame s s :=
  ⟨rfl, rfl, rfl, rfl, rfl, rfl, rfl, rfl, rfl, [], by simp, by simp⟩

theorem HxFrame.trans {s t u : State} (a : HxFrame s t) (b : HxFrame t u) : HxFrame s u := by
  obtain ⟨es, h1, h2⟩ := a.grows
  obtain ⟨fs, h3, h4⟩ := b.grows
  exact ⟨b.stepper.trans a.stepper, b.params.trans a.params, b.program.trans a.program,
    b.hostResponse.trans a.hostResponse, b.hostTrace.trans a.hostTrace, b.turns.trans a.turns,
    b.quantum.trans a.quantum, b.tick.trans a.tick,
    b.outsidePins.trans a.outsidePins, es ++ fs,
    by rw [h3, h1, List.append_assoc], by rw [h4, h2, List.append_assoc, List.length_append, ← List.replicate_add]⟩

theorem HxFrame.of_hx {s : State} (f : Hx711 → Hx711) (h : (f s.hx).trace = s.hx.trace) : HxFrame s (onHx f s) :=
  ⟨rfl, rfl, rfl, rfl, rfl, rfl, rfl, rfl, rfl, [], by simp [h], by simp⟩

theorem tryEnter_frame {s : State} {t : Bool × State} (h : tryEnter s = .next t) : HxFrame s t.2 := by
  rcases tryEnter_eq h with ⟨_, rfl⟩ | ⟨_, c, levels, tick, _, rfl | rfl⟩
  · exact HxFrame.refl _
  · exact ⟨rfl, rfl, rfl, rfl, rfl, rfl, rfl, rfl, rfl, [_], rfl, rfl⟩
  · exact ⟨rfl, rfl, rfl, rfl, rfl, rfl, rfl, rfl, rfl, [_], rfl, rfl⟩

theorem accumulate_frame {n : Count} {v : Reading} {rest : List HxOp} {s : State} {t : List HxOp × State}
    (h : accumulate n v rest s = .next t) : HxFrame s t.2 := by
  simp only [accumulate, readReg_eq_next] at h
  obtain ⟨sum, _, obs, _, h⟩ := h
  split at h <;> cases h
  · exact ⟨rfl, rfl, rfl, rfl, rfl, rfl, rfl, rfl, rfl, [], by simp, by simp⟩
  · exact ⟨rfl, rfl, rfl, rfl, rfl, rfl, rfl, rfl, rfl, [_], rfl, rfl⟩

/-- One action is at most one event (spec/20_memory.md R73) and nothing outside the unit. -/
theorem hxAct_frame {op : HxOp} {rest : List HxOp} {s : State} {t : List HxOp × State}
    (h : hxAct op rest s = .next t) : HxFrame s t.2 := by
  have cfg : ∀ e, hxConfigure e rest s = .next t → HxFrame s t.2 := by
    intro e h
    obtain ⟨b, a, k, he⟩ := hxConfigure_eq e rest s
    rw [he] at h; cases h
    exact ⟨rfl, rfl, rfl, rfl, rfl, rfl, rfl, rfl, rfl, [_], rfl, rfl⟩
  cases op with
  | cfgIn p pull => exact cfg _ h
  | cfgOut p => exact cfg _ h
  | register p => exact cfg _ h
  | wr p l => cases h; exact ⟨rfl, rfl, rfl, rfl, rfl, rfl, rfl, rfl, rfl, [_], rfl, rfl⟩
  | wait d => cases h; exact ⟨rfl, rfl, rfl, rfl, rfl, rfl, rfl, rfl, rfl, [_], rfl, rfl⟩
  | store c u =>
    cases h
    exact ⟨rfl, rfl, rfl, rfl, rfl, rfl, rfl, rfl, rfl, [], by simp, by simp⟩
  | poll u =>
    simp only [hxAct, pollOnce, andThen_eq_next] at h
    obtain ⟨⟨b, v⟩, hv, h⟩ := h
    cases b <;> cases h <;> exact tryEnter_frame hv
  | clear u => cases h; exact ⟨rfl, rfl, rfl, rfl, rfl, rfl, rfl, rfl, rfl, [], by simp, by simp⟩
  | dataClock u =>
    simp only [hxAct, dataClockHead, readReg_eq_next] at h
    obtain ⟨c, _, n, _, h⟩ := h
    split at h
    · cases h; exact ⟨rfl, rfl, rfl, rfl, rfl, rfl, rfl, rfl, rfl, [_], rfl, rfl⟩
    · rw [readReg_eq_next] at h
      obtain ⟨a, _, h⟩ := h
      cases h; exact ⟨rfl, rfl, rfl, rfl, rfl, rfl, rfl, rfl, rfl, [], by simp, by simp⟩
  | sample =>
    simp only [hxAct, sampleBit, readReg_eq_next] at h
    obtain ⟨c, _, h⟩ := h
    obtain ⟨l, levels, tick, hl⟩ := hxLevel_eq s
    rw [hl] at h; cases h
    exact ⟨rfl, rfl, rfl, rfl, rfl, rfl, rfl, rfl, rfl, [_], rfl, rfl⟩
  | shift l =>
    simp only [hxAct, shiftBit, readReg_eq_next] at h
    obtain ⟨a, _, n, _, h⟩ := h
    cases h; exact ⟨rfl, rfl, rfl, rfl, rfl, rfl, rfl, rfl, rfl, [], by simp, by simp⟩
  | extraClock u v =>
    simp only [hxAct, extraClockHead, readReg_eq_next] at h
    obtain ⟨c, _, n, _, h⟩ := h
    split at h
    · cases h; exact ⟨rfl, rfl, rfl, rfl, rfl, rfl, rfl, rfl, rfl, [_], rfl, rfl⟩
    · cases h; exact ⟨rfl, rfl, rfl, rfl, rfl, rfl, rfl, rfl, rfl, [], by simp, by simp⟩
  | countPulse =>
    simp only [hxAct, readReg_eq_next] at h
    obtain ⟨n, _, h⟩ := h
    cases h; exact ⟨rfl, rfl, rfl, rfl, rfl, rfl, rfl, rfl, rfl, [], by simp, by simp⟩
  | deliver u v =>
    cases u with
    | respond => cases h; exact ⟨rfl, rfl, rfl, rfl, rfl, rfl, rfl, rfl, rfl, [_], rfl, rfl⟩
    | average n => exact accumulate_frame h
    | emit => cases h; exact ⟨rfl, rfl, rfl, rfl, rfl, rfl, rfl, rfl, rfl, [_], rfl, rfl⟩
  | resp st r => cases h; exact ⟨rfl, rfl, rfl, rfl, rfl, rfl, rfl, rfl, rfl, [_], rfl, rfl⟩

theorem runHx_frame {k : Nat} {s t : State} (h : runHx k s = .next t) : HxFrame s t :=
  runHx_keeps (P := HxFrame s)
    (fun _ _ _ _ _ hs h => (hs.trans (hxAct_frame h)).trans (HxFrame.of_hx _ rfl)) (HxFrame.refl s) h

theorem runEdge_frame {k : Nat} {s t : State} (h : runEdge k s = .next t) : HxFrame s t :=
  runEdge_keeps (P := HxFrame s)
    (fun _ _ _ _ _ hs h => (hs.trans (hxAct_frame h)).trans (HxFrame.of_hx _ rfl)) (HxFrame.refl s) h

/-! ### Which registers an action can write -/

/-- An action that leaves the HX711Config registers, `HX.CFGD` and `HX.EDGE_EN` alone. -/
def HxOp.keepsConfig : HxOp → Bool
  | .store _ _ => false
  | .cfgIn _ _ | .cfgOut _ | .register _ | .wr _ _ | .wait _ | .poll _ | .clear _ | .dataClock _ | .sample | .shift _
  | .extraClock _ _ | .countPulse | .deliver _ _ | .resp _ _ => true

/-- An action that belongs to the configuration command: it leaves the cycle's and the average's registers alone. -/
def HxOp.keepsCycle : HxOp → Bool
  | .cfgIn _ _ | .cfgOut _ | .register _ | .wr _ _ | .wait _ | .store _ _ | .resp _ _ => true
  | .poll _ | .clear _ | .dataClock _ | .sample | .shift _ | .extraClock _ _ | .countPulse | .deliver _ _ => false

/-- An action that sends no Reading to the result port. -/
def HxOp.keepsPort : HxOp → Bool
  | .poll .emit | .clear .emit | .dataClock .emit | .extraClock .emit _ | .deliver .emit _ => false
  | .poll _ | .clear _ | .dataClock _ | .extraClock _ _ | .deliver _ _
  | .cfgIn _ _ | .cfgOut _ | .register _ | .wr _ _ | .wait _ | .store _ _ | .resp _ _ | .sample | .shift _
  | .countPulse => true

/-- An action that serves no average. -/
def HxOp.keepsSum : HxOp → Bool
  | .poll (.average _) | .clear (.average _) | .dataClock (.average _) | .extraClock (.average _) _
  | .deliver (.average _) _ => false
  | .poll _ | .clear _ | .dataClock _ | .extraClock _ _ | .deliver _ _
  | .cfgIn _ _ | .cfgOut _ | .register _ | .wr _ _ | .wait _ | .store _ _ | .resp _ _ | .sample | .shift _
  | .countPulse => true

/-- An action that serves neither a response nor an average: all an edge-triggered cycle has. -/
def HxOp.keepsHost : HxOp → Bool
  | .poll .emit | .clear .emit | .dataClock .emit | .extraClock .emit _ | .deliver .emit _ => true
  | .poll _ | .clear _ | .dataClock _ | .extraClock _ _ | .deliver _ _ => false
  | .cfgIn _ _ | .cfgOut _ | .register _ | .store _ _ | .resp _ _ => false
  | .wr _ _ | .wait _ | .sample | .shift _ | .countPulse => true

theorem hxWait_all (f : HxOp → Bool) (t : F64) (h : ∀ t, f (.wait t) = true) : (hxWait t).all f = true := by
  unfold hxWait; split <;> simp [h]

/-- What an action leaves to do: one of the lists the rules of spec/43_hx711_decoder.md add. -/
theorem hxAct_todo {op : HxOp} {rest : List HxOp} {s : State} {t : List HxOp × State}
    (h : hxAct op rest s = .next t) :
    t.1 = rest ∨ t.1 = [] ∨
    (((∃ p l, op = .cfgIn p l) ∨ (∃ p, op = .cfgOut p) ∨ ∃ p, op = .register p) ∧
      t.1 = [.resp .hardwareUnavailable .none]) ∨
    (∃ u, op = .poll u ∧ (t.1 = .clear u :: rest ∨ t.1 = hxWait s.params.tPoll ++ .poll u :: rest)) ∨
    (∃ u, op = .clear u ∧ t.1 = .dataClock u :: rest) ∨
    (∃ u, op = .dataClock u ∧ ((∃ p, t.1 = hxWait s.params.tHxHigh ++ .wr p false :: .sample :: .dataClock u :: rest) ∨
      ∃ v, t.1 = .extraClock u v :: rest)) ∨
    (∃ l, op = .sample ∧ t.1 = hxWait s.params.tHxLow ++ [.shift l] ++ rest) ∨
    (∃ u v, op = .extraClock u v ∧ ((∃ p, t.1 = hxWait s.params.tHxHigh ++ [.wr p false] ++ hxWait s.params.tHxLow
      ++ .countPulse :: .extraClock u v :: rest) ∨ t.1 = .deliver u v :: rest)) ∨
    (∃ n v, op = .deliver (.average n) v ∧ t.1 = .poll (.average n) :: rest) := by
  have cfg : ∀ e, hxConfigure e rest s = .next t → t.1 = rest ∨ t.1 = [.resp .hardwareUnavailable .none] := by
    intro e h
    obtain ⟨b, a, k, he⟩ := hxConfigure_eq e rest s
    rw [he] at h; cases h
    cases b <;> simp
  cases op with
  | cfgIn p pull => rcases cfg _ h with e | e <;> simp [e]
  | cfgOut p => rcases cfg _ h with e | e <;> simp [e]
  | register p => rcases cfg _ h with e | e <;> simp [e]
  | wr p l => cases h; simp
  | wait d => cases h; simp
  | store c u =>
    cases h
    simp
  | poll u =>
    simp only [hxAct, pollOnce, andThen_eq_next] at h
    obtain ⟨⟨b, v⟩, hv, h⟩ := h
    cases b <;> cases h <;> simp
  | clear u => cases h; simp
  | dataClock u =>
    simp only [hxAct, dataClockHead, readReg_eq_next] at h
    obtain ⟨c, _, n, _, h⟩ := h
    split at h
    · cases h; simp
    · rw [readReg_eq_next] at h
      obtain ⟨a, _, h⟩ := h
      cases h; simp
  | sample =>
    simp only [hxAct, sampleBit, readReg_eq_next] at h
    obtain ⟨c, _, h⟩ := h
    obtain ⟨l, levels, tick, hl⟩ := hxLevel_eq s
    rw [hl] at h; cases h
    exact .inr (.inr (.inr (.inr (.inr (.inr (.inl ⟨l, rfl, by simp⟩))))))
  | shift l =>
    simp only [hxAct, shiftBit, readReg_eq_next] at h
    obtain ⟨a, _, n, _, h⟩ := h
    cases h; simp
  | extraClock u v =>
    simp only [hxAct, extraClockHead, readReg_eq_next] at h
    obtain ⟨c, _, n, _, h⟩ := h
    split at h <;> cases h <;> simp
  | countPulse =>
    simp only [hxAct, readReg_eq_next] at h
    obtain ⟨n, _, h⟩ := h
    cases h; simp
  | deliver u v =>
    cases u with
    | respond => cases h; simp
    | average n =>
      simp only [hxAct, deliverReading, accumulate, readReg_eq_next] at h
      obtain ⟨sum, _, obs, _, h⟩ := h
      split at h <;> cases h <;> simp
    | emit => cases h; simp
  | resp st r => cases h; simp

/-- A property of actions that the rules' own successions respect holds of what an action leaves to do. -/
theorem hxAct_todo_all {f : HxOp → Bool} (free : ∀ op, ((∃ t, op = .wait t) ∨ (∃ p l, op = .wr p l) ∨ op = .sample ∨
      (∃ l, op = .shift l) ∨ op = .countPulse) → f op = true)
    (fail : ∀ op, ((∃ p l, op = .cfgIn p l) ∨ (∃ p, op = .cfgOut p) ∨ ∃ p, op = .register p) → f op = true →
      f (.resp .hardwareUnavailable .none) = true)
    (poll : ∀ u, f (.poll u) = true → f (.clear u) = true)
    (clear : ∀ u, f (.clear u) = true → f (.dataClock u) = true)
    (data : ∀ u, f (.dataClock u) = true → ∀ v, f (.extraClock u v) = true)
    (extra : ∀ u v, f (.extraClock u v) = true → f (.deliver u v) = true)
    (average : ∀ n v, f (.deliver (.average n) v) = true → f (.poll (.average n)) = true)
    {op : HxOp} {rest : List HxOp} {s : State} {t : List HxOp × State}
    (hf : (op :: rest).all f = true) (h : hxAct op rest s = .next t) : t.1.all f = true := by
  have w : ∀ t, (hxWait t).all f = true := by
    intro t; unfold hxWait; split <;> simp [free]
  rw [List.all_cons, Bool.and_eq_true] at hf
  obtain ⟨ho, hr⟩ := hf
  rcases hxAct_todo h with e | e | ⟨hc, e⟩ | ⟨u, rfl, e | e⟩ | ⟨u, rfl, e⟩ | ⟨u, rfl, ⟨p, e⟩ | ⟨v, e⟩⟩ | ⟨l, rfl, e⟩ |
    ⟨u, v, rfl, ⟨p, e⟩ | e⟩ | ⟨n, v, rfl, e⟩ <;> rw [e]
  · exact hr
  · rfl
  · simp [fail op hc ho]
  · simp [poll u ho, hr]
  · simp [w, ho, hr]
  · simp [clear u ho, hr]
  · simp [w, ho, free, hr]
  · simp [data u ho v, hr]
  · simp [w, free, hr]
  · simp [w, ho, free, hr]
  · simp [extra u v ho, hr]
  · simp [average n v ho, hr]

theorem hxAct_keepsConfig {op : HxOp} {rest : List HxOp} {s : State} {t : List HxOp × State}
    (hf : (op :: rest).all HxOp.keepsConfig = true) (h : hxAct op rest s = .next t) :
    t.1.all HxOp.keepsConfig = true :=
  hxAct_todo_all (by rintro op (⟨_, rfl⟩ | ⟨_, _, rfl⟩ | rfl | ⟨_, rfl⟩ | rfl) <;> rfl) (fun _ _ _ => rfl)
    (fun _ _ => rfl) (fun _ _ => rfl) (fun _ _ _ => rfl) (fun _ _ _ => rfl) (fun _ _ _ => rfl) hf h

theorem hxAct_keepsCycle {op : HxOp} {rest : List HxOp} {s : State} {t : List HxOp × State}
    (hf : (op :: rest).all HxOp.keepsCycle = true) (h : hxAct op rest s = .next t) :
    t.1.all HxOp.keepsCycle = true := by
  rw [List.all_cons, Bool.and_eq_true] at hf
  rcases hxAct_todo h with e | e | ⟨_, e⟩ | ⟨u, ho, _⟩ | ⟨u, ho, _⟩ | ⟨u, ho, _⟩ | ⟨l, ho, _⟩ | ⟨u, v, ho, _⟩ |
    ⟨n, v, ho, _⟩
  · rw [e]; exact hf.2
  · rw [e]; rfl
  · rw [e]; rfl
  all_goals subst ho; cases hf.1

theorem hxAct_keepsPort {op : HxOp} {rest : List HxOp} {s : State} {t : List HxOp × State}
    (hf : (op :: rest).all HxOp.keepsPort = true) (h : hxAct op rest s = .next t) :
    t.1.all HxOp.keepsPort = true :=
  hxAct_todo_all (by rintro op (⟨_, rfl⟩ | ⟨_, _, rfl⟩ | rfl | ⟨_, rfl⟩ | rfl) <;> rfl) (fun _ _ _ => rfl)
    (fun u h => by cases u <;> trivial) (fun u h => by cases u <;> trivial)
    (fun u h _ => by cases u <;> trivial) (fun u _ h => by cases u <;> trivial) (fun _ _ _ => rfl) hf h

theorem hxAct_keepsSum {op : HxOp} {rest : List HxOp} {s : State} {t : List HxOp × State}
    (hf : (op :: rest).all HxOp.keepsSum = true) (h : hxAct op rest s = .next t) :
    t.1.all HxOp.keepsSum = true :=
  hxAct_todo_all (by rintro op (⟨_, rfl⟩ | ⟨_, _, rfl⟩ | rfl | ⟨_, rfl⟩ | rfl) <;> rfl) (fun _ _ _ => rfl)
    (fun u h => by cases u <;> trivial) (fun u h => by cases u <;> trivial)
    (fun u h _ => by cases u <;> trivial) (fun u _ h => by cases u <;> trivial) (fun _ _ h => by cases h) hf h

theorem hxAct_keepsHost {op : HxOp} {rest : List HxOp} {s : State} {t : List HxOp × State}
    (hf : (op :: rest).all HxOp.keepsHost = true) (h : hxAct op rest s = .next t) :
    t.1.all HxOp.keepsHost = true :=
  hxAct_todo_all (by rintro op (⟨_, rfl⟩ | ⟨_, _, rfl⟩ | rfl | ⟨_, rfl⟩ | rfl) <;> rfl)
    (by rintro op (⟨_, _, rfl⟩ | ⟨_, rfl⟩ | ⟨_, rfl⟩) h <;> cases h)
    (fun u h => by cases u <;> trivial) (fun u h => by cases u <;> trivial)
    (fun u h _ => by cases u <;> trivial) (fun u _ h => by cases u <;> trivial) (fun _ _ h => by cases h) hf h

/-- What an action keeps of the unit's registers, by its kind; the lists of what is left to do are its callers' to write. -/
theorem hxAct_registers {op : HxOp} {rest : List HxOp} {s : State} {t : List HxOp × State}
    (h : hxAct op rest s = .next t) :
    (t.2.hx.todo = s.hx.todo ∧ t.2.hx.edgeTodo = s.hx.edgeTodo) ∧
    (op.keepsConfig = true →
      t.2.hx.cfgd = s.hx.cfgd ∧ t.2.hx.config = s.hx.config ∧ t.2.hx.edgeEn = s.hx.edgeEn) ∧
    (op.keepsCycle = true → t.2.hx.acc = s.hx.acc ∧ t.2.hx.bitCnt = s.hx.bitCnt ∧ t.2.hx.pulseCnt = s.hx.pulseCnt ∧
      t.2.hx.sum = s.hx.sum ∧ t.2.hx.obs = s.hx.obs ∧ t.2.hx.levels = s.hx.levels) ∧
    (op.keepsPort = true → t.2.hx.resultPort = s.hx.resultPort) ∧
    (op.keepsSum = true → t.2.hx.sum = s.hx.sum ∧ t.2.hx.obs = s.hx.obs) ∧
    (op.keepsHost = true → t.2.hx.sum = s.hx.sum ∧ t.2.hx.obs = s.hx.obs ∧ t.2.hx.busy = s.hx.busy ∧
      t.2.hx.response = s.hx.response) := by
  have cfg : ∀ e, hxConfigure e rest s = .next t → ∃ b answers tick,
      t.2 = hxLog (e b) (onHx (fun x => { x with answers := answers, tick := tick }) s) := by
    intro e h
    obtain ⟨b, a, k, he⟩ := hxConfigure_eq e rest s
    rw [he] at h; cases h
    exact ⟨b, a, k, rfl⟩
  cases op with
  | cfgIn p pull => obtain ⟨b, a, k, e⟩ := cfg _ h; simp [e, HxOp.keepsHost]
  | cfgOut p => obtain ⟨b, a, k, e⟩ := cfg _ h; simp [e, HxOp.keepsHost]
  | register p => obtain ⟨b, a, k, e⟩ := cfg _ h; simp [e, HxOp.keepsHost]
  | wr p l => cases h; simp
  | wait d => cases h; simp
  | store c u =>
    cases h
    simp [HxOp.keepsConfig]
  | poll u =>
    simp only [hxAct, pollOnce, andThen_eq_next] at h
    obtain ⟨⟨b, v⟩, hv, h⟩ := h
    have hv' := tryEnter_eq hv
    have e : t.2 = v := by cases b <;> cases h <;> rfl
    rw [e]
    simp only [Prod.mk.injEq] at hv'
    rcases hv' with ⟨_, _, rfl⟩ | ⟨_, c, levels, tick, _, ⟨_, rfl⟩ | ⟨_, rfl⟩⟩ <;> simp [HxOp.keepsCycle]
  | clear u => cases h; simp [HxOp.keepsCycle]
  | dataClock u =>
    simp only [hxAct, dataClockHead, readReg_eq_next] at h
    obtain ⟨c, _, n, _, h⟩ := h
    split at h
    · cases h; simp
    · rw [readReg_eq_next] at h
      obtain ⟨a, _, h⟩ := h
      cases h; simp [HxOp.keepsCycle]
  | sample =>
    simp only [hxAct, sampleBit, readReg_eq_next] at h
    obtain ⟨c, _, h⟩ := h
    obtain ⟨l, levels, tick, hl⟩ := hxLevel_eq s
    rw [hl] at h; cases h
    simp [HxOp.keepsCycle]
  | shift l =>
    simp only [hxAct, shiftBit, readReg_eq_next] at h
    obtain ⟨a, _, n, _, h⟩ := h
    cases h; simp [HxOp.keepsCycle]
  | extraClock u v =>
    simp only [hxAct, extraClockHead, readReg_eq_next] at h
    obtain ⟨c, _, n, _, h⟩ := h
    split at h <;> cases h <;> simp [HxOp.keepsCycle]
  | countPulse =>
    simp only [hxAct, readReg_eq_next] at h
    obtain ⟨n, _, h⟩ := h
    cases h; simp [HxOp.keepsCycle]
  | deliver u v =>
    cases u with
    | respond => cases h; simp [HxOp.keepsHost, HxOp.keepsCycle]
    | average n =>
      simp only [hxAct, deliverReading, accumulate, readReg_eq_next] at h
      obtain ⟨sum, _, obs, _, h⟩ := h
      split at h <;> cases h <;> simp [HxOp.keepsHost, HxOp.keepsCycle, HxOp.keepsSum]
    | emit => cases h; simp [HxOp.keepsPort]
  | resp st r => cases h; simp [HxOp.keepsHost]

theorem all_head {f : HxOp → Bool} {op : HxOp} {rest : List HxOp} (h : (op :: rest).all f = true) : f op = true := by
  rw [List.all_cons, Bool.and_eq_true] at h
  exact h.1

/-- What any number of actions of a host command keeps, for a list of actions that all keep it. -/
theorem runHx_registers {k : Nat} {s t : State} (h : runHx k s = .next t) :
    t.hx.edgeTodo = s.hx.edgeTodo ∧
    (s.hx.todo.all HxOp.keepsConfig = true →
      t.hx.cfgd = s.hx.cfgd ∧ t.hx.config = s.hx.config ∧ t.hx.edgeEn = s.hx.edgeEn) ∧
    (s.hx.todo.all HxOp.keepsCycle = true → t.hx.acc = s.hx.acc ∧ t.hx.bitCnt = s.hx.bitCnt ∧
      t.hx.pulseCnt = s.hx.pulseCnt ∧ t.hx.sum = s.hx.sum ∧ t.hx.obs = s.hx.obs ∧ t.hx.levels = s.hx.levels) ∧
    (s.hx.todo.all HxOp.keepsPort = true → t.hx.resultPort = s.hx.resultPort) ∧
    (s.hx.todo.all HxOp.keepsSum = true → t.hx.sum = s.hx.sum ∧ t.hx.obs = s.hx.obs) := by
  refine ⟨?_, fun ha => ?_, fun ha => ?_, fun ha => ?_, fun ha => ?_⟩
  · exact runHx_keeps (P := fun u => u.hx.edgeTodo = s.hx.edgeTodo)
      (fun op rest u v _ hp hv => ((hxAct_registers hv).1.2).trans hp) rfl h
  · refine (runHx_keeps (P := fun u => u.hx.todo.all HxOp.keepsConfig = true ∧
      u.hx.cfgd = s.hx.cfgd ∧ u.hx.config = s.hx.config ∧ u.hx.edgeEn = s.hx.edgeEn)
      (fun op rest u v hu hp hv => ?_) ⟨ha, rfl, rfl, rfl⟩ h).2
    rw [hu] at hp
    have hr := (hxAct_registers hv).2.1 (all_head hp.1)
    exact ⟨hxAct_keepsConfig hp.1 hv, hr.1.trans hp.2.1, hr.2.1.trans hp.2.2.1, hr.2.2.trans hp.2.2.2⟩
  · refine (runHx_keeps (P := fun u => u.hx.todo.all HxOp.keepsCycle = true ∧
      u.hx.acc = s.hx.acc ∧ u.hx.bitCnt = s.hx.bitCnt ∧ u.hx.pulseCnt = s.hx.pulseCnt ∧ u.hx.sum = s.hx.sum ∧
      u.hx.obs = s.hx.obs ∧ u.hx.levels = s.hx.levels)
      (fun op rest u v hu hp hv => ?_) ⟨ha, rfl, rfl, rfl, rfl, rfl, rfl⟩ h).2
    rw [hu] at hp
    obtain ⟨a1, a2, a3, a4, a5, a6⟩ := (hxAct_registers hv).2.2.1 (all_head hp.1)
    obtain ⟨b, b1, b2, b3, b4, b5, b6⟩ := hp
    exact ⟨hxAct_keepsCycle b hv, a1.trans b1, a2.trans b2, a3.trans b3, a4.trans b4, a5.trans b5, a6.trans b6⟩
  · refine (runHx_keeps (P := fun u => u.hx.todo.all HxOp.keepsPort = true ∧ u.hx.resultPort = s.hx.resultPort)
      (fun op rest u v hu hp hv => ?_) ⟨ha, rfl⟩ h).2
    rw [hu] at hp
    exact ⟨hxAct_keepsPort hp.1 hv, ((hxAct_registers hv).2.2.2.1 (all_head hp.1)).trans hp.2⟩
  · refine (runHx_keeps (P := fun u => u.hx.todo.all HxOp.keepsSum = true ∧
      u.hx.sum = s.hx.sum ∧ u.hx.obs = s.hx.obs) (fun op rest u v hu hp hv => ?_) ⟨ha, rfl, rfl⟩ h).2
    rw [hu] at hp
    obtain ⟨a1, a2⟩ := (hxAct_registers hv).2.2.2.2.1 (all_head hp.1)
    exact ⟨hxAct_keepsSum hp.1 hv, a1.trans hp.2.1, a2.trans hp.2.2⟩

/-- What any number of actions of an edge-triggered cycle keeps. -/
theorem runEdge_registers {k : Nat} {s t : State} (h : runEdge k s = .next t) :
    t.hx.todo = s.hx.todo ∧
    (s.hx.edgeTodo.all HxOp.keepsConfig = true →
      t.hx.cfgd = s.hx.cfgd ∧ t.hx.config = s.hx.config ∧ t.hx.edgeEn = s.hx.edgeEn) ∧
    (s.hx.edgeTodo.all HxOp.keepsHost = true → t.hx.sum = s.hx.sum ∧ t.hx.obs = s.hx.obs ∧
      t.hx.busy = s.hx.busy ∧ t.hx.response = s.hx.response) := by
  refine ⟨?_, fun ha => ?_, fun ha => ?_⟩
  · exact runEdge_keeps (P := fun u => u.hx.todo = s.hx.todo)
      (fun op rest u v _ hp hv => ((hxAct_registers hv).1.1).trans hp) rfl h
  · refine (runEdge_keeps (P := fun u => u.hx.edgeTodo.all HxOp.keepsConfig = true ∧
      u.hx.cfgd = s.hx.cfgd ∧ u.hx.config = s.hx.config ∧ u.hx.edgeEn = s.hx.edgeEn)
      (fun op rest u v hu hp hv => ?_) ⟨ha, rfl, rfl, rfl⟩ h).2
    rw [hu] at hp
    have hr := (hxAct_registers hv).2.1 (all_head hp.1)
    exact ⟨hxAct_keepsConfig hp.1 hv, hr.1.trans hp.2.1, hr.2.1.trans hp.2.2.1, hr.2.2.trans hp.2.2.2⟩
  · refine (runEdge_keeps (P := fun u => u.hx.edgeTodo.all HxOp.keepsHost = true ∧
      u.hx.sum = s.hx.sum ∧ u.hx.obs = s.hx.obs ∧ u.hx.busy = s.hx.busy ∧ u.hx.response = s.hx.response)
      (fun op rest u v hu hp hv => ?_) ⟨ha, rfl, rfl, rfl, rfl⟩ h).2
    rw [hu] at hp
    obtain ⟨a1, a2, a3, a4⟩ := (hxAct_registers hv).2.2.2.2.2 (all_head hp.1)
    obtain ⟨b, b1, b2, b3, b4⟩ := hp
    exact ⟨hxAct_keepsHost b hv, a1.trans b1, a2.trans b2, a3.trans b3, a4.trans b4⟩

end Sys2Proof.Machine
end

