-- ==== Sys2Proof/Laws/Stepper.lean ====
section
/-! SUPPORT. What one action of the STEPPER unit can do, and what follows for any number of them. -/

namespace Sys2Proof.Machine

/-! ### The draw of an answer -/

theorem stpAnswer_cons {s : State} {a : Bool} {rest : List Bool} (h : s.stepper.answers = a :: rest) :
    stpAnswer s = (a, (onStepper (fun x => { x with answers := rest }) s)) := by
  simp only [stpAnswer, h]

theorem stpAnswer_eq (s : State) : ∃ b answers tick,
    stpAnswer s = (b, (onStepper (fun x => { x with answers := answers, tick := tick }) s)) := by
  unfold stpAnswer
  split
  · exact ⟨_, _, _, rfl⟩
  · exact ⟨_, s.stepper.answers, _, rfl⟩

/-- A configure request: the answer is on the trace, and it decides what is left to do. -/
theorem stpConfigure_eq (p : Pin) (rest : List StpOp) (s : State) : ∃ b answers tick,
    stpConfigure p rest s = stpTodo (if b then rest else [.resp .hardwareUnavailable .none])
      (stpLog (.cfgOut p b) (onStepper (fun x => { x with answers := answers, tick := tick }) s)) := by
  obtain ⟨b, answers, tick, h⟩ := stpAnswer_eq s
  refine ⟨b, answers, tick, ?_⟩
  unfold stpConfigure
  rw [h]
  cases b <;> rfl

theorem stpConfigure_true {s : State} {rest : List Bool} (p : Pin) (l : List StpOp)
    (h : s.stepper.answers = true :: rest) :
    stpConfigure p l s = stpTodo l (stpLog (.cfgOut p true) (onStepper (fun x => { x with answers := rest }) s)) := by
  unfold stpConfigure; rw [stpAnswer_cons h]

theorem stpConfigure_false {s : State} {rest : List Bool} (p : Pin) (l : List StpOp)
    (h : s.stepper.answers = false :: rest) :
    stpConfigure p l s = stpRaise .hardwareUnavailable
      (stpLog (.cfgOut p false) (onStepper (fun x => { x with answers := rest }) s)) := by
  unfold stpConfigure; rw [stpAnswer_cons h]

/-! ### Running -/

@[simp] theorem runStepper_zero (s : State) : runStepper 0 s = .next s := rfl

theorem runStepper_nil (k : Nat) {s : State} (h : s.stepper.todo = []) : runStepper k s = .next s := by
  cases k <;> simp [runStepper, h]

theorem runStepper_cons (k : Nat) {s : State} {op : StpOp} {rest : List StpOp} (h : s.stepper.todo = op :: rest) :
    runStepper (k + 1) s = andThen (stpAct op rest s) (runStepper k) := by
  simp [runStepper, h]

/-- Going on for `a` and then for `b` actions is going on for `a + b`: where a turn ends leaves no mark on the unit
(spec/20_memory.md R74). -/
theorem runStepper_add (a b : Nat) (s : State) : runStepper (a + b) s = andThen (runStepper a s) (runStepper b) := by
  induction a generalizing s with
  | zero => simp
  | succ a ih =>
    rw [Nat.add_right_comm]
    cases h : s.stepper.todo with
    | nil => rw [runStepper_nil _ h, runStepper_nil _ h, andThen_next, runStepper_nil _ h]
    | cons op rest =>
      rw [runStepper_cons _ h, runStepper_cons _ h, andThen_assoc]
      congr 1
      funext t
      exact ih t

/-- One action that goes on. -/
theorem runStepper_act (k : Nat) {s t : State} {op : StpOp} {rest : List StpOp} (h : s.stepper.todo = op :: rest)
    (ha : stpAct op rest s = .next t) : runStepper (k + 1) s = runStepper k t := by
  rw [runStepper_cons k h, ha, andThen_next]

/-- A command that is over after `n` actions is over after any more: the rest of the quantum is not used. -/
theorem runStepper_to {n k : Nat} {s t : State} (hk : n ≤ k) (h : runStepper n s = .next t) (ht : t.stepper.todo = []) :
    runStepper k s = .next t := by
  obtain ⟨m, rfl⟩ := Nat.exists_eq_add_of_le hk
  rw [runStepper_add, h, andThen_next, runStepper_nil _ ht]

/-- Going on for `a` and then for `b` actions, each reaching a next state. -/
theorem runStepper_trans {a b : Nat} {s t u : State} (h : runStepper a s = .next t) (h' : runStepper b t = .next u) :
    runStepper (a + b) s = .next u := by
  rw [runStepper_add, h, andThen_next, h']

/-- What every action keeps, any number of actions keeps. -/
theorem runStepper_keeps {P : State → Prop}
    (step : ∀ op rest s t, s.stepper.todo = op :: rest → P s → stpAct op rest s = .next t → P t)
    {k : Nat} {s t : State} (hs : P s) (h : runStepper k s = .next t) : P t := by
  induction k generalizing s with
  | zero => cases h; exact hs
  | succ k ih =>
    cases ht : s.stepper.todo with
    | nil => rw [runStepper_nil _ ht] at h; cases h; exact hs
    | cons op rest =>
      rw [runStepper_cons _ ht, andThen_eq_next] at h
      obtain ⟨u, hu, h⟩ := h
      exact ih (step op rest s u ht hs hu) h

/-! ### The frame of the unit -/

/-- What a move of the STEPPER unit leaves alone, and how it writes its trace (spec/10_state.md R42, spec/20_memory.md
R60, R73). -/
structure StpFrame (s t : State) : Prop where
  hx : t.hx = s.hx
  params : t.params = s.params
  program : t.program = s.program
  hostResponse : t.hostResponse = s.hostResponse
  hostTrace : t.hostTrace = s.hostTrace
  turns : t.turns = s.turns
  quantum : t.quantum = s.quantum
  tick : t.tick = s.tick
  outsidePins : t.outsidePins = s.outsidePins
  grows : ∃ es, t.stepper.trace = s.stepper.trace ++ es ∧ t.order = s.order ++ List.replicate es.length .stepper

theorem StpFrame.refl (s : State) : StpFrame s s :=
  ⟨rfl, rfl, rfl, rfl, rfl, rfl, rfl, rfl, rfl, [], by simp, by simp⟩

theorem StpFrame.trans {s t u : State} (a : StpFrame s t) (b : StpFrame t u) : StpFrame s u := by
  obtain ⟨es, h1, h2⟩ := a.grows
  obtain ⟨fs, h3, h4⟩ := b.grows
  exact ⟨b.hx.trans a.hx, b.params.trans a.params, b.program.trans a.program, b.hostResponse.trans a.hostResponse,
    b.hostTrace.trans a.hostTrace, b.turns.trans a.turns, b.quantum.trans a.quantum, b.tick.trans a.tick,
    b.outsidePins.trans a.outsidePins, es ++ fs,
    by rw [h3, h1, List.append_assoc], by rw [h4, h2, List.append_assoc, List.length_append, ← List.replicate_add]⟩

/-- Writing registers of the unit alone. -/
theorem StpFrame.of_stepper {s : State} (f : Stepper → Stepper) (h : (f s.stepper).trace = s.stepper.trace) :
    StpFrame s (onStepper f s) :=
  ⟨rfl, rfl, rfl, rfl, rfl, rfl, rfl, rfl, rfl, [], by simp [h], by simp⟩

theorem StpFrame.todo (l : List StpOp) (s : State) : StpFrame s (stpTodo l s) := StpFrame.of_stepper _ rfl

theorem StpFrame.log (e : Event) (s : State) : StpFrame s (stpLog e s) :=
  ⟨rfl, rfl, rfl, rfl, rfl, rfl, rfl, rfl, rfl, [e], rfl, rfl⟩

theorem StpFrame.respond (st : Status) (r : Result) (s : State) : StpFrame s (stpRespond st r s) :=
  ⟨rfl, rfl, rfl, rfl, rfl, rfl, rfl, rfl, rfl, [.resp st r], rfl, rfl⟩

/-- One action is at most one event (spec/20_memory.md R73) and nothing outside the unit. -/
theorem stpAct_frame {op : StpOp} {rest : List StpOp} {s t : State} (h : stpAct op rest s = .next t) :
    StpFrame s t := by
  have finish : ∀ u, StpFrame u (finishStep u) := fun u =>
    ⟨rfl, rfl, rfl, rfl, rfl, rfl, rfl, rfl, rfl, [.resp .ok (.pulses u.stepper.sqIndex)], rfl, rfl⟩
  cases op with
  | cfgOut p =>
    obtain ⟨b, a, k, e⟩ := stpConfigure_eq p rest s
    simp only [stpAct, Host.Outcome.next.injEq] at h
    rw [e] at h; subst h
    exact ((StpFrame.of_stepper _ rfl).trans (StpFrame.log _ _)).trans (StpFrame.todo _ _)
  | wr p l => cases h; exact (StpFrame.log _ _).trans (StpFrame.todo _ _)
  | wait d => cases h; exact (StpFrame.log _ _).trans (StpFrame.todo _ _)
  | setPower w => cases h; exact ⟨rfl, rfl, rfl, rfl, rfl, rfl, rfl, rfl, rfl, [], by simp, by simp⟩
  | setPhase ph => cases h; exact ⟨rfl, rfl, rfl, rfl, rfl, rfl, rfl, rfl, rfl, [], by simp, by simp⟩
  | store c =>
    cases h
    exact (StpFrame.of_stepper _ rfl).trans (StpFrame.todo _ _)
  | storeMicrostep d p =>
    simp only [stpAct, readReg_eq_next] at h
    obtain ⟨c, _, h⟩ := h
    cases h; exact ⟨rfl, rfl, rfl, rfl, rfl, rfl, rfl, rfl, rfl, [], by simp, by simp⟩
  | startPulses => cases h; exact ⟨rfl, rfl, rfl, rfl, rfl, rfl, rfl, rfl, rfl, [], by simp, by simp⟩
  | pulse =>
    simp only [stpAct, pulseHead, readReg_eq_next] at h
    obtain ⟨len, _, h⟩ := h
    split at h
    · split at h
      · cases h; exact ⟨rfl, rfl, rfl, rfl, rfl, rfl, rfl, rfl, rfl, [.resp .ok (.pulses s.stepper.sqIndex)], rfl, rfl⟩
      · rw [readReg_eq_next] at h
        obtain ⟨c, _, h⟩ := h
        cases h; exact StpFrame.todo _ _
    · cases h; exact finish _
  | pulseLow =>
    simp only [stpAct, readReg_eq_next] at h
    obtain ⟨c, _, h⟩ := h
    cases h
    exact ((StpFrame.of_stepper _ rfl).trans (StpFrame.log _ _)).trans (StpFrame.todo _ _)
  | hold i =>
    simp only [stpAct, readProfile] at h
    split at h
    · rw [readReg_eq_next] at h
      obtain ⟨d, _, h⟩ := h
      cases h; exact (StpFrame.log _ _).trans (StpFrame.todo _ _)
    · cases h
  | respProfile p =>
    cases h
    exact ⟨rfl, rfl, rfl, rfl, rfl, rfl, rfl, rfl, rfl, [.resp .ok (.profile p)], rfl, rfl⟩
  | resp st r => cases h; exact StpFrame.respond _ _ _

theorem runStepper_frame {k : Nat} {s t : State} (h : runStepper k s = .next t) : StpFrame s t :=
  runStepper_keeps (P := StpFrame s) (fun _ _ _ _ _ hs h => hs.trans (stpAct_frame h)) (StpFrame.refl s) h

/-! ### Which registers an action can write -/

/-- An action that leaves the StepperConfig registers alone. -/
def StpOp.keepsConfig : StpOp → Bool
  | .store _ | .storeMicrostep _ _ => false
  | .cfgOut _ | .wr _ _ | .wait _ | .setPower _ | .setPhase _ | .startPulses | .pulse | .pulseLow | .hold _
  | .respProfile _ | .resp _ _ => true

/-- An action that leaves `STP.CANCEL_REQ` alone. -/
def StpOp.keepsCancel : StpOp → Bool
  | .store _ | .pulse => false
  | .cfgOut _ | .wr _ _ | .wait _ | .setPower _ | .setPhase _ | .startPulses | .pulseLow | .hold _
  | .storeMicrostep _ _ | .respProfile _ | .resp _ _ => true

/-- An action that leaves `STP.CFGD` alone. -/
def StpOp.keepsCfgd : StpOp → Bool
  | .store _ => false
  | .cfgOut _ | .wr _ _ | .wait _ | .setPower _ | .setPhase _ | .startPulses | .pulse | .pulseLow | .hold _
  | .storeMicrostep _ _ | .respProfile _ | .resp _ _ => true

/-- An action that leaves `STP.POWER` alone. -/
def StpOp.keepsPower : StpOp → Bool
  | .store _ | .setPower _ => false
  | .cfgOut _ | .wr _ _ | .wait _ | .storeMicrostep _ _ | .setPhase _ | .startPulses | .pulse | .pulseLow | .hold _
  | .respProfile _ | .resp _ _ => true

/-- An action that ends neither a `STEP` nor a `RAMP`. It leaves `PROF` and `PROF_LEN` alone. -/
def StpOp.keepsProfile : StpOp → Bool
  | .pulse | .respProfile _ => false
  | .cfgOut _ | .wr _ _ | .wait _ | .setPower _ | .store _ | .storeMicrostep _ _ | .setPhase _ | .startPulses
  | .pulseLow | .hold _ | .resp _ _ => true

/-- An action outside a `RAMP`. It leaves the ramp generator's registers alone. -/
def StpOp.keepsRamp : StpOp → Bool
  | .respProfile _ => false
  | .cfgOut _ | .wr _ _ | .wait _ | .setPower _ | .store _ | .storeMicrostep _ _ | .setPhase _ | .startPulses
  | .pulse | .pulseLow | .hold _ | .resp _ _ => true

/-- What an action leaves to do next: its rest, an error response, a pulse, or nothing. -/
theorem stpAct_todo {op : StpOp} {rest : List StpOp} {s t : State} (h : stpAct op rest s = .next t) :
    t.stepper.todo = rest ∨ t.stepper.todo = [.resp .hardwareUnavailable .none] ∨
    (op = .pulse ∧ ∃ p, t.stepper.todo = .wr p true :: pulseRest s.params s.stepper.sqIndex.toNat) ∨
    t.stepper.todo = [] := by
  cases op with
  | cfgOut p =>
    obtain ⟨b, a, k, e⟩ := stpConfigure_eq p rest s
    simp only [stpAct, Host.Outcome.next.injEq] at h
    rw [e] at h; subst h
    cases b <;> simp
  | storeMicrostep d p =>
    simp only [stpAct, readReg_eq_next] at h
    obtain ⟨c, _, h⟩ := h
    cases h; simp
  | pulse =>
    simp only [stpAct, pulseHead, readReg_eq_next] at h
    obtain ⟨len, _, h⟩ := h
    split at h
    · split at h
      · cases h; simp [finishStep]
      · rw [readReg_eq_next] at h
        obtain ⟨c, _, h⟩ := h
        cases h; simp
    · cases h; simp [finishStep]
  | pulseLow =>
    simp only [stpAct, readReg_eq_next] at h
    obtain ⟨c, _, h⟩ := h
    cases h; simp
  | hold i =>
    simp only [stpAct, readProfile] at h
    split at h
    · rw [readReg_eq_next] at h
      obtain ⟨d, _, h⟩ := h
      cases h; simp
    · cases h
  | _ => cases h; simp

/-- A property of actions that holds of the ones a rule can add holds of what is left to do. -/
theorem stpAct_todo_all {f : StpOp → Bool} (hr : f (.resp .hardwareUnavailable .none) = true)
    (hp : f .pulse = true → ∀ op,
      (op = .pulseLow ∨ (∃ p l, op = .wr p l) ∨ (∃ t, op = .wait t) ∨ ∃ i, op = .hold i) → f op = true)
    {op : StpOp} {rest : List StpOp} {s t : State} (hf : (op :: rest).all f = true) (h : stpAct op rest s = .next t) :
    t.stepper.todo.all f = true := by
  rw [List.all_cons, Bool.and_eq_true] at hf
  rcases stpAct_todo h with e | e | ⟨rfl, p, e⟩ | e <;> rw [e]
  · exact hf.2
  · simp [hr]
  · have hp := hp hf.1
    unfold pulseRest stpWait
    split <;> simp [hf.1, hp]
  · rfl

/-- The registers of the unit that an action keeps. -/
theorem stpAct_registers {op : StpOp} {rest : List StpOp} {s t : State} (h : stpAct op rest s = .next t) :
    (op.keepsConfig = true → t.stepper.config = s.stepper.config) ∧
    (op.keepsCfgd = true → t.stepper.cfgd = s.stepper.cfgd) ∧
    (op.keepsPower = true → t.stepper.power = s.stepper.power) ∧
    (op.keepsCancel = true → t.stepper.cancelReq = s.stepper.cancelReq) ∧
    (op.keepsProfile = true → t.stepper.prof = s.stepper.prof ∧ t.stepper.profLen = s.stepper.profLen) ∧
    (op.keepsRamp = true → t.stepper.ramp = s.stepper.ramp ∧ t.stepper.rampPhase = s.stepper.rampPhase) := by
  cases op with
  | cfgOut p =>
    obtain ⟨b, a, k, e⟩ := stpConfigure_eq p rest s
    simp only [stpAct, Host.Outcome.next.injEq] at h
    rw [e] at h; subst h
    simp
  | store c =>
    cases h
    simp [StpOp.keepsConfig, StpOp.keepsCfgd, StpOp.keepsPower, StpOp.keepsCancel]
  | storeMicrostep d p =>
    simp only [stpAct, readReg_eq_next] at h
    obtain ⟨c, _, h⟩ := h
    cases h; simp [StpOp.keepsConfig]
  | pulse =>
    simp only [stpAct, pulseHead, readReg_eq_next] at h
    obtain ⟨len, _, h⟩ := h
    split at h
    · split at h
      · cases h; simp [finishStep, StpOp.keepsProfile, StpOp.keepsCancel]
      · rw [readReg_eq_next] at h
        obtain ⟨c, _, h⟩ := h
        cases h; simp
    · cases h; simp [finishStep, StpOp.keepsProfile, StpOp.keepsCancel]
  | pulseLow =>
    simp only [stpAct, readReg_eq_next] at h
    obtain ⟨c, _, h⟩ := h
    cases h; simp
  | hold i =>
    simp only [stpAct, readProfile] at h
    split at h
    · rw [readReg_eq_next] at h
      obtain ⟨d, _, h⟩ := h
      cases h; simp
    · cases h
  | setPower w => cases h; simp [StpOp.keepsPower]
  | respProfile p => cases h; simp [StpOp.keepsProfile, StpOp.keepsRamp]
  | _ => cases h; simp

/-- The registers that any number of actions keeps, for a list of actions that all keep them. -/
theorem runStepper_registers {k : Nat} {s t : State} (h : runStepper k s = .next t) :
    (s.stepper.todo.all StpOp.keepsConfig = true → t.stepper.config = s.stepper.config) ∧
    (s.stepper.todo.all StpOp.keepsCfgd = true → t.stepper.cfgd = s.stepper.cfgd) ∧
    (s.stepper.todo.all StpOp.keepsPower = true → t.stepper.power = s.stepper.power) ∧
    (s.stepper.todo.all StpOp.keepsCancel = true → t.stepper.cancelReq = s.stepper.cancelReq) ∧
    (s.stepper.todo.all StpOp.keepsProfile = true →
      t.stepper.prof = s.stepper.prof ∧ t.stepper.profLen = s.stepper.profLen) ∧
    (s.stepper.todo.all StpOp.keepsRamp = true →
      t.stepper.ramp = s.stepper.ramp ∧ t.stepper.rampPhase = s.stepper.rampPhase) := by
  have head : ∀ {f : StpOp → Bool} {op : StpOp} {rest : List StpOp}, (op :: rest).all f = true → f op = true :=
    fun h => (Bool.and_eq_true _ _ ▸ List.all_cons ▸ h : _ ∧ _).1
  refine ⟨fun ha => ?_, fun ha => ?_, fun ha => ?_, fun ha => ?_, fun ha => ?_, fun ha => ?_⟩
  · refine (runStepper_keeps (P := fun u => u.stepper.todo.all StpOp.keepsConfig = true ∧
      u.stepper.config = s.stepper.config) (fun op rest u v hu hp hv => ?_) ⟨ha, rfl⟩ h).2
    rw [hu] at hp
    exact ⟨stpAct_todo_all rfl (fun _ op h => by rcases h with rfl | ⟨_, _, rfl⟩ | ⟨_, rfl⟩ | ⟨_, rfl⟩ <;> rfl) hp.1 hv,
      ((stpAct_registers hv).1 (head hp.1)).trans hp.2⟩
  · refine (runStepper_keeps (P := fun u => u.stepper.todo.all StpOp.keepsCfgd = true ∧
      u.stepper.cfgd = s.stepper.cfgd) (fun op rest u v hu hp hv => ?_) ⟨ha, rfl⟩ h).2
    rw [hu] at hp
    exact ⟨stpAct_todo_all rfl (fun _ op h => by rcases h with rfl | ⟨_, _, rfl⟩ | ⟨_, rfl⟩ | ⟨_, rfl⟩ <;> rfl) hp.1 hv,
      ((stpAct_registers hv).2.1 (head hp.1)).trans hp.2⟩
  · refine (runStepper_keeps (P := fun u => u.stepper.todo.all StpOp.keepsPower = true ∧
      u.stepper.power = s.stepper.power) (fun op rest u v hu hp hv => ?_) ⟨ha, rfl⟩ h).2
    rw [hu] at hp
    exact ⟨stpAct_todo_all rfl (fun _ op h => by rcases h with rfl | ⟨_, _, rfl⟩ | ⟨_, rfl⟩ | ⟨_, rfl⟩ <;> rfl) hp.1 hv,
      ((stpAct_registers hv).2.2.1 (head hp.1)).trans hp.2⟩
  · refine (runStepper_keeps (P := fun u => u.stepper.todo.all StpOp.keepsCancel = true ∧
      u.stepper.cancelReq = s.stepper.cancelReq) (fun op rest u v hu hp hv => ?_) ⟨ha, rfl⟩ h).2
    rw [hu] at hp
    exact ⟨stpAct_todo_all rfl (fun h => by cases h) hp.1 hv,
      ((stpAct_registers hv).2.2.2.1 (head hp.1)).trans hp.2⟩
  · refine (runStepper_keeps (P := fun u => u.stepper.todo.all StpOp.keepsProfile = true ∧
      u.stepper.prof = s.stepper.prof ∧ u.stepper.profLen = s.stepper.profLen)
      (fun op rest u v hu hp hv => ?_) ⟨ha, rfl, rfl⟩ h).2
    rw [hu] at hp
    have hr := (stpAct_registers hv).2.2.2.2.1 (head hp.1)
    exact ⟨stpAct_todo_all rfl (fun h => by cases h) hp.1 hv, hr.1.trans hp.2.1, hr.2.trans hp.2.2⟩
  · refine (runStepper_keeps (P := fun u => u.stepper.todo.all StpOp.keepsRamp = true ∧
      u.stepper.ramp = s.stepper.ramp ∧ u.stepper.rampPhase = s.stepper.rampPhase)
      (fun op rest u v hu hp hv => ?_) ⟨ha, rfl, rfl⟩ h).2
    rw [hu] at hp
    have hr := (stpAct_registers hv).2.2.2.2.2 (head hp.1)
    exact ⟨stpAct_todo_all rfl (fun _ op h => by rcases h with rfl | ⟨_, _, rfl⟩ | ⟨_, rfl⟩ | ⟨_, rfl⟩ <;> rfl) hp.1 hv,
      hr.1.trans hp.2.1, hr.2.trans hp.2.2⟩

end Sys2Proof.Machine
end

