-- ==== Sys2Proof/Laws/Pins.lean ====
section
/-! SUPPORT. The pin checks of spec/20_memory.md R67 in the terms of claims: which pins a unit uses, the three outcomes of
a check, and that an action takes no pin into use. -/

namespace Sys2Proof.Machine

theorem pinsDisjoint_iff {ps qs : List Pin} : pinsDisjoint ps qs = true ↔ ∀ p ∈ ps, p ∉ qs := by
  simp [pinsDisjoint]

theorem pinsFree_iff {ps : List Pin} {s : State} :
    pinsFree ps s = true ↔ ps.Nodup ∧ ∀ p ∈ ps, p ∉ s.outsidePins := by
  simp [pinsFree, pinsDistinct, pinsDisjoint_iff]

theorem mem_pendingStepperPins {l : List StpOp} {p : Pin} :
    p ∈ pendingStepperPins l ↔ ∃ c, .store c ∈ l ∧ p ∈ stepperPins c := by
  simp only [pendingStepperPins, List.mem_flatMap]
  constructor
  · rintro ⟨op, ho, hp⟩
    cases op with
    | store c => exact ⟨c, ho, hp⟩
    | _ => simp at hp
  · rintro ⟨c, ho, hp⟩; exact ⟨_, ho, hp⟩

theorem mem_pendingHxPins {l : List HxOp} {p : Pin} :
    p ∈ pendingHxPins l ↔ ∃ c useEdge, .store c useEdge ∈ l ∧ p ∈ hxPins c := by
  simp only [pendingHxPins, List.mem_flatMap]
  constructor
  · rintro ⟨op, ho, hp⟩
    cases op with
    | store c u => exact ⟨c, u, ho, hp⟩
    | _ => simp at hp
  · rintro ⟨c, u, ho, hp⟩; exact ⟨_, ho, hp⟩

/-- The pins the STEPPER unit uses, but that a configuration which counts and is unset cannot be read. -/
theorem stepperHeld_eq (u : Stepper) :
    (u.cfgd = true ∧ u.config = none ∧ stepperHeld u = none) ∨
    ((u.cfgd = true → u.config ≠ none) ∧ ∃ held, stepperHeld u = some held ∧ ∀ p, p ∈ held ↔ stepperUses u p) := by
  unfold stepperHeld stepperUses
  cases hc : u.cfgd
  · exact .inr ⟨by simp, _, rfl, fun p => by simp [mem_pendingStepperPins]⟩
  · cases hg : u.config with
    | none => exact .inl ⟨rfl, rfl, rfl⟩
    | some c => exact .inr ⟨by simp, _, rfl, fun p => by simp [mem_pendingStepperPins]⟩

/-- The pins the HX711 unit uses, in the same way. -/
theorem hxHeld_eq (u : Hx711) :
    (u.cfgd = true ∧ u.config = none ∧ hxHeld u = none) ∨
    ((u.cfgd = true → u.config ≠ none) ∧ ∃ held, hxHeld u = some held ∧ ∀ p, p ∈ held ↔ hxUses u p) := by
  unfold hxHeld hxUses
  cases hc : u.cfgd
  · exact .inr ⟨by simp, _, rfl, fun p => by simp [mem_pendingHxPins]⟩
  · cases hg : u.config with
    | none => exact .inl ⟨rfl, rfl, rfl⟩
    | some c => exact .inr ⟨by simp, _, rfl, fun p => by simp [mem_pendingHxPins]⟩

/-- Everything the check against the STEPPER unit's pins can do (R67, spec/10_state.md R22). -/
theorem clearOfStepper_eq (ps : List Pin) (r : Refusal) (s : State) (k : Outcome) :
    (s.stepper.cfgd = true ∧ s.stepper.config = none ∧ clearOfStepper ps r s k = .fault (.unsetRegister .stpConfig)) ∨
    ((s.stepper.cfgd = true → s.stepper.config ≠ none) ∧ (∀ p ∈ ps, ¬stepperUses s.stepper p) ∧
      clearOfStepper ps r s k = k) ∨
    ((s.stepper.cfgd = true → s.stepper.config ≠ none) ∧ (∃ p ∈ ps, stepperUses s.stepper p) ∧
      clearOfStepper ps r s k = .refused r) := by
  unfold clearOfStepper
  rcases stepperHeld_eq s.stepper with ⟨h1, h2, h⟩ | ⟨h1, held, h, hm⟩
  · exact .inl ⟨h1, h2, by rw [h, readReg_none]⟩
  · rw [h, readReg_some]
    simp only [← hm]
    by_cases hd : pinsDisjoint ps held = true
    · exact .inr (.inl ⟨h1, pinsDisjoint_iff.1 hd, by rw [if_pos hd]⟩)
    · refine .inr (.inr ⟨h1, ?_, by rw [if_neg hd]⟩)
      rw [pinsDisjoint_iff] at hd
      push Not at hd
      exact hd

/-- Everything the check against the HX711 unit's pins can do. -/
theorem clearOfHx_eq (ps : List Pin) (r : Refusal) (s : State) (k : Outcome) :
    (s.hx.cfgd = true ∧ s.hx.config = none ∧ clearOfHx ps r s k = .fault (.unsetRegister .hxConfig)) ∨
    ((s.hx.cfgd = true → s.hx.config ≠ none) ∧ (∀ p ∈ ps, ¬hxUses s.hx p) ∧ clearOfHx ps r s k = k) ∨
    ((s.hx.cfgd = true → s.hx.config ≠ none) ∧ (∃ p ∈ ps, hxUses s.hx p) ∧
      clearOfHx ps r s k = .refused r) := by
  unfold clearOfHx
  rcases hxHeld_eq s.hx with ⟨h1, h2, h⟩ | ⟨h1, held, h, hm⟩
  · exact .inl ⟨h1, h2, by rw [h, readReg_none]⟩
  · rw [h, readReg_some]
    simp only [← hm]
    by_cases hd : pinsDisjoint ps held = true
    · exact .inr (.inl ⟨h1, pinsDisjoint_iff.1 hd, by rw [if_pos hd]⟩)
    · refine .inr (.inr ⟨h1, ?_, by rw [if_neg hd]⟩)
      rw [pinsDisjoint_iff] at hd
      push Not at hd
      exact hd

/-- A check that goes on: no pin is in use. -/
theorem clearOfStepper_eq_next {ps : List Pin} {r : Refusal} {s t : State} {k : Outcome}
    (h : clearOfStepper ps r s k = .next t) : (∀ p ∈ ps, ¬stepperUses s.stepper p) ∧ k = .next t := by
  rcases clearOfStepper_eq ps r s k with ⟨_, _, e⟩ | ⟨_, hp, e⟩ | ⟨_, _, e⟩ <;> rw [e] at h
  · cases h
  · exact ⟨hp, h⟩
  · cases h

theorem clearOfHx_eq_next {ps : List Pin} {r : Refusal} {s t : State} {k : Outcome}
    (h : clearOfHx ps r s k = .next t) : (∀ p ∈ ps, ¬hxUses s.hx p) ∧ k = .next t := by
  rcases clearOfHx_eq ps r s k with ⟨_, _, e⟩ | ⟨_, hp, e⟩ | ⟨_, _, e⟩ <;> rw [e] at h
  · cases h
  · exact ⟨hp, h⟩
  · cases h

/-- Where the check finds nothing in use, it goes on. -/
theorem clearOfStepper_free {ps : List Pin} {s : State} (r : Refusal) (k : Outcome)
    (hc : s.stepper.cfgd = true → s.stepper.config ≠ none) (h : ∀ p ∈ ps, ¬stepperUses s.stepper p) :
    clearOfStepper ps r s k = k := by
  rcases clearOfStepper_eq ps r s k with ⟨h1, h2, _⟩ | ⟨_, _, e⟩ | ⟨_, ⟨p, hp, hu⟩, _⟩
  · exact absurd h2 (hc h1)
  · exact e
  · exact absurd hu (h p hp)

theorem clearOfHx_free {ps : List Pin} {s : State} (r : Refusal) (k : Outcome)
    (hc : s.hx.cfgd = true → s.hx.config ≠ none) (h : ∀ p ∈ ps, ¬hxUses s.hx p) : clearOfHx ps r s k = k := by
  rcases clearOfHx_eq ps r s k with ⟨h1, h2, _⟩ | ⟨_, _, e⟩ | ⟨_, ⟨p, hp, hu⟩, _⟩
  · exact absurd h2 (hc h1)
  · exact e
  · exact absurd hu (h p hp)

/-- Where the check finds a pin in use, it refuses. -/
theorem clearOfStepper_used {ps : List Pin} {s : State} (r : Refusal) (k : Outcome)
    (hc : s.stepper.cfgd = true → s.stepper.config ≠ none) (h : ∃ p ∈ ps, stepperUses s.stepper p) :
    clearOfStepper ps r s k = .refused r := by
  rcases clearOfStepper_eq ps r s k with ⟨h1, h2, _⟩ | ⟨_, hn, _⟩ | ⟨_, _, e⟩
  · exact absurd h2 (hc h1)
  · obtain ⟨p, hp, hu⟩ := h; exact absurd hu (hn p hp)
  · exact e

theorem clearOfHx_used {ps : List Pin} {s : State} (r : Refusal) (k : Outcome)
    (hc : s.hx.cfgd = true → s.hx.config ≠ none) (h : ∃ p ∈ ps, hxUses s.hx p) :
    clearOfHx ps r s k = .refused r := by
  rcases clearOfHx_eq ps r s k with ⟨h1, h2, _⟩ | ⟨_, hn, _⟩ | ⟨_, _, e⟩
  · exact absurd h2 (hc h1)
  · obtain ⟨p, hp, hu⟩ := h; exact absurd hu (hn p hp)
  · exact e

/-- What R67 lets a configuration take, from the pins the other unit uses. -/
theorem stepperMayTake_of {ps held : List Pin} {s : State} (hf : pinsFree ps s = true) (hh : hxHeld s.hx = some held)
    (hd : pinsDisjoint ps held = true) : stepperMayTake ps s := by
  obtain ⟨h1, h2⟩ := pinsFree_iff.1 hf
  rcases hxHeld_eq s.hx with ⟨_, _, e⟩ | ⟨hc, held', e, hm⟩
  · rw [e] at hh; cases hh
  · rw [e] at hh; cases hh
    exact ⟨h1, hc, fun p hp => ⟨fun hu => pinsDisjoint_iff.1 hd p hp ((hm p).2 hu), h2 p hp⟩⟩

theorem hxMayTake_of {ps held : List Pin} {s : State} (hf : pinsFree ps s = true)
    (hh : stepperHeld s.stepper = some held) (hd : pinsDisjoint ps held = true) : hxMayTake ps s := by
  obtain ⟨h1, h2⟩ := pinsFree_iff.1 hf
  rcases stepperHeld_eq s.stepper with ⟨_, _, e⟩ | ⟨hc, held', e, hm⟩
  · rw [e] at hh; cases hh
  · rw [e] at hh; cases hh
    exact ⟨h1, hc, fun p hp => ⟨fun hu => pinsDisjoint_iff.1 hd p hp ((hm p).2 hu), h2 p hp⟩⟩

/-- Everything an outside agent's move can do (R67, log 15): it holds the pin, or the run is refused; no fault where each
unit that counts as configured holds a configuration. -/
theorem outsideWrite_eq (p : Pin) (s : State) :
    (¬pinInUse s p ∧ outsideWrite p s = .next (outsideHold p s)) ∨
    (pinInUse s p ∧ outsideWrite p s = .refused .outsideWriter) ∨
    ∃ r, ¬configsSet s ∧ outsideWrite p s = .fault (.unsetRegister r) := by
  unfold outsideWrite
  rcases clearOfStepper_eq [p] .outsideWriter s
    (clearOfHx [p] .outsideWriter s (.next (outsideHold p s))) with ⟨h1, h2, e⟩ | ⟨_, hp, e⟩ | ⟨_, ⟨q, hq, hu⟩, e⟩ <;>
    rw [e]
  · exact .inr (.inr ⟨_, fun h => h.1 h1 h2, rfl⟩)
  · rcases clearOfHx_eq [p] .outsideWriter s (.next (outsideHold p s)) with ⟨h1, h2, e⟩ | ⟨_, hq, e⟩ |
      ⟨_, ⟨q, hq, hu⟩, e⟩ <;> rw [e]
    · exact .inr (.inr ⟨_, fun h => h.2 h1 h2, rfl⟩)
    · refine .inl ⟨?_, rfl⟩
      rintro (h | h)
      · exact hp p (by simp) h
      · exact hq p (by simp) h
    · exact .inr (.inl ⟨.inr (List.mem_singleton.1 hq ▸ hu), rfl⟩)
  · exact .inr (.inl ⟨.inl (List.mem_singleton.1 hq ▸ hu), rfl⟩)

/-! ### Only an acceptance takes a pin into use -/

/-- The STEPPER unit uses no more pins where no more configurations count or are about to. -/
theorem stepperUses_mono {u v : Stepper} (h1 : v.cfgd = true → ∀ c, v.config = some c → ∃ c0, u.cfgd = true ∧
      u.config = some c0 ∧ stepperPins c = stepperPins c0)
    (h2 : ∀ c, .store c ∈ v.todo → .store c ∈ u.todo) (p : Pin) (h : stepperUses v p) : stepperUses u p := by
  rcases h with ⟨c, hc, hg, hp⟩ | ⟨c, ho, hp⟩
  · obtain ⟨c0, a, b, e⟩ := h1 hc c hg
    exact .inl ⟨c0, a, b, e ▸ hp⟩
  · exact .inr ⟨c, h2 c ho, hp⟩

theorem hxUses_mono {u v : Hx711} (h1 : v.cfgd = true → u.cfgd = true ∧ v.config = u.config)
    (h2 : ∀ c e, .store c e ∈ v.todo → .store c e ∈ u.todo) (p : Pin) (h : hxUses v p) : hxUses u p := by
  rcases h with ⟨c, hc, hg, hp⟩ | ⟨c, e, ho, hp⟩
  · exact .inl ⟨c, (h1 hc).1, (h1 hc).2 ▸ hg, hp⟩
  · exact .inr ⟨c, e, h2 c e ho, hp⟩

/-- An action of the STEPPER unit takes no pin into use. -/
theorem stpAct_uses {op : StpOp} {rest : List StpOp} {s t : State} (ht : s.stepper.todo = op :: rest)
    (h : stpAct op rest s = .next t) (p : Pin) (hp : stepperUses t.stepper p) : stepperUses s.stepper p := by
  have sub : ∀ c, .store c ∈ t.stepper.todo → .store c ∈ s.stepper.todo := by
    intro c hc
    rw [ht]
    rcases stpAct_todo h with e | e | ⟨_, q, e⟩ | e <;> rw [e] at hc
    · exact List.mem_cons_of_mem _ hc
    · simp at hc
    · simp only [pulseRest, stpWait] at hc
      split at hc <;> simp at hc
    · simp at hc
  by_cases hk : op.keepsConfig = true
  · have r := stpAct_registers h
    have hd : op.keepsCfgd = true := by revert hk; cases op <;> simp [StpOp.keepsConfig, StpOp.keepsCfgd]
    refine stepperUses_mono (fun a c b => ⟨c, ?_, ?_, rfl⟩) sub p hp
    · rw [← r.2.1 hd]; exact a
    · rw [← r.1 hk]; exact b
  · cases op <;> simp [StpOp.keepsConfig] at hk
    case store c =>
      cases h
      rcases hp with ⟨c', _, hg, hp⟩ | ⟨c', ho, hp⟩
      · cases hg; exact .inr ⟨c, by rw [ht]; simp, hp⟩
      · exact .inr ⟨c', sub c' ho, hp⟩
    case storeMicrostep d q =>
      simp only [stpAct, readReg_eq_next] at h
      obtain ⟨c, hc, h⟩ := h
      replace h := Host.Outcome.next.inj h
      refine stepperUses_mono (v := t.stepper) (fun a c' b => ⟨c, ?_, hc, ?_⟩) sub p hp
      · subst h; exact a
      · subst h
        simp only [stpTodo, onStepper, Option.some.injEq] at b
        subst b; rfl

/-- What an action of the HX711 unit leaves to do holds no configuration that was not left before it. -/
theorem hxAct_stores {op : HxOp} {rest : List HxOp} {s : State} {t : List HxOp × State}
    (h : hxAct op rest s = .next t) {c : HxConfig} {e : Bool} (hc : .store c e ∈ t.1) : .store c e ∈ rest := by
  have w : ∀ t, HxOp.store c e ∉ hxWait t := by intro t; unfold hxWait; split <;> simp
  rcases hxAct_todo h with i | i | ⟨_, i⟩ | ⟨u, _, i | i⟩ | ⟨u, _, i⟩ | ⟨u, _, ⟨p, i⟩ | ⟨v, i⟩⟩ | ⟨l, _, i⟩ |
    ⟨u, v, _, ⟨p, i⟩ | i⟩ | ⟨n, v, _, i⟩ <;> rw [i] at hc <;> (try simp [w] at hc) <;> exact hc

/-- An action that stores no configuration leaves the one that counts. -/
theorem hxAct_counts {op : HxOp} {rest : List HxOp} {s : State} {t : List HxOp × State}
    (h : hxAct op rest s = .next t) (ho : ∀ c e, op ≠ .store c e) :
    t.2.hx.cfgd = s.hx.cfgd ∧ t.2.hx.config = s.hx.config := by
  have r := (hxAct_registers h).2.1 (by cases op <;> first | rfl | exact absurd rfl (ho _ _))
  exact ⟨r.1, r.2.1⟩

/-- An action of a host command takes no pin into use. -/
theorem hxAct_uses {op : HxOp} {rest : List HxOp} {s : State} {t : List HxOp × State}
    (ht : s.hx.todo = op :: rest) (h : hxAct op rest s = .next t) (p : Pin) (hp : hxUses (hxTodo t.1 t.2).hx p) :
    hxUses s.hx p := by
  have sub : ∀ c e, .store c e ∈ (hxTodo t.1 t.2).hx.todo → .store c e ∈ s.hx.todo := by
    intro c e hc; rw [ht]; exact List.mem_cons_of_mem _ (hxAct_stores h hc)
  by_cases ho : ∃ c e, op = .store c e
  · obtain ⟨c, e, rfl⟩ := ho
    cases h
    rcases hp with ⟨c', _, hg, hp⟩ | ⟨c', e', ho, hp⟩
    · cases hg; exact .inr ⟨c, e, by rw [ht]; simp, hp⟩
    · exact .inr ⟨c', e', sub c' e' ho, hp⟩
  · push Not at ho
    have r := hxAct_counts h ho
    exact hxUses_mono (v := (hxTodo t.1 t.2).hx) (fun a => ⟨r.1 ▸ a, r.2⟩) sub p hp

/-- An action of an edge-triggered cycle takes no pin into use. -/
theorem hxAct_edgeUses {op : HxOp} {rest : List HxOp} {s : State} {t : List HxOp × State}
    (h : hxAct op rest s = .next t) (ho : ∀ c e, op ≠ .store c e) (p : Pin)
    (hp : hxUses (hxEdgeTodo t.1 t.2).hx p) : hxUses s.hx p := by
  have r := hxAct_counts h ho
  refine hxUses_mono (v := (hxEdgeTodo t.1 t.2).hx) (fun a => ⟨r.1 ▸ a, r.2⟩) (fun c e hc => ?_) p hp
  rw [hxEdgeTodo_hx_todo, (hxAct_registers h).1.1] at hc
  exact hc

/-- The pins stay apart where no more are in use. -/
theorem pinsApart_mono {s t : State} (h : pinsApart s) (h1 : ∀ p, stepperUses t.stepper p → stepperUses s.stepper p)
    (h2 : ∀ p, hxUses t.hx p → hxUses s.hx p) (h3 : ∀ p ∈ t.outsidePins, p ∈ s.outsidePins) : pinsApart t :=
  ⟨fun p a b => h.1 p (h1 p a) (h2 p b), fun p a b => h.2 p (h3 p a) (b.imp (h1 p) (h2 p))⟩

end Sys2Proof.Machine
end

