-- ==== Sys2Proof/Laws/Accept.lean ====
section
/-! SUPPORT. What a unit does at a command's acceptance, and so what `exec` answers. -/

namespace Sys2Proof.Machine

theorem acceptStepper_idle {s : State} {body : State → Outcome} (h : s.stepper.busy = false) :
    acceptStepper s body = andThen (body (onStepper (fun x => { x with busy := true }) s)) (runStepper s.quantum) := by
  simp [acceptStepper, h]

theorem acceptHx_idle {s : State} {body : State → Outcome} (h : s.hx.busy = false) :
    acceptHx s body = andThen (body (onHx (fun x => { x with busy := true }) s)) (runHx s.quantum) := by
  simp [acceptHx, h]

theorem acceptStepper_eq {s : State} {body : State → Outcome} {t : State} (h : acceptStepper s body = .next t) :
    (s.stepper.busy = true ∧ t = s) ∨ (s.stepper.busy = false ∧ ∃ u,
      body (onStepper (fun x => { x with busy := true }) s) = .next u ∧ runStepper s.quantum u = .next t) := by
  unfold acceptStepper at h
  split at h
  · rename_i hb; cases h; exact .inl ⟨hb, rfl⟩
  · rename_i hb
    rw [andThen_eq_next] at h
    exact .inr ⟨by simpa using hb, h⟩

theorem acceptHx_eq {s : State} {body : State → Outcome} {t : State} (h : acceptHx s body = .next t) :
    (s.hx.busy = true ∧ t = s) ∨ (s.hx.busy = false ∧ ∃ u,
      body (onHx (fun x => { x with busy := true }) s) = .next u ∧ runHx s.quantum u = .next t) := by
  unfold acceptHx at h
  split at h
  · rename_i hb; cases h; exact .inl ⟨hb, rfl⟩
  · rename_i hb
    rw [andThen_eq_next] at h
    exact .inr ⟨by simpa using hb, h⟩

theorem storeProfile_eq {p : List F64} {s t : State} {k : State → Outcome} (h : storeProfile p s k = .next t) :
    p.length ≤ s.params.profileDepth ∧ k (onStepper (fun x => { x with
      prof := memWriteList x.prof 0 p, profLen := some (BitVec.ofNat 32 p.length) }) s) = .next t := by
  unfold storeProfile at h
  split at h
  · rename_i hd; exact ⟨hd, h⟩
  · cases h

theorem stpConfigured_eq {s t : State} {k : StepperConfig → Outcome} (h : stpConfigured s k = .next t) :
    (s.stepper.cfgd = false ∧ t = stpRaise .notConfigured s) ∨
    (s.stepper.cfgd = true ∧ ∃ c, s.stepper.config = some c ∧ k c = .next t) := by
  unfold stpConfigured at h
  split at h
  · rename_i hc
    rw [readReg_eq_next] at h
    exact .inr ⟨hc, h⟩
  · rename_i hc
    cases h
    exact .inl ⟨by simpa using hc, rfl⟩

theorem hxConfigured_eq {s t : State} {k : Outcome} (h : hxConfigured s k = .next t) :
    (s.hx.cfgd = false ∧ t = hxRaise .notConfigured s) ∨ (s.hx.cfgd = true ∧ k = .next t) := by
  unfold hxConfigured at h
  split at h
  · rename_i hc; exact .inr ⟨hc, h⟩
  · rename_i hc
    cases h
    exact .inl ⟨by simpa using hc, rfl⟩

theorem all_wakeBody {f : StpOp → Bool} (hw : ∀ p l, f (.wr p l) = true) (ht : ∀ t, f (.wait t) = true)
    (hp : f (.setPower .awake) = true) (p : Params) (c : StepperConfig) : (wakeBody p c).all f = true := by
  unfold wakeBody; split <;> simp [hw, ht, hp]

theorem all_sleepBody {f : StpOp → Bool} (hw : ∀ p l, f (.wr p l) = true)
    (hp : f (.setPower .asleep) = true) (c : StepperConfig) : (sleepBody c).all f = true := by
  unfold sleepBody; split <;> simp [hw, hp]

/-- What a STEPPER command's rule does to the unit at its acceptance, before any action, and which registers the actions
it leaves to do can write. -/
structure Begun (i : Instr) (s u : State) : Prop where
  outside : StpFrame s u
  trace : u.stepper.trace = s.stepper.trace
  response : u.stepper.response = s.stepper.response
  busy : u.stepper.busy = s.stepper.busy
  todo : u.stepper.todo ≠ []
  config : u.stepper.config = s.stepper.config
  power : u.stepper.power = s.stepper.power
  cfgd : i.opcode ≠ .stpConfig → u.stepper.cfgd = s.stepper.cfgd
  cancel : i.opcode ≠ .step → u.stepper.cancelReq = s.stepper.cancelReq
  prof : i.opcode ≠ .step → i.opcode ≠ .ramp →
    u.stepper.prof = s.stepper.prof ∧ u.stepper.profLen = s.stepper.profLen
  ramp : (i.opcode ≠ .step ∨ ∃ n d rpm, i = .step n d rpm false) → i.opcode ≠ .ramp →
    u.stepper.ramp = s.stepper.ramp ∧ u.stepper.rampPhase = s.stepper.rampPhase
  keepsConfig : i.opcode ≠ .stpConfig → i.opcode ≠ .stpSetMicrostep → u.stepper.todo.all StpOp.keepsConfig = true
  keepsCfgd : i.opcode ≠ .stpConfig → u.stepper.todo.all StpOp.keepsCfgd = true
  keepsCancel : i.opcode ≠ .step → i.opcode ≠ .stpConfig → u.stepper.todo.all StpOp.keepsCancel = true
  keepsPower : i.opcode ∈ [.msEncode, .stpSetMicrostep, .ramp, .stpCancel] →
    u.stepper.todo.all StpOp.keepsPower = true
  keepsProfile : i.opcode ≠ .step → i.opcode ≠ .ramp → u.stepper.todo.all StpOp.keepsProfile = true
  keepsRamp : i.opcode ≠ .ramp → u.stepper.todo.all StpOp.keepsRamp = true

theorem begun_raise (i : Instr) (st : Status) (s : State) : Begun i s (stpRaise st s) := by
  constructor <;> first
    | exact ⟨rfl, rfl, rfl, rfl, rfl, rfl, rfl, rfl, rfl, [], by simp, by simp⟩
    | simp [StpOp.keepsConfig, StpOp.keepsCfgd, StpOp.keepsPower, StpOp.keepsProfile, StpOp.keepsRamp,
      StpOp.keepsCancel]

/-- Executing a STEPPER command: a busy unit does not take it; else it is accepted, and runs for the quantum. -/
theorem exec_begun {i : Instr} {s t : State}
    (hi : i.opcode ∈ [.stpConfig, .msEncode, .stpSetMicrostep, .ramp, .wake, .sleep, .step])
    (h : exec i s = .next t) : (s.stepper.busy = true ∧ t = s) ∨ (s.stepper.busy = false ∧ ∃ u,
      Begun i (onStepper (fun x => { x with busy := true }) s) u ∧ runStepper s.quantum u = .next t) := by
  cases i <;> simp [Instr.opcode] at hi
  case stpConfig a =>
    simp only [exec, execStpConfig] at h
    rcases acceptStepper_eq h with h | ⟨hb, u, hu, hr⟩
    · exact .inl h
    refine .inr ⟨hb, u, ?_, hr⟩
    split at hu
    · split at hu
      · obtain ⟨_, hu⟩ := clearOfHx_eq_next hu
        cases hu
        constructor <;> first
          | exact ⟨rfl, rfl, rfl, rfl, rfl, rfl, rfl, rfl, rfl, [], by simp, by simp⟩
          | simp [Instr.opcode, configBody, argPins, selectWrites]
        · simp [StpOp.keepsProfile]
        · simp [StpOp.keepsRamp]
      · cases hu
    · cases hu; exact begun_raise _ _ _
  case msEncode m d =>
    simp only [exec, execMsEncode] at h
    rcases acceptStepper_eq h with h | ⟨hb, u, hu, hr⟩
    · exact .inl h
    refine .inr ⟨hb, u, ?_, hr⟩
    split at hu
    · cases hu
      constructor <;> first
        | exact ⟨rfl, rfl, rfl, rfl, rfl, rfl, rfl, rfl, rfl, [], by simp, by simp⟩
        | simp [StpOp.keepsConfig, StpOp.keepsCfgd, StpOp.keepsPower, StpOp.keepsProfile, StpOp.keepsRamp,
          StpOp.keepsCancel]
    · cases hu; exact begun_raise _ _ _
  case stpSetMicrostep d =>
    simp only [exec, execStpSetMicrostep] at h
    rcases acceptStepper_eq h with h | ⟨hb, u, hu, hr⟩
    · exact .inl h
    refine .inr ⟨hb, u, ?_, hr⟩
    rcases stpConfigured_eq hu with ⟨_, rfl⟩ | ⟨hc, c, hcc, hu⟩
    · exact begun_raise _ _ _
    split at hu
    · cases hu
      constructor <;> first
        | exact ⟨rfl, rfl, rfl, rfl, rfl, rfl, rfl, rfl, rfl, [], by simp, by simp⟩
        | simp [Instr.opcode, setMicrostepBody, selectWrites, StpOp.keepsConfig, StpOp.keepsCfgd, StpOp.keepsPower,
          StpOp.keepsProfile, StpOp.keepsRamp, StpOp.keepsCancel]
    · cases hu; exact begun_raise _ _ _
  case ramp n rpm =>
    simp only [exec, execRamp] at h
    rcases acceptStepper_eq h with h | ⟨hb, u, hu, hr⟩
    · exact .inl h
    refine .inr ⟨hb, u, ?_, hr⟩
    rcases stpConfigured_eq hu with ⟨_, rfl⟩ | ⟨hc, c, hcc, hu⟩
    · exact begun_raise _ _ _
    split at hu
    · simp only [buildRamp] at hu
      obtain ⟨hd, hu⟩ := storeProfile_eq hu
      cases hu
      constructor <;> first
        | exact ⟨rfl, rfl, rfl, rfl, rfl, rfl, rfl, rfl, rfl, [], by simp, by simp⟩
        | simp [Instr.opcode, StpOp.keepsConfig, StpOp.keepsCfgd, StpOp.keepsPower, StpOp.keepsCancel]
    · cases hu; exact begun_raise _ _ _
  case wake =>
    simp only [exec, execWake] at h
    rcases acceptStepper_eq h with h | ⟨hb, u, hu, hr⟩
    · exact .inl h
    refine .inr ⟨hb, u, ?_, hr⟩
    rcases stpConfigured_eq hu with ⟨_, rfl⟩ | ⟨hc, c, hcc, hu⟩
    · exact begun_raise _ _ _
    have wb : ∀ f : StpOp → Bool, (∀ p l, f (.wr p l) = true) → (∀ t, f (.wait t) = true) →
        f (.setPower .awake) = true → (wakeBody s.params c).all f = true := fun f a b d => all_wakeBody a b d _ _
    have w1 := wb StpOp.keepsConfig (fun _ _ => rfl) (fun _ => rfl) rfl
    have w2 := wb StpOp.keepsCfgd (fun _ _ => rfl) (fun _ => rfl) rfl
    have w3 := wb StpOp.keepsProfile (fun _ _ => rfl) (fun _ => rfl) rfl
    have w4 := wb StpOp.keepsRamp (fun _ _ => rfl) (fun _ => rfl) rfl
    have w5 := wb StpOp.keepsCancel (fun _ _ => rfl) (fun _ => rfl) rfl
    cases hu
    constructor <;> first
      | exact ⟨rfl, rfl, rfl, rfl, rfl, rfl, rfl, rfl, rfl, [], by simp, by simp⟩
      | simp [Instr.opcode, -List.all_eq_true, w1, w2, w3, w4, w5, StpOp.keepsConfig, StpOp.keepsCfgd,
        StpOp.keepsProfile, StpOp.keepsRamp, StpOp.keepsCancel]
  case sleep =>
    simp only [exec, execSleep] at h
    rcases acceptStepper_eq h with h | ⟨hb, u, hu, hr⟩
    · exact .inl h
    refine .inr ⟨hb, u, ?_, hr⟩
    rcases stpConfigured_eq hu with ⟨_, rfl⟩ | ⟨hc, c, hcc, hu⟩
    · exact begun_raise _ _ _
    have w1 := all_sleepBody (f := StpOp.keepsConfig) (fun _ _ => rfl) rfl c
    have w2 := all_sleepBody (f := StpOp.keepsCfgd) (fun _ _ => rfl) rfl c
    have w3 := all_sleepBody (f := StpOp.keepsProfile) (fun _ _ => rfl) rfl c
    have w4 := all_sleepBody (f := StpOp.keepsRamp) (fun _ _ => rfl) rfl c
    have w5 := all_sleepBody (f := StpOp.keepsCancel) (fun _ _ => rfl) rfl c
    cases hu
    constructor <;> first
      | exact ⟨rfl, rfl, rfl, rfl, rfl, rfl, rfl, rfl, rfl, [], by simp, by simp⟩
      | simp [Instr.opcode, -List.all_eq_true, w1, w2, w3, w4, w5, StpOp.keepsConfig, StpOp.keepsCfgd,
        StpOp.keepsProfile, StpOp.keepsRamp, StpOp.keepsCancel]
  case step n d rpm ur =>
    simp only [exec, execStep] at h
    rcases acceptStepper_eq h with h | ⟨hb, u, hu, hr⟩
    · exact .inl h
    refine .inr ⟨hb, u, ?_, hr⟩
    rcases stpConfigured_eq hu with ⟨_, rfl⟩ | ⟨hc, c, hcc, hb2⟩
    · exact begun_raise _ _ _
    rw [readReg_eq_next] at hb2
    obtain ⟨w, hw, hb3⟩ := hb2
    clear hu h
    have raise : ∀ v : State, Begun (.step n d rpm ur) (onStepper (fun x => { x with busy := true }) s)
        (stpRaise .invalidConfiguration
          (onStepper (fun x => { x with busy := true, cancelReq := false, sqPhase := .build }) s)) := by
      intro v
      constructor <;> first
        | exact ⟨rfl, rfl, rfl, rfl, rfl, rfl, rfl, rfl, rfl, [], by simp, by simp⟩
        | simp [Instr.opcode, StpOp.keepsConfig, StpOp.keepsCfgd, StpOp.keepsPower, StpOp.keepsProfile,
          StpOp.keepsRamp, StpOp.keepsCancel]
    have todo : ∀ f : StpOp → Bool, (∀ op, op.keepsConfig = true → op.keepsRamp = true → f op = true) →
      (stepBody s.params c w d).all f = true := by
      intro f hf
      have wb := all_wakeBody (f := f) (fun _ _ => hf _ rfl rfl) (fun _ => hf _ rfl rfl) (hf _ rfl rfl) s.params c
      unfold stepBody
      split <;> simp [-List.all_eq_true, wb] <;>
        exact ⟨hf _ rfl rfl, hf _ rfl rfl, hf _ rfl rfl, hf _ rfl rfl, hf _ rfl rfl⟩
    have kc : ∀ op : StpOp, op.keepsConfig = true → op.keepsCfgd = true :=
      by intro op; cases op <;> simp [StpOp.keepsConfig, StpOp.keepsCfgd]
    have ne : stepBody s.params c w d ≠ [] := by simp [stepBody]
    have t1 := todo _ fun _ h _ => h
    have t2 := todo _ fun _ h _ => kc _ h
    have t3 := todo _ fun _ _ h => h
    unfold startStep at hb3
    split at hb3
    · rename_i hur
      split at hb3
      · simp only [buildRamp] at hb3
        obtain ⟨hd, hb3⟩ := storeProfile_eq hb3
        subst hur
        replace hb3 := Host.Outcome.next.inj hb3
        subst hb3
        constructor <;> first
          | exact ⟨rfl, rfl, rfl, rfl, rfl, rfl, rfl, rfl, rfl, [], by simp, by simp⟩
          | simp [Instr.opcode, -List.all_eq_true, t1, t2, t3, ne]
      · cases hb3; exact raise s
    · split at hb3
      · obtain ⟨hd, hb3⟩ := storeProfile_eq hb3
        replace hb3 := Host.Outcome.next.inj hb3
        subst hb3
        constructor <;> first
          | exact ⟨rfl, rfl, rfl, rfl, rfl, rfl, rfl, rfl, rfl, [], by simp, by simp⟩
          | simp [Instr.opcode, -List.all_eq_true, t1, t2, t3, ne]
      · cases hb3; exact raise s

/-- An `STP_CONFIG` that passes its checks, of pins it may take: the earlier configuration is dropped and R104's actions
are to be done. -/
theorem exec_stpConfig_accepted {a : StpConfigArgs} {s : State} {pattern : BitVec 3} (hb : s.stepper.busy = false)
    (hl : stpConfigLegal a = true) (hm : msEncode a.model a.microstep = some pattern)
    (hp : stepperMayTake (argPins a) s) :
    exec (.stpConfig a) s = runStepper s.quantum
      (stpTodo (configBody a pattern) (onStepper (fun x => { x with busy := true, cfgd := false }) s)) := by
  simp only [exec, execStpConfig]
  rw [acceptStepper_idle hb, hl, hm]
  simp only
  rw [if_pos ((pinsFree_iff (s := onStepper _ s)).2 ⟨hp.1, fun p h => (hp.2.2 p h).2⟩),
    clearOfHx_free (s := onStepper _ s) _ _ hp.2.1 fun p h => (hp.2.2 p h).1]
  rfl

theorem exec_stpCancel {s t : State} (h : exec .stpCancel s = .next t) :
    (s.params.hasCancel = true ∧ t = stpLog (.resp .ok .none)
      (onStepper (fun x => { x with
        cancelReq := x.cancelReq || x.sqPhase != .idle, response := some ⟨.ok, .none⟩ }) s)) ∨
    (s.params.hasCancel = false ∧ s.stepper.busy = true ∧ t = s) ∨
    (s.params.hasCancel = false ∧ s.stepper.busy = false ∧
      runStepper s.quantum (stpRaise .unknownCommand (onStepper (fun x => { x with busy := true }) s)) = .next t) := by
  simp only [exec, execStpCancel] at h
  split at h
  · rename_i hc; cases h; exact .inl ⟨hc, rfl⟩
  · rename_i hc
    have hc : s.params.hasCancel = false := by simpa using hc
    rcases acceptStepper_eq h with ⟨hb, rfl⟩ | ⟨hb, u, hu, hr⟩
    · exact .inr (.inl ⟨hc, hb, rfl⟩)
    · cases hu; exact .inr (.inr ⟨hc, hb, hr⟩)

/-- What an HX711 host command's rule does to the unit at its acceptance, before any action, and which registers the
actions it leaves to do can write. -/
structure HxBegun (i : Instr) (s u : State) : Prop where
  outside : HxFrame s u
  trace : u.hx.trace = s.hx.trace
  response : u.hx.response = s.hx.response
  resultPort : u.hx.resultPort = s.hx.resultPort
  busy : u.hx.busy = s.hx.busy
  todo : u.hx.todo ≠ []
  edgeTodo : u.hx.edgeTodo = s.hx.edgeTodo
  reading : u.hx.reading = s.hx.reading
  config : u.hx.config = s.hx.config
  flags : i.opcode ≠ .hxConfig → u.hx.cfgd = s.hx.cfgd ∧ u.hx.edgeEn = s.hx.edgeEn
  cycle : u.hx.acc = s.hx.acc ∧ u.hx.bitCnt = s.hx.bitCnt ∧ u.hx.pulseCnt = s.hx.pulseCnt ∧ u.hx.levels = s.hx.levels
  sum : i.opcode ≠ .hxGetReading → u.hx.sum = s.hx.sum ∧ u.hx.obs = s.hx.obs
  keepsConfig : i.opcode ≠ .hxConfig → u.hx.todo.all HxOp.keepsConfig = true
  keepsCycle : i.opcode = .hxConfig → u.hx.todo.all HxOp.keepsCycle = true
  keepsPort : u.hx.todo.all HxOp.keepsPort = true
  keepsSum : i.opcode ≠ .hxGetReading → u.hx.todo.all HxOp.keepsSum = true

theorem hxBegun_raise (i : Instr) (st : Status) (s : State) : HxBegun i s (hxRaise st s) := by
  constructor <;> first
    | exact ⟨rfl, rfl, rfl, rfl, rfl, rfl, rfl, rfl, rfl, [], by simp, by simp⟩
    | simp [HxOp.keepsConfig, HxOp.keepsCycle, HxOp.keepsPort, HxOp.keepsSum]

/-- Executing an HX711 host command: a busy unit does not take it, nor `HX_CONFIG` one that is reading; else it is
accepted, and runs for the quantum. -/
theorem exec_hxBegun {i : Instr} {s t : State} (hi : i.opcode ∈ [.hxConfig, .hxReadCycle, .hxGetReading])
    (h : exec i s = .next t) :
    ((s.hx.busy = true ∨ (i.opcode = .hxConfig ∧ s.hx.reading = true)) ∧ t = s) ∨
    (s.hx.busy = false ∧ (i.opcode = .hxConfig → s.hx.reading = false) ∧ ∃ u,
      HxBegun i (onHx (fun x => { x with busy := true }) s) u ∧ runHx s.quantum u = .next t) := by
  cases i <;> simp [Instr.opcode] at hi
  case hxConfig a =>
    simp only [exec, execHxConfig] at h
    split at h
    · rename_i hr; cases h; exact .inl ⟨.inr ⟨rfl, hr⟩, rfl⟩
    rename_i hrd
    rcases acceptHx_eq h with ⟨hb, rfl⟩ | ⟨hb, u, hu, hr⟩
    · exact .inl ⟨.inl hb, rfl⟩
    refine .inr ⟨hb, fun _ => by simpa using hrd, u, ?_, hr⟩
    clear h
    split at hu
    · split at hu
      · obtain ⟨_, hu⟩ := clearOfStepper_eq_next hu
        cases hu
        constructor <;> first
          | exact ⟨rfl, rfl, rfl, rfl, rfl, rfl, rfl, rfl, rfl, [], by simp, by simp⟩
          | simp [Instr.opcode, hxConfigBody, HxOp.keepsCycle, HxOp.keepsPort, HxOp.keepsSum]
      · cases hu
    · cases hu; exact hxBegun_raise _ _ _
  case hxReadCycle =>
    simp only [exec, execHxReadCycle] at h
    rcases acceptHx_eq h with ⟨hb, rfl⟩ | ⟨hb, u, hu, hr⟩
    · exact .inl ⟨.inl hb, rfl⟩
    refine .inr ⟨hb, (by simp [Instr.opcode]), u, ?_, hr⟩
    clear h
    rcases hxConfigured_eq hu with ⟨_, rfl⟩ | ⟨_, hk⟩
    · exact hxBegun_raise _ _ _
    · cases hk
      constructor <;> first
        | exact ⟨rfl, rfl, rfl, rfl, rfl, rfl, rfl, rfl, rfl, [], by simp, by simp⟩
        | simp [Instr.opcode, HxOp.keepsConfig, HxOp.keepsPort, HxOp.keepsSum]
  case hxGetReading n =>
    simp only [exec, execHxGetReading] at h
    rcases acceptHx_eq h with ⟨hb, rfl⟩ | ⟨hb, u, hu, hr⟩
    · exact .inl ⟨.inl hb, rfl⟩
    refine .inr ⟨hb, (by simp [Instr.opcode]), u, ?_, hr⟩
    clear h
    rcases hxConfigured_eq hu with ⟨_, rfl⟩ | ⟨_, hk⟩
    · exact hxBegun_raise _ _ _
    · split at hk
      · cases hk; exact hxBegun_raise _ _ _
      · cases hk
        constructor <;> first
          | exact ⟨rfl, rfl, rfl, rfl, rfl, rfl, rfl, rfl, rfl, [], by simp, by simp⟩
          | simp [Instr.opcode, HxOp.keepsConfig, HxOp.keepsPort, HxOp.keepsSum]

/-- An `HX_CONFIG` that passes its checks, of pins it may take: the earlier configuration is dropped and R184's actions are
to be done. -/
theorem exec_hxConfig_accepted {a : HxConfigArgs} {s : State} {extra : BitVec 2} (hb : s.hx.busy = false)
    (hr : s.hx.reading = false) (hl : hxConfigLegal a = true) (hm : extraPulses a.channel a.gain = some extra)
    (hp : hxMayTake [a.dataPin, a.clockPin] s) :
    exec (.hxConfig a) s = runHx s.quantum (hxTodo (hxConfigBody s.params a extra)
      (onHx (fun x => { x with busy := true, cfgd := false, edgeEn := false }) s)) := by
  simp only [exec, execHxConfig, hr]
  rw [acceptHx_idle hb, hl, hm]
  simp only [Bool.false_eq_true, if_false]
  rw [if_pos ((pinsFree_iff (s := onHx _ s)).2 ⟨hp.1, fun p h => (hp.2.2 p h).2⟩),
    clearOfStepper_free (s := onHx _ s) _ _ hp.2.1 fun p h => (hp.2.2 p h).1]
  rfl

/-- Executing `HX_EDGE` (spec/43_hx711_decoder.md R195): nothing, one read, or the read that opens the gate and then the
cycle for the quantum. -/
theorem exec_hxEdge {s t : State} (h : exec .hxEdge s = .next t) :
    ((s.hx.cfgd = false ∨ s.hx.edgeEn = false) ∧ t = s) ∨
    (s.hx.cfgd = true ∧ s.hx.edgeEn = true ∧ (tryEnter s = .next (false, t) ∨
      ∃ u, tryEnter s = .next (true, u) ∧
        runEdge u.quantum (hxEdgeTodo (u.hx.edgeTodo ++ [.clear .emit]) u) = .next t)) := by
  simp only [exec, execHxEdge] at h
  split at h
  · rename_i hc
    rw [Bool.and_eq_true] at hc
    rw [andThen_eq_next] at h
    obtain ⟨⟨b, u⟩, hu, h⟩ := h
    cases b
    · cases h; exact .inr ⟨hc.1, hc.2, .inl hu⟩
    · exact .inr ⟨hc.1, hc.2, .inr ⟨u, hu, h⟩⟩
  · rename_i hc
    cases h
    simp only [Bool.and_eq_true, not_and, Bool.not_eq_true] at hc
    refine .inl ⟨?_, rfl⟩
    cases hcf : s.hx.cfgd
    · exact .inl rfl
    · exact .inr (hc hcf)

end Sys2Proof.Machine
end

