-- ==== Sys2Proof/Laws/Decode.lean ====
section
/-! SUPPORT. The laws of the readers a record is decoded with, and of the enumerations' bits. -/

namespace Sys2Proof

@[simp] theorem Model.ofBit_toBit (m : Model) : Model.ofBit m.toBit = m := by cases m <;> rfl
@[simp] theorem Model.toBit_ofBit (b : Bool) : (Model.ofBit b).toBit = b := by cases b <;> rfl
@[simp] theorem Channel.ofBit_toBit (c : Channel) : Channel.ofBit c.toBit = c := by cases c <;> rfl
@[simp] theorem Channel.toBit_ofBit (b : Bool) : (Channel.ofBit b).toBit = b := by cases b <;> rfl

/-- A word and its mnemonic: the look-up finds the row whose word it is. -/
theorem word_of_decodeWord {w : BitVec 8} {o : Opcode} (h : decodeWord w = some o) : o.word = w := by
  have := List.find?_some h
  simpa using this

@[simp] theorem takeU8_cons (k : BitVec 8 → List ArgVal → Option Instr) (v : BitVec 8) (r : List ArgVal) :
    takeU8 k (.u8 v :: r) = k v r := rfl

@[simp] theorem takeU32_cons (k : BitVec 32 → List ArgVal → Option Instr) (v : BitVec 32) (r : List ArgVal) :
    takeU32 k (.u32 v :: r) = k v r := rfl

@[simp] theorem takeBit_cons (k : Bool → List ArgVal → Option Instr) (v : Bool) (r : List ArgVal) :
    takeBit k (.bit v :: r) = k v r := rfl

@[simp] theorem takeF64_cons (k : F64 → List ArgVal → Option Instr) (v : F64) (r : List ArgVal) :
    takeF64 k (.f64 v :: r) = k v r := rfl

@[simp] theorem takeEnd_nil (i : Instr) : takeEnd i [] = some i := rfl

theorem takeU8_eq_some {k : BitVec 8 → List ArgVal → Option Instr} {l : List ArgVal} {i : Instr} :
    takeU8 k l = some i ↔ ∃ v r, l = .u8 v :: r ∧ k v r = some i := by
  rcases l with _ | ⟨⟨⟩, r⟩ <;> simp [takeU8]

theorem takeU32_eq_some {k : BitVec 32 → List ArgVal → Option Instr} {l : List ArgVal} {i : Instr} :
    takeU32 k l = some i ↔ ∃ v r, l = .u32 v :: r ∧ k v r = some i := by
  rcases l with _ | ⟨⟨⟩, r⟩ <;> simp [takeU32]

theorem takeBit_eq_some {k : Bool → List ArgVal → Option Instr} {l : List ArgVal} {i : Instr} :
    takeBit k l = some i ↔ ∃ v r, l = .bit v :: r ∧ k v r = some i := by
  rcases l with _ | ⟨⟨⟩, r⟩ <;> simp [takeBit]

theorem takeF64_eq_some {k : F64 → List ArgVal → Option Instr} {l : List ArgVal} {i : Instr} :
    takeF64 k l = some i ↔ ∃ v r, l = .f64 v :: r ∧ k v r = some i := by
  rcases l with _ | ⟨⟨⟩, r⟩ <;> simp [takeF64]

theorem takeEnd_eq_some {i j : Instr} {l : List ArgVal} : takeEnd j l = some i ↔ l = [] ∧ j = i := by
  cases l <;> simp [takeEnd]

/-- What a record is read as: a command of its mnemonic whose own record it is. -/
theorem readRecord_eq_some {o : Opcode} {args : List ArgVal} {i : Instr} (h : readRecord o args = some i) :
    i.opcode = o ∧ i.record = args := by
  cases o <;>
    simp only [readRecord, takeU8_eq_some, takeU32_eq_some, takeBit_eq_some, takeF64_eq_some, takeEnd_eq_some] at h
  all_goals
    first
    | (obtain ⟨rfl, rfl⟩ := h; simp [Instr.opcode, Instr.record])
    | (obtain ⟨_, _, rfl, rfl, rfl⟩ := h; simp [Instr.opcode, Instr.record])
    | (obtain ⟨_, _, rfl, _, _, rfl, rfl, rfl⟩ := h; simp [Instr.opcode, Instr.record])
    | (obtain ⟨_, _, rfl, _, _, rfl, _, _, rfl, _, _, rfl, rfl, rfl⟩ := h; simp [Instr.opcode, Instr.record])
    | (obtain ⟨_, _, rfl, _, _, rfl, _, _, rfl, _, _, rfl, _, _, rfl, rfl, rfl⟩ := h
       simp [Instr.opcode, Instr.record])
    | (obtain ⟨_, _, rfl, _, _, rfl, _, _, rfl, _, _, rfl, _, _, rfl, _, _, rfl, _, _, rfl, _, _, rfl, _, _, rfl,
        _, _, rfl, _, _, rfl, _, _, rfl, rfl, rfl⟩ := h
       simp [Instr.opcode, Instr.record])

/-- What decodes to a command: its mnemonic's word, on its mnemonic's port. -/
theorem decode_eq_instr {p : Port} {w : BitVec 8} {args : List ArgVal} {i : Instr} (h : decode p w args = .instr i) :
    decodeWord w = some i.opcode ∧ i.opcode.port = p ∧ i.record = args := by
  unfold decode at h
  split at h
  · cases h
  · rename_i o ho
    split at h
    · rename_i hp
      split at h
      · rename_i j hj
        cases h
        obtain ⟨rfl, h2⟩ := readRecord_eq_some hj
        exact ⟨ho, by simpa using hp, h2⟩
      · cases h
    · cases h

end Sys2Proof
end

