-- ==== Sys2Proof/Laws/Memory.lean ====
section
/-! SUPPORT. The laws of the profile memory: what a read after a write gives, and that every operation keeps the
canonical form. -/

namespace Sys2Proof.Machine

@[simp] theorem memRead_nil (i : Nat) : memRead [] i = none := rfl

theorem memRead_cons (j : Nat) (e : F64) (m : Memory) (i : Nat) :
    memRead ((j, e) :: m) i = if i = j then some e else memRead m i := by
  unfold memRead
  rw [List.lookup_cons]
  by_cases h : i = j
  · simp [h]
  · simp [h, beq_eq_false_iff_ne.2 h]

theorem memRead_memWrite_same (m : Memory) (i : Nat) (d : F64) : memRead (memWrite m i d) i = some d := by
  induction m with
  | nil => simp [memWrite, memRead_cons]
  | cons a m ih =>
    obtain ⟨j, e⟩ := a
    unfold memWrite
    split
    · simp [memRead_cons]
    · split
      · simp [memRead_cons]
      · rename_i h; simp [memRead_cons, h, ih]

theorem memRead_memWrite_other (m : Memory) {i j : Nat} (d : F64) (h : j ≠ i) :
    memRead (memWrite m i d) j = memRead m j := by
  induction m with
  | nil => simp [memWrite, memRead_cons, h]
  | cons a m ih =>
    obtain ⟨k, e⟩ := a
    unfold memWrite
    split
    · simp [memRead_cons, h]
    · split
      · rename_i hk; subst hk; simp [memRead_cons, h]
      · simp [memRead_cons, ih]

theorem memRead_memWriteList_below (m : Memory) (i : Nat) (ds : List F64) {j : Nat} (h : j < i) :
    memRead (memWriteList m i ds) j = memRead m j := by
  induction ds generalizing m i with
  | nil => rfl
  | cons d ds ih =>
    rw [memWriteList, ih _ _ (by omega), memRead_memWrite_other _ _ (by omega)]

theorem memRead_memWriteList_above (m : Memory) (i : Nat) (ds : List F64) {j : Nat} (h : i + ds.length ≤ j) :
    memRead (memWriteList m i ds) j = memRead m j := by
  induction ds generalizing m i with
  | nil => rfl
  | cons d ds ih =>
    rw [List.length_cons] at h
    rw [memWriteList, ih _ _ (by omega), memRead_memWrite_other _ _ (by omega)]

theorem memRead_memWriteList (m : Memory) (i : Nat) (ds : List F64) {j : Nat} (h : j < ds.length) :
    memRead (memWriteList m i ds) (i + j) = ds[j]? := by
  induction ds generalizing m i j with
  | nil => simp at h
  | cons d ds ih =>
    rw [memWriteList]
    cases j with
    | zero => rw [memRead_memWriteList_below _ _ _ (by omega), Nat.add_zero, memRead_memWrite_same]; simp
    | succ j =>
      rw [show i + (j + 1) = (i + 1) + j by omega, ih _ _ (by simpa using h)]
      simp

/-- Releasing the memory keeps which entries are written. -/
theorem memRead_map (m : Memory) (f : Nat → F64) (i : Nat) :
    memRead (m.map fun e => (e.1, f e.1)) i = (memRead m i).map fun _ => f i := by
  induction m with
  | nil => rfl
  | cons a m ih =>
    obtain ⟨j, e⟩ := a
    rw [List.map_cons, memRead_cons, memRead_cons, ih]
    split
    · rename_i h; simp [h]
    · rfl

/-! ### The canonical form -/

theorem memWrite_keys (m : Memory) (i : Nat) (d : F64) {a : Nat × F64} (h : a ∈ memWrite m i d) :
    a.1 = i ∨ a ∈ m := by
  induction m with
  | nil => simp [memWrite] at h; simp [h]
  | cons b m ih =>
    unfold memWrite at h
    split at h
    · simp at h; rcases h with rfl | h <;> simp [*]
    · split at h
      · simp at h; rcases h with rfl | h <;> simp [*]
      · simp at h
        rcases h with rfl | h
        · simp
        · rcases ih h with h | h <;> simp [h]

theorem memWrite_wf {m : Memory} (i : Nat) (d : F64) (h : Memory.wf m = true) : Memory.wf (memWrite m i d) = true := by
  unfold Memory.wf at *
  rw [decide_eq_true_eq] at *
  induction m with
  | nil => simp [memWrite]
  | cons b m ih =>
    obtain ⟨j, e⟩ := b
    obtain ⟨hb, hm⟩ := List.pairwise_cons.1 h
    unfold memWrite
    split
    · rename_i hij
      refine List.pairwise_cons.2 ⟨fun a ha => ?_, h⟩
      rcases List.mem_cons.1 ha with rfl | ha
      · exact hij
      · exact Nat.lt_trans hij (hb a ha)
    · split
      · rename_i hij; subst hij; exact List.pairwise_cons.2 ⟨hb, hm⟩
      · refine List.pairwise_cons.2 ⟨fun a ha => ?_, ih hm⟩
        rcases memWrite_keys _ _ _ ha with ha | ha
        · simp only; omega
        · exact hb a ha

theorem memWriteList_wf {m : Memory} (i : Nat) (ds : List F64) (h : Memory.wf m = true) :
    Memory.wf (memWriteList m i ds) = true := by
  induction ds generalizing m i with
  | nil => exact h
  | cons d ds ih => exact ih _ (memWrite_wf i d h)

theorem releaseProfile_wf {s : State} (h : Memory.wf s.stepper.prof = true) :
    Memory.wf (releaseProfile s).stepper.prof = true := by
  unfold Memory.wf at *
  rw [decide_eq_true_eq] at *
  rw [releaseProfile_stepper_prof]
  exact List.pairwise_map.2 (h.imp fun h => h)

theorem reset_memory_wf : Memory.wf State.reset.stepper.prof = true := rfl

end Sys2Proof.Machine
end

