-- ==== Sys2Proof/Laws/Real.lean ====
section
/-! SUPPORT. The laws of the binary64 operators: what rounding to a whole number gives, which value a pattern has, and
which pattern and value `realRound` answers. -/

namespace Sys2Proof.Machine

/-! ### Rounding to a whole number -/

/-- `nearestEven` answers one of the two whole numbers around the quotient: the upper one only past the half, or at the half
where the lower one is odd; the lower one only before it, or at the half where it is even. -/
theorem nearestEven_cases (num d : Nat) (hd : 0 < d) : ∃ q r, num = q * d + r ∧ r < d ∧ q = num / d ∧
    ((nearestEven num d = q + 1 ∧ d ≤ 2 * r ∧ (d = 2 * r → q % 2 = 1)) ∨
     (nearestEven num d = q ∧ 2 * r ≤ d ∧ (d = 2 * r → q % 2 = 0))) := by
  refine ⟨num / d, num % d, ?_, Nat.mod_lt _ hd, rfl, ?_⟩
  · rw [Nat.mul_comm]; exact (Nat.div_add_mod num d).symm
  · unfold nearestEven
    simp only
    split <;> omega

theorem nearestEven_le {num d k : Nat} (hd : 0 < d) (h : num ≤ k * d) : nearestEven num d ≤ k := by
  obtain ⟨q, r, e, hr, -, h1 | h1⟩ := nearestEven_cases num d hd
  · rw [h1.1]
    rcases Nat.lt_or_ge q k with hq | hq
    · exact hq
    · have := Nat.mul_le_mul_right d hq
      omega
  · rw [h1.1]
    rcases Nat.lt_or_ge k q with hq | hq
    · have := Nat.mul_le_mul_right d hq
      rw [Nat.succ_mul] at this
      omega
    · exact hq

theorem le_nearestEven {num d k : Nat} (hd : 0 < d) (h : k * d ≤ num) : k ≤ nearestEven num d := by
  obtain ⟨q, r, e, hr, hq, h1⟩ := nearestEven_cases num d hd
  have : k ≤ q := by rw [hq]; exact (Nat.le_div_iff_mul_le hd).2 h
  rcases h1 with h1 | h1 <;> rw [h1.1] <;> omega

/-- Rounding keeps the order of two exact quotients, whatever their denominators. -/
theorem nearestEven_mono {a b c d : Nat} (hb : 0 < b) (hd : 0 < d) (h : a * d ≤ c * b) :
    nearestEven a b ≤ nearestEven c d := by
  obtain ⟨q, r, e, hr, -, h1⟩ := nearestEven_cases a b hb
  obtain ⟨q', r', e', hr', -, h2⟩ := nearestEven_cases c d hd
  have key : q * (b * d) + r * d ≤ q' * (b * d) + r' * b := by
    rw [e, e'] at h; nlinarith
  have hrd : r * d < b * d := Nat.mul_lt_mul_of_pos_right hr hd
  have hrb : r' * b < b * d := by rw [Nat.mul_comm b d]; exact Nat.mul_lt_mul_of_pos_right hr' hb
  have hq : q ≤ q' := by
    by_contra hlt
    have := Nat.mul_le_mul_right (b * d) (show q' + 1 ≤ q by omega)
    rw [Nat.succ_mul] at this
    omega
  rcases Nat.eq_or_lt_of_le hq with rfl | hlt
  · have hrr : r * d ≤ r' * b := by omega
    rcases h1 with ⟨n1, h3, h4⟩ | ⟨n1, h3, h4⟩ <;> rcases h2 with ⟨n2, h5, h6⟩ | ⟨n2, h5, h6⟩ <;> rw [n1, n2] <;>
      try omega
    exfalso
    have h7 : b * d ≤ 2 * (r * d) := by nlinarith
    have h8 : 2 * (r' * b) ≤ b * d := by nlinarith
    have h9 : b * d = 2 * (r * d) := by omega
    have h10 : b * d = 2 * (r' * b) := by omega
    have h11 := h4 (Nat.eq_of_mul_eq_mul_right hd (by rw [h9, Nat.mul_assoc]))
    have h12 := h6 (Nat.eq_of_mul_eq_mul_right hb (by rw [Nat.mul_comm d b, h10, Nat.mul_assoc]))
    omega
  · rcases h1 with h1 | h1 <;> rcases h2 with h2 | h2 <;> rw [h1.1, h2.1] <;> omega

/-- No whole multiple of `d` is nearer, and of two as near it is the even one. -/
theorem nearestEven_dist (num d k : Nat) (hd : 0 < d) :
    let N := nearestEven num d
    Int.natAbs (((N * d : Nat) : Int) - num) ≤ Int.natAbs (((k * d : Nat) : Int) - num) ∧
    (k ≠ N → Int.natAbs (((N * d : Nat) : Int) - num) = Int.natAbs (((k * d : Nat) : Int) - num) → N % 2 = 0) := by
  obtain ⟨q, r, e, hr, -, h⟩ := nearestEven_cases num d hd
  have hk : k * d ≤ q * d ∧ k ≤ q ∨ q * d + d ≤ k * d ∧ q + 1 ≤ k := by
    rcases Nat.lt_or_ge q k with hlt | hge
    · right; exact ⟨by have := Nat.mul_le_mul_right d hlt; rwa [Nat.succ_mul] at this, hlt⟩
    · left; exact ⟨Nat.mul_le_mul_right d hge, hge⟩
  have hk2 : k < q → k * d + d ≤ q * d := fun h => by have := Nat.mul_le_mul_right d h; rwa [Nat.succ_mul] at this
  have hk3 : q + 1 < k → q * d + d + d ≤ k * d := fun h =>
    by have := Nat.mul_le_mul_right d h; rwa [Nat.succ_mul, Nat.succ_mul] at this
  rcases h with ⟨hN, h1, h2⟩ | ⟨hN, h1, h2⟩
  · simp only [hN, Nat.succ_mul]
    generalize k * d = kd at *
    generalize q * d = qd at *
    omega
  · simp only [hN]
    generalize k * d = kd at *
    generalize q * d = qd at *
    omega

/-! ### The value of a pattern -/

/-- The magnitude of a pattern whose low 63 bits are `bits`, in units of 2^-1074. -/
def bitsMag (bits : Nat) : Nat :=
  if bits < 2 ^ 52 then bits else (2 ^ 52 + bits % 2 ^ 52) * 2 ^ (bits / 2 ^ 52 - 1)

theorem realPack_fields (neg : Bool) {bits : Nat} (h : bits < 2 ^ 63) :
    realExponent (realPack neg bits) = bits / 2 ^ 52 ∧ realFraction (realPack neg bits) = bits % 2 ^ 52 ∧
    (realPack neg bits).msb = neg := by
  have hn : (realPack neg bits).toNat = (if neg then 2 ^ 63 else 0) + bits := by
    unfold realPack
    rw [BitVec.toNat_ofNat, Nat.mod_eq_of_lt]
    cases neg <;> simp <;> omega
  refine ⟨?_, ?_, ?_⟩
  · unfold realExponent
    rw [BitVec.extractLsb'_toNat, hn, Nat.shiftRight_eq_div_pow]
    cases neg <;> simp <;> omega
  · unfold realFraction
    rw [BitVec.extractLsb'_toNat, hn]
    cases neg <;> simp
    omega
  · rw [BitVec.msb_eq_decide, hn]
    cases neg <;> simp <;> omega

/-- The value of a packed finite pattern. -/
theorem realUnpack_realPack (neg : Bool) {bits : Nat} (h : bits < 2047 * 2 ^ 52) :
    realUnpack (realPack neg bits) = .fin neg (bitsMag bits) := by
  obtain ⟨h1, h2, h3⟩ := realPack_fields neg (bits := bits) (by omega)
  unfold realUnpack bitsMag
  rw [h1, h2, h3, if_neg (by omega)]
  split
  · rw [if_pos (by omega)]; congr 1; omega
  · rw [if_neg (by omega)]

theorem realUnpack_realInf (neg : Bool) : realUnpack (realInf neg) = .inf neg := by cases neg <;> decide

/-- Every finite value is that of its own low 63 bits. -/
theorem bitsMag_of_realUnpack {x : F64} {b : Bool} {q : Nat} (h : realUnpack x = .fin b q) :
    ∃ bits, bits < 2047 * 2 ^ 52 ∧ q = bitsMag bits ∧ x = realPack b bits := by
  refine ⟨x.toNat % 2 ^ 63, ?_⟩
  have hx := x.isLt
  have he : realExponent x = x.toNat % 2 ^ 63 / 2 ^ 52 := by
    unfold realExponent
    rw [BitVec.extractLsb'_toNat, Nat.shiftRight_eq_div_pow]; omega
  have hf : realFraction x = x.toNat % 2 ^ 63 % 2 ^ 52 := by
    unfold realFraction
    rw [BitVec.extractLsb'_toNat, Nat.shiftRight_zero]; omega
  have hm : x.msb = decide (2 ^ 63 ≤ x.toNat) := by rw [BitVec.msb_eq_decide]
  have hp : ∀ n, x.msb = n → x = realPack n (x.toNat % 2 ^ 63) := by
    intro n hn
    apply BitVec.eq_of_toNat_eq
    unfold realPack
    rw [BitVec.toNat_ofNat, ← hn, hm]
    by_cases h63 : 2 ^ 63 ≤ x.toNat
    · rw [decide_eq_true h63, if_pos rfl]; omega
    · rw [decide_eq_false h63, if_neg (by simp)]; omega
  unfold realUnpack at h
  rw [he, hf] at h
  split at h
  · split at h <;> cases h
  · split at h <;> cases h
    · refine ⟨by omega, ?_, hp _ rfl⟩
      unfold bitsMag; rw [if_pos (by omega)]; omega
    · refine ⟨by omega, ?_, hp _ rfl⟩
      unfold bitsMag; rw [if_neg (by omega)]

/-- The magnitudes of patterns are ordered as their low bits are. -/
theorem bitsMag_mono {a b : Nat} (h : a ≤ b) : bitsMag a ≤ bitsMag b := by
  unfold bitsMag
  split
  · split
    · exact h
    · have : 1 ≤ 2 ^ (b / 2 ^ 52 - 1) := Nat.one_le_two_pow
      exact Nat.le_trans (show a ≤ (2 ^ 52 + b % 2 ^ 52) * 1 by omega) (Nat.mul_le_mul_left _ this)
  · rw [if_neg (by omega)]
    rcases Nat.eq_or_lt_of_le (Nat.div_le_div_right (c := 2 ^ 52) h) with he | hlt
    · rw [he]
      exact Nat.mul_le_mul_right _ (by omega)
    · have h1 : 2 ^ (a / 2 ^ 52) ≤ 2 ^ (b / 2 ^ 52 - 1) := Nat.pow_le_pow_right (by omega) (by omega)
      have h2 : 2 ^ (a / 2 ^ 52) = 2 ^ (a / 2 ^ 52 - 1) * 2 := by
        rw [← Nat.pow_succ]; congr 1; omega
      have h3 : a % 2 ^ 52 < 2 ^ 52 := Nat.mod_lt _ (by omega)
      calc (2 ^ 52 + a % 2 ^ 52) * 2 ^ (a / 2 ^ 52 - 1) ≤ 2 ^ 53 * 2 ^ (a / 2 ^ 52 - 1) :=
            Nat.mul_le_mul_right _ (by omega)
        _ = 2 ^ 52 * 2 ^ (a / 2 ^ 52) := by rw [h2]; omega
        _ ≤ (2 ^ 52 + b % 2 ^ 52) * 2 ^ (b / 2 ^ 52 - 1) := Nat.mul_le_mul (by omega) h1

/-- A value of at least 53 bits at a scale is a multiple of the scale. -/
theorem bitsMag_lt_cases (bits : Nat) (e : Nat) (h : 1 ≤ e) : bitsMag bits < 2 ^ 52 * 2 ^ e ∨ ∃ k, bitsMag bits = k * 2
    ^ e := by
  by_cases hl : bitsMag bits < 2 ^ 52 * 2 ^ e
  · exact .inl hl
  · right
    unfold bitsMag at *
    split at hl
    · rename_i hb
      have : 2 ^ 1 ≤ 2 ^ e := Nat.pow_le_pow_right (by omega) h
      omega
    · rename_i hb
      rw [if_neg hb]
      have : e ≤ bits / 2 ^ 52 - 1 := by
        by_contra hlt
        have h1 : 2 ^ (bits / 2 ^ 52 - 1 + 1) ≤ 2 ^ e := Nat.pow_le_pow_right (by omega) (by omega)
        have h3 : bits % 2 ^ 52 < 2 ^ 52 := Nat.mod_lt _ (by omega)
        apply hl
        calc (2 ^ 52 + bits % 2 ^ 52) * 2 ^ (bits / 2 ^ 52 - 1) < 2 ^ 53 * 2 ^ (bits / 2 ^ 52 - 1) :=
              Nat.mul_lt_mul_of_pos_right (by omega) (by positivity)
          _ = 2 ^ 52 * 2 ^ (bits / 2 ^ 52 - 1 + 1) := by rw [Nat.pow_succ]; ring
          _ ≤ _ := Nat.mul_le_mul_left _ h1
      obtain ⟨d, hd⟩ := Nat.exists_eq_add_of_le this
      exact ⟨(2 ^ 52 + bits % 2 ^ 52) * 2 ^ d, by rw [hd, Nat.pow_add]; ring⟩

theorem bitsMag_strictMono {a b : Nat} (h : a < b) : bitsMag a < bitsMag b := by
  refine Nat.lt_of_lt_of_le ?_ (bitsMag_mono (Nat.succ_le_of_lt h))
  unfold bitsMag
  split
  · split
    · omega
    · have : (a + 1) / 2 ^ 52 - 1 = 0 := by omega
      rw [this]; omega
  · rw [if_neg (by omega)]
    have h1 : 0 < 2 ^ (a / 2 ^ 52 - 1) := by positivity
    by_cases hm : (a + 1) % 2 ^ 52 = 0
    · have h2 : (a + 1) / 2 ^ 52 - 1 = a / 2 ^ 52 - 1 + 1 := by omega
      rw [h2, hm, Nat.pow_succ]
      have h3 : 2 ^ 52 + a % 2 ^ 52 < 2 * 2 ^ 52 := by omega
      calc (2 ^ 52 + a % 2 ^ 52) * 2 ^ (a / 2 ^ 52 - 1) < 2 * 2 ^ 52 * 2 ^ (a / 2 ^ 52 - 1) :=
            Nat.mul_lt_mul_of_pos_right h3 h1
        _ = (2 ^ 52 + 0) * (2 ^ (a / 2 ^ 52 - 1) * 2) := by generalize 2 ^ (a / 2 ^ 52 - 1) = x; omega
    · have h2 : (a + 1) / 2 ^ 52 = a / 2 ^ 52 := by omega
      rw [h2]
      exact Nat.mul_lt_mul_of_pos_right (by omega) h1

theorem bitsMag_inj {a b : Nat} (h : bitsMag a = bitsMag b) : a = b := by
  rcases Nat.lt_trichotomy a b with h1 | h1 | h1
  · exact absurd h (Nat.ne_of_lt (bitsMag_strictMono h1))
  · exact h1
  · exact absurd h.symm (Nat.ne_of_lt (bitsMag_strictMono h1))

/-! ### The one rounding -/

/-- The low 63 bits of the rounded quotient, before the check for overflow. -/
def roundBits (num den : Nat) : Nat :=
  2 ^ 52 * realShift (num / den) + nearestEven num (den * 2 ^ realShift (num / den))

theorem realRound_eq (neg : Bool) (num den : Nat) : realRound neg num den =
    if 2047 * 2 ^ 52 ≤ roundBits num den then realInf neg else realPack neg (roundBits num den) := by
  unfold realRound roundBits; rfl

/-- What the shift says of the quotient. -/
theorem realShift_spec (q : Nat) : (realShift q = 0 ∧ q < 2 ^ 53) ∨
    (1 ≤ realShift q ∧ 2 ^ 52 * 2 ^ realShift q ≤ q ∧ q < 2 ^ 53 * 2 ^ realShift q) := by
  unfold realShift
  split
  · exact .inl ⟨rfl, by assumption⟩
  · rename_i h
    right
    have h0 : q ≠ 0 := by omega
    have h1 : 53 ≤ Nat.log2 q := (Nat.le_log2 h0).2 (by omega)
    have h2 := Nat.log2_self_le h0
    have h3 := Nat.lt_log2_self (n := q)
    refine ⟨by omega, ?_, ?_⟩
    · rw [← Nat.pow_add, show 52 + (Nat.log2 q - 52) = Nat.log2 q by omega]; exact h2
    · rw [← Nat.pow_add, show 53 + (Nat.log2 q - 52) = Nat.log2 q + 1 by omega]; exact h3

theorem realShift_mono {p q : Nat} (h : p ≤ q) : realShift p ≤ realShift q := by
  rcases realShift_spec p with ⟨e, -⟩ | ⟨e1, e2, -⟩
  · omega
  · rcases realShift_spec q with ⟨-, f⟩ | ⟨-, -, f3⟩
    · have : 2 ^ 52 * 2 ^ 1 ≤ 2 ^ 52 * 2 ^ realShift p :=
        Nat.mul_le_mul_left _ (Nat.pow_le_pow_right (by omega) e1)
      omega
    · by_contra hlt
      have : 2 ^ (realShift q + 1) ≤ 2 ^ realShift p := Nat.pow_le_pow_right (by omega) (by omega)
      rw [Nat.pow_succ] at this
      omega

/-- The rounded quotient has 53 bits at most, and just 53 where it was shifted. -/
theorem nearestEven_bounds (num den : Nat) (hd : 0 < den) :
    nearestEven num (den * 2 ^ realShift (num / den)) ≤ 2 ^ 53 ∧
    (realShift (num / den) = 0 ∨ 2 ^ 52 ≤ nearestEven num (den * 2 ^ realShift (num / den))) := by
  have hp : 0 < den * 2 ^ realShift (num / den) := by positivity
  have hlt : num < (num / den + 1) * den := by
    have := Nat.div_add_mod num den
    have := Nat.mod_lt num hd
    rw [Nat.succ_mul, Nat.mul_comm]; omega
  rcases realShift_spec (num / den) with ⟨e, h⟩ | ⟨-, h2, h3⟩
  · refine ⟨nearestEven_le hp ?_, .inl e⟩
    rw [e, Nat.pow_zero, Nat.mul_one]
    exact Nat.le_of_lt (Nat.lt_of_lt_of_le hlt (Nat.mul_le_mul_right _ (by omega)))
  · refine ⟨nearestEven_le hp ?_, .inr (le_nearestEven hp ?_)⟩
    · rw [Nat.mul_left_comm, Nat.mul_comm den]
      exact Nat.le_of_lt (Nat.lt_of_lt_of_le hlt (Nat.mul_le_mul_right _ (by omega)))
    · rw [Nat.mul_left_comm, Nat.mul_comm den]
      exact Nat.le_trans (Nat.mul_le_mul_right _ h2) (Nat.div_mul_le_self num den)

/-- The value of the rounded quotient, in units of 2^-1074. -/
theorem bitsMag_roundBits (num den : Nat) (hd : 0 < den) : bitsMag (roundBits num den) =
    nearestEven num (den * 2 ^ realShift (num / den)) * 2 ^ realShift (num / den) := by
  obtain ⟨h1, h2⟩ := nearestEven_bounds num den hd
  unfold roundBits bitsMag
  generalize nearestEven num (den * 2 ^ realShift (num / den)) = n at *
  generalize realShift (num / den) = e at *
  rcases Nat.lt_or_ge n (2 ^ 52) with hn | hn
  · have he : e = 0 := by omega
    subst he
    rw [if_pos (by omega)]; simp
  · rw [if_neg (by omega)]
    rcases Nat.eq_or_lt_of_le h1 with rfl | hlt
    · rw [show (2 ^ 52 * e + 2 ^ 53) % 2 ^ 52 = 0 by omega, show (2 ^ 52 * e + 2 ^ 53) / 2 ^ 52 - 1 = e + 1 by omega,
        Nat.pow_succ]
      ring
    · rw [show (2 ^ 52 * e + n) % 2 ^ 52 = n - 2 ^ 52 by omega, show (2 ^ 52 * e + n) / 2 ^ 52 - 1 = e by omega,
        show 2 ^ 52 + (n - 2 ^ 52) = n by omega]

/-- Rounding keeps the order of two exact quotients. -/
theorem roundBits_mono {a b c d : Nat} (hb : 0 < b) (hd : 0 < d) (h : a * d ≤ c * b) :
    roundBits a b ≤ roundBits c d := by
  have hq : a / b ≤ c / d := by
    rw [Nat.le_div_iff_mul_le hd]
    have h1 : a / b * b ≤ a := Nat.div_mul_le_self a b
    have h2 : a / b * d * b ≤ c * b := by
      calc a / b * d * b = a / b * b * d := by ring
        _ ≤ a * d := Nat.mul_le_mul_right _ h1
        _ ≤ c * b := h
    exact Nat.le_of_mul_le_mul_right h2 hb
  rcases Nat.eq_or_lt_of_le (realShift_mono hq) with he | hlt
  · unfold roundBits
    rw [he]
    refine Nat.add_le_add_left (nearestEven_mono (by positivity) (by positivity) ?_) _
    calc a * (d * 2 ^ realShift (c / d)) = a * d * 2 ^ realShift (c / d) := by ring
      _ ≤ c * b * 2 ^ realShift (c / d) := Nat.mul_le_mul_right _ h
      _ = c * (b * 2 ^ realShift (c / d)) := by ring
  · have h1 := (nearestEven_bounds a b hb).1
    have h2 := (nearestEven_bounds c d hd).2
    unfold roundBits
    omega

/-- A representable value is its own rounding. -/
theorem roundBits_bitsMag (b : Nat) : roundBits (bitsMag b) 1 = b := by
  apply bitsMag_inj
  rw [bitsMag_roundBits _ _ (by omega), Nat.one_mul, Nat.div_one]
  have hp : 0 < 2 ^ realShift (bitsMag b) := by positivity
  have key : ∀ k, bitsMag b = k * 2 ^ realShift (bitsMag b) →
      nearestEven (bitsMag b) (2 ^ realShift (bitsMag b)) * 2 ^ realShift (bitsMag b) = bitsMag b := fun k hk => by
    have h := (nearestEven_dist (bitsMag b) (2 ^ realShift (bitsMag b)) k hp).1
    rw [← hk] at h
    omega
  rcases realShift_spec (bitsMag b) with ⟨e0, -⟩ | ⟨e1, e2, -⟩
  · exact key (bitsMag b) (by rw [e0]; simp)
  · rcases bitsMag_lt_cases b _ e1 with hlt | ⟨k, hk⟩
    · omega
    · exact key k hk

/-- The scale of the largest finite values. -/
theorem overflow_scale : ∃ X, 0 < X ∧ 2 * overflowFrom = 18014398509481983 * X ∧ (∀ e, e = 2045 → 2 ^ e = X) ∧
    ∀ e, 2046 ≤ e → X * 2 ≤ 2 ^ e :=
  ⟨2 ^ 2045, by decide +kernel, by decide +kernel, fun _ h => by rw [h],
    fun _ h => by rw [← Nat.pow_succ]; exact Nat.pow_le_pow_right (by omega) h⟩

/-- Where rounding gives infinity. -/
theorem roundBits_overflow (num den : Nat) (hd : 0 < den) :
    overflowFrom * den ≤ num ↔ 2047 * 2 ^ 52 ≤ roundBits num den := by
  constructor
  · intro h
    have := roundBits_mono (a := overflowFrom) (b := 1) (c := num) (d := den) (by omega) hd (by omega)
    have h0 : roundBits overflowFrom 1 = 2047 * 2 ^ 52 := by decide +kernel
    exact h0 ▸ this
  · intro h
    obtain ⟨h1, -⟩ := nearestEven_bounds num den hd
    unfold roundBits at h
    have he : 2045 ≤ realShift (num / den) := by omega
    rcases realShift_spec (num / den) with ⟨e0, -⟩ | ⟨-, e2, -⟩
    · omega
    obtain ⟨X, hX, hX', h45, h46⟩ := overflow_scale
    rcases Nat.eq_or_lt_of_le he with he | hlt
    · rw [h45 _ he.symm, ← he] at h
      rw [h45 _ he.symm] at h1
      have hn : nearestEven num (den * X) = 2 ^ 53 := by clear h45 h46 e2 hX'; omega
      obtain ⟨q, r, e, hr, -, h3⟩ := nearestEven_cases num (den * X) (Nat.mul_pos hd hX)
      have hov : 2 * (overflowFrom * den) = 18014398509481983 * (den * X) := by
        rw [← Nat.mul_assoc, hX', Nat.mul_assoc, Nat.mul_comm X]
      rw [hn] at h3
      clear hX hX' he e2 h h1 h45 h46
      generalize den * X = D at *
      generalize overflowFrom * den = V at *
      rcases h3 with h3 | h3
      · have : q = 9007199254740991 := by clear hov; omega
        rw [this] at e
        linarith [h3.2.1]
      · have : q = 9007199254740992 := by clear hov; omega
        rw [this] at e
        linarith
    · have h3 := h46 _ hlt
      have h5 : overflowFrom ≤ num / den := by
        clear h45 h46 h h1
        generalize 2 ^ realShift (num / den) = Y at *
        generalize num / den = Q at *
        generalize overflowFrom = V at *
        linarith
      exact Nat.le_trans (Nat.mul_le_mul_right _ h5) (Nat.div_mul_le_self num den)

/-! ### The order of the values that are not negative -/

/-- Not negative and no NaN: the low 63 bits are at most infinity's, and they order the values. -/
abbrev realNonneg (x : F64) : Prop := x.toNat ≤ 2047 * 2 ^ 52

theorem realUnpack_nonneg {x : F64} (h : realNonneg x) :
    (x.toNat = 2047 * 2 ^ 52 ∧ realUnpack x = .inf false) ∨
    (x.toNat < 2047 * 2 ^ 52 ∧ realUnpack x = .fin false (bitsMag x.toNat)) := by
  unfold realNonneg at h
  have hp : x = realPack false x.toNat := by
    apply BitVec.eq_of_toNat_eq
    unfold realPack
    rw [BitVec.toNat_ofNat, if_neg (by simp)]
    omega
  rcases Nat.eq_or_lt_of_le h with he | hlt
  · refine .inl ⟨he, ?_⟩
    rw [hp, he]
    exact realUnpack_realInf false
  · refine .inr ⟨hlt, ?_⟩
    rw [hp, realUnpack_realPack _ hlt, ← hp]

/-- The pattern of a rounded quotient of sign plus. -/
theorem realRound_toNat (num den : Nat) :
    (realRound false num den).toNat = min (roundBits num den) (2047 * 2 ^ 52) := by
  rw [realRound_eq]
  split
  · rw [Nat.min_eq_right (by assumption)]; decide
  · rw [Nat.min_eq_left (by omega)]
    unfold realPack
    rw [BitVec.toNat_ofNat, if_neg (by simp)]
    omega

theorem realRound_nonneg (num den : Nat) : realNonneg (realRound false num den) := by
  unfold realNonneg; rw [realRound_toNat]; omega

theorem realRound_mono {a b c d : Nat} (hb : 0 < b) (hd : 0 < d) (h : a * d ≤ c * b) :
    (realRound false a b).toNat ≤ (realRound false c d).toNat := by
  rw [realRound_toNat, realRound_toNat]
  have := roundBits_mono hb hd h
  omega

/-- Every finite value is far below the key of infinity. -/
theorem bitsMag_lt_key {b : Nat} (h : b < 2047 * 2 ^ 52) : bitsMag b < 2 ^ 2099 := by
  refine Nat.lt_of_le_of_lt (bitsMag_mono (Nat.le_of_lt h)) ?_
  decide +kernel

theorem realKey_nonneg {x : F64} (h : realNonneg x) : ∃ k : Nat, realKey x = some (k : Int) ∧
    ∀ {y : F64} {l : Nat}, realNonneg y → realKey y = some (l : Int) →
      (x.toNat < y.toNat → k < l) ∧ (x.toNat = y.toNat → k = l) := by
  have key : ∀ {z : F64}, realNonneg z →
      (z.toNat = 2047 * 2 ^ 52 ∧ realKey z = some ((2 ^ 2099 : Nat) : Int)) ∨
      (z.toNat < 2047 * 2 ^ 52 ∧ realKey z = some ((bitsMag z.toNat : Nat) : Int)) := by
    intro z hz
    unfold realKey
    rcases realUnpack_nonneg hz with ⟨e, u⟩ | ⟨e, u⟩ <;> rw [u]
    · exact .inl ⟨e, by simp only [Bool.false_eq_true, if_false]; rw [Nat.cast_pow]; rfl⟩
    · exact .inr ⟨e, by simp only [Bool.false_eq_true, if_false]⟩
  have inj : ∀ {a b : Nat}, some (a : Int) = some (b : Int) → a = b := by simp
  rcases key h with ⟨e, u⟩ | ⟨e, u⟩
  · refine ⟨_, u, fun hy hl => ?_⟩
    rcases key hy with ⟨e', u'⟩ | ⟨e', u'⟩
    · rw [u'] at hl; have := inj hl; omega
    · omega
  · refine ⟨_, u, fun hy hl => ?_⟩
    rcases key hy with ⟨e', u'⟩ | ⟨e', u'⟩
    · rw [u'] at hl; have := inj hl; have := bitsMag_lt_key e; omega
    · rw [u'] at hl
      have := inj hl
      refine ⟨fun hlt => ?_, fun heq => by rw [heq]; omega⟩
      have := bitsMag_strictMono hlt
      omega

theorem realLe_nonneg {x y : F64} (hx : realNonneg x) (hy : realNonneg y) : realLe x y = decide (x.toNat ≤ y.toNat) :=
    by
  obtain ⟨k, hk, h1⟩ := realKey_nonneg hx
  obtain ⟨l, hl, h2⟩ := realKey_nonneg hy
  have h1 := h1 hy hl
  have h2 := h2 hx hk
  unfold realLe
  rw [hk, hl]
  simp only [decide_eq_decide]
  omega

theorem realLt_nonneg {x y : F64} (hx : realNonneg x) (hy : realNonneg y) : realLt x y = decide (x.toNat < y.toNat) :=
    by
  obtain ⟨k, hk, h1⟩ := realKey_nonneg hx
  obtain ⟨l, hl, h2⟩ := realKey_nonneg hy
  have h1 := h1 hy hl
  have h2 := h2 hx hk
  unfold realLt
  rw [hk, hl]
  simp only [decide_eq_decide]
  omega

/-- Finite and greater than 0, as a pattern. -/
theorem realPositive_toNat {x : F64} (h : realPositive x = true) : 0 < x.toNat ∧ x.toNat < 2047 * 2 ^ 52 := by
  unfold realPositive at h
  rw [Bool.and_eq_true] at h
  obtain ⟨hf, hl⟩ := h
  have hu : ∃ b q, realUnpack x = .fin b q := by
    unfold realFinite at hf
    unfold realUnpack
    rw [if_neg (by simpa using hf)]
    split <;> exact ⟨_, _, rfl⟩
  obtain ⟨b, q, hu⟩ := hu
  obtain ⟨bits, hb, rfl, hx⟩ := bitsMag_of_realUnpack hu
  unfold realLt realKey at hl
  rw [hu, show realUnpack 0#64 = .fin false 0 by decide] at hl
  cases b
  · have : x.toNat = bits := by
      rw [hx]; unfold realPack; rw [BitVec.toNat_ofNat, if_neg (by simp)]; omega
    rw [this]
    refine ⟨?_, hb⟩
    rcases Nat.eq_zero_or_pos bits with rfl | h
    · simp [bitsMag] at hl
    · exact h
  · simp at hl
    omega

theorem realNonneg_of_positive {x : F64} (h : realPositive x = true) : realNonneg x :=
  Nat.le_of_lt (realPositive_toNat h).2

theorem bitsMag_pos {b : Nat} (h : 0 < b) : 0 < bitsMag b := by
  have := bitsMag_strictMono h
  omega

/-! ### The operators on values that are not negative -/

/-- What `⊕` answers for two values that are not negative. -/
theorem realAdd_toNat {x y : F64} (hx : realNonneg x) (hy : realNonneg y) : realNonneg (realAdd x y) ∧
    (x.toNat = 2047 * 2 ^ 52 ∨ y.toNat = 2047 * 2 ^ 52 → (realAdd x y).toNat = 2047 * 2 ^ 52) ∧
    (x.toNat < 2047 * 2 ^ 52 → y.toNat < 2047 * 2 ^ 52 →
      realAdd x y = realRound false (bitsMag x.toNat + bitsMag y.toNat) 1) := by
  unfold realAdd
  rcases realUnpack_nonneg hx with ⟨e, u⟩ | ⟨e, u⟩ <;> rcases realUnpack_nonneg hy with ⟨e', u'⟩ | ⟨e', u'⟩ <;>
    rw [u, u'] <;> simp only [if_true]
  · exact ⟨by decide, fun _ => by decide, fun h => by omega⟩
  · exact ⟨by decide, fun _ => by decide, fun h => by omega⟩
  · exact ⟨by decide, fun _ => by decide, fun _ h => by omega⟩
  · exact ⟨realRound_nonneg _ _, fun h => by omega, fun _ _ => trivial⟩

theorem realAdd_mono {x x' y y' : F64} (hx : realNonneg x) (hx' : realNonneg x') (hy : realNonneg y)
    (hy' : realNonneg y') (h : x.toNat ≤ x'.toNat) (h' : y.toNat ≤ y'.toNat) :
    (realAdd x y).toNat ≤ (realAdd x' y').toNat := by
  obtain ⟨n1, i1, f1⟩ := realAdd_toNat hx hy
  obtain ⟨n2, i2, f2⟩ := realAdd_toNat hx' hy'
  unfold realNonneg at *
  by_cases hi : x'.toNat = 2047 * 2 ^ 52 ∨ y'.toNat = 2047 * 2 ^ 52
  · rw [i2 hi]; exact n1
  · rw [f1 (by omega) (by omega), f2 (by omega) (by omega)]
    have h1 := bitsMag_mono h
    have h2 := bitsMag_mono h'
    exact realRound_mono (by omega) (by omega) (by omega)

theorem le_realAdd {x y : F64} (hx : realNonneg x) (hy : realNonneg y) : x.toNat ≤ (realAdd x y).toNat := by
  obtain ⟨n1, i1, f1⟩ := realAdd_toNat hx hy
  unfold realNonneg at *
  by_cases hi : x.toNat = 2047 * 2 ^ 52 ∨ y.toNat = 2047 * 2 ^ 52
  · rw [i1 hi]; exact hx
  · rw [f1 (by omega) (by omega), realRound_toNat]
    have h1 := roundBits_mono (a := bitsMag x.toNat) (b := 1) (c := bitsMag x.toNat + bitsMag y.toNat) (d := 1)
      (by omega) (by omega) (by omega)
    rw [roundBits_bitsMag] at h1
    omega

/-- What `⊗` answers for a value that is not negative and a positive finite one. -/
theorem realMul_toNat {x y : F64} (hx : realNonneg x) (hy : 0 < y.toNat) (hy' : y.toNat < 2047 * 2 ^ 52) :
    realNonneg (realMul x y) ∧ (x.toNat = 2047 * 2 ^ 52 → (realMul x y).toNat = 2047 * 2 ^ 52) ∧
    (x.toNat < 2047 * 2 ^ 52 → realMul x y = realRound false (bitsMag x.toNat * bitsMag y.toNat) realOne) := by
  have u' : realUnpack y = .fin false (bitsMag y.toNat) := by
    rcases realUnpack_nonneg (Nat.le_of_lt hy' : realNonneg y) with ⟨e, u⟩ | ⟨-, u⟩
    · omega
    · exact u
  have := bitsMag_pos hy
  unfold realMul
  rcases realUnpack_nonneg hx with ⟨e, u⟩ | ⟨e, u⟩ <;> rw [u, u']
  · simp only [Bool.false_xor, if_neg (Nat.ne_of_gt this)]
    exact ⟨by decide, fun _ => by decide, fun h => by omega⟩
  · exact ⟨realRound_nonneg _ _, fun h => by omega, fun _ => rfl⟩

theorem realOne_pos : 0 < realOne := by unfold realOne; positivity

theorem realMul_mono {x x' y : F64} (hx : realNonneg x) (hx' : realNonneg x') (hy : 0 < y.toNat)
    (hy' : y.toNat < 2047 * 2 ^ 52) (h : x.toNat ≤ x'.toNat) : (realMul x y).toNat ≤ (realMul x' y).toNat := by
  obtain ⟨n1, i1, f1⟩ := realMul_toNat hx hy hy'
  obtain ⟨n2, i2, f2⟩ := realMul_toNat hx' hy hy'
  unfold realNonneg at *
  by_cases hi : x'.toNat = 2047 * 2 ^ 52
  · rw [i2 hi]; exact n1
  · rw [f1 (by omega), f2 (by omega)]
    exact realRound_mono realOne_pos realOne_pos
      (Nat.mul_le_mul_right _ (Nat.mul_le_mul_right _ (bitsMag_mono h)))

/-- `⊗` with the operands the other way round, for values that are not NaN. -/
theorem realMul_comm (x y : F64) : realMul x y = realMul y x := by
  unfold realMul
  cases realUnpack x <;> cases realUnpack y <;> simp [Bool.xor_comm, Nat.mul_comm]

/-- What `⊘` answers for a positive finite value over one that is not negative. -/
theorem realDiv_toNat {x y : F64} (hx : 0 < x.toNat) (hx' : x.toNat < 2047 * 2 ^ 52) (hy : realNonneg y) :
    realNonneg (realDiv x y) ∧ (y.toNat = 2047 * 2 ^ 52 → (realDiv x y).toNat = 0) ∧
    (y.toNat = 0 → (realDiv x y).toNat = 2047 * 2 ^ 52) ∧
    (0 < y.toNat → y.toNat < 2047 * 2 ^ 52 →
      realDiv x y = realRound false (realOne * bitsMag x.toNat) (bitsMag y.toNat)) := by
  have u : realUnpack x = .fin false (bitsMag x.toNat) := by
    rcases realUnpack_nonneg (Nat.le_of_lt hx' : realNonneg x) with ⟨e, u⟩ | ⟨-, u⟩
    · omega
    · exact u
  have hp := bitsMag_pos hx
  unfold realDiv
  rcases realUnpack_nonneg hy with ⟨e, u'⟩ | ⟨e, u'⟩ <;> rw [u, u']
  · simp only [Bool.false_xor]
    exact ⟨by decide, fun _ => by decide, fun h => by omega, fun _ h => by omega⟩
  · simp only [Bool.false_xor]
    rcases Nat.eq_zero_or_pos y.toNat with h0 | h0
    · rw [h0, show bitsMag 0 = 0 by decide, if_pos rfl, if_neg (Nat.ne_of_gt hp)]
      exact ⟨by decide, fun h => by omega, fun _ => by decide, fun h => by omega⟩
    · rw [if_neg (Nat.ne_of_gt (bitsMag_pos h0))]
      exact ⟨realRound_nonneg _ _, fun h => by omega, fun h => by omega, fun _ _ => rfl⟩

theorem realDiv_anti {x y y' : F64} (hx : 0 < x.toNat) (hx' : x.toNat < 2047 * 2 ^ 52) (hy : realNonneg y)
    (hy' : realNonneg y') (h : y.toNat ≤ y'.toNat) : (realDiv x y').toNat ≤ (realDiv x y).toNat := by
  obtain ⟨n1, i1, z1, f1⟩ := realDiv_toNat hx hx' hy
  obtain ⟨n2, i2, z2, f2⟩ := realDiv_toNat hx hx' hy'
  unfold realNonneg at *
  rcases Nat.eq_zero_or_pos y.toNat with h0 | h0
  · rw [z1 h0]; exact n2
  · by_cases hi : y'.toNat = 2047 * 2 ^ 52
    · rw [i2 hi]; omega
    · rw [f1 h0 (by omega), f2 (by omega) (by omega)]
      exact realRound_mono (bitsMag_pos (by omega)) (bitsMag_pos h0) (Nat.mul_le_mul_left _ (bitsMag_mono h))

/-- Finite, for a value that is not negative, as a pattern. -/
theorem realFinite_nonneg {x : F64} (h : realNonneg x) : realFinite x = true ↔ x.toNat < 2047 * 2 ^ 52 := by
  have he : realExponent x = x.toNat / 2 ^ 52 % 2 ^ 11 := by
    unfold realExponent
    rw [BitVec.extractLsb'_toNat, Nat.shiftRight_eq_div_pow]
  unfold realNonneg at h
  unfold realFinite
  rw [he, bne_iff_ne]
  omega

/-- A positive count converts to a positive finite value. -/
theorem realOfNat_pos {n : Nat} (h : 0 < n) (hn : n < 2 ^ 32) :
    0 < (realOfNat n).toNat ∧ (realOfNat n).toNat < 2047 * 2 ^ 52 := by
  unfold realOfNat
  have h1 := realRound_mono (a := realOne * 1) (b := 1) (c := realOne * n) (d := 1) (by omega) (by omega)
    (by simp only [Nat.mul_one]; exact Nat.le_mul_of_pos_right _ h)
  have h2 := realRound_mono (a := realOne * n) (b := 1) (c := realOne * 2 ^ 32) (d := 1) (by omega) (by omega)
    (by simp only [Nat.mul_one]; exact Nat.mul_le_mul_left _ (by omega))
  have h3 : 0 < (realRound false (realOne * 1) 1).toNat := by decide +kernel
  have h4 : (realRound false (realOne * 2 ^ 32) 1).toNat < 2047 * 2 ^ 52 := by decide +kernel
  omega

/-- The delay formula of R121 on a speed that is not negative: not negative, and no longer at a higher speed. -/
theorem delayAt_nonneg {spr : Count} (hs : spr ≠ 0) {x : F64} (hx : realNonneg x) : realNonneg (delayAt spr x) ∧
    ∀ {y : F64}, realNonneg y → x.toNat ≤ y.toNat → (delayAt spr y).toNat ≤ (delayAt spr x).toNat := by
  have hp : 0 < spr.toNat := by
    rcases Nat.eq_zero_or_pos spr.toNat with h | h
    · exact absurd (BitVec.eq_of_toNat_eq h) hs
    · exact h
  obtain ⟨h1, h2⟩ := realOfNat_pos hp spr.isLt
  have h60 := realOfNat_pos (n := 60) (by omega) (by omega)
  unfold delayAt sixty
  rw [realMul_comm]
  obtain ⟨m1, -⟩ := realMul_toNat hx h1 h2
  refine ⟨(realDiv_toNat h60.1 h60.2 m1).1, fun hy hle => ?_⟩
  rw [realMul_comm _ (_ : F64)]
  obtain ⟨m2, -⟩ := realMul_toNat hy h1 h2
  exact realDiv_anti h60.1 h60.2 m1 m2 (realMul_mono hx hy h1 h2 hle)

end Sys2Proof.Machine
end

