-- ==== Sys2Proof/Laws/Ramp.lean ====
section
/-! SUPPORT. What the ramp generator computes (spec/41_ramp_generator.md R122 to R125). -/

namespace Sys2Proof.Machine

@[simp] theorem rampPass_n (c : StepperConfig) (r : RampRegs) :
    (rampPass c r).n = r.n := by simp only [rampPass]

@[simp] theorem rampPass_half (c : StepperConfig) (r : RampRegs) :
    (rampPass c r).half = r.half := by simp only [rampPass]

@[simp] theorem rampPass_targetDelay (c : StepperConfig) (r : RampRegs) :
    (rampPass c r).targetDelay = r.targetDelay := by simp only [rampPass]

@[simp] theorem rampPass_count (c : StepperConfig) (r : RampRegs) :
    (rampPass c r).count = r.count + 1 := by simp only [rampPass]

theorem rampPass_elapsed (c : StepperConfig) (r : RampRegs) :
    (rampPass c r).elapsed = realAdd r.elapsed r.delay := by simp only [rampPass]

theorem rampPass_curRpm (c : StepperConfig) (r : RampRegs) :
    (rampPass c r).curRpm = realAdd c.startingRpm (realMul (rampPass c r).elapsed c.acceleration) :=
        by simp only [rampPass]

theorem rampPass_delay (c : StepperConfig) (r : RampRegs) :
    (rampPass c r).delay = delayAt c.stepsPerRev (rampPass c r).curRpm := by simp only [rampPass]

@[simp] theorem rampInit_n (c : StepperConfig) (n : Count) (rpm : F64) :
    (rampInit c n rpm).n = n := by simp only [rampInit]

@[simp] theorem rampInit_targetDelay (c : StepperConfig) (n : Count) (rpm : F64) :
    (rampInit c n rpm).targetDelay = delayAt c.stepsPerRev rpm := by simp only [rampInit]

@[simp] theorem rampInit_delay (c : StepperConfig) (n : Count) (rpm : F64) :
    (rampInit c n rpm).delay = delayAt c.stepsPerRev c.startingRpm := by simp only [rampInit]

@[simp] theorem rampInit_elapsed (c : StepperConfig) (n : Count) (rpm : F64) :
    (rampInit c n rpm).elapsed = 0 := by simp only [rampInit]

@[simp] theorem rampInit_curRpm (c : StepperConfig) (n : Count) (rpm : F64) :
    (rampInit c n rpm).curRpm = c.startingRpm := by simp only [rampInit]

@[simp] theorem rampInit_count (c : StepperConfig) (n : Count) (rpm : F64) :
    (rampInit c n rpm).count = 0 := by simp only [rampInit]

/-- Everything the acceleration loop of R123 does in at most `k` passes. -/
theorem rampAccel_spec (c : StepperConfig) (rpm : F64) (k : Nat) (r : RampRegs) (h : r.count.toNat + k ≤ 2147483647) :
    let a := rampAccel c rpm k r
    a.1.length ≤ k ∧ a.2 = (rampPass c)^[a.1.length] r ∧ a.2.count.toNat = r.count.toNat + a.1.length ∧
    a.2.half = r.half ∧ a.2.n = r.n ∧ a.2.targetDelay = r.targetDelay ∧
    (∀ i < a.1.length, a.1[i]? = some ((rampPass c)^[i] r).delay ∧ realLt ((rampPass c)^[i] r).curRpm rpm = true) ∧
    (a.1.length < k → rampGoesOn rpm a.2 = false) := by
  induction k generalizing r with
  | zero => simp [rampAccel]
  | succ k ih =>
    unfold rampAccel
    by_cases hg : rampGoesOn rpm r = true
    · simp only [hg, if_true]
      have hc : (rampPass c r).count.toNat = r.count.toNat + 1 := by
        have : (rampPass c r).count = r.count + 1 := by simp only [rampPass]
        rw [this, BitVec.toNat_add, Nat.mod_eq_of_lt]
        · rfl
        · have : (1#31).toNat = 1 := rfl
          change r.count.toNat + 1 < _
          exact Nat.lt_of_le_of_lt (m := 2147483647) (by omega) (by decide)
      obtain ⟨h1, h2, h3, h4, h5, h6, h7, h8⟩ := ih (rampPass c r) (by rw [hc]; omega)
      rw [rampPass_half] at h4
      rw [rampPass_n] at h5
      rw [rampPass_targetDelay] at h6
      refine ⟨by simpa using h1, ?_, ?_, h4, h5, h6, ?_, ?_⟩
      · rw [List.length_cons, Function.iterate_succ_apply]; exact h2
      · rw [h3, hc, List.length_cons]; omega
      · intro i hi
        cases i with
        | zero =>
          simp only [rampGoesOn, Bool.and_eq_true] at hg
          exact ⟨by simp, hg.2⟩
        | succ i =>
          rw [List.length_cons] at hi
          simpa [Function.iterate_succ_apply] using h7 i (by omega)
      · intro hl
        exact h8 (by simpa using hl)
    · simp [hg]


/-- The acceleration loop of a `RAMP`: how many passes, and the registers it ends with. -/
theorem ramp_loop (c : StepperConfig) (n : Count) (rpm : F64) : ∃ h r,
    rampAccel c rpm (rampInit c n rpm).half.toNat (rampInit c n rpm) = (h, r) ∧ h.length ≤ n.toNat / 2 ∧
    r = rampAfter c n rpm h.length ∧ r.count.toNat = h.length ∧ r.half.toNat = n.toNat / 2 ∧ r.n = n ∧
    r.targetDelay = delayAt c.stepsPerRev rpm ∧
    (∀ i < h.length, h[i]? = some (rampAfter c n rpm i).delay ∧ realLt (rampAfter c n rpm i).curRpm rpm = true) ∧
    (h.length < n.toNat / 2 → realLt r.curRpm rpm = false) := by
  have hn := n.isLt
  have hh : (rampInit c n rpm).half.toNat = n.toNat / 2 := by
    simp only [rampInit, BitVec.toNat_setWidth, BitVec.toNat_ushiftRight, Nat.shiftRight_eq_div_pow]
    omega
  have h0 : (rampInit c n rpm).count.toNat = 0 := rfl
  obtain ⟨h1, h2, h3, h4, h5, h6, h7, h8⟩ := rampAccel_spec c rpm (n.toNat / 2) (rampInit c n rpm)
    (by rw [h0]; omega)
  rw [hh]
  refine ⟨_, _, rfl, h1, h2, by rw [h3, h0, Nat.zero_add], by rw [h4, hh], h5, by rw [h6, rampInit_targetDelay], h7,
    fun hl => ?_⟩
  have := h8 hl
  rw [rampGoesOn, Bool.and_eq_false_iff, decide_eq_false_iff_not] at this
  rcases this with this | this
  · exact absurd (by rw [h3, h4, hh, h0]; omega) this
  · exact this

/-- The profile: the first half is the delays of the passes `l` and then the target delay, the second half its mirror. -/
theorem rampProfile_halves (c : StepperConfig) (n : Count) (rpm : F64) : ∃ l, l.length ≤ n.toNat / 2 ∧
    (∀ i < l.length, l[i]? = some (rampAfter c n rpm i).delay ∧ realLt (rampAfter c n rpm i).curRpm rpm = true) ∧
    (l.length < n.toNat / 2 → realLt (rampAfter c n rpm l.length).curRpm rpm = false) ∧
    (rampProfile c n rpm).1 = (l ++ List.replicate (n.toNat / 2 - l.length) (delayAt c.stepsPerRev rpm)) ++
      (l ++ List.replicate (n.toNat / 2 - l.length) (delayAt c.stepsPerRev rpm)).reverse := by
  obtain ⟨l, r, e, h1, h2, h3, h4, h5, h6, h7, h8⟩ := ramp_loop c n rpm
  refine ⟨l, h1, h7, h2 ▸ h8, ?_⟩
  have : (rampProfile c n rpm).1 = rampMirror (rampCruise l r) r := by simp only [rampProfile, e]
  rw [this, rampMirror, rampCruise, h3, h4, h6, h5]
  split
  · rfl
  · rename_i hn
    have h9 : n.toNat / 2 = 0 := by omega
    have h10 : l = [] := List.length_eq_zero_iff.1 (by omega)
    simp [h9, h10]

/-- The registers after `k` passes, for a legal configuration: nothing is negative, the delay is the formula's at the
speed, and neither the elapsed time nor the speed ever falls (R132, R133 property 3). -/
theorem rampAfter_nonneg {c : StepperConfig} (hc : stepperConfigGood c) (n : Count) (rpm : F64) (k : Nat) :
    realNonneg (rampAfter c n rpm k).elapsed ∧ realNonneg (rampAfter c n rpm k).curRpm ∧
    (rampAfter c n rpm k).delay = delayAt c.stepsPerRev (rampAfter c n rpm k).curRpm ∧
    (rampAfter c n rpm k).elapsed.toNat ≤ (rampAfter c n rpm (k + 1)).elapsed.toNat ∧
    (rampAfter c n rpm k).curRpm.toNat ≤ (rampAfter c n rpm (k + 1)).curRpm.toNat := by
  obtain ⟨hspr, hacc, hst, -, -, -⟩ := hc
  obtain ⟨ha1, ha2⟩ := realPositive_toNat hacc
  have hst' := realNonneg_of_positive hst
  have succ : ∀ k, rampAfter c n rpm (k + 1) = rampPass c (rampAfter c n rpm k) :=
    fun k => Function.iterate_succ_apply' _ _ _
  have pos : ∀ k, realNonneg (rampAfter c n rpm k).elapsed ∧ realNonneg (rampAfter c n rpm k).curRpm ∧
      (rampAfter c n rpm k).delay = delayAt c.stepsPerRev (rampAfter c n rpm k).curRpm := by
    intro k
    induction k with
    | zero => exact ⟨by show (0#64).toNat ≤ _; decide, hst', rfl⟩
    | succ k ih =>
      obtain ⟨h1, h2, h3⟩ := ih
      rw [succ]
      have hd := (delayAt_nonneg hspr h2).1
      rw [← h3] at hd
      have he := (realAdd_toNat h1 hd).1
      rw [← rampPass_elapsed c] at he
      have hm := (realMul_toNat he ha1 ha2).1
      refine ⟨he, ?_, rampPass_delay _ _⟩
      rw [rampPass_curRpm]
      exact (realAdd_toNat hst' hm).1
  obtain ⟨h1, h2, h3⟩ := pos k
  have hel : (rampAfter c n rpm k).elapsed.toNat ≤ (rampAfter c n rpm (k + 1)).elapsed.toNat := by
    rw [succ, rampPass_elapsed]
    have hd := (delayAt_nonneg hspr h2).1
    rw [← h3] at hd
    exact le_realAdd h1 hd
  refine ⟨h1, h2, h3, hel, ?_⟩
  obtain ⟨h4, h5, h6⟩ := pos (k + 1)
  cases k with
  | zero =>
    rw [succ, rampPass_curRpm, ← succ]
    exact le_realAdd hst' (realMul_toNat h4 ha1 ha2).1
  | succ k =>
    rw [succ (k + 1), succ k, rampPass_curRpm, rampPass_curRpm c (rampPass _ _), ← succ k, ← succ (k + 1)]
    have m1 := (realMul_toNat h1 ha1 ha2).1
    have m2 := (realMul_toNat h4 ha1 ha2).1
    exact realAdd_mono hst' hst' m1 m2 (Nat.le_refl _) (realMul_mono h1 h4 ha1 ha2 hel)

end Sys2Proof.Machine
end

