-- ==== Sys2Proof/Laws/Invariant.lean ====
section
/-! SUPPORT. Actions, runs of actions and commands under the machine's invariant: none faults, and each keeps it. -/

namespace Sys2Proof.Machine

/-- The outcome is no fault, and a next value meets `P`. -/
def NoFault {α : Type} (P : α → Prop) : Host.Outcome α Fault Refusal → Prop
  | .next a => P a
  | .fault _ => False
  | .refused _ => True

/-- Going on after an outcome that does not fault. -/
theorem NoFault.andThen {α β : Type} {P : α → Prop} {Q : β → Prop} {o : Host.Outcome α Fault Refusal}
    {k : α → Host.Outcome β Fault Refusal}
    (h : NoFault P o) (hk : ∀ a, P a → NoFault Q (k a)) : NoFault Q (andThen o k) := by
  cases o with
  | next a => exact hk a h
  | fault _ => exact h.elim
  | refused _ => trivial

theorem NoFault.imp {α : Type} {P Q : α → Prop} {o : Host.Outcome α Fault Refusal} (h : NoFault P o)
    (hk : ∀ a, o = .next a → P a → Q a) : NoFault Q o := by
  cases o with
  | next a => exact hk a rfl h
  | fault _ => exact h
  | refused _ => trivial

/-- Reading a register that is set. -/
theorem NoFault.readReg {α β : Type} {Q : β → Prop} {v : Option α} {r : RegName} {k : α → Host.Outcome β Fault Refusal}
    (h : v ≠ none) (hk : ∀ a, v = some a → NoFault Q (k a)) : NoFault Q (readReg v r k) := by
  cases v with
  | none => exact absurd rfl h
  | some a => exact hk a rfl

/-- The invariant after a write of the STEPPER unit alone that takes no pin into use. -/
theorem Inv.ofStepper {s t : State} (hi : Inv s) (h1 : t.hx = s.hx) (h2 : t.params = s.params)
    (h3 : t.outsidePins = s.outsidePins) (h4 : StepperInv s.params t.stepper)
    (h5 : ∀ p, stepperUses t.stepper p → stepperUses s.stepper p) : Inv t :=
  ⟨h2 ▸ h4, h1 ▸ hi.hx, pinsApart_mono hi.pins h5 (h1 ▸ fun _ h => h) (h3 ▸ fun _ h => h), h3 ▸ hi.outside⟩

theorem stpTodoGood_stpWait {d c l p} (t : F64) (rest : List StpOp) (h : rest ≠ []) (hr : stpTodoGood d c l p rest) :
    stpTodoGood d c l p (stpWait t ++ rest) := by
  unfold stpWait; split
  · exact ⟨h, hr⟩
  · exact hr

/-- One action of the STEPPER unit: its own registers. -/
theorem stpAct_unit {s : State} {op : StpOp} {rest : List StpOp} (hi : Inv s) (ht : s.stepper.todo = op :: rest) :
    NoFault (fun t => StepperInv s.params t.stepper) (stpAct op rest s) := by
  have hb : s.stepper.busy = true := by rw [hi.stepper.busyTodo, ht]; rfl
  have hg := hi.stepper.todoGood
  rw [ht] at hg
  have step : ∀ u : Stepper, rest ≠ [] → u.busy = true → u.todo = rest → u.cfgd = s.stepper.cfgd → u.config =
    s.stepper.config → (s.stepper.power ≠ none → u.power ≠ none) →
      u.prof = s.stepper.prof → u.profLen = s.stepper.profLen → stpTodoGood s.params.profileDepth s.stepper.config
        s.stepper.profLen s.stepper.prof rest → StepperInv s.params u := by
    intro u h1 h2 h3 h4 h5 h6 h7 h8 h9
    refine ⟨fun h => ?_, ?_, ?_, ?_, ?_⟩
    · have := hi.stepper.configured (h4 ▸ h)
      exact ⟨h5 ▸ this.1, h6 this.2⟩
    · rw [h2, h3]; simp [h1]
    · intro h; rw [h2] at h; cases h
    · rw [h7]; exact hi.stepper.memory
    · rw [h5, h8, h7, h3]; exact h9
  cases op with
  | cfgOut p =>
    obtain ⟨b, a, k, e⟩ := stpConfigure_eq p rest s
    simp only [stpAct, e, NoFault]
    cases b
    · show StepperInv _ _
      refine ⟨hi.stepper.configured, ?_, ?_, hi.stepper.memory, rfl⟩
      · exact hb
      · intro h; exact absurd (hb.symm.trans h) (by simp)
    · exact step _ hg.1 hb rfl rfl rfl id rfl rfl hg.2
  | wr p l => exact step _ hg.1 hb rfl rfl rfl id rfl rfl hg.2
  | wait t => exact step _ hg.1 hb rfl rfl rfl id rfl rfl hg.2
  | setPower w =>
    exact step _ hg.1 hb rfl rfl rfl (fun _ => by simp [onStepper, stpTodo]) rfl rfl hg.2
  | setPhase w => exact step _ hg.1 hb rfl rfl rfl id rfl rfl hg.2
  | startPulses => exact step _ hg.1 hb rfl rfl rfl id rfl rfl hg.2
  | store c =>
    obtain ⟨h1, rfl⟩ := hg
    refine ⟨fun _ => ⟨⟨c, rfl, h1⟩, by simp⟩, hb, ?_, hi.stepper.memory, rfl⟩
    intro h; exact absurd (hb.symm.trans h) (by simp)
  | storeMicrostep d pat =>
    obtain ⟨⟨c, hc, hgood, hm⟩, rfl⟩ := hg
    simp only [stpAct, hc, readReg_some, NoFault]
    refine ⟨?_, hb, ?_, hi.stepper.memory, rfl⟩
    · intro h
      refine ⟨⟨_, rfl, ?_⟩, (hi.stepper.configured h).2⟩
      obtain ⟨a1, a2, a3, a4, a5, a6⟩ := hgood
      exact ⟨a1, a2, a3, a4, hm, a6⟩
    · intro h; exact absurd (hb.symm.trans h) (by simp)
  | pulse =>
    obtain ⟨⟨len, hl, hlen, hp⟩, hc, rfl⟩ := hg
    simp only [stpAct, pulseHead]
    refine NoFault.readReg (by rw [hl]; simp) fun len' hl' => ?_
    rw [hl] at hl'; cases hl'
    split
    · rename_i hidx
      split
      · show StepperInv _ _
        exact ⟨hi.stepper.configured, rfl, fun _ => ⟨rfl, rfl⟩, releaseProfile_wf hi.stepper.memory, trivial⟩
      · refine NoFault.readReg hc fun c hc => ?_
        show StepperInv _ _
        refine ⟨hi.stepper.configured, ?_, ?_, hi.stepper.memory, ?_⟩
        · simp [onStepper, stpTodo, pulseRest, hb]
        · intro h; exact absurd (hb.symm.trans h) (by simp)
        · refine ⟨by simp [pulseRest], stpTodoGood_stpWait _ _ (by simp) ?_⟩
          have pr : profileReady s.params.profileDepth s.stepper.profLen s.stepper.prof := ⟨len, hl, hlen, hp⟩
          have cn : s.stepper.config ≠ none := by rw [hc]; simp
          exact ⟨cn, by simp, ⟨len, hl, hidx⟩, pr, by simp, pr, cn, rfl⟩
    · show StepperInv _ _
      show StepperInv _ _
      exact ⟨hi.stepper.configured, rfl, fun _ => ⟨rfl, rfl⟩, releaseProfile_wf hi.stepper.memory, trivial⟩
  | pulseLow =>
    refine NoFault.readReg hg.1 fun c hc => ?_
    exact step _ hg.2.1 hb rfl rfl rfl id rfl rfl hg.2.2
  | hold i =>
    obtain ⟨⟨len, hl, hidx⟩, ⟨len', hl', hd, hp⟩, hne, hr⟩ := hg
    rw [hl] at hl'; cases hl'
    simp only [stpAct, readProfile]
    rw [if_pos (by omega)]
    obtain ⟨d, hd⟩ := hp i hidx
    rw [hd, readReg_some]
    exact step _ hne hb rfl rfl rfl id rfl rfl hr
  | respProfile p =>
    show StepperInv _ _
    show StepperInv _ _
    exact ⟨hi.stepper.configured, rfl, fun _ => ⟨rfl, rfl⟩, releaseProfile_wf hi.stepper.memory, trivial⟩
  | resp st r =>
    show StepperInv _ _
    exact ⟨hi.stepper.configured, rfl, fun _ => ⟨rfl, rfl⟩, hi.stepper.memory, trivial⟩

/-- One action of the STEPPER unit. -/
theorem stpAct_noFault {s : State} {op : StpOp} {rest : List StpOp} (hi : Inv s) (ht : s.stepper.todo = op :: rest) :
    NoFault Inv (stpAct op rest s) :=
  (stpAct_unit hi ht).imp fun _ h hu =>
    hi.ofStepper (stpAct_frame h).hx (stpAct_frame h).params (stpAct_frame h).outsidePins hu (stpAct_uses ht h)

/-- Any number of actions of the STEPPER unit. -/
theorem runStepper_noFault {k : Nat} {s : State} (hi : Inv s) : NoFault Inv (runStepper k s) := by
  induction k generalizing s with
  | zero => exact hi
  | succ k ih =>
    cases h : s.stepper.todo with
    | nil => rw [runStepper_nil _ h]; exact hi
    | cons op rest => rw [runStepper_cons _ h]; exact (stpAct_noFault hi h).andThen fun _ => ih

/-- StpOp.plain ops -/
def StpOp.plain : StpOp → Bool
  | .cfgOut _ | .wr _ _ | .wait _ | .setPower _ | .setPhase _ | .startPulses => true
  | .store _ | .storeMicrostep _ _ | .pulse | .pulseLow | .hold _ | .respProfile _ | .resp _ _ => false

theorem stpTodoGood_plain {d c l p} (ops rest : List StpOp) (hp : ops.all StpOp.plain = true) (h : rest ≠ [])
    (hr : stpTodoGood d c l p rest) :
    stpTodoGood d c l p (ops ++ rest) := by
  induction ops with
  | nil => exact hr
  | cons op ops ih =>
    rw [List.all_cons, Bool.and_eq_true] at hp
    have ih := ih hp.2
    have : ops ++ rest ≠ [] := by simp [h]
    have hp := hp.1
    cases op <;> first | exact ⟨this, ih⟩ | cases hp

/-- A command whose rule keeps the invariant at its acceptance. -/
theorem acceptStepper_noFault {s : State} {body : State → Outcome} (hi : Inv s)
    (h : s.stepper.busy = false → NoFault Inv (body (onStepper (fun x => { x with busy := true }) s))) :
    NoFault Inv (acceptStepper s body) := by
  unfold acceptStepper
  split
  · exact hi
  · rename_i hb
    exact (h (by simpa using hb)).andThen fun _ => runStepper_noFault

/-- The state after the acceptance of a command that stores no configuration. -/
theorem inv_begun {s u : State} (hi : Inv s) (h1 : u.hx = s.hx) (h2 : u.params = s.params)
    (h3 : u.outsidePins = s.outsidePins)
    (hb : u.stepper.busy = true) (ht : u.stepper.todo ≠ []) (hk : u.stepper.todo.all StpOp.keepsCfgd = true)
    (hc : u.stepper.cfgd = s.stepper.cfgd) (hcc : u.stepper.config = s.stepper.config)
    (hp : u.stepper.power = s.stepper.power) (hm : Memory.wf u.stepper.prof = true)
    (hg : stpTodoGood s.params.profileDepth s.stepper.config u.stepper.profLen u.stepper.prof u.stepper.todo) :
    Inv u := by
  refine hi.ofStepper h1 h2 h3 ⟨?_, ?_, ?_, hm, ?_⟩
    (stepperUses_mono (fun a c b => ⟨c, hc ▸ a, hcc ▸ b, rfl⟩) fun c h => ?_)
  · rw [hc, hcc, hp]; exact hi.stepper.configured
  · rw [hb]; simp [ht]
  · intro h; rw [hb] at h; cases h
  · rw [hcc]; exact hg
  · cases List.all_eq_true.1 hk _ h

/-- An error at acceptance (spec/60_exceptions.md R220). -/
theorem stpRaise_noFault {s : State} (hi : Inv s) (st : Status) : NoFault Inv
    (.next (stpRaise st (onStepper (fun x => { x with busy := true }) s))) :=
  inv_begun hi rfl rfl rfl rfl (by simp [stpRaise, stpTodo, onStepper]) rfl rfl rfl rfl hi.stepper.memory rfl

/-- A configured unit holds a legal configuration and a power state. -/
theorem stpConfigured_noFault {s : State} (hi : Inv s) {k : StepperConfig → Outcome}
    (h : ∀ c, s.stepper.cfgd = true → s.stepper.config = some c → stepperConfigGood c → s.stepper.power ≠ none →
    NoFault Inv (k c)) :
    NoFault Inv (stpConfigured (onStepper (fun x => { x with busy := true }) s) k) := by
  unfold stpConfigured
  split
  · rename_i hc
    obtain ⟨⟨c, h1, h2⟩, h3⟩ := hi.stepper.configured hc
    refine NoFault.readReg (by rw [onStepper_stepper]; simp [h1]) fun c' h' => ?_
    simp only [onStepper_stepper, h1] at h'
    cases h'
    exact h c hc h1 h2 h3
  · exact stpRaise_noFault hi _

/-- The pins of a stored configuration are those of its arguments. -/
theorem stepperPins_configOf (a : StpConfigArgs) (p : BitVec 3) : stepperPins (configOf a p) = argPins a := by
  have h1 : ∀ (v : Bool) (x : Pin), sleepValid (sleepPinReg v x) = v := by
    intro v x
    unfold sleepValid sleepPinReg
    rw [BitVec.getLsbD_append]
    cases v <;> simp
  have h2 : ∀ (v : Bool) (x : Pin), sleepPinOf (sleepPinReg v x) = x := by
    intro v x
    unfold sleepPinOf sleepPinReg
    apply BitVec.eq_of_getLsbD_eq
    intro i hi
    rw [BitVec.getLsbD_extractLsb', BitVec.getLsbD_append]
    simp [hi]
  unfold stepperPins argPins configOf
  simp only [h1]
  cases hv : a.sleepValid
  · simp
  · simp [h2]

/-- Every key fits the six bits of `STP.MICROSTEP`. -/
theorem msEncode_setWidth {m : Model} {d : Count} {p : BitVec 3} (h : msEncode m d = some p) : msEncode m
    ((d.setWidth 6).setWidth 32) = some p := by
  have key : ∀ m : Model, ∀ e ∈ msTable m, ((e.1.setWidth 6).setWidth 32 : Count) = e.1 := by
    intro m e he
    cases m <;> simp [msTable] at he
    · rcases he with h | h | h | h | h <;> subst h <;> rfl
    · rcases he with h | h | h | h | h | h <;> subst h <;> rfl
  have : (d, p) ∈ msTable m := by
    unfold msEncode at h
    exact List.lookup_eq_some_iff.1 h |>.elim fun l h => by obtain ⟨l2, h, _⟩ := h; rw [h]; simp
  have := key m _ this
  simp only at this
  rw [this]; exact h

/-- What passes the checks of R103 is stored as a legal configuration. -/
theorem configOf_good {a : StpConfigArgs} {p : BitVec 3} (h : stpConfigLegal a = true)
    (he : msEncode a.model a.microstep = some p) (hn : (argPins a).Nodup) :
    stepperConfigGood (configOf a p) := by
  unfold stpConfigLegal at h
  simp only [Bool.and_eq_true] at h
  obtain ⟨⟨⟨⟨h1, h2⟩, h3⟩, h4⟩, _⟩ := h
  refine ⟨by simpa [configOf] using h1, h2, h3, h4, msEncode_setWidth he, ?_⟩
  rw [stepperPins_configOf]; exact hn

/-- A profile just written can be read. -/
theorem profileReady_written (p : List F64) (m : Memory) (depth : Nat) (h : p.length ≤ depth) (h2 : p.length < 2 ^ 32) :
    profileReady depth (some (BitVec.ofNat 32 p.length)) (memWriteList m 0 p) := by
  refine ⟨_, rfl, ?_, fun i hi => ?_⟩
  · simp; omega
  · have hi : i < p.length := by simp at hi; omega
    have := memRead_memWriteList m 0 p hi
    rw [Nat.zero_add] at this
    exact ⟨p[i], by rw [this]; exact List.getElem?_eq_getElem hi⟩

theorem wakeBody_plain (p : Params) (c : StepperConfig) : (wakeBody p c).all StpOp.plain = true := all_wakeBody
    (fun _ _ => rfl) (fun _ => rfl) rfl p c

/-- Every STEPPER command but `STP_CANCEL`. -/
theorem exec_stepper_noFault {i : Instr} {s : State} (hi : Inv s)
    (ho : i.opcode ∈ [.stpConfig, .msEncode, .stpSetMicrostep, .ramp, .wake, .sleep, .step]) : NoFault Inv (exec i s)
    := by
  cases i <;> simp [Instr.opcode] at ho
  case stpConfig a =>
    simp only [exec, execStpConfig]
    refine acceptStepper_noFault hi fun hb => ?_
    split
    · rename_i p h1 h2
      split
      · rename_i hp
        obtain ⟨hn, hout⟩ := pinsFree_iff.1 hp
        rcases clearOfHx_eq (argPins a) .pinOverlap (onStepper (fun x => { x with busy := true }) s) (.next (stpTodo
          (configBody a p) (onStepper (fun x => { x with cfgd := false }) (onStepper (fun x => { x with busy := true }) s))))
          with ⟨e1, e2, _⟩ | ⟨_, hhx, e⟩ | ⟨_, _, e⟩
        · obtain ⟨c, hc, _⟩ := hi.hx.configured e1
          rw [onStepper_hx, hc] at e2; cases e2
        · rw [e]
          refine ⟨⟨fun h => (by cases h), ?_, fun h => (by cases h), hi.stepper.memory, ?_⟩, hi.hx, ?_, hi.outside⟩
          · simp [stpTodo, onStepper, configBody]
          · show stpTodoGood _ _ _ _ (_ ++ _)
            exact stpTodoGood_plain _ _ (by simp [argPins, selectWrites, StpOp.plain]) (by simp)
              ⟨configOf_good h1 h2 hn, rfl⟩
          · have uses : ∀ q, stepperUses (stpTodo (configBody a p) (onStepper (fun x => { x with cfgd := false })
                (onStepper (fun x => { x with busy := true }) s))).stepper q → q ∈ argPins a := by
              rintro q (⟨c, hc, _, _⟩ | ⟨c, hc, hq⟩)
              · cases hc
              · simp [configBody, selectWrites] at hc
                subst hc
                rw [stepperPins_configOf] at hq; exact hq
            exact ⟨fun q hq => hhx q (uses q hq), fun q hq h => h.elim (fun h => hout q (uses q h) hq)
              fun h => hi.pins.2 q hq (.inr h)⟩
        · rw [e]; trivial
      · trivial
    · exact stpRaise_noFault hi _
  case msEncode m d =>
    simp only [exec, execMsEncode]
    refine acceptStepper_noFault hi fun hb => ?_
    split
    · refine inv_begun (u := stpTodo _ _) hi rfl rfl rfl rfl ?_ ?_ rfl rfl rfl hi.stepper.memory ?_
      · simp [stpTodo, onStepper]
      · rfl
      · show stpTodoGood _ _ _ _ (_ :: _)
        exact rfl
    · exact stpRaise_noFault hi _
  case stpSetMicrostep d =>
    simp only [exec, execStpSetMicrostep]
    refine acceptStepper_noFault hi fun hb => stpConfigured_noFault hi fun c h1 h2 h3 h4 => ?_
    split
    · rename_i p he
      refine inv_begun (u := stpTodo _ _) hi rfl rfl rfl rfl ?_ ?_ rfl rfl rfl hi.stepper.memory ?_
      · simp [stpTodo, onStepper, setMicrostepBody]
      · rfl
      · show stpTodoGood _ _ _ _ (_ ++ _)
        exact stpTodoGood_plain _ _ (by simp [selectWrites, StpOp.plain]) (by simp) ⟨⟨c, h2, h3, msEncode_setWidth he⟩,
          rfl⟩
    · exact stpRaise_noFault hi _
  case ramp n rpm =>
    simp only [exec, execRamp]
    refine acceptStepper_noFault hi fun hb => stpConfigured_noFault hi fun c h1 h2 h3 h4 => ?_
    split
    · rename_i hl
      simp only [buildRamp, storeProfile]
      obtain ⟨l, e1, _, _, e2⟩ := rampProfile_halves c n rpm
      unfold rampLegal at hl
      simp only [Bool.and_eq_true, decide_eq_true_eq] at hl
      rw [if_pos (by rw [e2]; simp only [List.length_append, List.length_reverse, List.length_replicate]; exact le_trans (by omega) hl.2)]
      refine inv_begun (u := stpTodo _ _) hi rfl rfl rfl rfl ?_ rfl rfl rfl rfl (memWriteList_wf _ _ hi.stepper.memory) rfl
      simp [stpTodo, onStepper]
    · exact stpRaise_noFault hi _
  case wake =>
    simp only [exec, execWake]
    refine acceptStepper_noFault hi fun hb => stpConfigured_noFault hi fun c h1 h2 h3 h4 => ?_
    refine inv_begun (u := stpTodo _ _) hi rfl rfl rfl rfl ?_ ?_ rfl rfl rfl hi.stepper.memory ?_
    · simp [stpTodo, onStepper]
    · have := all_wakeBody (f := StpOp.keepsCfgd) (fun _ _ => rfl) (fun _ => rfl) rfl s.params c
      simp [-List.all_eq_true, this, StpOp.keepsCfgd]
    · exact stpTodoGood_plain _ _ (wakeBody_plain _ _) (by simp) rfl
  case sleep =>
    simp only [exec, execSleep]
    refine acceptStepper_noFault hi fun hb => stpConfigured_noFault hi fun c h1 h2 h3 h4 => ?_
    refine inv_begun (u := stpTodo _ _) hi rfl rfl rfl rfl ?_ ?_ rfl rfl rfl hi.stepper.memory ?_
    · simp [stpTodo, onStepper]
    · have := all_sleepBody (f := StpOp.keepsCfgd) (fun _ _ => rfl) rfl c
      simp [-List.all_eq_true, this, StpOp.keepsCfgd]
    · exact stpTodoGood_plain _ _ (all_sleepBody (fun _ _ => rfl) rfl c) (by simp) rfl
  case step n d rpm ur =>
    simp only [exec, execStep]
    refine acceptStepper_noFault hi fun hb => stpConfigured_noFault hi fun c h1 h2 h3 h4 => ?_
    refine NoFault.readReg h4 fun w hw => ?_
    have body : ∀ (u : State) (depth : Nat), u.stepper.todo = stepBody s.params c w d → profileReady depth
      u.stepper.profLen u.stepper.prof → stpTodoGood depth s.stepper.config u.stepper.profLen u.stepper.prof
      u.stepper.todo := by
      intro u depth ht hr
      rw [ht]
      have e : stepBody s.params c w d = ([.setPhase .wake] ++ (if w = .asleep then wakeBody s.params c else []) ++
        [.setPhase .dir, .wr c.dirPin d, .startPulses]) ++ [.pulse] := by simp [stepBody]
      rw [e]
      refine stpTodoGood_plain _ _ ?_ (by simp) ⟨hr, by rw [h2]; simp, rfl⟩
      have := wakeBody_plain s.params c
      split <;> simp [StpOp.plain, -List.all_eq_true, this]
    have ne : stepBody s.params c w d ≠ [] := by simp [stepBody]
    have kc : (stepBody s.params c w d).all StpOp.keepsCfgd = true := by
      have wb := all_wakeBody (f := StpOp.keepsCfgd) (fun _ _ => rfl) (fun _ => rfl) rfl s.params c
      unfold stepBody
      split <;> simp [-List.all_eq_true, wb, StpOp.keepsCfgd]
    have raise : NoFault Inv (.next (stpRaise .invalidConfiguration
      (onStepper (fun x => { x with cancelReq := false, sqPhase := .build })
      (onStepper (fun x => { x with busy := true }) s)))) :=
      inv_begun (u := stpRaise _ _) hi rfl rfl rfl rfl (by simp [stpRaise, stpTodo, onStepper]) rfl rfl rfl rfl
        hi.stepper.memory rfl
    have hn := n.isLt
    unfold startStep
    split
    · split
      · rename_i hl
        simp only [buildRamp, storeProfile]
        obtain ⟨l, e1, _, _, e2⟩ := rampProfile_halves c n rpm
        unfold rampLegal at hl
        simp only [Bool.and_eq_true, decide_eq_true_eq] at hl
        have hlen : (rampProfile c n rpm).1.length = 2 * (n.toNat / 2) := by
          rw [e2]; simp only [List.length_append, List.length_reverse, List.length_replicate]; omega
        rw [if_pos (by rw [hlen]; exact hl.2)]
        refine inv_begun (u := stpTodo _ _) hi rfl rfl rfl rfl ne kc rfl rfl rfl (memWriteList_wf _ _ hi.stepper.memory) ?_
        exact body _ _ rfl (profileReady_written _ _ _ (by rw [hlen]; exact hl.2) (by omega))
      · exact raise
    · split
      · rename_i hl
        unfold constantLegal at hl
        simp only [Bool.and_eq_true, decide_eq_true_eq] at hl
        simp only [storeProfile]
        rw [if_pos (by simp only [constantProfile, List.length_replicate]; exact hl.2)]
        refine inv_begun (u := stpTodo _ _) hi rfl rfl rfl rfl ne kc rfl rfl rfl (memWriteList_wf _ _ hi.stepper.memory) ?_
        exact body _ _ rfl (profileReady_written _ _ _
          (by simp only [constantProfile, List.length_replicate]; exact hl.2)
          (by simp only [constantProfile, List.length_replicate]; exact hn))
      · exact raise

/-- What is left to do stays good when the registers it will read stay set. -/
theorem hxTodoGood_mono {host : Bool} {u v : Hx711} (l : List HxOp) (h1 : configuring host u → configuring host v)
    (h2 : u.config ≠ none → v.config ≠ none)
    (h3 : u.acc ≠ none → v.acc ≠ none) (h4 : u.bitCnt ≠ none → v.bitCnt ≠ none) (h5 : u.pulseCnt ≠ none → v.pulseCnt ≠
        none)
    (h6 : u.sum ≠ none → v.sum ≠ none) (h7 : u.obs ≠ none → v.obs ≠ none) (hg : hxTodoGood host u l) : hxTodoGood host
        v l := by
  have hu : ∀ w, useGood host u w → useGood host v w := by
    intro w h
    cases w with
    | respond => exact h
    | average n => exact ⟨h.1, h6 h.2.1, h7 h.2.2⟩
    | emit => exact h
  induction l with
  | nil => trivial
  | cons op rest ih =>
    cases op with
    | cfgIn _ _ | cfgOut _ | register _ => exact ⟨h1 hg.1, hg.2.1, hg.2.2.1, ih hg.2.2.2⟩
    | store _ _ => exact ⟨h1 hg.1, hg.2⟩
    | resp _ _ => exact hg
    | poll _ => exact ⟨hu _ hg.1, hg.2.1, h2 hg.2.2.1, hg.2.2.2⟩
    | clear _ => exact ⟨hu _ hg.1, h2 hg.2.1, hg.2.2⟩
    | dataClock _ => exact ⟨hu _ hg.1, h2 hg.2.1, h3 hg.2.2.1, h4 hg.2.2.2.1, hg.2.2.2.2⟩
    | sample => exact ⟨h2 hg.1, h3 hg.2.1, h4 hg.2.2.1, hg.2.2.2.1, ih hg.2.2.2.2⟩
    | shift _ => exact ⟨h3 hg.1, h4 hg.2.1, hg.2.2.1, ih hg.2.2.2⟩
    | extraClock _ _ => exact ⟨hu _ hg.1, h2 hg.2.1, h5 hg.2.2.1, hg.2.2.2⟩
    | countPulse => exact ⟨h5 hg.1, hg.2.1, ih hg.2.2⟩
    | deliver _ _ => exact ⟨hu _ hg.1, h2 hg.2.1, hg.2.2⟩
    | wr _ _ | wait _ => exact ⟨hg.1, ih hg.2⟩

/-- The invariant of the HX711 unit seen from one of its two lists of actions, `l`, beside the other, `o`. -/
structure HxHalf (host : Bool) (l o : List HxOp) (s : State) : Prop where
  configured : s.hx.cfgd = true → ∃ c, s.hx.config = some c ∧ hxConfigGood c
  edges : s.hx.edgeEn = true → s.hx.cfgd = true
  phase : s.hx.phase = if s.hx.reading then .reading else .idle
  good : hxTodoGood host s.hx l
  other : hxTodoGood (!host) s.hx o
  reading : s.hx.reading = (hasCycle l || hasCycle o)
  exclusive : (hasCycle l && hasCycle o) = false
  busyH : host = true → s.hx.busy = !l.isEmpty
  busyE : host = false → s.hx.busy = !o.isEmpty

theorem hxTodoGood_hxWait {host u} (t : F64) (rest : List HxOp) (h : rest ≠ []) (hr : hxTodoGood host u rest) :
    hxTodoGood host u (hxWait t ++ rest) := by
  unfold hxWait; split
  · exact ⟨h, hr⟩
  · exact hr

theorem hasCycle_hxWait (t : F64) (rest : List HxOp) : hasCycle (hxWait t ++ rest) = hasCycle rest := by
  unfold hxWait; split <;> simp [hasCycle, isCycleOp]

theorem hasCycle_cons (op : HxOp) (l : List HxOp) : hasCycle (op :: l) = (isCycleOp op || hasCycle l) := rfl

/-- An action that keeps the flags, the configuration and the cycle in progress. -/
theorem HxHalf.next {host : Bool} {l o l' : List HxOp} {s t : State} (hi : HxHalf host l o s)
    (e1 : t.hx.cfgd = s.hx.cfgd) (e2 : t.hx.config = s.hx.config) (e3 : t.hx.edgeEn = s.hx.edgeEn)
        (e4 : t.hx.reading = s.hx.reading)
    (e5 : t.hx.phase = s.hx.phase) (e6 : t.hx.busy = s.hx.busy)
    (e7 : s.hx.acc ≠ none → t.hx.acc ≠ none) (e8 : s.hx.bitCnt ≠ none → t.hx.bitCnt ≠ none) (e9 : s.hx.pulseCnt ≠ none
        → t.hx.pulseCnt ≠ none)
    (e10 : s.hx.sum ≠ none → t.hx.sum ≠ none) (e11 : s.hx.obs ≠ none → t.hx.obs ≠ none)
    (hl : l ≠ []) (hl' : l' ≠ []) (hc : hasCycle l' = hasCycle l) (hg : hxTodoGood host t.hx l') : HxHalf host l' o t
        := by
  refine ⟨?_, ?_, ?_, hg, ?_, ?_, ?_, ?_, ?_⟩
  · rw [e1, e2]; exact hi.configured
  · rw [e1, e3]; exact hi.edges
  · rw [e4, e5]; exact hi.phase
  · exact hxTodoGood_mono _ (by rintro ⟨a, b, c, d⟩; exact ⟨a, e1 ▸ b, e3 ▸ c, e4 ▸ d⟩) (by rw [e2]; exact id) e7 e8 e9
      e10 e11 hi.other
  · rw [hc, e4]; exact hi.reading
  · rw [hc]; exact hi.exclusive
  · intro h; rw [e6, hi.busyH h]; cases l <;> cases l' <;> simp_all
  · intro h; rw [e6]; exact hi.busyE h

/-- One action of the HX711 unit, of either list. -/
theorem hxAct_noFault {host : Bool} {op : HxOp} {rest o : List HxOp} {s : State} (hi : HxHalf host (op :: rest) o s) :
    NoFault (fun t => HxHalf host t.1 o t.2) (hxAct op rest s) := by
  have hg := hi.good
  have conf : ∀ (e : Bool → Event), configuring host s.hx → hasCycle (op :: rest) = false → hasCycle rest = false →
    rest ≠ [] → hxTodoGood host s.hx rest →
      NoFault (fun t => HxHalf host t.1 o t.2) (hxConfigure e rest s) := by
    intro e hcf hc0 hc hne hg
    obtain ⟨b, a, k, he⟩ := hxConfigure_eq e rest s
    rw [he]
    refine hi.next rfl rfl rfl rfl rfl rfl id id id id id (by simp) ?_ ?_ ?_
    · cases b <;> simp [hne]
    · rw [hc0]; cases b
      · rfl
      · exact hc
    · cases b
      · exact ⟨hcf.1, rfl⟩
      · exact hxTodoGood_mono (u := s.hx) rest id id id id id id id hg
  cases op with
  | cfgIn p q => exact conf _ hg.1 hg.2.1 hg.2.1 hg.2.2.1 hg.2.2.2
  | cfgOut p => exact conf _ hg.1 hg.2.1 hg.2.1 hg.2.2.1 hg.2.2.2
  | register p => exact conf _ hg.1 hg.2.1 hg.2.1 hg.2.2.1 hg.2.2.2
  | wr p b =>
    exact hi.next rfl rfl rfl rfl rfl rfl id id id id id (by simp) hg.1 rfl (hxTodoGood_mono (u := s.hx) rest id id
      id id id id id hg.2)
  | wait d =>
    exact hi.next rfl rfl rfl rfl rfl rfl id id id id id (by simp) hg.1 rfl (hxTodoGood_mono (u := s.hx) rest id id
      id id id id id hg.2)
  | store c ue =>
    obtain ⟨⟨rfl, h1, h2, h3⟩, h4, rfl⟩ := hg
    have ho := hi.reading
    rw [h3] at ho
    have ho' : hasCycle o = false := by simpa [hasCycle, isCycleOp] using ho.symm
    refine ⟨fun _ => ⟨c, rfl, h4⟩, fun _ => rfl, rfl, ⟨rfl, rfl⟩, ?_, ?_, ?_, fun _ => hi.busyH rfl, fun h =>
      (by cases h)⟩
    · exact hxTodoGood_mono (u := s.hx) o (fun h => by cases h.1) (fun _ => by simp) id id id id id hi.other
    · simp [ho']; rfl
    · rw [ho']; rfl
  | resp st r =>
    obtain ⟨rfl, rfl⟩ := hg
    refine ⟨hi.configured, hi.edges, hi.phase, trivial, hxTodoGood_mono (u := s.hx) o id id id id id id id hi.other,
      ?_, rfl, fun _ => rfl, fun h => (by cases h)⟩
    exact hi.reading
  | poll u =>
    obtain ⟨hu, rfl, hc, rfl⟩ := hg
    simp only [hxAct, pollOnce]
    refine NoFault.andThen (P := fun t => tryEnter s = .next t) ?_ ?_
    · unfold tryEnter
      split
      · rfl
      · rename_i hrd
        refine NoFault.readReg hc fun c hc => ?_
        rw [hc, readReg_some]
        obtain ⟨b, levels, tick, hl⟩ := hxLevel_eq s
        rw [hl]; cases b <;> rfl
    · intro t ht
      rcases tryEnter_eq ht with ⟨hr, rfl⟩ | ⟨hr, c, levels, tick, hc', rfl | rfl⟩
      · refine hi.next rfl rfl rfl rfl rfl rfl id id id id id (by simp) (by simp) ?_
          (hxTodoGood_hxWait _ _ (by simp) ⟨hu, rfl, hc, rfl⟩)
        rw [hasCycle_hxWait]
      · refine hi.next rfl rfl rfl rfl rfl rfl id id id id id (by simp) (by simp) ?_
          (hxTodoGood_hxWait _ _ (by simp) ⟨by cases u <;> exact hu, rfl, hc, rfl⟩)
        rw [hasCycle_hxWait]
      · have ho := hi.reading
        rw [hr] at ho
        have ho' : hasCycle o = false := by simpa [hasCycle, isCycleOp] using ho.symm
        refine ⟨hi.configured, hi.edges, rfl, ⟨by cases u <;> exact hu, hc, rfl⟩, ?_, ?_, ?_, fun _ => hi.busyH rfl,
          fun h => (by cases h)⟩
        · exact hxTodoGood_mono (u := s.hx) o (fun h => by cases h.1) id id id id id id hi.other
        · simp [hxLog, onHx, hasCycle, isCycleOp]
        · rw [ho']; simp
  | clear u =>
    obtain ⟨hu, hc, rfl⟩ := hg
    exact hi.next rfl rfl rfl rfl rfl rfl (fun _ => by simp [onHx]) (fun _ => by simp [onHx]) id id id (by simp)
      (by simp) rfl
      ⟨by cases u <;> exact hu, hc, by simp [onHx], by simp [onHx], rfl⟩
  | dataClock u =>
    obtain ⟨hu, hc, ha, hb, rfl⟩ := hg
    simp only [hxAct, dataClockHead]
    refine NoFault.readReg hc fun c hc' => NoFault.readReg hb fun n hn => ?_
    split
    · refine hi.next rfl rfl rfl rfl rfl rfl id id id id id (by simp) (by simp) ?_ ?_
      · simp only [hasCycle_hxWait]; rfl
      · dsimp only
        exact hxTodoGood_hxWait _ _ (by simp) ⟨by simp, hc, ha, hb, by simp, by cases u <;> exact hu, hc, ha, hb, rfl⟩
    · refine NoFault.readReg ha fun a ha' => ?_
      refine hi.next rfl rfl rfl rfl rfl rfl id id (fun _ => by simp [onHx]) id id (by simp) (by simp) rfl ?_
      exact ⟨by cases u <;> exact hu, hc, by simp [onHx], rfl⟩
  | sample =>
    obtain ⟨hc, ha, hb, hne, hr⟩ := hg
    simp only [hxAct, sampleBit]
    refine NoFault.readReg hc fun c hc' => ?_
    obtain ⟨b, levels, tick, hl⟩ := hxLevel_eq s
    rw [hl]
    refine hi.next rfl rfl rfl rfl rfl rfl id id id id id (by simp) (by simp) ?_ ?_
    · simp only [List.append_assoc, hasCycle_hxWait]; rfl
    · simp only [List.append_assoc]
      exact hxTodoGood_hxWait _ _ (by simp) ⟨ha, hb, hne, hxTodoGood_mono (u := s.hx) rest id id id id id id id hr⟩
  | shift b =>
    obtain ⟨ha, hb, hne, hr⟩ := hg
    simp only [hxAct, shiftBit]
    refine NoFault.readReg ha fun a ha' => NoFault.readReg hb fun n hn => ?_
    refine hi.next rfl rfl rfl rfl rfl rfl (fun _ => by simp [onHx]) (fun _ => by simp [onHx]) id id id (by simp)
      hne rfl ?_
    exact hxTodoGood_mono (u := s.hx) rest id id (fun _ => by simp [onHx]) (fun _ => by simp [onHx]) id id id hr
  | extraClock u v =>
    obtain ⟨hu, hc, hp, rfl⟩ := hg
    simp only [hxAct, extraClockHead]
    refine NoFault.readReg hc fun c hc' => NoFault.readReg hp fun n hn => ?_
    split
    · refine hi.next rfl rfl rfl rfl rfl rfl id id id id id (by simp) (by simp) ?_ ?_
      · simp only [List.append_assoc, hasCycle_hxWait]
        rw [List.singleton_append, hasCycle_cons, hasCycle_hxWait]; rfl
      · simp only [List.append_assoc]
        exact hxTodoGood_hxWait _ _ (by simp) ⟨by simp, hxTodoGood_hxWait _ _ (by simp)
          ⟨hp, by simp, by cases u <;> exact hu, hc, hp, rfl⟩⟩
    · have ho : hasCycle o = false := by have := hi.exclusive; simpa [hasCycle, isCycleOp] using this
      refine ⟨hi.configured, hi.edges, rfl, ⟨by cases u <;> exact hu, hc, rfl⟩, ?_, ?_, ?_, fun h => hi.busyH h, fun
        h => hi.busyE h⟩
      · exact hxTodoGood_mono (u := s.hx) o (fun ⟨a, b, c, d⟩ => ⟨a, b, c, rfl⟩) id
          (fun _ => by simp [releaseCycle, onHx]) (fun _ => by simp [releaseCycle, onHx])
          (fun _ => by simp [releaseCycle, onHx]) id id hi.other
      · show false = (hasCycle _ || hasCycle o)
        rw [ho]; rfl
      · rw [ho]; simp
  | countPulse =>
    obtain ⟨hp, hne, hr⟩ := hg
    simp only [hxAct]
    refine NoFault.readReg hp fun n hn => ?_
    exact hi.next rfl rfl rfl rfl rfl rfl id id (fun _ => by simp [onHx]) id id (by simp) hne rfl
      (hxTodoGood_mono (u := s.hx) rest id id id id (fun _ => by simp [onHx]) id id hr)
  | deliver u v =>
    obtain ⟨hu, hc, rfl⟩ := hg
    cases u with
    | respond =>
      cases hu
      exact ⟨hi.configured, hi.edges, hi.phase, trivial, hxTodoGood_mono (u := s.hx) o id id id id id id id hi.other,
        hi.reading, rfl, fun _ => rfl, fun h => (by cases h)⟩
    | emit =>
      cases hu
      exact ⟨hi.configured, hi.edges, hi.phase, trivial, hxTodoGood_mono (u := s.hx) o id id id id id id id hi.other,
        hi.reading, rfl, fun h => (by cases h), fun _ => hi.busyE rfl⟩
    | average n =>
      obtain ⟨rfl, hs, ho⟩ := hu
      simp only [hxAct, deliverReading, accumulate]
      refine NoFault.readReg hs fun sum hs' => NoFault.readReg ho fun obs ho' => ?_
      split
      · exact hi.next rfl rfl rfl rfl rfl rfl id id id (fun _ => by simp [onHx]) (fun _ => by simp [onHx])
          (by simp) (by simp) rfl
          ⟨⟨rfl, by simp [onHx], by simp [onHx]⟩, rfl, hc, rfl⟩
      · exact ⟨hi.configured, hi.edges, hi.phase, trivial, hxTodoGood_mono (u := s.hx) o id id id id id
          (fun _ => by simp [hxRespond, hxLog, releaseSum, onHx])
          (fun _ => by simp [hxRespond, hxLog, releaseSum, onHx]) hi.other, hi.reading, rfl, fun _ => rfl, fun h =>
          (by cases h)⟩

theorem HxHalf.ofHost {s : State} (hi : Inv s) : HxHalf true s.hx.todo s.hx.edgeTodo s :=
  ⟨hi.hx.configured, hi.hx.edges, hi.hx.phase, hi.hx.todoGood, hi.hx.edgeGood, hi.hx.reading, hi.hx.exclusive, fun _ =>
    hi.hx.busyTodo, fun h => (by cases h)⟩

theorem HxHalf.ofEdge {s : State} (hi : Inv s) : HxHalf false s.hx.edgeTodo s.hx.todo s :=
  ⟨hi.hx.configured, hi.hx.edges, hi.hx.phase, hi.hx.edgeGood, hi.hx.todoGood,
    by rw [Bool.or_comm]; exact hi.hx.reading, by rw [Bool.and_comm]; exact hi.hx.exclusive, fun h => (by cases h), fun _ => hi.hx.busyTodo⟩

theorem hxTodoGood_congr {host : Bool} {u v : Hx711} {l : List HxOp} (h : hxTodoGood host u l) (e1 : v.cfgd = u.cfgd)
    (e2 : v.config = u.config) (e3 : v.edgeEn = u.edgeEn)
   (e4 : v.reading = u.reading) (e5 : v.acc = u.acc) (e6 : v.bitCnt = u.bitCnt) (e7 : v.pulseCnt = u.pulseCnt)
     (e8 : v.sum = u.sum) (e9 : v.obs = u.obs) : hxTodoGood host v l :=
  hxTodoGood_mono l (by unfold configuring; rw [e1, e3, e4]; exact id) (by rw [e2]; exact id) (by rw [e5]; exact id)
    (by rw [e6]; exact id) (by rw [e7]; exact id) (by rw [e8]; exact id) (by rw [e9]; exact id) h

theorem HxHalf.toHost {s t : State} {l : List HxOp} (hs : Inv s) (hst : t.stepper = s.stepper)
    (hp : t.params = s.params) (hop : t.outsidePins = s.outsidePins) (ho : t.hx.edgeTodo = s.hx.edgeTodo)
    (hi : HxHalf true l s.hx.edgeTodo t) (hu : ∀ p, hxUses (hxTodo l t).hx p → hxUses s.hx p) : Inv (hxTodo l t) := by
  refine ⟨?_, ⟨hi.configured, hi.edges, hi.phase, hi.busyH rfl, ?_, ?_, ?_, ?_⟩,
    pinsApart_mono hs.pins (hst ▸ fun _ h => h) hu (hop ▸ fun _ h => h), hop ▸ hs.outside⟩
  · simp only [hxTodo, onHx]; rw [hp, hst]; exact hs.stepper
  · exact hxTodoGood_congr hi.good rfl rfl rfl rfl rfl rfl rfl rfl rfl
  · rw [hxTodo_hx_edgeTodo, ho]; exact hxTodoGood_congr hi.other rfl rfl rfl rfl rfl rfl rfl rfl rfl
  · simp only [hxTodo, onHx, ho]; exact hi.reading
  · simp only [hxTodo, onHx, ho]; exact hi.exclusive

theorem HxHalf.toEdge {s t : State} {l : List HxOp} (hs : Inv s) (hst : t.stepper = s.stepper)
    (hp : t.params = s.params) (hop : t.outsidePins = s.outsidePins) (ho : t.hx.todo = s.hx.todo)
    (hi : HxHalf false l s.hx.todo t) (hu : ∀ p, hxUses (hxEdgeTodo l t).hx p → hxUses s.hx p) : Inv (hxEdgeTodo l t) := by
  refine ⟨?_, ⟨hi.configured, hi.edges, hi.phase, ?_, ?_, ?_, ?_, ?_⟩,
    pinsApart_mono hs.pins (hst ▸ fun _ h => h) hu (hop ▸ fun _ h => h), hop ▸ hs.outside⟩
  · simp only [hxEdgeTodo, onHx]; rw [hp, hst]; exact hs.stepper
  · simp only [hxEdgeTodo, onHx, ho]; exact hi.busyE rfl
  · rw [hxEdgeTodo_hx_todo, ho]; exact hxTodoGood_congr hi.other rfl rfl rfl rfl rfl rfl rfl rfl rfl
  · exact hxTodoGood_congr hi.good rfl rfl rfl rfl rfl rfl rfl rfl rfl
  · simp only [hxEdgeTodo, onHx, ho]; rw [Bool.or_comm]; exact hi.reading
  · simp only [hxEdgeTodo, onHx, ho]; rw [Bool.and_comm]; exact hi.exclusive

/-- Any number of actions of a host command. -/
theorem runHx_noFault {k : Nat} {s : State} (hi : Inv s) : NoFault Inv (runHx k s) := by
  induction k generalizing s with
  | zero => exact hi
  | succ k ih =>
    cases h : s.hx.todo with
    | nil => rw [runHx_nil _ h]; exact hi
    | cons op rest =>
      rw [runHx_cons _ h]
      have hh := HxHalf.ofHost hi
      rw [h] at hh
      refine NoFault.andThen (P := fun t => Inv (hxTodo t.1 t.2)) ((hxAct_noFault hh).imp fun t ht hP => ?_) fun _ => ih
      have f := hxAct_frame ht
      exact HxHalf.toHost hi f.stepper f.params f.outsidePins (hxAct_registers ht).1.2 hP (hxAct_uses h ht)

/-- Any number of actions of an edge-triggered cycle. -/
theorem runEdge_noFault {k : Nat} {s : State} (hi : Inv s) : NoFault Inv (runEdge k s) := by
  induction k generalizing s with
  | zero => exact hi
  | succ k ih =>
    cases h : s.hx.edgeTodo with
    | nil => rw [runEdge_nil _ h]; exact hi
    | cons op rest =>
      rw [runEdge_cons _ h]
      have hh := HxHalf.ofEdge hi
      rw [h] at hh
      refine NoFault.andThen (P := fun t => Inv (hxEdgeTodo t.1 t.2)) ((hxAct_noFault hh).imp fun t ht hP => ?_) fun
        _ => ih
      have f := hxAct_frame ht
      exact HxHalf.toEdge hi f.stepper f.params f.outsidePins (hxAct_registers ht).1.1 hP
        (hxAct_edgeUses ht fun c e ho => by subst ho; cases hh.good.1.1)

/-- The invariant after a write of the HX711 unit alone that takes no pin into use. -/
theorem Inv.ofHx {s t : State} (hi : Inv s) (h1 : t.stepper = s.stepper) (h2 : t.params = s.params)
    (h3 : t.outsidePins = s.outsidePins) (h4 : HxInv t.hx) (h5 : ∀ p, hxUses t.hx p → hxUses s.hx p) : Inv t :=
  ⟨h2 ▸ h1 ▸ hi.stepper, h4, pinsApart_mono hi.pins (h1 ▸ fun _ h => h) h5 (h3 ▸ fun _ h => h), h3 ▸ hi.outside⟩

theorem acceptHx_noFault {s : State} {body : State → Outcome} (hi : Inv s)
    (h : s.hx.busy = false → NoFault Inv (body (onHx (fun x => { x with busy := true }) s))) :
    NoFault Inv (acceptHx s body) := by
  unfold acceptHx
  split
  · exact hi
  · rename_i hb
    exact (h (by simpa using hb)).andThen fun _ => runHx_noFault

theorem idle_host {s : State} (hi : Inv s) (hb : s.hx.busy = false) : s.hx.todo = [] := by
  have := hi.hx.busyTodo
  rw [hb] at this
  simpa using this

theorem hxRaise_noFault {s : State} (hi : Inv s) (hb : s.hx.busy = false) (st : Status) : NoFault Inv
    (.next (hxRaise st (onHx (fun x => { x with busy := true }) s))) := by
  have ht := idle_host hi hb
  have hr := hi.hx.reading
  rw [ht] at hr
  refine hi.ofHx rfl rfl rfl ⟨hi.hx.configured, hi.hx.edges, hi.hx.phase, rfl, ⟨rfl, rfl⟩, ?_, hr, rfl⟩
    (hxUses_mono (fun a => ⟨a, rfl⟩) (by simp))
  exact hxTodoGood_congr hi.hx.edgeGood rfl rfl rfl rfl rfl rfl rfl rfl rfl

/-- Every host command of the HX711 unit. -/
theorem exec_hx_noFault {i : Instr} {s : State} (hi : Inv s)
    (ho : i.opcode ∈ [.hxConfig, .hxReadCycle, .hxGetReading]) : NoFault Inv (exec i s) := by
  cases i <;> simp [Instr.opcode] at ho
  case hxConfig a =>
    simp only [exec, execHxConfig]
    split
    · exact hi
    rename_i hrd
    have hrd : s.hx.reading = false := by simpa using hrd
    refine acceptHx_noFault hi fun hb => ?_
    have ht := idle_host hi hb
    have hr := hi.hx.reading
    rw [ht, hrd] at hr
    have hr' : hasCycle s.hx.edgeTodo = false := by simpa [hasCycle] using hr.symm
    split
    · rename_i extra h1 h2
      split
      · rename_i hp
        obtain ⟨hn, hout⟩ := pinsFree_iff.1 hp
        rcases clearOfStepper_eq [a.dataPin, a.clockPin] .pinOverlap (onHx (fun x => { x with busy := true }) s)
          (.next (hxTodo (hxConfigBody s.params a extra) (onHx (fun x => { x with cfgd := false, edgeEn := false })
            (onHx (fun x => { x with busy := true }) s)))) with ⟨e1, e2, _⟩ | ⟨_, hst, e⟩ | ⟨_, _, e⟩
        · obtain ⟨⟨c, hc, _⟩, _⟩ := hi.stepper.configured e1
          rw [onHx_stepper, hc] at e2; cases e2
        swap
        · show NoFault Inv (clearOfStepper _ _ _ _)
          erw [e]; trivial
        show NoFault Inv (clearOfStepper _ _ _ _)
        erw [e]
        have hcy : hasCycle (hxConfigBody s.params a extra) = false := by
          unfold hxConfigBody; split <;> rfl
        have cfg : configuring true (hxTodo (hxConfigBody s.params a extra)
          (onHx (fun x => { x with cfgd := false, edgeEn := false }) (onHx (fun x => { x with busy := true }) s))).hx
          := ⟨rfl, rfl, rfl, hrd⟩
        refine ⟨hi.stepper, ⟨fun h => (by cases h), fun h => (by cases h), hi.hx.phase, ?_, ?_, ?_, ?_, ?_⟩, ?_,
          hi.outside⟩
        · show true = !(hxConfigBody s.params a extra).isEmpty
          simp [hxConfigBody]
        · show hxTodoGood true _ (hxConfigBody s.params a extra)
          unfold hxConfigBody
          have g : hxConfigGood (hxConfigOf a extra) := ⟨h2, hn⟩
          split
          · exact ⟨cfg, rfl, by simp, cfg, rfl, by simp, by simp, cfg, rfl, by simp, cfg, g, rfl⟩
          · exact ⟨cfg, rfl, by simp, cfg, rfl, by simp, by simp, cfg, g, rfl⟩
        · exact hxTodoGood_mono (u := s.hx) _ (fun h => (by cases h.1)) id id id id id id hi.hx.edgeGood
        · show s.hx.reading = (hasCycle (hxConfigBody s.params a extra) || hasCycle s.hx.edgeTodo)
          rw [hrd, hcy, hr']; rfl
        · show (hasCycle (hxConfigBody s.params a extra) && hasCycle s.hx.edgeTodo) = false
          rw [hcy]; rfl
        · have uses : ∀ q, hxUses (hxTodo (hxConfigBody s.params a extra) (onHx (fun x =>
              { x with cfgd := false, edgeEn := false }) (onHx (fun x => { x with busy := true }) s))).hx q →
              q ∈ [a.dataPin, a.clockPin] := by
            rintro q (⟨c, hc, _, _⟩ | ⟨c, ue, hc, hq⟩)
            · cases hc
            · simp only [hxTodo_hx_todo, hxConfigBody] at hc
              split at hc <;> simp at hc <;> obtain ⟨rfl, rfl⟩ := hc <;> exact hq
          exact ⟨fun q h1 h2 => hst q (uses q h2) h1, fun q hq h => h.elim (fun h => hi.pins.2 q hq (.inl h))
            fun h => hout q (uses q h) hq⟩
      · trivial
    · exact hxRaise_noFault hi hb _
  case hxReadCycle =>
    simp only [exec, execHxReadCycle]
    refine acceptHx_noFault hi fun hb => ?_
    have ht := idle_host hi hb
    have hr := hi.hx.reading
    rw [ht] at hr
    unfold hxConfigured
    split
    · rename_i hc
      obtain ⟨c, h1, h2⟩ := hi.hx.configured hc
      refine hi.ofHx rfl rfl rfl ⟨hi.hx.configured, hi.hx.edges, hi.hx.phase, rfl, ⟨rfl, rfl, ?_, rfl⟩, ?_, hr, rfl⟩
        (hxUses_mono (fun a => ⟨a, rfl⟩) (by simp))
      · show s.hx.config ≠ none
        rw [h1]; simp
      · exact hxTodoGood_congr hi.hx.edgeGood rfl rfl rfl rfl rfl rfl rfl rfl rfl
    · exact hxRaise_noFault hi hb _
  case hxGetReading n =>
    simp only [exec, execHxGetReading]
    refine acceptHx_noFault hi fun hb => ?_
    have ht := idle_host hi hb
    have hr := hi.hx.reading
    rw [ht] at hr
    unfold hxConfigured
    split
    · rename_i hc
      split
      · exact hxRaise_noFault hi hb _
      obtain ⟨c, h1, h2⟩ := hi.hx.configured hc
      refine hi.ofHx rfl rfl rfl ⟨hi.hx.configured, hi.hx.edges, hi.hx.phase, rfl,
        ⟨⟨rfl, by simp [hxTodo, onHx], by simp [hxTodo, onHx]⟩, rfl, ?_, rfl⟩, ?_, hr, rfl⟩
        (hxUses_mono (fun a => ⟨a, rfl⟩) (by simp))
      · show s.hx.config ≠ none
        rw [h1]; simp
      · exact hxTodoGood_mono (u := s.hx) _ id id id id id (fun _ => by simp [hxTodo, onHx])
          (fun _ => by simp [hxTodo, onHx]) hi.hx.edgeGood
    · exact hxRaise_noFault hi hb _

/-- `HX_EDGE`, where no earlier cycle of the dispatcher is unfinished. -/
theorem exec_hxEdge_noFault {s : State} (hi : Inv s) (he : s.hx.edgeTodo = []) : NoFault Inv (exec .hxEdge s) := by
  simp only [exec, execHxEdge]
  split
  · rename_i hc
    rw [Bool.and_eq_true] at hc
    obtain ⟨c, h1, h2⟩ := hi.hx.configured hc.1
    refine NoFault.andThen (P := fun t => tryEnter s = .next t) ?_ fun t ht => ?_
    · unfold tryEnter
      split
      · rfl
      · rw [h1, readReg_some]
        obtain ⟨b, levels, tick, hl⟩ := hxLevel_eq s
        rw [hl]; cases b <;> rfl
    · rcases tryEnter_eq ht with ⟨hr, rfl⟩ | ⟨hr, c, levels, tick, hc', rfl | rfl⟩
      · exact hi
      · have hh := HxHalf.ofHost hi
        refine ⟨hi.stepper, ⟨hi.hx.configured, hi.hx.edges, hi.hx.phase, hi.hx.busyTodo, ?_, ?_, hi.hx.reading,
          hi.hx.exclusive⟩, hi.pins, hi.outside⟩
        · exact hxTodoGood_congr hi.hx.todoGood rfl rfl rfl rfl rfl rfl rfl rfl rfl
        · exact hxTodoGood_congr hi.hx.edgeGood rfl rfl rfl rfl rfl rfl rfl rfl rfl
      · have hrr := hi.hx.reading
        rw [hr] at hrr
        have h1' : hasCycle s.hx.todo = false := by cases h : hasCycle s.hx.todo <;> simp [h] at hrr ⊢
        rw [if_pos rfl]
        apply runEdge_noFault
        refine ⟨hi.stepper, ⟨hi.hx.configured, hi.hx.edges, rfl, hi.hx.busyTodo, ?_, ?_, ?_, ?_⟩, hi.pins, hi.outside⟩
        · refine hxTodoGood_mono (u := s.hx) _ (fun h => ?_) id id id id id id hi.hx.todoGood
          have := h.2.1; rw [hc.1] at this; cases this
        · show hxTodoGood false _ (s.hx.edgeTodo ++ [.clear .emit])
          rw [he]
          refine ⟨rfl, ?_, rfl⟩
          show s.hx.config ≠ none
          rw [h1]; simp
        · show true = (hasCycle s.hx.todo || hasCycle (s.hx.edgeTodo ++ [.clear .emit]))
          rw [h1', he]; rfl
        · show (hasCycle s.hx.todo && hasCycle (s.hx.edgeTodo ++ [.clear .emit])) = false
          rw [h1']; rfl
  · exact hi

theorem exec_stpCancel_noFault {s : State} (hi : Inv s) : NoFault Inv (exec .stpCancel s) := by
  simp only [exec, execStpCancel]
  split
  · refine hi.ofStepper rfl rfl rfl ?_ fun _ h => h
    exact ⟨hi.stepper.configured, hi.stepper.busyTodo, hi.stepper.idle, hi.stepper.memory, hi.stepper.todoGood⟩
  · exact acceptStepper_noFault hi fun hb => stpRaise_noFault hi _

/-- Every command. -/
theorem exec_noFault {i : Instr} {s : State} (hi : Inv s) (he : i = .hxEdge → s.hx.edgeTodo = []) : NoFault Inv
    (exec i s) := by
  by_cases h1 : i.opcode ∈ [Opcode.stpConfig, .msEncode, .stpSetMicrostep, .ramp, .wake, .sleep, .step]
  · exact exec_stepper_noFault hi h1
  by_cases h2 : i.opcode ∈ [Opcode.hxConfig, .hxReadCycle, .hxGetReading]
  · exact exec_hx_noFault hi h2
  cases i <;> simp [Instr.opcode] at h1 h2
  · exact exec_stpCancel_noFault hi
  · exact exec_hxEdge_noFault hi (he rfl)

/-- A move of an agent outside the block. -/
theorem outsideWrite_noFault {s : State} (hi : Inv s) (p : Pin) : NoFault Inv (outsideWrite p s) := by
  rcases outsideWrite_eq p s with ⟨hp, e⟩ | ⟨_, e⟩ | ⟨r, hn, _⟩
  · rw [e]
    refine ⟨hi.stepper, hi.hx, ⟨hi.pins.1, fun q hq => ?_⟩, hi.outside.insert⟩
    rcases List.mem_insert_iff.1 hq with rfl | hq
    · exact hp
    · exact hi.pins.2 q hq
  · rw [e]; trivial
  · refine absurd ⟨fun h => ?_, fun h => ?_⟩ hn
    · obtain ⟨⟨c, hc, _⟩, _⟩ := hi.stepper.configured h; rw [hc]; simp
    · obtain ⟨c, hc, _⟩ := hi.hx.configured h; rw [hc]; simp

theorem outsideRelease_inv {s : State} (hi : Inv s) (p : Pin) : Inv (outsideRelease p s) :=
  ⟨hi.stepper, hi.hx, pinsApart_mono hi.pins (fun _ h => h) (fun _ h => h) fun _ h => List.mem_of_mem_erase h,
    hi.outside.erase p⟩

end Sys2Proof.Machine
end

