-- ==== Sys2Proof/Laws/Run.lean ====
section
/-! SUPPORT. What runs of actions come to: each action's answer where its operands are readable, the actions that are one
event each, and the loops of spec/42_motion_sequencer.md R157 and spec/43_hx711_decoder.md R187. -/

namespace Sys2Proof.Machine

/-! ### The STEPPER unit -/

/-- The unit has performed some events and has this left to do. -/
def stpDid (es : List Event) (l : List StpOp) (s : State) : State :=
  { s with
    stepper := { s.stepper with trace := s.stepper.trace ++ es, todo := l }
    order := s.order ++ List.replicate es.length .stepper }

theorem stpDid_stpDid (es fs : List Event) (l m : List StpOp) (s : State) :
    stpDid fs m (stpDid es l s) = stpDid (es ++ fs) m s := by
  simp only [stpDid, List.append_assoc, List.length_append, List.replicate_add]

theorem stpDid_nil {s : State} {l : List StpOp} (h : s.stepper.todo = l) : stpDid [] l s = s := by
  subst h; simp [stpDid]

theorem stpTodo_stpLog (l : List StpOp) (e : Event) (s : State) : stpTodo l (stpLog e s) = stpDid [e] l s := rfl

theorem runStepper_wr {p : Pin} {l : Level} {rest : List StpOp} {s : State} (h : s.stepper.todo = .wr p l :: rest) :
    runStepper 1 s = .next (stpDid [.wr p l] rest s) := by rw [runStepper_act 0 h rfl]; rfl

theorem runStepper_wait {t : F64} {rest : List StpOp} {s : State} (h : s.stepper.todo = .wait t :: rest) :
    runStepper 1 s = .next (stpDid [.wait t] rest s) := by rw [runStepper_act 0 h rfl]; rfl

/-- A parameter's wait (spec/00_scope.md R9). -/
theorem runStepper_stpWait {t : F64} {rest : List StpOp} {s : State} (h : s.stepper.todo = stpWait t ++ rest) :
    runStepper (waitEvents t).length s = .next (stpDid (waitEvents t) rest s) := by
  unfold stpWait waitFor at h
  unfold waitEvents
  by_cases hw : realLt 0#64 t = true
  · rw [if_pos hw] at h ⊢
    exact runStepper_wait h
  · rw [if_neg hw] at h ⊢
    rw [stpDid_nil (by simpa using h)]; rfl

theorem runStepper_resp {st : Status} {r : Result} {rest : List StpOp} {s : State}
    (h : s.stepper.todo = .resp st r :: rest) : runStepper 1 s = .next (stpRespond st r s) := by
  rw [runStepper_act 0 h rfl]; rfl

/-- Configure requests that are all answered ok. -/
theorem runStepper_cfgOuts (ps : List Pin) {ops : List StpOp} {rest : List Bool} {s : State}
    (ht : s.stepper.todo = ps.map .cfgOut ++ ops) (ha : s.stepper.answers = List.replicate ps.length true ++ rest) :
    runStepper ps.length s =
      .next (onStepper (fun x => { x with answers := rest }) (stpDid (ps.map (.cfgOut · true)) ops s)) := by
  induction ps generalizing s with
  | nil =>
    simp only [List.map_nil, List.nil_append, List.length_nil, List.replicate_zero] at ht ha
    simp [← ht, ← ha, stpDid, onStepper]
  | cons p ps ih =>
    rw [List.length_cons, runStepper_cons _ (by rw [ht]; rfl)]
    have ha' : s.stepper.answers = true :: (List.replicate ps.length true ++ rest) := by rw [ha]; rfl
    simp only [stpAct, stpConfigure_true p _ ha', andThen_next]
    rw [ih rfl rfl]
    simp [stpDid, stpTodo, onStepper, stpLog, List.replicate_succ]

/-- A configure request answered fail ends the command (spec/60_exceptions.md R225). -/
theorem runStepper_cfgOut_fail {p : Pin} {ops : List StpOp} {rest : List Bool} {s : State}
    (ht : s.stepper.todo = .cfgOut p :: ops) (ha : s.stepper.answers = false :: rest) :
    runStepper 2 s = .next (stpRespond .hardwareUnavailable .none
      (onStepper (fun x => { x with answers := rest }) (stpDid [.cfgOut p false] [] s))) := by
  rw [runStepper_cons 1 ht]
  simp only [stpAct, stpConfigure_false p _ ha, andThen_next]
  rw [runStepper_act 0 rfl rfl]
  simp [stpRaise, stpTodo, stpLog, stpRespond, stpDid, onStepper]

theorem runStepper_pulseLow {rest : List StpOp} {s : State} {c : StepperConfig}
    (h : s.stepper.todo = .pulseLow :: rest) (hc : s.stepper.config = some c) :
    runStepper 1 s =
      .next (onStepper (fun x => { x with sqIndex := x.sqIndex + 1 }) (stpDid [.wr c.stepPin false] rest s)) := by
  rw [runStepper_cons 0 h]
  simp only [stpAct, hc, readReg_some, andThen_next]
  rfl

theorem runStepper_hold {i : Nat} {rest : List StpOp} {s : State} {d : F64} (h : s.stepper.todo = .hold i :: rest)
    (hi : i < s.params.profileDepth) (hd : memRead s.stepper.prof i = some d) :
    runStepper 1 s = .next (stpDid [.wait d] rest s) := by
  rw [runStepper_cons 0 h]
  simp only [stpAct, readProfile, if_pos hi, hd, readReg_some, andThen_next]
  rfl

/-- The head of R157's loop where a pulse follows, and the rise of the step pin. -/
theorem runStepper_pulse {rest : List StpOp} {s : State} {len : Count} {c : StepperConfig}
    (h : s.stepper.todo = .pulse :: rest) (hl : s.stepper.profLen = some len)
    (hi : s.stepper.sqIndex.toNat < len.toNat) (hk : (s.params.hasCancel && s.stepper.cancelReq) = false)
    (hc : s.stepper.config = some c) :
    runStepper 2 s = .next (stpDid [.wr c.stepPin true] (pulseRest s.params s.stepper.sqIndex.toNat) s) := by
  rw [runStepper_cons 1 h]
  simp only [stpAct, pulseHead, hl, readReg_some, if_pos hi, hk, Bool.false_eq_true, if_false, hc, andThen_next]
  rw [runStepper_wr rfl]
  rfl

/-- The head of R157's loop where a cancellation request is honoured. -/
theorem runStepper_pulse_cancel {rest : List StpOp} {s : State} {len : Count}
    (h : s.stepper.todo = .pulse :: rest) (hl : s.stepper.profLen = some len)
    (hi : s.stepper.sqIndex.toNat < len.toNat) (hk : (s.params.hasCancel && s.stepper.cancelReq) = true) :
    runStepper 1 s = .next (finishStep (onStepper (fun x => { x with cancelReq := false }) s)) := by
  rw [runStepper_cons 0 h]
  simp only [stpAct, pulseHead, hl, readReg_some, if_pos hi, hk, if_true, andThen_next]
  rfl

/-- The head of R157's loop past the profile. -/
theorem runStepper_pulse_end {rest : List StpOp} {s : State} {len : Count}
    (h : s.stepper.todo = .pulse :: rest) (hl : s.stepper.profLen = some len)
    (hi : ¬s.stepper.sqIndex.toNat < len.toNat) : runStepper 1 s = .next (finishStep s) := by
  rw [runStepper_cons 0 h]
  simp only [stpAct, pulseHead, hl, readReg_some, if_neg hi, andThen_next]
  rfl

/-! ### The HX711 unit, over either of its two lists of actions -/

/-- At most `k` actions from a list, with the list they leave: what `runHx` and `runEdge` share. -/
def hxSteps : Nat → List HxOp → State → Host.Outcome (List HxOp × State) Fault Refusal
  | 0, l, s => .next (l, s)
  | _ + 1, [], s => .next ([], s)
  | k + 1, op :: rest, s => andThen (hxAct op rest s) fun t => hxSteps k t.1 t.2

/-- No action reads or writes the lists of what is left to do: writing one before an action or after it is the same. -/
theorem hxAct_blind {f : State → State} (hf : (∃ l, f = hxTodo l) ∨ ∃ l, f = hxEdgeTodo l) (op : HxOp)
    (rest : List HxOp)
    (s : State) : hxAct op rest (f s) = andThen (hxAct op rest s) fun t => .next (t.1, f t.2) := by
  obtain ⟨pa, st, ⟨h0, cfg, h2, rd, h4, acc, bc, pc, sm, ob, h10, h11, h12, h13, h14, h15, lv, an, h18⟩, s1, s2, s3, s4,
    s5, s6, s7, s8⟩ := s
  have conf : ∀ (e : Bool → Event) (s : State), hxConfigure e rest (f s) =
      andThen (hxConfigure e rest s) fun t => .next (t.1, f t.2) := by
    rintro e ⟨pa, st, ⟨h0, cfg, h2, rd, h4, acc, bc, pc, sm, ob, h10, h11, h12, h13, h14, h15, lv, an, h18⟩, s1, s2, s3,
      s4, s5, s6, s7, s8⟩
    rcases hf with ⟨l, rfl⟩ | ⟨l, rfl⟩ <;> cases an
    case inl.nil | inr.nil =>
      simp only [hxConfigure, hxAnswer, hxTodo, hxEdgeTodo, onHx]
      generalize Config.freeHxAnswer h18 = b
      cases b <;> rfl
    all_goals rename_i a an; cases a <;> rfl
  cases op with
  | cfgIn p q => exact conf _ _
  | cfgOut p => exact conf _ _
  | register p => exact conf _ _
  | store c u => rcases hf with ⟨l, rfl⟩ | ⟨l, rfl⟩ <;> rfl
  | poll u =>
    rcases hf with ⟨l, rfl⟩ | ⟨l, rfl⟩ <;> cases rd <;> try rfl
    all_goals
      cases cfg
      · rfl
      · cases lv
        · simp only [hxAct, pollOnce, tryEnter, hxLevel, hxTodo, hxEdgeTodo, onHx]
          generalize Config.freeLevel h18 = b
          cases b <;> rfl
        · rename_i a lv; cases a <;> rfl
  | dataClock u =>
    rcases hf with ⟨l, rfl⟩ | ⟨l, rfl⟩ <;> cases cfg <;> cases bc <;> try rfl
    all_goals
      simp only [hxAct, dataClockHead, hxTodo, hxEdgeTodo, onHx, readReg_some]
      split
      · rfl
      · cases acc <;> rfl
  | sample => rcases hf with ⟨l, rfl⟩ | ⟨l, rfl⟩ <;> cases cfg <;> cases lv <;> rfl
  | shift b => rcases hf with ⟨l, rfl⟩ | ⟨l, rfl⟩ <;> cases acc <;> cases bc <;> rfl
  | extraClock u v =>
    rcases hf with ⟨l, rfl⟩ | ⟨l, rfl⟩ <;> cases cfg <;> cases pc <;> try rfl
    all_goals
      simp only [hxAct, extraClockHead, hxTodo, hxEdgeTodo, onHx, readReg_some]
      split <;> rfl
  | countPulse => rcases hf with ⟨l, rfl⟩ | ⟨l, rfl⟩ <;> cases pc <;> rfl
  | deliver u v =>
    rcases hf with ⟨l, rfl⟩ | ⟨l, rfl⟩ <;> cases u <;> try rfl
    all_goals
      cases sm <;> cases ob <;> try rfl
      all_goals
        simp only [hxAct, deliverReading, accumulate, hxTodo, hxEdgeTodo, onHx, readReg_some]
        split <;> rfl
  | wr p b => rcases hf with ⟨l, rfl⟩ | ⟨l, rfl⟩ <;> rfl
  | wait t => rcases hf with ⟨l, rfl⟩ | ⟨l, rfl⟩ <;> rfl
  | clear u => rcases hf with ⟨l, rfl⟩ | ⟨l, rfl⟩ <;> rfl
  | resp a b => rcases hf with ⟨l, rfl⟩ | ⟨l, rfl⟩ <;> rfl

theorem hxSteps_blind {f : State → State} (hf : (∃ l, f = hxTodo l) ∨ ∃ l, f = hxEdgeTodo l) (k : Nat) (l : List HxOp)
    (s : State) : hxSteps k l (f s) = andThen (hxSteps k l s) fun t => .next (t.1, f t.2) := by
  induction k generalizing l s with
  | zero => rfl
  | succ k ih =>
    cases l with
    | nil => rfl
    | cons op rest =>
      simp only [hxSteps]
      rw [hxAct_blind hf, andThen_assoc, andThen_assoc]
      congr 1
      funext t
      exact ih _ _

/-- A host command's actions. -/
theorem runHx_eq (k : Nat) (s : State) :
    runHx k s = andThen (hxSteps k s.hx.todo s) fun t => .next (hxTodo t.1 t.2) := by
  induction k generalizing s with
  | zero => rfl
  | succ k ih =>
    cases h : s.hx.todo with
    | nil => rw [runHx_nil _ h]; simp only [hxSteps, andThen_next, hxTodo, onHx, ← h]
    | cons op rest =>
      rw [runHx_cons _ h]
      simp only [hxSteps]
      rw [andThen_assoc]
      congr 1
      funext t
      rw [ih, hxTodo_hx_todo, hxSteps_blind (.inl ⟨_, rfl⟩), andThen_assoc]
      rfl

/-- An edge-triggered cycle's actions. -/
theorem runEdge_eq (k : Nat) (s : State) :
    runEdge k s = andThen (hxSteps k s.hx.edgeTodo s) fun t => .next (hxEdgeTodo t.1 t.2) := by
  induction k generalizing s with
  | zero => rfl
  | succ k ih =>
    cases h : s.hx.edgeTodo with
    | nil => rw [runEdge_nil _ h]; simp only [hxSteps, andThen_next, hxEdgeTodo, onHx, ← h]
    | cons op rest =>
      rw [runEdge_cons _ h]
      simp only [hxSteps]
      rw [andThen_assoc]
      congr 1
      funext t
      rw [ih, hxEdgeTodo_hx_edgeTodo, hxSteps_blind (.inr ⟨_, rfl⟩), andThen_assoc]
      rfl

theorem hxSteps_add (a b : Nat) (l : List HxOp) (s : State) :
    hxSteps (a + b) l s = andThen (hxSteps a l s) fun t => hxSteps b t.1 t.2 := by
  induction a generalizing l s with
  | zero => simp [hxSteps]
  | succ a ih =>
    rw [Nat.add_right_comm]
    cases l with
    | nil => cases b <;> rfl
    | cons op rest =>
      simp only [hxSteps]
      rw [andThen_assoc]
      congr 1
      funext t
      exact ih _ _

theorem hxSteps_nil (k : Nat) (s : State) : hxSteps k [] s = .next ([], s) := by cases k <;> rfl

theorem hxSteps_trans {a b : Nat} {l : List HxOp} {s : State} {t u : List HxOp × State}
    (h : hxSteps a l s = .next t) (h' : hxSteps b t.1 t.2 = .next u) : hxSteps (a + b) l s = .next u := by
  rw [hxSteps_add, h, andThen_next, h']

/-- A list that is done after `n` actions is done after any more. -/
theorem hxSteps_to {n k : Nat} {l : List HxOp} {s t : State} (hk : n ≤ k) (h : hxSteps n l s = .next ([], t)) :
    hxSteps k l s = .next ([], t) := by
  obtain ⟨m, rfl⟩ := Nat.exists_eq_add_of_le hk
  exact hxSteps_trans h (hxSteps_nil _ _)

/-- The unit has performed some events. -/
def hxDid (es : List Event) (s : State) : State :=
  { s with hx := { s.hx with trace := s.hx.trace ++ es }, order := s.order ++ List.replicate es.length .hx711 }

@[simp] theorem hxDid_params (es : List Event) (s : State) : (hxDid es s).params = s.params := rfl

theorem hxDid_nil (s : State) : hxDid [] s = s := by simp [hxDid]

theorem hxDid_hxDid (es fs : List Event) (s : State) : hxDid fs (hxDid es s) = hxDid (es ++ fs) s := by
  simp only [hxDid, List.append_assoc, List.length_append, List.replicate_add]

/-- One action that goes on. -/
theorem hxSteps_act {op : HxOp} {rest : List HxOp} {s : State} {t : List HxOp × State}
    (h : hxAct op rest s = .next t) : hxSteps 1 (op :: rest) s = .next t := by
  simp only [hxSteps, h, andThen_next]

theorem hxSteps_wr (p : Pin) (b : Level) (rest : List HxOp) (s : State) :
    hxSteps 1 (.wr p b :: rest) s = .next (rest, hxDid [.wr p b] s) := rfl

/-- A parameter's wait (spec/00_scope.md R9). -/
theorem hxSteps_hxWait (t : F64) (rest : List HxOp) (s : State) :
    hxSteps (waitEvents t).length (hxWait t ++ rest) s = .next (rest, hxDid (waitEvents t) s) := by
  unfold hxWait waitFor waitEvents
  by_cases hw : realLt 0#64 t = true
  · rw [if_pos hw, if_pos hw]; rfl
  · rw [if_neg hw, if_neg hw, hxDid_nil]; rfl

/-- One read of 1 at the gate, and the wait before the next one (R186). -/
theorem hxSteps_poll_high {u : CycleUse} {s : State} {c : HxConfig} {rest : List Level} (hr : s.hx.reading = false)
    (hc : s.hx.config = some c) (hl : s.hx.levels = true :: rest) :
    hxSteps (1 + (waitEvents s.params.tPoll).length) [.poll u] s = .next ([.poll u],
      hxDid ([.rd c.dataPin true] ++ waitEvents s.params.tPoll) (onHx (fun x => { x with levels := rest }) s)) := by
  have h : hxAct (.poll u) [] s = .next (hxWait s.params.tPoll ++ [.poll u],
      hxDid [.rd c.dataPin true] (onHx (fun x => { x with levels := rest }) s)) := by
    simp only [hxAct, pollOnce, tryEnter, hr, Bool.false_eq_true, if_false, hc, readReg_some, hxLevel_cons hl,
      andThen_next]
    rfl
  rw [← hxDid_hxDid]
  exact hxSteps_trans (hxSteps_act h) (hxSteps_hxWait _ _ _)

/-- The read of 0 that opens the gate (R186). -/
theorem hxSteps_poll_low {u : CycleUse} {s : State} {c : HxConfig} {rest : List Level} (hr : s.hx.reading = false)
    (hc : s.hx.config = some c) (hl : s.hx.levels = false :: rest) :
    hxSteps 1 [.poll u] s = .next ([.clear u],
      hxDid [.rd c.dataPin false] (onHx (fun x => { x with levels := rest, reading := true, phase := .reading }) s)) :=
          by
  apply hxSteps_act
  simp only [hxAct, pollOnce, tryEnter, hr, Bool.false_eq_true, if_false, hc, readReg_some, hxLevel_cons hl,
    andThen_next]
  rfl

/-- One data clock that samples `b` (R187). -/
theorem hxSteps_dataClock {u : CycleUse} {s : State} {c : HxConfig} {n : BitVec 5} {a : BitVec 24} {b : Level}
    {rest : List Level} (hc : s.hx.config = some c) (hn : s.hx.bitCnt = some n) (ha : s.hx.acc = some a)
    (hl : s.hx.levels = b :: rest) (h24 : n.toNat < 24) :
    hxSteps ((clockEvents s.params c b).length + 1) [.dataClock u] s = .next ([.dataClock u],
      hxDid (clockEvents s.params c b) (onHx (fun x => { x with
        levels := rest, acc := some ((a <<< 1) ||| (BitVec.ofBool b).setWidth 24), bitCnt := some (n + 1) }) s)) := by
  have h1 : hxAct (.dataClock u) [] s = .next (hxWait s.params.tHxHigh ++ [.wr c.clockPin false, .sample, .dataClock u],
      hxDid [.wr c.clockPin true] s) := by
    simp only [hxAct, dataClockHead, hc, hn, readReg_some, if_pos h24]
    rfl
  have h2 := hxSteps_trans (hxSteps_act h1) (hxSteps_hxWait _ _ _)
  have h3 := hxSteps_trans h2 (hxSteps_wr _ _ _ _)
  simp only [hxDid_hxDid] at h3
  have h4 : ∀ es, hxAct .sample [.dataClock u] (hxDid es s) = .next
      (hxWait s.params.tHxLow ++ ([.shift b] ++ [.dataClock u]),
        hxDid [.rd c.dataPin b] (onHx (fun x => { x with levels := rest }) (hxDid es s))) := by
    intro es
    simp only [hxAct, sampleBit]
    rw [show (hxDid es s).hx.config = some c from hc, readReg_some,
      hxLevel_cons (s := hxDid es s) (rest := rest) hl]
    simp only [List.append_assoc]
    rfl
  have h5 := hxSteps_trans h3 (hxSteps_act (h4 _))
  have h6 := hxSteps_trans h5 (hxSteps_hxWait _ _ _)
  have h7 : ∀ es fs gs, hxAct (.shift b) [.dataClock u]
      (hxDid gs (hxDid fs (onHx (fun x => { x with levels := rest }) (hxDid es s)))) = .next ([.dataClock u],
      onHx (fun x => { x with acc := some ((a <<< 1) ||| (BitVec.ofBool b).setWidth 24), bitCnt := some (n + 1) })
        (hxDid gs (hxDid fs (onHx (fun x => { x with levels := rest }) (hxDid es s))))) := by
    intro es fs gs
    simp only [hxAct, shiftBit]
    rw [show (hxDid gs (hxDid fs (onHx (fun x => { x with levels := rest }) (hxDid es s)))).hx.acc = some a from ha,
      readReg_some,
      show (hxDid gs (hxDid fs (onHx (fun x => { x with levels := rest }) (hxDid es s)))).hx.bitCnt = some n from hn,
      readReg_some]
  have h8 := hxSteps_trans h6 (hxSteps_act (h7 _ _ _))
  convert h8 using 2
  · simp only [clockEvents, List.length_append, List.length_cons, List.length_nil]
  · rw [show clockEvents s.params c b = [.wr c.clockPin true] ++ waitEvents s.params.tHxHigh ++ [.wr c.clockPin false]
        ++ [.rd c.dataPin b] ++ waitEvents s.params.tHxLow by simp [clockEvents], ← hxDid_hxDid, ← hxDid_hxDid]
    rfl

/-- What a run of data clocks accumulates, the first sample highest (spec/30_encoding.md R87). -/
def accumulated (a : BitVec 24) (ls : List Level) : BitVec 24 :=
  ls.foldl (fun a b => (a <<< 1) ||| (BitVec.ofBool b).setWidth 24) a

/-- A run of data clocks. -/
theorem hxSteps_dataClocks (u : CycleUse) (ls : List Level) {s : State} {c : HxConfig} {n : BitVec 5} {a : BitVec 24}
    {rest : List Level} (hc : s.hx.config = some c) (hn : s.hx.bitCnt = some n) (ha : s.hx.acc = some a)
    (hl : s.hx.levels = ls ++ rest) (h24 : n.toNat + ls.length ≤ 24) :
    hxSteps ((ls.flatMap (clockEvents s.params c)).length + ls.length) [.dataClock u] s = .next ([.dataClock u],
      hxDid (ls.flatMap (clockEvents s.params c)) (onHx (fun x => { x with
        levels := rest, acc := some (accumulated a ls), bitCnt := some (n + BitVec.ofNat 5 ls.length) }) s)) := by
  induction ls generalizing s n a with
  | nil =>
    simp only [List.flatMap_nil, List.length_nil, hxDid_nil, accumulated, List.foldl_nil]
    rw [show hxSteps (0 + 0) [.dataClock u] s = .next ([.dataClock u], s) from rfl]
    rw [List.nil_append] at hl
    simp only [onHx, ← hl, ← ha, BitVec.add_zero, ← hn]
  | cons b ls ih =>
    rw [List.length_cons] at h24
    have h1 := hxSteps_dataClock (u := u) hc hn ha (b := b) (rest := ls ++ rest) hl (by omega)
    have hn1 : (n + 1).toNat = n.toNat + 1 := by
      rw [BitVec.toNat_add, Nat.mod_eq_of_lt]
      · rfl
      · change n.toNat + 1 < 32; omega
    have h2 := ih (s := hxDid (clockEvents s.params c b) (onHx (fun x => { x with
      levels := ls ++ rest, acc := some ((a <<< 1) ||| (BitVec.ofBool b).setWidth 24), bitCnt := some (n + 1) }) s))
      (n := n + 1) (a := (a <<< 1) ||| (BitVec.ofBool b).setWidth 24) hc rfl rfl rfl (by omega)
    have h3 := hxSteps_trans h1 h2
    have hb : n + 1 + BitVec.ofNat 5 ls.length = n + BitVec.ofNat 5 (b :: ls).length := by
      rw [List.length_cons, BitVec.add_assoc]
      congr 1
      apply BitVec.eq_of_toNat_eq
      simp; omega
    rw [List.flatMap_cons, ← hxDid_hxDid, List.length_append, List.length_cons,
      show (clockEvents s.params c b).length + (ls.flatMap (clockEvents s.params c)).length + (ls.length + 1) =
        (clockEvents s.params c b).length + 1 + ((ls.flatMap (clockEvents s.params c)).length + ls.length) by omega,
      ← List.length_cons (a := b), ← hb]
    exact h3

/-- The 24 samples of a raw value accumulate to it. -/
theorem accumulated_rawLevels (raw : BitVec 24) : accumulated 0 (rawLevels raw) = raw := by
  have key : ∀ k ≤ 24, accumulated 0 (((List.range 24).map fun k => raw.getLsbD (23 - k)).take k) = raw >>> (24 - k) :=
    by
    intro k hk
    induction k with
    | zero =>
      apply BitVec.eq_of_getLsbD_eq
      intro i hi
      simp [accumulated]
    | succ k ih =>
      rw [List.take_add_one]
      have hg : ((List.range 24).map fun k => raw.getLsbD (23 - k))[k]? = some (raw.getLsbD (23 - k)) := by
        rw [List.getElem?_map, List.getElem?_range (by omega)]; rfl
      rw [hg]
      unfold accumulated at ih ⊢
      rw [List.foldl_append, ih (by omega)]
      apply BitVec.eq_of_getLsbD_eq
      intro i hi
      simp only [Option.toList_some, List.foldl_cons, List.foldl_nil, BitVec.getLsbD_or, BitVec.getLsbD_shiftLeft,
        BitVec.getLsbD_setWidth, BitVec.getLsbD_ofBool, BitVec.getLsbD_ushiftRight]
      rcases Nat.eq_zero_or_pos i with rfl | hpos
      · simp
      · have h1 : ¬i = 0 := by omega
        have h2 : ¬i < 1 := by omega
        simp [h1, h2, hi]; congr 1; omega
  have := key 24 (Nat.le_refl _)
  rw [List.take_of_length_le (by simp)] at this
  rw [rawLevels, this]
  simp

/-- One extra pulse (R187). -/
theorem hxSteps_extraClock {u : CycleUse} {v : Reading} {s : State} {c : HxConfig} {n : BitVec 2}
    (hc : s.hx.config = some c) (hn : s.hx.pulseCnt = some n) (h : n.toNat < c.extra.toNat) :
    hxSteps ((extraEvents s.params c).length + 1) [.extraClock u v] s = .next ([.extraClock u v],
      hxDid (extraEvents s.params c) (onHx (fun x => { x with pulseCnt := some (n + 1) }) s)) := by
  have h1 : hxAct (.extraClock u v) [] s = .next (hxWait s.params.tHxHigh ++ ([.wr c.clockPin false] ++
      (hxWait s.params.tHxLow ++ [.countPulse, .extraClock u v])), hxDid [.wr c.clockPin true] s) := by
    simp only [hxAct, extraClockHead, hc, hn, readReg_some, if_pos h, List.append_assoc]
    rfl
  have h2 := hxSteps_trans (hxSteps_act h1) (hxSteps_hxWait _ _ _)
  have h3 := hxSteps_trans h2 (hxSteps_wr _ _ _ _)
  have h4 := hxSteps_trans h3 (hxSteps_hxWait _ _ _)
  simp only [hxDid_hxDid] at h4
  have h5 : ∀ es, hxAct .countPulse [.extraClock u v] (hxDid es s) = .next ([.extraClock u v],
      onHx (fun x => { x with pulseCnt := some (n + 1) }) (hxDid es s)) := by
    intro es
    simp only [hxAct]
    rw [show (hxDid es s).hx.pulseCnt = some n from hn, readReg_some]
  have h6 := hxSteps_trans h4 (hxSteps_act (h5 _))
  have hk : (extraEvents s.params c).length + 1 =
      1 + (waitEvents s.params.tHxHigh).length + 1 + (waitEvents s.params.tHxLow).length + 1 := by
    simp only [extraEvents, List.length_append, List.length_cons, List.length_nil]
  rw [hk]
  exact h6

/-- The rest of the extra pulses, and the end of the cycle (R187). -/
theorem hxSteps_extraClocks {u : CycleUse} {v : Reading} (m : Nat) {s : State} {c : HxConfig} {n : BitVec 2}
    (hc : s.hx.config = some c) (hn : s.hx.pulseCnt = some n) (h : n.toNat + m = c.extra.toNat) :
    hxSteps ((extraEvents s.params c).length * m + m + 1) [.extraClock u v] s = .next ([.deliver u v],
      hxDid (List.replicate m (extraEvents s.params c)).flatten
        (releaseCycle (onHx (fun x => { x with reading := false, phase := .idle }) s))) := by
  induction m generalizing s n with
  | zero =>
    simp only [Nat.mul_zero, Nat.zero_add, List.replicate_zero, List.flatten_nil, hxDid_nil]
    apply hxSteps_act
    simp only [hxAct, extraClockHead, hc, hn, readReg_some, if_neg (show ¬n.toNat < c.extra.toNat by omega)]
  | succ m ih =>
    have hlt := c.extra.isLt
    have hn1 : (n + 1).toNat = n.toNat + 1 := by
      rw [BitVec.toNat_add, Nat.mod_eq_of_lt]
      · rfl
      · change n.toNat + 1 < 4; omega
    have h1 := hxSteps_extraClock (u := u) (v := v) hc hn (by omega)
    have h2 := ih (s := hxDid (extraEvents s.params c) (onHx (fun x => { x with pulseCnt := some (n + 1) }) s))
      (n := n + 1) hc rfl (by omega)
    have h3 := hxSteps_trans h1 h2
    rw [List.replicate_succ, List.flatten_cons, ← hxDid_hxDid]
    have hk : (extraEvents s.params c).length * (m + 1) + (m + 1) + 1 =
        (extraEvents s.params c).length + 1 + ((extraEvents s.params c).length * m + m + 1) := by
      rw [Nat.mul_succ]
      omega
    rw [hk]
    exact h3

/-- R188's way of writing the sign extension. -/
theorem signExtend24_eq (a : BitVec 24) : signExtend24 a = a.signExtend 32 := by
  unfold signExtend24
  have hm : a &&& 0x800000#24 ≠ 0#24 ↔ a.getLsbD 23 = true := by
    rw [show 0x800000#24 = BitVec.twoPow 24 23 by decide, BitVec.and_twoPow]
    cases a.getLsbD 23 <;> simp
  apply BitVec.eq_of_getLsbD_eq
  intro i hi
  rw [BitVec.getLsbD_signExtend, BitVec.msb_eq_getLsbD_last]
  simp only [hm]
  have hF : ∀ i < 32, (0xFF000000#32).getLsbD i = decide (24 ≤ i) := by decide
  by_cases hb : a.getLsbD 23 = true
  · rw [if_pos hb, BitVec.getLsbD_or, hF i hi, BitVec.getLsbD_setWidth]
    by_cases h24 : i < 24
    · simp [h24, hi]
    · rw [decide_eq_true (show 24 ≤ i by omega), Bool.or_true, if_neg h24]
      simpa [hi] using hb
  · rw [if_neg hb, BitVec.getLsbD_setWidth]
    by_cases h24 : i < 24
    · simp [h24, hi]
    · have : a.getLsbD i = false := BitVec.getLsbD_of_ge a i (by omega)
      simp [h24, hi, this]; simpa using hb

theorem waitEvents_length (t : F64) : (waitEvents t).length ≤ 1 := by
  unfold waitEvents; split <;> simp

/-- The read-out of a cycle after its gate (R187, R188): the 24 data clocks, the extra pulses, the Reading. -/
theorem hxSteps_readOut (u : CycleUse) {s : State} {c : HxConfig} (raw : BitVec 24) {rest : List Level}
    (hc : s.hx.config = some c) (hl : s.hx.levels = rawLevels raw ++ rest) : ∃ k, k ≤ 165 ∧
    hxSteps k [.clear u] s = .next ([.deliver u (raw.signExtend 32)], hxDid (readOutEvents s.params c raw)
      (releaseCycle (onHx (fun x => { x with levels := rest, reading := false, phase := .idle }) s))) := by
  have hlen : (rawLevels raw).length = 24 := by simp [rawLevels]
  have h1 : hxAct (.clear u) [] s = .next ([.dataClock u], onHx (fun x => { x with acc := some 0, bitCnt := some 0 })
    s) :=
    rfl
  have h2 := hxSteps_dataClocks u (rawLevels raw)
    (s := onHx (fun x => { x with acc := some 0, bitCnt := some 0 }) s) hc rfl rfl hl (by rw [hlen]; decide)
  rw [accumulated_rawLevels, hlen] at h2
  have h3 : ∀ es (s' : State), s'.hx.config = some c → hxAct (.dataClock u) []
      (hxDid es (onHx (fun x => { x with levels := rest, acc := some raw, bitCnt := some (0 + BitVec.ofNat 5 24) })
        s')) =
      .next ([.extraClock u (raw.signExtend 32)], onHx (fun x => { x with pulseCnt := some 0 }) (hxDid es
        (onHx (fun x => { x with levels := rest, acc := some raw, bitCnt := some (0 + BitVec.ofNat 5 24) }) s'))) := by
    intro es s' hc'
    simp only [hxAct, dataClockHead]
    rw [show (hxDid es (onHx (fun x => { x with levels := rest, acc := some raw, bitCnt := some (0 + BitVec.ofNat 5 24)
      })
      s')).hx.config = some c from hc', readReg_some]
    simp only [hxDid, onHx, readReg_some]
    rw [if_neg (by decide), signExtend24_eq]
  have h4 := hxSteps_trans (hxSteps_act h1) h2
  have h5 := hxSteps_trans h4 (hxSteps_act (h3 _ _ hc))
  have h6 := hxSteps_trans h5 (hxSteps_extraClocks (c := c) (n := 0) c.extra.toNat hc rfl (by simp))
  refine ⟨_, ?_, h6.trans ?_⟩
  · have hw := waitEvents_length s.params.tHxHigh
    have hw' := waitEvents_length s.params.tHxLow
    have hx := c.extra.isLt
    have hce : ∀ b, (clockEvents s.params c b).length ≤ 5 := by
      intro b
      simp only [clockEvents, List.length_append, List.length_cons, List.length_nil]
      omega
    have hee : (extraEvents s.params c).length ≤ 4 := by
      simp only [extraEvents, List.length_append, List.length_cons, List.length_nil]
      omega
    have hfm : ∀ ls : List Level, (ls.flatMap (clockEvents s.params c)).length ≤ 5 * ls.length := by
      intro ls
      induction ls with
      | nil => simp
      | cons b ls ih =>
        rw [List.flatMap_cons, List.length_append, List.length_cons]
        have := hce b
        omega
    have h24 := hfm (rawLevels raw)
    rw [hlen] at h24
    have h3 : (extraEvents s.params c).length * c.extra.toNat ≤ 4 * 3 := Nat.mul_le_mul hee (by omega)
    simp only [hxDid_params, onHx_params]
    omega
  · rw [readOutEvents, ← hxDid_hxDid]
    rfl

/-- A run of reads of 1 at the gate (R186). -/
theorem hxSteps_polls (g : Nat) (u : CycleUse) {s : State} {c : HxConfig} {rest : List Level}
    (hr : s.hx.reading = false) (hc : s.hx.config = some c)
    (hl : s.hx.levels = List.replicate g true ++ rest) :
    hxSteps (g * (1 + (waitEvents s.params.tPoll).length)) [.poll u] s = .next ([.poll u],
     hxDid (List.replicate g ([Event.rd c.dataPin true] ++ waitEvents s.params.tPoll)).flatten
         (onHx (fun x => { x with levels := rest }) s)) := by
  induction g generalizing s with
  | zero => simp at hl; simp [hxSteps, hxDid_nil, onHx, ← hl]
  | succ g ih =>
    have h1 := hxSteps_poll_high (u := u) (rest := List.replicate g true ++ rest) hr hc
      (by rw [hl, List.replicate_succ]; rfl)
    have h2 := hxSteps_trans h1 (ih (s := hxDid ([.rd c.dataPin true] ++ waitEvents s.params.tPoll)
      (onHx (fun x => { x with levels := List.replicate g true ++ rest }) s)) hr hc rfl)
    rw [List.replicate_succ, List.flatten_cons, ← hxDid_hxDid, Nat.succ_mul, Nat.add_comm]
    exact h2

/-- A run of polls at a gate that a running cycle keeps closed: no read, only the waits (R186). -/
theorem hxSteps_polls_closed (g : Nat) (u : CycleUse) {s : State} (hr : s.hx.reading = true) :
    hxSteps (g * (1 + (waitEvents s.params.tPoll).length)) [.poll u] s =
      .next ([.poll u], hxDid (List.replicate g (waitEvents s.params.tPoll)).flatten s) := by
  induction g generalizing s with
  | zero => simp [hxSteps, hxDid_nil]
  | succ g ih =>
    have h : hxAct (.poll u) [] s = .next (hxWait s.params.tPoll ++ [.poll u], s) := by
      simp only [hxAct, pollOnce, tryEnter, hr, if_true, andThen_next, Bool.false_eq_true, if_false]
    have h1 := hxSteps_trans (hxSteps_act h) (hxSteps_hxWait _ _ _)
    have h2 := hxSteps_trans h1 (ih (s := hxDid (waitEvents s.params.tPoll) s) hr)
    rw [List.replicate_succ, List.flatten_cons, ← hxDid_hxDid, Nat.succ_mul, Nat.add_comm]
    exact h2

/-- One cycle of the host path, up to its Reading (R186 to R188). -/
theorem hxSteps_cycle (u : CycleUse) {s : State} {c : HxConfig} (g : Nat) (raw : BitVec 24) {rest : List Level}
    (hr : s.hx.reading = false) (hc : s.hx.config = some c)
    (hl : s.hx.levels = cycleLevels (g, raw) ++ rest) : ∃ k, k + 1 ≤ cycleQuantum (g, raw) ∧
    hxSteps k [.poll u] s = .next ([.deliver u (raw.signExtend 32)], hxDid (cycleEvents s.params c (g, raw))
      (releaseCycle (onHx (fun x => { x with levels := rest, reading := false, phase := .idle }) s))) := by
  have h1 := hxSteps_polls g u (rest := false :: (rawLevels raw ++ rest)) hr hc (by rw [hl]; simp [cycleLevels])
  have h2 := hxSteps_trans h1 (hxSteps_poll_low (rest := rawLevels raw ++ rest) (s := hxDid _ _) hr hc rfl)
  obtain ⟨k, hk, h3⟩ := hxSteps_readOut u (s := hxDid [.rd c.dataPin false]
    (onHx (fun x => { x with levels := rawLevels raw ++ rest, reading := true, phase := .reading })
     (hxDid (List.replicate g ([Event.rd c.dataPin true] ++ waitEvents s.params.tPoll)).flatten
       (onHx (fun x => { x with levels := false :: (rawLevels raw ++ rest) }) s)))) raw hc rfl
  have h4 := hxSteps_trans h2 h3
  refine ⟨_, ?_, h4.trans ?_⟩
  · have := waitEvents_length s.params.tPoll
    have : g * (1 + (waitEvents s.params.tPoll).length) ≤ g * 2 := Nat.mul_le_mul_left _ (by omega)
    simp only [cycleQuantum]; omega
  · rw [cycleEvents, gateEvents, ← hxDid_hxDid, ← hxDid_hxDid]
    rfl

/-! ### Whole loops -/

/-- One pass of R157's loop. -/
theorem runStepper_onePulse {s : State} {c : StepperConfig} {len : Count} {i : Nat} {d : F64}
    (ht : s.stepper.todo = [.pulse]) (hc : s.stepper.config = some c) (hl : s.stepper.profLen = some len)
    (hi : s.stepper.sqIndex.toNat = i) (hlen : i < len.toNat) (hd : i < s.params.profileDepth)
    (hp : memRead s.stepper.prof i = some d) (hk : s.stepper.cancelReq = false) :
    runStepper ((pulseEvents s.params c d).length + 1) s = .next (onStepper (fun x => { x with sqIndex := x.sqIndex + 1 })
      (stpDid (pulseEvents s.params c d) [.pulse] s)) := by
  have h1 := runStepper_pulse ht hl (by rw [hi]; exact hlen) (by rw [hk, Bool.and_false]) hc
  rw [hi] at h1
  have h2 := runStepper_trans h1 (runStepper_stpWait (t := s.params.tStepHigh) (rest := [.pulseLow, .hold i, .pulse])
    rfl)
  rw [stpDid_stpDid] at h2
  have h3 := runStepper_trans h2 (runStepper_pulseLow (s := stpDid _ _ s) rfl hc)
  rw [stpDid_stpDid] at h3
  have h4 := runStepper_trans h3 (runStepper_hold (i := i) (rest := [.pulse]) (d := d) rfl hd hp)
  have e : (pulseEvents s.params c d).length + 1 = 2 + (waitEvents s.params.tStepHigh).length + 1 + 1 := by
    simp [pulseEvents]; omega
  rw [e, h4, show pulseEvents s.params c d = [.wr c.stepPin true] ++ waitEvents s.params.tStepHigh ++
    [.wr c.stepPin false] ++ [.wait d] by simp [pulseEvents], ← stpDid_stpDid _ [.wait d] [.hold i, .pulse]]
  rfl

/-- R157's loop over what is left of a profile, with no cancellation. -/
theorem runStepper_pulses (ds : List F64) {s : State} {c : StepperConfig} {len : Count} (i : Nat)
    (ht : s.stepper.todo = [.pulse]) (hc : s.stepper.config = some c) (hl : s.stepper.profLen = some len)
    (hx : s.stepper.sqIndex = BitVec.ofNat 32 i) (hlen : i + ds.length = len.toNat)
        (hd : len.toNat ≤ s.params.profileDepth)
    (hp : ∀ j < ds.length, memRead s.stepper.prof (i + j) = ds[j]?) (hk : s.stepper.cancelReq = false) :
    runStepper ((ds.flatMap (pulseEvents s.params c)).length + ds.length) s =
      .next (onStepper (fun x => { x with sqIndex := len })
      (stpDid (ds.flatMap (pulseEvents s.params c)) [.pulse] s)) := by
  have hlt := len.isLt
  induction ds generalizing s i with
  | nil =>
    have : s.stepper.sqIndex = len := by
      rw [hx]; apply BitVec.eq_of_toNat_eq; simp at hlen ⊢; omega
    simp [stpDid, onStepper, ← this, ← ht]
  | cons d ds ih =>
    rw [List.length_cons] at hlen
    have hi : s.stepper.sqIndex.toNat = i := by rw [hx]; simp; omega
    have h0 : memRead s.stepper.prof i = some d := by simpa using hp 0 (by simp)
    have h1 := runStepper_onePulse (d := d) ht hc hl hi (by omega) (by omega) h0 hk
    generalize hu : onStepper (fun x => { x with sqIndex := x.sqIndex + 1 }) (stpDid (pulseEvents s.params c d)
      [.pulse] s) = u at h1
    have e1 : u.stepper.todo = [.pulse] := by rw [← hu]; rfl
    have e2 : u.stepper.config = s.stepper.config := by rw [← hu]; rfl
    have e3 : u.stepper.profLen = s.stepper.profLen := by rw [← hu]; rfl
    have e4 : u.stepper.sqIndex = s.stepper.sqIndex + 1 := by rw [← hu]; rfl
    have e5 : u.stepper.prof = s.stepper.prof := by rw [← hu]; rfl
    have e6 : u.stepper.cancelReq = s.stepper.cancelReq := by rw [← hu]; rfl
    have e7 : u.params = s.params := by rw [← hu]; rfl
    have h5 := ih (i + 1) (s := u) e1 (e2.trans hc) (e3.trans hl) (by rw [e4, hx, BitVec.ofNat_add]; rfl) (by omega)
      (by rw [e7]; exact hd)
        (fun j hj => by
          have := hp (j + 1) (by simp; omega)
          rw [show i + (j + 1) = i + 1 + j by omega] at this
          rw [e5]; exact this) (e6.trans hk)
    rw [e7] at h5
    rw [List.flatMap_cons, List.length_append, List.length_cons,
      show ∀ a b c : Nat, a + b + (c + 1) = a + 1 + (b + c) by omega, runStepper_trans h1 h5, ← stpDid_stpDid _ _ [.pulse], ← hu]
    rfl

/-- `STEP`'s wake actions where the driver is asleep, none where it is awake (R157). -/
theorem runStepper_wakeBody (w : Power) (c : StepperConfig) (rest : List StpOp) {s : State}
    (h : s.stepper.todo = (if w = .asleep then wakeBody s.params c else []) ++ rest)
   (hw : s.stepper.power = some w) : ∃ k ≤ 3, runStepper k s = .next
     (onStepper (fun x => { x with power := some .awake }) (stpDid (if w = .asleep then wakeEvents s.params c else [])
     rest s)) := by
  cases w
  · simp only [if_true, wakeBody, wakeEvents] at h ⊢
    by_cases hs : sleepValid c.sleepPin = true
    · rw [if_pos hs] at h ⊢
      have h1 := runStepper_wr h
      have h2 := runStepper_trans h1 (runStepper_wait (s := stpDid _ _ _) rfl)
      refine ⟨1 + 1 + 1, by omega, (runStepper_trans h2 (runStepper_act 0 rfl rfl)).trans ?_⟩
      simp [stpDid, onStepper, stpTodo]
    · rw [if_neg hs] at h ⊢
      refine ⟨1, by omega, (runStepper_act 0 h rfl).trans ?_⟩
      simp [stpDid, onStepper, stpTodo]
  · refine ⟨0, by omega, ?_⟩
    simp at h ⊢
    simp [onStepper, stpDid, ← h, ← hw]

/-- One Reading more: the sum stays exact (R191, R192). -/
theorem toInt_add_reading {sum : BitVec 64} {T : Int} {o : Nat} (raw : BitVec 24) (hT : sum.toInt = T)
    (hb : T.natAbs ≤ o * 2 ^ 23) (ho : o < 2 ^ 32) :
    (sum + (raw.signExtend 32).signExtend 64).toInt = T + raw.toInt ∧ (T + raw.toInt).natAbs ≤ (o + 1) * 2 ^ 23 := by
  have h1 : ((raw.signExtend 32).signExtend 64).toInt = raw.toInt := by
    rw [BitVec.toInt_signExtend_of_le (by omega), BitVec.toInt_signExtend_of_le (by omega)]
  have h2 := BitVec.toInt_lt (x := raw)
  have h3 := BitVec.le_toInt (x := raw)
  norm_num at h2 h3
  have h4 : (T + raw.toInt).natAbs ≤ (o + 1) * 2 ^ 23 := by omega
  refine ⟨?_, h4⟩
  rw [BitVec.toInt_add, h1, hT, Int.bmod_eq_of_le] <;> omega

/-- What is left of `HX_GET_READING`'s cycles, and its response (R191). -/
theorem hxSteps_cycles (cs : List (Nat × BitVec 24)) {s : State} {c : HxConfig} {n obs : Count} {sum : BitVec 64}
    {rest : List Level}
    (hne : cs ≠ []) (hr : s.hx.reading = false) (hc : s.hx.config = some c) (hl : s.hx.levels = cs.flatMap cycleLevels
        ++ rest)
    (hs : s.hx.sum = some sum) (ho : s.hx.obs = some obs) (hn : obs.toNat + cs.length = n.toNat)
    (hT : sum.toInt.natAbs ≤ obs.toNat * 2 ^ 23) :
    ∃ k acc bits pulses sum' obs' tick, k ≤ (cs.map cycleQuantum).sum ∧ hxSteps k [.poll (.average n)] s = .next ([],
      hxRespond .ok (.mean (realRound (decide (sum.toInt + readingSum cs < 0))
          (realOne * (sum.toInt + readingSum cs).natAbs) n.toNat))
       (hxDid (cs.flatMap (cycleEvents s.params c))
         (onHx (fun x => { x with
           reading := false, phase := .idle, levels := rest, acc := acc, bitCnt := bits, pulseCnt := pulses
           sum := sum', obs := obs', tick := tick }) s))) := by
  induction cs generalizing s obs sum with
  | nil => exact absurd rfl hne
  | cons cy cs ih =>
    obtain ⟨g, raw⟩ := cy
    have hlt := n.isLt
    rw [List.length_cons] at hn
    rw [List.flatMap_cons, List.append_assoc] at hl
    obtain ⟨k, hk, h⟩ := hxSteps_cycle (.average n) g raw hr hc hl
    obtain ⟨hs1, hs2⟩ := toInt_add_reading raw rfl hT (by omega)
    have hobs : (obs + 1).toNat = obs.toNat + 1 := by
      rw [BitVec.toNat_add, Nat.mod_eq_of_lt]
      · rfl
      · change obs.toNat + 1 < 2 ^ 32; omega
    generalize hu : hxDid (cycleEvents s.params c (g, raw))
      (releaseCycle (onHx (fun x => { x with levels := cs.flatMap cycleLevels ++ rest, reading := false, phase := .idle
      }) s)) = u at h
    have hus : u.hx.sum = some sum := by rw [← hu]; exact hs
    have huo : u.hx.obs = some obs := by rw [← hu]; exact ho
    rcases cs with _ | ⟨cy2, cs⟩
    · have h1 : hxAct (.deliver (.average n) (raw.signExtend 32)) [] u = .next
        ([], hxRespond .ok (.mean (realMean (sum + (raw.signExtend 32).signExtend 64) n)) (releaseSum u)) := by
        simp only [hxAct, deliverReading, accumulate, hus, huo, readReg_some]
        rw [if_neg]
        rw [hobs]; simp at hn; omega
      let r := releaseSum u
      refine ⟨k + 1, r.hx.acc, r.hx.bitCnt, r.hx.pulseCnt, r.hx.sum, r.hx.obs, r.hx.tick, ?_,
        (hxSteps_trans h (hxSteps_act h1)).trans ?_⟩
      · simpa using hk
      · rw [realMean, hs1]
        simp only [readingSum, List.map_cons, List.map_nil, List.sum_cons, List.sum_nil, Int.add_zero]
        simp only [r]
        rw [← hu]
        simp [hxDid, onHx, releaseSum, releaseCycle]
    · have h1 : hxAct (.deliver (.average n) (raw.signExtend 32)) [] u = .next ([.poll (.average n)], onHx
        (fun x => { x with sum := some (sum + (raw.signExtend 32).signExtend 64), obs := some (obs + 1) }) u) := by
        simp only [hxAct, deliverReading, accumulate, hus, huo, readReg_some]
        rw [if_pos]
        rw [hobs]; simp at hn; omega
      generalize hv : onHx (fun x => { x with
        sum := some (sum + (raw.signExtend 32).signExtend 64), obs := some (obs + 1) }) u = v at h1
      obtain ⟨k2, acc, bits, pulses, sum', obs', tick, hk2, h2⟩ := ih (s := v) (obs := obs + 1)
        (sum := sum + (raw.signExtend 32).signExtend 64) (by simp)
        (by rw [← hv, ← hu]; rfl) (by rw [← hv, ← hu]; exact hc) (by rw [← hv, ← hu]; rfl) (by rw [← hv]; rfl)
          (by rw [← hv]; rfl) (by rw [hobs]; omega)
        (by rw [hs1, hobs]; exact hs2)
      refine ⟨k + 1 + k2, acc, bits, pulses, sum', obs', tick, ?_, (hxSteps_trans (hxSteps_trans h (hxSteps_act h1))
        h2).trans ?_⟩
      · rw [List.map_cons, List.sum_cons]; omega
      · rw [hs1]
        have e : readingSum ((g, raw) :: cy2 :: cs) = raw.toInt + readingSum (cy2 :: cs) := by
          simp [readingSum]
        rw [e, ← Int.add_assoc, List.flatMap_cons (x := (g, raw)), ← hxDid_hxDid, ← hv, ← hu]
        rfl

end Sys2Proof.Machine
end

