-- ==== Sys2Proof/Laws/Local.lean ====
section
/-! SUPPORT. A unit's moves depend on its own registers and the parameters alone (spec/10_state.md R42, spec/20_memory.md
R74): from two states that agree on them, moves that both go on leave the unit the same. -/

namespace Sys2Proof.Machine

/-- One action of the STEPPER unit. -/
theorem stpAct_local {op : StpOp} {rest : List StpOp} {s s' t t' : State} (hs : s'.stepper = s.stepper)
    (hp : s'.params = s.params)
    (h : stpAct op rest s = .next t) (h' : stpAct op rest s' = .next t') : t'.stepper = t.stepper := by
  cases op with
  | cfgOut p =>
    simp only [stpAct, stpConfigure, stpAnswer, hs] at h h'
    cases ha : s.stepper.answers with
    | nil =>
      simp only [ha] at h h'
      cases hf : Config.freeStepperAnswer s.stepper.tick <;> simp only [hf] at h h' <;> cases h <;> cases h' <;> simp
        [stpRaise, stpTodo, stpLog, onStepper, hs]
    | cons b r =>
      simp only [ha] at h h'
      cases b <;> simp only [] at h h' <;> cases h <;> cases h' <;> simp [stpRaise, stpTodo, stpLog, onStepper, hs]
  | store c =>
    cases h; cases h'
    simp [stpTodo, storeConfig, onStepper, hs]
  | storeMicrostep d p =>
    simp only [stpAct, readReg_eq_next, hs] at h h'
    obtain ⟨c, e, h⟩ := h
    obtain ⟨c', e', h'⟩ := h'
    rw [e] at e'; cases e'
    cases h; cases h'; simp [onStepper, stpTodo, hs]
  | pulse =>
    simp only [stpAct, pulseHead, readReg_eq_next, hs, hp] at h h'
    obtain ⟨c, e, h⟩ := h
    obtain ⟨c', e', h'⟩ := h'
    rw [e] at e'; cases e'
    split at h
    · rw [if_pos ‹_›] at h'
      split at h
      · rw [if_pos ‹_›] at h'; cases h; cases h'; simp [finishStep, stpRespond, releaseProfile, stpLog, onStepper, hs]
      · rw [if_neg ‹_›] at h'
        rw [readReg_eq_next] at h h'
        obtain ⟨c, e, h⟩ := h
        obtain ⟨c', e', h'⟩ := h'
        rw [e] at e'; cases e'
        cases h; cases h'; simp [onStepper, stpTodo, hs]
    · rw [if_neg ‹_›] at h'; cases h; cases h'; simp [finishStep, stpRespond, releaseProfile, stpLog, onStepper, hs]
  | pulseLow =>
    simp only [stpAct, readReg_eq_next, hs] at h h'
    obtain ⟨c, e, h⟩ := h
    obtain ⟨c', e', h'⟩ := h'
    rw [e] at e'; cases e'
    cases h; cases h'; simp [onStepper, stpTodo, stpLog, hs]
  | hold i =>
    simp only [stpAct, readProfile, hs, hp] at h h'
    split at h
    · rw [if_pos ‹_›, readReg_eq_next] at h'
      rw [readReg_eq_next] at h
      obtain ⟨c, e, h⟩ := h
      obtain ⟨c', e', h'⟩ := h'
      rw [e] at e'; cases e'
      cases h; cases h'; simp [onStepper, stpTodo, stpLog, hs]
    · cases h
  | _ => cases h; cases h'; simp [stpTodo, stpLog, onStepper, stpRespond, releaseProfile, releaseRamp, hs]

/-- Any number of actions of the STEPPER unit. -/
theorem runStepper_local {k : Nat} {s s' t t' : State} (hs : s'.stepper = s.stepper) (hp : s'.params = s.params)
    (h : runStepper k s = .next t) (h' : runStepper k s' = .next t') : t'.stepper = t.stepper := by
  induction k generalizing s s' with
  | zero => cases h; cases h'; exact hs
  | succ k ih =>
    cases ht : s.stepper.todo with
    | nil =>
      rw [runStepper_nil _ ht] at h
      rw [runStepper_nil _ (hs ▸ ht)] at h'
      cases h; cases h'; exact hs
    | cons op rest =>
      rw [runStepper_cons _ ht, andThen_eq_next] at h
      rw [runStepper_cons _ (hs ▸ ht), andThen_eq_next] at h'
      obtain ⟨u, hu, h⟩ := h
      obtain ⟨u', hu', h'⟩ := h'
      exact ih (stpAct_local hs hp hu hu') (by rw [(stpAct_frame hu').params, (stpAct_frame hu).params, hp]) h h'

/-- One action of the HX711 unit. -/
theorem hxAct_local {op : HxOp} {rest : List HxOp} {s s' : State} {t t' : List HxOp × State} (hs : s'.hx = s.hx)
    (hp : s'.params = s.params)
    (h : hxAct op rest s = .next t) (h' : hxAct op rest s' = .next t') : t'.1 = t.1 ∧ t'.2.hx = t.2.hx := by
  have conf : ∀ (e : Bool → Event), hxConfigure e rest s = .next t → hxConfigure e rest s' = .next t' → t'.1 = t.1 ∧
    t'.2.hx = t.2.hx := by
    intro e h h'
    simp only [hxConfigure, hxAnswer, hs] at h h'
    cases ha : s.hx.answers with
    | nil =>
      simp only [ha] at h h'
      cases hf : Config.freeHxAnswer s.hx.tick <;> simp only [hf] at h h' <;> cases h <;> cases h' <;> simp
        [hxLog, onHx, hs]
    | cons b r =>
      simp only [ha] at h h'
      cases b <;> simp only [] at h h' <;> cases h <;> cases h' <;> simp [hxLog, onHx, hs]
  cases op with
  | cfgIn p q => exact conf _ h h'
  | cfgOut p => exact conf _ h h'
  | register p => exact conf _ h h'
  | store c u =>
    cases h; cases h'
    simp [hxStore, onHx, hs]
  | poll u =>
    simp only [hxAct, pollOnce, tryEnter, hs, hp] at h h'
    split at h
    · rw [if_pos ‹_›] at h'
      cases h; cases h'; simp [hs]
    · rw [if_neg ‹_›] at h'
      cases hc : s.hx.config with
      | none => simp [hc] at h
      | some c =>
        simp only [hc, readReg_some, hxLevel, hs] at h h'
        cases ha : s.hx.levels with
        | nil =>
          simp only [ha] at h h'
          cases hf : Config.freeLevel s.hx.tick <;> simp only [hf] at h h' <;> cases h <;> cases h' <;> simp
            [hxLog, onHx, hs]
        | cons b r =>
          simp only [ha] at h h'
          cases b <;> simp only [] at h h' <;> cases h <;> cases h' <;> simp [hxLog, onHx, hs]
  | clear u => cases h; cases h'; simp [onHx, hs]
  | dataClock u =>
    simp only [hxAct, dataClockHead, readReg_eq_next, hs, hp] at h h'
    obtain ⟨c, e, n, en, h⟩ := h
    obtain ⟨c', e', n', en', h'⟩ := h'
    rw [e] at e'; cases e'
    rw [en] at en'; cases en'
    split at h
    · rw [if_pos ‹_›] at h'; cases h; cases h'; simp [hxLog, hs]
    · rw [if_neg ‹_›, readReg_eq_next] at h'
      rw [readReg_eq_next] at h
      obtain ⟨c, e, h⟩ := h
      obtain ⟨c', e', h'⟩ := h'
      rw [e] at e'; cases e'
      cases h; cases h'; simp [onHx, hs]
  | sample =>
    simp only [hxAct, sampleBit, readReg_eq_next, hs, hp] at h h'
    obtain ⟨c, e, h⟩ := h
    obtain ⟨c', e', h'⟩ := h'
    rw [e] at e'; cases e'
    simp only [hxLevel, hs] at h h'
    cases ha : s.hx.levels with
    | nil => simp only [ha] at h h'; cases h; cases h'; simp [hxLog, onHx, hs]
    | cons b r => simp only [ha] at h h'; cases h; cases h'; simp [hxLog, onHx, hs]
  | shift b =>
    simp only [hxAct, shiftBit, readReg_eq_next, hs] at h h'
    obtain ⟨c, e, n, en, h⟩ := h
    obtain ⟨c', e', n', en', h'⟩ := h'
    rw [e] at e'; cases e'
    rw [en] at en'; cases en'
    cases h; cases h'; simp [onHx, hs]
  | extraClock u v =>
    simp only [hxAct, extraClockHead, readReg_eq_next, hs, hp] at h h'
    obtain ⟨c, e, n, en, h⟩ := h
    obtain ⟨c', e', n', en', h'⟩ := h'
    rw [e] at e'; cases e'
    rw [en] at en'; cases en'
    split at h
    · rw [if_pos ‹_›] at h'; cases h; cases h'; simp [hxLog, hs]
    · rw [if_neg ‹_›] at h'; cases h; cases h'; simp [releaseCycle, onHx, hs]
  | countPulse =>
    simp only [hxAct, readReg_eq_next, hs] at h h'
    obtain ⟨c, e, h⟩ := h
    obtain ⟨c', e', h'⟩ := h'
    rw [e] at e'; cases e'
    cases h; cases h'; simp [onHx, hs]
  | deliver u v =>
    cases u with
    | respond => cases h; cases h'; simp [hxRespond, hxLog, onHx, hs]
    | emit => cases h; cases h'; simp [hxEmit, hxLog, onHx, hs]
    | average n =>
      simp only [hxAct, deliverReading, accumulate, readReg_eq_next, hs] at h h'
      obtain ⟨c, e, n, en, h⟩ := h
      obtain ⟨c', e', n', en', h'⟩ := h'
      rw [e] at e'; cases e'
      rw [en] at en'; cases en'
      split at h
      · rw [if_pos ‹_›] at h'; cases h; cases h'; simp [onHx, hs]
      · rw [if_neg ‹_›] at h'; cases h; cases h'; simp [releaseSum, hxRespond, hxLog, onHx, hs]
  | wr p b => cases h; cases h'; simp [hxLog, hs]
  | wait d => cases h; cases h'; simp [hxLog, hs]
  | resp st r => cases h; cases h'; simp [hxRespond, hxLog, onHx, hs]

/-- Any number of actions from a list. -/
theorem hxSteps_local {k : Nat} {l : List HxOp} {s s' : State} {t t' : List HxOp × State} (hs : s'.hx = s.hx)
    (hp : s'.params = s.params)
    (h : hxSteps k l s = .next t) (h' : hxSteps k l s' = .next t') : t'.1 = t.1 ∧ t'.2.hx = t.2.hx := by
  induction k generalizing s s' l with
  | zero => cases h; cases h'; exact ⟨rfl, hs⟩
  | succ k ih =>
    cases l with
    | nil => cases h; cases h'; exact ⟨rfl, hs⟩
    | cons op rest =>
      simp only [hxSteps, andThen_eq_next] at h h'
      obtain ⟨u, hu, h⟩ := h
      obtain ⟨u', hu', h'⟩ := h'
      obtain ⟨e1, e2⟩ := hxAct_local hs hp hu hu'
      rw [e1] at h'
      exact ih e2 (by rw [(hxAct_frame hu').params, (hxAct_frame hu).params, hp]) h h'

/-- Any number of actions of a host command. -/
theorem runHx_local {k : Nat} {s s' t t' : State} (hs : s'.hx = s.hx) (hp : s'.params = s.params)
    (h : runHx k s = .next t) (h' : runHx k s' = .next t') : t'.hx = t.hx := by
  rw [runHx_eq, andThen_eq_next] at h h'
  obtain ⟨u, hu, h⟩ := h
  obtain ⟨u', hu', h'⟩ := h'
  rw [hs] at hu'
  obtain ⟨e1, e2⟩ := hxSteps_local hs hp hu hu'
  cases h; cases h'; simp [hxTodo, onHx, e1, e2]

/-- Any number of actions of an edge-triggered cycle. -/
theorem runEdge_local {k : Nat} {s s' t t' : State} (hs : s'.hx = s.hx) (hp : s'.params = s.params)
    (h : runEdge k s = .next t) (h' : runEdge k s' = .next t') : t'.hx = t.hx := by
  rw [runEdge_eq, andThen_eq_next] at h h'
  obtain ⟨u, hu, h⟩ := h
  obtain ⟨u', hu', h'⟩ := h'
  rw [hs] at hu'
  obtain ⟨e1, e2⟩ := hxSteps_local hs hp hu hu'
  cases h; cases h'; simp [hxEdgeTodo, onHx, e1, e2]

end Sys2Proof.Machine
end

