-- ==== Sys2Proof/Laws/PerInstr.lean ====
section
/-! SUPPORT. Statements made for every command, one lemma a constructor: the record a command is presented with has the
layout that its word alone gives (spec/30_encoding.md R83, R91), and the command belongs on exactly one port (R82). -/

namespace Sys2Proof.Laws.Layout

/-- The type of a record's value (R83). -/
def argType : ArgVal → ArgType
  | .u8 _ => .u8
  | .u32 _ => .u32
  | .bit _ => .bit
  | .f64 _ => .f64

/-- The record of a command is of its word's layout, and one of the two ports alone takes the command. -/
def Statement (i : Instr) : Prop :=
  i.record.map argType = i.opcode.layout ∧ i.wellFormed .command = !i.wellFormed .event

theorem stpConfig (a : StpConfigArgs) : Statement (.stpConfig a) := ⟨rfl, rfl⟩
theorem msEncode (m : Model) (d : Count) : Statement (.msEncode m d) := ⟨rfl, rfl⟩
theorem stpSetMicrostep (d : Count) : Statement (.stpSetMicrostep d) := ⟨rfl, rfl⟩
theorem ramp (n : Count) (rpm : F64) : Statement (.ramp n rpm) := ⟨rfl, rfl⟩
theorem wake : Statement .wake := ⟨rfl, rfl⟩
theorem sleep : Statement .sleep := ⟨rfl, rfl⟩
theorem step (n : Count) (d : Bool) (rpm : F64) (r : Bool) : Statement (.step n d rpm r) := ⟨rfl, rfl⟩
theorem stpCancel : Statement .stpCancel := ⟨rfl, rfl⟩
theorem hxConfig (a : HxConfigArgs) : Statement (.hxConfig a) := ⟨rfl, rfl⟩
theorem hxReadCycle : Statement .hxReadCycle := ⟨rfl, rfl⟩
theorem hxGetReading (n : Count) : Statement (.hxGetReading n) := ⟨rfl, rfl⟩
theorem hxEdge : Statement .hxEdge := ⟨rfl, rfl⟩

end Sys2Proof.Laws.Layout
end

