-- ==== Sys2Proof/Laws/Step.lean ====
section
/-! SUPPORT. Everything one step can do. -/

namespace Sys2Proof.Machine

/-- Drawing a turn changes the scheduler's fields alone. -/
theorem drawTurn_eq (s : State) : ∃ m turns quantum tick,
    drawTurn s = (m, { s with turns := turns, quantum := quantum, tick := tick }) := by
  unfold drawTurn
  split
  · exact ⟨_, _, _, s.tick, rfl⟩
  · exact ⟨_, s.turns, _, _, rfl⟩

/-- A reserved word at an idle STEPPER unit. -/
theorem stpUnknown_eq {s : State} (h : s.stepper.busy = false) : stpUnknown s =
    runStepper s.quantum (stpRaise .unknownCommand (onStepper (fun x => { x with busy := true }) s)) := by
  simp [stpUnknown, acceptStepper, h]

/-- A reserved word at an idle HX711 unit. -/
theorem hxUnknown_eq {s : State} (h : s.hx.busy = false) : hxUnknown s =
    runHx s.quantum (hxRaise .unknownCommand (onHx (fun x => { x with busy := true }) s)) := by
  simp [hxUnknown, acceptHx, h]

/-- What one move does once its turn is drawn (spec/60_exceptions.md R235). -/
inductive Moved (s : State) (t : Outcome) : Prop
  /-- Nothing to do, or a command that has to wait. -/
  | idle (h : t = .next s)
  /-- The host's next command is accepted. -/
  | present (i : Instr) (c : HostCommand) (ps : List HostCommand) (hp : s.program = c :: ps)
      (hd : decode .command c.word c.args = .instr i) (hc : canAccept i s = true)
      (h : t = exec i { s with program := ps })
  /-- The host's next word is reserved, and its addressee answers. -/
  | reserved (c : HostCommand) (ps : List HostCommand) (hp : s.program = c :: ps)
      (hd : decode .command c.word c.args = .reserved ∨
        decode .command c.word c.args = .malformed ∧ cancelReserved c.word s = true)
      (h : (unitField c.word = 1 ∧ s.stepper.busy = false ∧ t = runStepper s.quantum
          (stpRaise .unknownCommand (onStepper (fun x => { x with busy := true }) { s with program := ps }))) ∨
        (unitField c.word = 2 ∧ s.hx.busy = false ∧ t = runHx s.quantum
          (hxRaise .unknownCommand (onHx (fun x => { x with busy := true }) { s with program := ps }))) ∨
        (unitField c.word ≠ 1 ∧ unitField c.word ≠ 2 ∧ t = .next (hostUnknown { s with program := ps })))
  /-- No such presentation exists. -/
  | malformed (h : t = .refused .malformedRecord)
  | cancel (hc : canAccept .stpCancel s = true) (h : t = exec .stpCancel s)
  | edge (he : s.hx.edgeTodo = []) (h : t = exec .hxEdge s)
  | stepper (h : t = runStepper s.quantum s)
  | hx711 (h : t = runHx s.quantum s)
  | cycle (h : t = runEdge s.quantum s)
  /-- An agent outside the block writes a pin. -/
  | outside (p : Pin) (h : t = outsideWrite p s)
  /-- An agent outside the block gives a pin up. -/
  | release (p : Pin) (h : t = .next (outsideRelease p s))

/-- A reserved word waits, or its addressee answers. -/
theorem presentReserved_moved {d : State} {c : HostCommand} {ps : List HostCommand} (hp : d.program = c :: ps)
    (hd : decode .command c.word c.args = .reserved ∨
      decode .command c.word c.args = .malformed ∧ cancelReserved c.word d = true) :
    Moved d (presentReserved c.word { d with program := ps } d) := by
  unfold presentReserved
  by_cases h1 : unitField c.word = 1
  · simp only [h1, if_true]
    cases hb : d.stepper.busy
    · exact .reserved c ps hp hd (.inl ⟨h1, hb, stpUnknown_eq hb⟩)
    · exact .idle rfl
  · simp only [h1, if_false]
    by_cases h2 : unitField c.word = 2
    · simp only [h2, if_true]
      cases hb : d.hx.busy
      · exact .reserved c ps hp hd (.inr (.inl ⟨h2, hb, hxUnknown_eq hb⟩))
      · exact .idle rfl
    · simp only [h2, if_false]
      exact .reserved c ps hp hd (.inr (.inr ⟨h1, h2, rfl⟩))

/-- The inversion of `step`: a turn is drawn, and one move made. -/
theorem step_cases (s : State) : ∃ turns quantum tick,
    Moved { s with turns := turns, quantum := quantum, tick := tick } (step s) := by
  obtain ⟨m, turns, quantum, tick, hd⟩ := drawTurn_eq s
  refine ⟨turns, quantum, tick, ?_⟩
  unfold step fetch
  rw [hd]
  generalize { s with turns := turns, quantum := quantum, tick := tick } = d
  cases m with
  | present =>
    simp only [moveOf, presentNext]
    cases hp : d.program with
    | nil => exact .idle rfl
    | cons c ps =>
      cases hdec : decode .command c.word c.args with
      | instr i =>
        by_cases hc : canAccept i d = true
        · simp only [hdec, hc, if_true]; exact .present i c ps hp hdec hc rfl
        · simp only [hdec, hc]; exact .idle rfl
      | reserved =>
        simp only [hdec]; exact presentReserved_moved hp (.inl hdec)
      | malformed =>
        simp only [hdec]
        split
        · rename_i hc; exact presentReserved_moved hp (.inr ⟨hdec, hc⟩)
        · exact .malformed rfl
  | cancel =>
    simp only [moveOf]
    by_cases hc : canAccept .stpCancel d = true
    · simp only [hc, if_true]; exact .cancel hc rfl
    · simp only [hc]; exact .idle rfl
  | stepper => exact .stepper rfl
  | hx711 => exact .hx711 rfl
  | edge =>
    simp only [moveOf]
    cases he : d.hx.edgeTodo with
    | nil => exact .edge he rfl
    | cons op rest => exact .cycle rfl
  | outside p => exact .outside p rfl
  | release p => exact .release p rfl

/-- The frame of any command: the STEPPER unit's or the HX711 unit's (spec/10_state.md R42). -/
theorem exec_frame {i : Instr} {s t : State} (h : exec i s = .next t) :
    (i.opcode ∈ [.stpConfig, .msEncode, .stpSetMicrostep, .ramp, .wake, .sleep, .step, .stpCancel] ∧ StpFrame s t) ∨
    (i.opcode ∈ [.hxConfig, .hxReadCycle, .hxGetReading, .hxEdge] ∧ HxFrame s t) := by
  by_cases h1 : i.opcode ∈ [Opcode.stpConfig, .msEncode, .stpSetMicrostep, .ramp, .wake, .sleep, .step]
  · refine .inl ⟨by simp at h1 ⊢; tauto, ?_⟩
    rcases exec_begun h1 h with ⟨_, rfl⟩ | ⟨_, u, hu, hr⟩
    · exact StpFrame.refl _
    · exact ((StpFrame.of_stepper (fun x => { x with busy := true }) rfl).trans hu.outside).trans (runStepper_frame hr)
  · by_cases h2 : i.opcode ∈ [Opcode.hxConfig, .hxReadCycle, .hxGetReading]
    · refine .inr ⟨by simp at h2 ⊢; tauto, ?_⟩
      rcases exec_hxBegun h2 h with ⟨_, rfl⟩ | ⟨_, _, u, hu, hr⟩
      · exact HxFrame.refl _
      · exact ((HxFrame.of_hx (fun x => { x with busy := true }) rfl).trans hu.outside).trans (runHx_frame hr)
    · cases i <;> simp [Instr.opcode] at h1 h2
      · refine .inl ⟨by simp [Instr.opcode], ?_⟩
        rcases exec_stpCancel h with ⟨_, rfl⟩ | ⟨_, _, rfl⟩ | ⟨_, _, hr⟩
        · exact ⟨rfl, rfl, rfl, rfl, rfl, rfl, rfl, rfl, rfl, [_], rfl, rfl⟩
        · exact StpFrame.refl _
        · exact (StpFrame.of_stepper (fun x => { x with busy := true, todo := [.resp .unknownCommand .none] })
            rfl).trans (runStepper_frame hr)
      · refine .inr ⟨by simp [Instr.opcode], ?_⟩
        rcases exec_hxEdge h with ⟨_, rfl⟩ | ⟨_, _, hu | ⟨u, hu, hr⟩⟩
        · exact HxFrame.refl _
        · exact tryEnter_frame hu
        · exact ((tryEnter_frame hu).trans (HxFrame.of_hx _ rfl)).trans (runEdge_frame hr)

end Sys2Proof.Machine
end

