-- ==== Sys2Proof/Tests/Slice0.lean ====
section
/-! SUPPORT. Tests. Expected values come from the spec: the encodings of spec/30_encoding.md R82, R83 and R92, and the
vectors V-… of spec/95_test_vectors.md. Then, for each statement with hypotheses, a witness that meets them. -/

namespace Sys2Proof.Tests

open Sys2Proof Sys2Proof.Machine

/-! ### Well-formed commands: each is refused on the other port -/

theorem test_wellFormed_command : Instr.wake.wellFormed .command = true := by decide
theorem test_illFormed_wake_on_event_port : Instr.wake.wellFormed .event = false := by decide
theorem test_illFormed_edge_on_command_port : Instr.hxEdge.wellFormed .command = false := by decide
theorem test_wellFormed_edge : Instr.hxEdge.wellFormed .event = true := by decide

/-! ### Decoding: words and records written out from R82 and R83 -/

/-- CFG-A of spec/95_test_vectors.md: 100.0 is 0x4059000000000000, 10.0 is 0x4024000000000000. -/
def argsA : StpConfigArgs := ⟨20, 21, true, 16, 14, 15, 18, 200, 0x4059000000000000#64, 0x4024000000000000#64, 1,
    .drv8825⟩

/-- Program 1, command 1. -/
theorem test_decode_stpConfig : decode .command 0b00010000
    [.u8 20, .u8 21, .bit true, .u8 16, .u8 14, .u8 15, .u8 18, .u32 200, .f64 0x4059000000000000#64,
     .f64 0x4024000000000000#64, .u32 1, .bit true] = .instr (.stpConfig argsA) := by decide
/-- Program 3, command 2. -/
theorem test_decode_msEncode :
    decode .command 0b00010001 [.bit false, .u32 16] = .instr (.msEncode .a4988 16) := by decide
/-- Program 3, command 9. -/
theorem test_decode_stpSetMicrostep : decode .command 0b00010010 [.u32 16] = .instr (.stpSetMicrostep 16) := by decide
/-- Program 1, command 2. -/
theorem test_decode_ramp : decode .command 0b00010011 [.u32 5, .f64 0x408F400000000000#64] =
    .instr (.ramp 5 0x408F400000000000#64) := by decide
theorem test_decode_wake : decode .command 0b00010100 [] = .instr .wake := by decide
theorem test_decode_sleep : decode .command 0b00010101 [] = .instr .sleep := by decide
/-- Program 1, command 4. -/
theorem test_decode_step : decode .command 0b00010110 [.u32 2, .bit false, .f64 0x404E000000000000#64, .bit false] =
    .instr (.step 2 false 0x404E000000000000#64 false) := by decide
theorem test_decode_stpCancel : decode .command 0b00010111 [] = .instr .stpCancel := by decide
/-- Program 2, command 2. -/
theorem test_decode_hxConfig : decode .command 0b00100000 [.u8 5, .u8 6, .bit true, .u8 32, .bit false] =
    .instr (.hxConfig ⟨5, 6, .b, 32, false⟩) := by decide
theorem test_decode_hxReadCycle : decode .command 0b00100001 [] = .instr .hxReadCycle := by decide
/-- Program 2, command 3. -/
theorem test_decode_hxGetReading : decode .command 0b00100010 [.u32 2] = .instr (.hxGetReading 2) := by decide
theorem test_decode_hxEdge : decode .event 0b00100011 [] = .instr .hxEdge := by decide
/-- R89: the first and last reserved words of each unit, words of no unit, and 0x23 on the command port. -/
theorem test_decode_reserved : ([0x18, 0x1F, 0x24, 0x2F, 0x00, 0x0F, 0x30, 0xFF, 0x23] : List (BitVec 8)).all
    (fun w => decode .command w [] == .reserved) = true := by decide
/-- R83, R91: a record one field short, one with a field too many, one with a field of another type. -/
theorem test_decode_malformed : decode .command 0x13 [.u32 5] = .malformed ∧ decode .command 0x14 [.bit true] =
    .malformed ∧
    decode .command 0x12 [.u8 4] = .malformed := by decide
theorem test_decodeTableWord : decodeTableWord 8 0x22 = some (.hxGetReading 0) ∧ decodeTableWord 8 0x23 = some .hxEdge ∧
    decodeTableWord 8 0x18 = none := by decide
/-- R92's syntax on Program 1, commands 1 and 2, with the defaults of `model` and of a sleep pin given. -/
theorem test_assemble : assemble ("STP_CONFIG dir_pin=20, step_pin=21, sleep_pin=16, ms_pin0=14, "
      ++ "ms_pin1=15, ms_pin2=18, "
      ++ "steps_per_rev=200, acceleration=100, starting_rpm=10, microstep=1") = some (encode (.stpConfig argsA)) ∧
    assemble "RAMP n_steps=5, target_rpm=1000" = some (encode (.ramp 5 0x408F400000000000#64)) := by decide +kernel

/-! ### States and what they are asked for -/

/-- The registers CFG-A leaves. -/
def configA : StepperConfig := ⟨20, 21, 0x110, 14, 15, 18, 200, 0x4059000000000000#64, 0x4024000000000000#64, .drv8825,
    1, 0⟩

/-- CFG-A without a sleep pin. -/
def configN : StepperConfig := { configA with sleepPin := 0 }

/-- A STEPPER unit configured and in a power state, its Pin Controller answering ok, with actions enough. -/
def stepperA (c : StepperConfig) (w : Power) : State :=
  { State.reset with
    stepper := { Stepper.reset with cfgd := true, config := some c, power := some w, answers := List.replicate 6 true }
    quantum := 300 }

/-- The registers V-H2 leaves: B/32. -/
def configB : HxConfig := ⟨5, 6, .b, 32, 2⟩

/-- An HX711 unit configured as V-H2, with these levels to read. -/
def hxB (levels : List Level) : State :=
  { State.reset with
    hx := { Hx711.reset with cfgd := true, config := some configB, edgeEn := true, levels := levels }
    quantum := 2000 }

/-- A unit's answers, with actions enough. -/
def answering (stp hx : List Bool) : State :=
  { State.reset with
    stepper := { Stepper.reset with answers := stp }, hx := { Hx711.reset with answers := hx }, quantum := 300 }

/-- An `HX_CONFIG` of pins 5 and 6 accepted, and no action of it performed yet. -/
def hxConfiguring : State :=
  onHx (fun x => { x with busy := true, todo := hxConfigBody Params.reference ⟨5, 6, .b, 32, true⟩ 2 }) (answering [] [])

/-- The STEPPER trace of an outcome. -/
def stpTrace (o : Outcome) : Option (List Event) :=
  match o with
  | .next t => some t.stepper.trace
  | .fault _ | .refused _ => none

/-- The HX711 trace of an outcome. -/
def hxTrace (o : Outcome) : Option (List Event) :=
  match o with
  | .next t => some t.hx.trace
  | .fault _ | .refused _ => none

/-- A field of a next state. -/
def after {α : Type} (f : State → α) (o : Outcome) : Option α :=
  match o with
  | .next t => some (f t)
  | .fault _ | .refused _ => none

/-- How an outcome stops, where it does. -/
def stopped (o : Outcome) : Option (Fault ⊕ Refusal) :=
  match o with
  | .next _ => none
  | .fault f => some (.inl f)
  | .refused r => some (.inr r)

/-- A turn of HOST that presents a word with no arguments. -/
def presenting (w : BitVec 8) : State :=
  { State.reset with turns := [⟨.present, 100⟩], program := [⟨w, []⟩] }

/-! ### STEPPER commands -/

/-- V-C1. -/
theorem test_stpConfig : stpTrace (exec (.stpConfig argsA) (answering (List.replicate 6 true) [])) =
    some [.cfgOut 20 true, .cfgOut 21 true, .cfgOut 16 true, .cfgOut 14 true, .cfgOut 15 true, .cfgOut 18 true,
      .wr 14 false, .wr 15 false, .wr 18 false, .resp .ok .none] ∧
    -- R104, S3 of R23: without `sleep_valid` PIN still holds the argument.
    (after (fun t => t.stepper.config.map (·.sleepPin)) (exec (.stpConfig { argsA with sleepValid := false })
      (answering (List.replicate 5 true) []))) = some (some 0x010) := by decide +kernel
/-- V-C13; R67 against a configuration in progress and a pin held outside; R22 on a configuration that is unset. -/
theorem test_stpConfig_fail : stpTrace (exec (.stpConfig argsA) (answering [true, true, false] [])) =
    some [.cfgOut 20 true, .cfgOut 21 true, .cfgOut 16 false, .resp .hardwareUnavailable .none] ∧
    stopped (exec (.stpConfig { argsA with dirPin := 6 }) hxConfiguring) = some (.inr .pinOverlap) ∧
    stopped (exec (.stpConfig argsA) { answering [] [] with outsidePins := [20] }) = some (.inr .pinOverlap) ∧
    stopped (exec (.stpConfig argsA) (onHx (fun x => { x with cfgd := true }) (answering [] []))) =
      some (.inl (.unsetRegister .hxConfig)) := by decide +kernel
/-- V-M1. -/
theorem test_msEncode :
    stpTrace (exec (.msEncode .a4988 16) (answering [] [])) = some [.resp .ok (.pattern 0b111)] := by decide +kernel
/-- V-M3. -/
theorem test_msEncode_invalid :
    stpTrace (exec (.msEncode .a4988 0) (answering [] [])) = some [.resp .invalidConfiguration .none] :=
        by decide +kernel
/-- Section 2.3: microstep 4. -/
theorem test_stpSetMicrostep : stpTrace (exec (.stpSetMicrostep 4) (stepperA configA .awake)) =
    some [.cfgOut 14 true, .cfgOut 15 true, .cfgOut 18 true, .wr 14 false, .wr 15 true, .wr 18 false,
      .resp .ok .none] := by decide +kernel
theorem test_stpSetMicrostep_registers :
    after (fun t => t.stepper.config) (exec (.stpSetMicrostep 4) (stepperA configA .awake)) =
      some (some { configA with microstep := 4, msPattern := 0b010 }) := by decide +kernel
/-- V-R2: the full trapezoid, its decimals as bit patterns. -/
theorem test_ramp : stpTrace (exec (.ramp 12 0x4034000000000000#64) (stepperA configA .asleep)) =
    some [.resp .ok (.profile
      [0x3F9EB851EB851EB8#64, 0x3F97A17A17A17A18#64, 0x3F94117ED79B24CB#64, 0x3F91CA6870AE5825#64,
          0x3F902A0EAB751031#64, 0x3F8EB851EB851EB8#64,
       0x3F8EB851EB851EB8#64, 0x3F902A0EAB751031#64, 0x3F91CA6870AE5825#64, 0x3F94117ED79B24CB#64,
           0x3F97A17A17A17A18#64, 0x3F9EB851EB851EB8#64])] := by decide +kernel
/-- V-R9: a target below the starting speed. -/
theorem test_ramp_degenerate : stpTrace (exec (.ramp 2 0x4022000000000000#64) (stepperA configA .asleep)) =
    some [.resp .ok (.profile [0x3FA1111111111111#64, 0x3FA1111111111111#64])] := by decide +kernel
/-- V-W1. -/
theorem test_wake : stpTrace (exec .wake (stepperA configA .asleep)) =
    some [.wr 16 true, .wait State.reset.params.tSettle, .resp .ok .none] := by decide +kernel
/-- V-W5. -/
theorem test_wake_no_pin : stpTrace (exec .wake (stepperA configN .asleep)) = some [.resp .ok .none] :=
    by decide +kernel
/-- V-W3. -/
theorem test_sleep : stpTrace (exec .sleep (stepperA configA .awake)) = some [.wr 16 false, .resp .ok .none] := by
  decide +kernel
/-- V-W6. -/
theorem test_sleep_power : after (fun t => t.stepper.power) (exec .sleep (stepperA configN .awake)) =
    some (some .asleep) := by decide +kernel
/-- V-T1. -/
theorem test_step : stpTrace (exec (.step 4 true 0x408F400000000000#64 true) (stepperA configA .asleep)) =
    some [.wr 16 true, .wait State.reset.params.tSettle, .wr 20 true,
      .wr 21 true, .wr 21 false, .wait 0x3F9EB851EB851EB8#64, .wr 21 true, .wr 21 false, .wait 0x3F97A17A17A17A18#64,
      .wr 21 true, .wr 21 false, .wait 0x3F97A17A17A17A18#64, .wr 21 true, .wr 21 false, .wait 0x3F9EB851EB851EB8#64,
      .resp .ok (.pulses 4)] := by decide +kernel
/-- V-T3: 0.005 is 0x3F747AE147AE147B. -/
theorem test_step_constant : stpTrace (exec (.step 3 false 0x404E000000000000#64 false) (stepperA configA .asleep)) =
    some ([.wr 16 true, .wait State.reset.params.tSettle, .wr 20 false] ++
      (List.replicate 3 [Event.wr 21 true, .wr 21 false, .wait 0x3F747AE147AE147B#64]).flatten ++
      [.resp .ok (.pulses 3)]) := by decide +kernel
/-- V-K5: no `STEP` runs, so nothing is recorded. -/
theorem test_stpCancel_idle : after (fun t => (t.stepper.cancelReq, t.stepper.trace))
    (exec .stpCancel (answering [] [])) =
    some (false, [.resp .ok .none]) := by decide +kernel
/-- V-K2's request: recorded while the `STEP` wakes the driver, its BUSY left as it is. -/
theorem test_stpCancel_running : after (fun t => (t.stepper.cancelReq, t.stepper.busy))
    (exec .stpCancel (onStepper (fun x => { x with busy := true, sqPhase := .wake }) (stepperA configA .asleep))) =
      some (true, true) := by decide +kernel

/-! ### HX711 commands -/

/-- V-H2. -/
theorem test_hxConfig : hxTrace (exec (.hxConfig ⟨5, 6, .b, 32, true⟩) (answering [] (List.replicate 3 true))) =
    some [.cfgIn 5 .none true, .cfgOut 6 true, .wr 6 false, .edge 5 .falling true, .resp .ok .none] := by decide +kernel
/-- V-H7. -/
theorem test_hxConfig_fail : after (fun t => (t.hx.trace, t.hx.cfgd, t.hx.edgeEn))
    (exec (.hxConfig ⟨5, 6, .b, 32, true⟩) (answering [] [true, true, false])) =
      some ([.cfgIn 5 .none true, .cfgOut 6 true, .wr 6 false, .edge 5 .falling false,
        .resp .hardwareUnavailable .none], false, false) := by decide +kernel
/-- V-X2: raw 0x800000. -/
theorem test_hxReadCycle : hxTrace (exec .hxReadCycle (hxB ([true, true, false] ++ true :: List.replicate 23 false))) =
    some ([.rd 5 true, .rd 5 true, .rd 5 false, .wr 6 true, .wr 6 false, .rd 5 true] ++
      (List.replicate 23 [Event.wr 6 true, .wr 6 false, .rd 5 false]).flatten ++
      [.wr 6 true, .wr 6 false, .wr 6 true, .wr 6 false] ++ [.resp .ok (.reading (-8388608))]) := by decide +kernel
/-- V-X4's waits: 0.0001 is 0x3F1A36E2EB1C432D, 0.000001 is 0x3EB0C6F7A0B5ED8D. -/
theorem test_hxReadCycle_waits :
    let s := hxB ([true, false] ++ List.replicate 24 false)
    let p : Params := { s.params with
      tPoll := 0x3F1A36E2EB1C432D#64, tHxHigh := 0x3EB0C6F7A0B5ED8D#64, tHxLow := 0x3EB0C6F7A0B5ED8D#64 }
    (hxTrace (exec .hxReadCycle { s with params := p })).map (·.take 8) =
      some [.rd 5 true, .wait 0x3F1A36E2EB1C432D#64, .rd 5 false, .wr 6 true, .wait 0x3EB0C6F7A0B5ED8D#64, .wr 6 false,
        .rd 5 false, .wait 0x3EB0C6F7A0B5ED8D#64] := by decide +kernel
/-- V-G3: -2 and -1; -1.5 is 0xBFF8000000000000. -/
theorem test_hxGetReading : after (fun t => t.hx.response) (exec (.hxGetReading 2)
    (hxB (false :: List.replicate 23 true ++ [false] ++ false :: List.replicate 24 true))) =
      some (some ⟨.ok, .mean 0xBFF8000000000000#64⟩) := by decide +kernel
/-- V-G4's mean: 1, 0, 0; 0.3333333333333333 is 0x3FD5555555555555. -/
theorem test_hxGetReading_rounds : after (fun t => t.hx.response) (exec (.hxGetReading 3)
    (hxB (List.replicate 24 false ++ [true] ++ List.replicate 50 false))) =
      some (some ⟨.ok, .mean 0x3FD5555555555555#64⟩) := by decide +kernel
/-- V-E1. -/
theorem test_hxEdge : after (fun t => (t.hx.trace, t.hx.resultPort, t.hx.response))
    (exec .hxEdge (hxB (List.replicate 24 false ++ [true]))) =
      some ([.rd 5 false] ++ (List.replicate 23 [Event.wr 6 true, .wr 6 false, .rd 5 false]).flatten ++
        [.wr 6 true, .wr 6 false, .rd 5 true, .wr 6 true, .wr 6 false, .wr 6 true, .wr 6 false, .emit 1],
        some 1, none) := by decide +kernel
/-- V-E3; and a new cycle behind an `Emit` still to come (R195): neither is lost. -/
theorem test_hxEdge_glitch : after (fun t => (t.hx.trace, t.hx.resultPort)) (exec .hxEdge (hxB [true])) =
    some ([.rd 5 true], none) ∧
    after (fun t => (t.hx.resultPort, t.hx.reading, t.hx.edgeTodo))
      (exec .hxEdge { hxEdgeTodo [.deliver .emit 7] (hxB [false]) with quantum := 1 }) =
      some (some 7, true, [.clear .emit]) := by decide +kernel

/-! ### Words the host presents -/

/-- V-Z1. -/
theorem test_reserved_host_port : after (fun t => t.hostTrace) (step (presenting 0x00)) =
    some [.resp .unknownCommand .none] := by decide +kernel
/-- V-Z4; and R160's `0x17` without `HAS_CANCEL`, beside a record. -/
theorem test_reserved_stepper : stpTrace (step (presenting 0x18)) = some [.resp .unknownCommand .none] ∧
    stpTrace (step { presenting 0x17 with
      program := [⟨0x17, [.bit true]⟩], params := { Params.reference with hasCancel := false } }) =
      some [.resp .unknownCommand .none] := by decide +kernel
/-- V-Z8. -/
theorem test_edge_word_from_host : hxTrace (step (presenting 0x23)) = some [.resp .unknownCommand .none] :=
    by decide +kernel
/-- The first command after power-on. -/
theorem test_first_command : stpTrace (step (State.reset.withFetchWord 8 0x14)) =
    some [.resp .notConfigured .none] := by decide +kernel

/-- R67: a turn of an outside agent holds a free pin and the next gives it up; a pin of a configuration in progress it
may not write. -/
theorem test_outside_turns :
    after (·.outsidePins) (step { answering [] [] with turns := [⟨.outside 20, 0⟩] }) = some [20] ∧
    after (·.outsidePins) (step { answering [] [] with outsidePins := [20], turns := [⟨.release 20, 0⟩] }) = some [] ∧
    stopped (step { hxConfiguring with turns := [⟨.outside 6, 0⟩] }) = some (.inr .outsideWriter) := by decide +kernel

/-! ### Witnesses: for each statement with hypotheses, a state and operands that meet them -/

/-- The state with these turns. -/
def turning (m : Move) (s : State) : State := { s with turns := [⟨m, 100⟩] }

/-- A program of one command, presented in the next turn. -/
def programmed (i : Instr) (s : State) : State := { turning .present s with program := [encode i] }

/-- A `STEP` of one pulse under way, its step pin high, of a profile of two delays of 0.03. -/
def pulsing (cancel : Bool) : State :=
  onStepper (fun x => { x with
    busy := true, cancelReq := cancel, sqPhase := .pulse, sqIndex := 0, profLen := some 2
    prof := [(0, 0x3F9EB851EB851EB8#64), (1, 0x3F9EB851EB851EB8#64)]
    todo := pulseRest State.reset.params 0 }) (stepperA configA .awake)

/-- An outcome the kernel evaluates to a next state is one. -/
theorem next_of_after {o : Outcome} (h : after (fun _ => ()) o = some ()) : ∃ t, o = .next t := by
  cases o with
  | next t => exact ⟨t, rfl⟩
  | fault _ | refused _ => cases h

theorem configA_good : stepperConfigGood configA := by unfold stepperConfigGood; decide +kernel
theorem configB_good : hxConfigGood configB := by unfold hxConfigGood; decide +kernel

/-- Both units configured, the STEPPER unit's actions left in the middle of a pulse. -/
theorem pulsing_inv : Inv { pulsing false with hx := (hxB []).hx } := by
  refine ⟨⟨fun _ => ⟨⟨configA, rfl, configA_good⟩, ?_⟩, ?_, ?_, ?_, ?_⟩,
    ⟨fun _ => ⟨configB, rfl, configB_good⟩, fun _ => rfl, rfl, rfl, trivial, trivial, rfl, rfl⟩,
    ⟨fun p h h' => ?_, fun _ h => (by cases h)⟩, List.nodup_nil⟩
  · decide
  · decide +kernel
  · decide
  · decide +kernel
  · have e : (pulsing false).stepper.todo = [.pulseLow, .hold 0, .pulse] := by decide +kernel
    have r : profileReady (2 ^ 32 - 1) (pulsing false).stepper.profLen (pulsing false).stepper.prof := by
      refine ⟨2, rfl, by decide, fun i hi => ?_⟩
      have : i = 0 ∨ i = 1 := by have : i < 2 := hi; omega
      rcases this with rfl | rfl <;> exact ⟨_, rfl⟩
    show stpTodoGood _ _ _ _ (pulsing false).stepper.todo
    rw [e]
    exact ⟨by decide, by decide, ⟨2, rfl, by decide⟩, r, by decide, r, by decide, rfl⟩
  · rcases h' with ⟨d, _, hd, hq⟩ | ⟨d, _, hd, _⟩
    · rcases h with ⟨c, _, hc, hp⟩ | ⟨c, hc, _⟩
      · cases hc; cases hd
        exact (by decide +kernel : ∀ p ∈ stepperPins configA, p ∉ hxPins configB) p hp hq
      · rw [show (pulsing false).stepper.todo = [.pulseLow, .hold 0, .pulse] by decide +kernel] at hc
        simp at hc
    · cases hd

theorem witness_DecodeOfEncode : (Instr.step 5 true 0x408F400000000000#64 true).wellFormed .command = true ∧
    Instr.hxEdge.wellFormed .event = true := by decide
theorem witness_EncodeOfDecode : decode .command 0x13 [.u32 12, .f64 0x4034000000000000#64] =
    .instr (.ramp 12 0x4034000000000000#64) ∧ decode .event 0x23 [] = .instr .hxEdge := by decide
theorem witness_DecodeTotalAndUnique : Opcode.step.word = Opcode.step.word := rfl
theorem witness_PresentTurnRunsCommand :
    let s := programmed .sleep (stepperA configA .awake)
    s.turns = ⟨.present, 100⟩ :: [] ∧ s.program = ⟨0x15, []⟩ :: [] ∧ decode .command 0x15 [] = .instr .sleep ∧
      canAccept .sleep s = true ∧ canAccept .sleep (onStepper (fun x => { x with busy := true }) s) = false := by
  decide +kernel
theorem witness_EventTurnsRunTheirCommands :
    ((turning .edge (hxB [])).turns = ⟨.edge, 100⟩ :: [] ∧ (turning .edge (hxB [])).hx.edgeTodo = []) ∧
    ((turning .cancel (hxB [])).turns = ⟨.cancel, 100⟩ :: [] ∧ (turning .cancel (hxB [])).params.hasCancel = true) := by
  decide +kernel
theorem witness_UnitTurnsContinueTheirCommands :
    (turning .stepper (pulsing false)).turns = ⟨.stepper, 100⟩ :: [] ∧
    (turning .hx711 (hxB [])).turns = ⟨.hx711, 100⟩ :: [] ∧
    (turning .edge (hxEdgeTodo [.clear .emit] (hxB []))).turns = ⟨.edge, 100⟩ :: [] ∧
    (turning .edge (hxEdgeTodo [.clear .emit] (hxB []))).hx.edgeTodo ≠ [] := by decide +kernel
theorem witness_BusyUnitMakesHostWait :
    (Instr.wake.opcode ∈ [Opcode.stpConfig, .msEncode, .stpSetMicrostep, .ramp, .wake, .sleep, .step] ∧
      (pulsing false).stepper.busy = true) ∧
    (Instr.hxReadCycle.opcode ∈ [Opcode.hxConfig, .hxReadCycle, .hxGetReading] ∧
      (onHx (fun x => { x with busy := true }) (hxB [])).hx.busy = true) ∧
    ((Instr.hxConfig ⟨5, 6, .b, 32, true⟩).opcode = .hxConfig ∧
      (onHx (fun x => { x with reading := true }) (hxB [])).hx.reading = true) ∧
    (Instr.stpCancel.opcode ∈ [Opcode.stpConfig, .msEncode, .stpSetMicrostep, .ramp, .wake, .sleep, .step, .stpCancel] ∧
      State.reset.stepper.busy = false) ∧
    (Instr.hxReadCycle.opcode ∈ [Opcode.hxReadCycle, .hxGetReading] ∧ (hxB []).hx.busy = false ∧
      (hxB []).hx.reading = false) := by decide +kernel
theorem witness_AcceptanceSetsBusy :
    (∃ t, exec .wake { stepperA configA .asleep with quantum := 0 } = .next t) ∧
    (∃ t, exec .hxReadCycle { hxB [] with quantum := 0 } = .next t) ∧
    (∃ t, exec (.hxConfig ⟨5, 6, .b, 32, true⟩) { hxB [] with quantum := 0 } = .next t) ∧
    (stepperA configA .asleep).stepper.busy = false ∧ (hxB []).hx.busy = false ∧ (hxB []).hx.reading = false :=
  ⟨⟨_, rfl⟩, ⟨_, rfl⟩, ⟨_, rfl⟩, rfl, rfl, rfl⟩
theorem witness_ReservedWordAnswered :
    (reservedWord 0x18 ∧ unitField 0x18 = 1 ∧ (presenting 0x18).stepper.busy = false) ∧
    (reservedWord 0x23 ∧ unitField 0x23 = 2 ∧ (presenting 0x23).hx.busy = false) ∧
    (reservedWord 0xFF ∧ unitField 0xFF ≠ 1 ∧ unitField 0xFF ≠ 2) ∧
    (let s : State := { presenting 0x17 with params := { Params.reference with hasCancel := false } }
     s.program = ⟨0x17, []⟩ :: [] ∧ s.params.hasCancel = false ∧ unitField 0x17 = 1) ∧
    ((onStepper (fun x => { x with busy := true }) (presenting 0x18)).stepper.busy = true ∧
      (onHx (fun x => { x with busy := true }) (presenting 0x23)).hx.busy = true) ∧
    (presenting 0x18).turns = ⟨.present, 99 + 1⟩ :: [] ∧ (presenting 0x18).program = ⟨0x18, []⟩ :: [] := by
  unfold reservedWord; decide +kernel
theorem witness_EveryStepKeepsTheInvariant : Inv { pulsing false with hx := (hxB []).hx } ∧
    ∃ t, step (turning .stepper { pulsing false with hx := (hxB []).hx }) = .next t := ⟨pulsing_inv, ⟨_, rfl⟩⟩
theorem witness_NoStepReadsAnUnsetRegister : Inv { pulsing false with hx := (hxB []).hx } ∧
    step (programmed (.hxConfig ⟨5, 5, .b, 32, true⟩) (hxB [])) = .refused .pinOverlap ∧
    step { turning .present (hxB []) with program := [⟨0x22, []⟩] } = .refused .malformedRecord ∧
    step (turning (.outside 20) (stepperA configA .awake)) = .refused .outsideWriter :=
  ⟨pulsing_inv, rfl, rfl, rfl⟩
theorem witness_TracesOnlyGrow : ∃ t, step (programmed .sleep (stepperA configA .awake)) = .next t := ⟨_, rfl⟩
theorem witness_ParametersNeverChange : ∃ t, step (programmed .sleep (stepperA configA .awake)) = .next t := ⟨_, rfl⟩
theorem witness_EndedRunIsQuiet : Inv State.reset ∧ runEnded (turning .present State.reset) = true ∧
    (turning .present State.reset).turns = ⟨.present, 100⟩ :: [] ∧ (turning .stepper State.reset).turns =
        ⟨.stepper, 100⟩ :: []
    ∧ (turning .hx711 State.reset).turns = ⟨.hx711, 100⟩ :: [] := by
  refine ⟨⟨⟨fun h => (by cases h), rfl, fun _ => ⟨rfl, rfl⟩, rfl, trivial⟩,
    ⟨fun h => (by cases h), fun h => (by cases h), rfl, rfl, trivial, trivial, rfl, rfl⟩, ⟨?_, fun _ h => (by cases h)⟩,
    List.nodup_nil⟩, ?_⟩
  · rintro p (⟨_, h, _⟩ | ⟨_, h, _⟩) <;> cases h
  · decide +kernel
theorem witness_UnconfiguredUnitAnswersNotConfigured : let s := answering [] []
    1 ≤ s.quantum ∧ s.stepper.busy = false ∧ s.stepper.cfgd = false ∧ s.hx.busy = false ∧ s.hx.cfgd = false ∧
    s.hx.reading = false ∧ Instr.wake.opcode ∈ [Opcode.stpSetMicrostep, .ramp, .wake, .sleep, .step] ∧
    Instr.hxReadCycle.opcode ∈ [Opcode.hxReadCycle, .hxGetReading] ∧
    Instr.stpCancel.opcode ∈ [Opcode.stpConfig, .msEncode, .stpCancel] := by decide +kernel

/-- The first and the last request of `STP_CONFIG` and of `STP_SET_MICROSTEP`, and each of `HX_CONFIG`. -/
theorem witness_FailedConfigureRequestEndsCommand :
    (let s := answering [false] []
     s.stepper.busy = false ∧ stpConfigLegal argsA = true ∧ stepperMayTake (argPins argsA) s ∧
     s.stepper.answers = List.replicate 0 true ++ false :: [] ∧ (argPins argsA)[0]? = some 20 ∧ 0 + 2 ≤ s.quantum) ∧
    (let s := answering [true, true, true, true, true, false] []
     s.stepper.answers = List.replicate 5 true ++ false :: [] ∧ (argPins argsA)[5]? = some 18 ∧ 5 + 2 ≤ s.quantum) ∧
    (let s := onStepper (fun x => { x with answers := [true, true, false] }) (stepperA configA .awake)
     s.stepper.busy = false ∧ s.stepper.cfgd = true ∧ s.stepper.config = some configA ∧
     msEncode configA.model 4 = some 0b010 ∧ s.stepper.answers = List.replicate 2 true ++ false :: [] ∧
     [configA.msPin0, configA.msPin1, configA.msPin2][2]? = some 18 ∧ 2 + 2 ≤ s.quantum) ∧
    (let a : HxConfigArgs := ⟨5, 6, .b, 32, true⟩
     let s := answering [] [true, true, false]
     s.hx.busy = false ∧ s.hx.reading = false ∧ hxConfigLegal a = true ∧ hxMayTake [a.dataPin, a.clockPin] s ∧
     5 ≤ s.quantum ∧ a.useEdge = true ∧
     s.hx.answers = true :: true :: false :: [] ∧ (answering [] [false]).hx.answers = false :: [] ∧
     (answering [] [true, false]).hx.answers = true :: false :: []) :=
  ⟨⟨rfl, by decide +kernel, stepperMayTake_of (held := []) (by decide) rfl (by decide), by decide +kernel⟩,
    by decide +kernel, by decide +kernel,
    ⟨rfl, rfl, by decide +kernel, hxMayTake_of (held := []) (by decide) rfl (by decide), by decide +kernel⟩⟩

/-- V-C2, V-C3, V-C7, V-C9 (1e-320 is the pattern 2024) and V-C10. -/
theorem witness_InvalidStepperConfigurationRejected : (answering [] []).stepper.busy = false ∧
    1 ≤ (answering [] []).quantum ∧ ({ argsA with stepsPerRev := 0 } : StpConfigArgs).stepsPerRev = 0 ∧
    ¬(realFinite 0#64 = true ∧ realLt 0#64 0#64 = true) ∧
    realFinite (realDiv (realOfNat 60) (realMul (realOfNat 200) 2024#64)) = false ∧ (32 : Count) ∉ msKeys .a4988 := by
  decide +kernel
/-- V-H4, V-H5. -/
theorem witness_InvalidHxConfigurationRejected : (answering [] []).hx.busy = false ∧ (answering [] []).hx.reading =
    false ∧
    1 ≤ (answering [] []).quantum ∧ (7 : BitVec 8) ∉ [32, 64, 128] ∧
    (Channel.b, (128 : BitVec 8)) ∉ [(Channel.a, 128), (Channel.b, 32), (Channel.a, 64)] := by decide +kernel
/-- V-R12 to V-R17, and V-R19 with its bound met exactly by n = 9. -/
theorem witness_InvalidMotionRejected : let s := stepperA configA .asleep
    s.stepper.busy = false ∧ s.stepper.cfgd = true ∧ s.stepper.config = some configA ∧
    s.stepper.power = some .asleep ∧ 1 ≤ s.quantum ∧ (0 : Count) = 0 ∧
    ¬(realFinite 0xC014000000000000#64 = true ∧ realLt 0#64 0xC014000000000000#64 = true) ∧
    ¬(realFinite 0x7FF8000000000000#64 = true ∧ realLt 0#64 0x7FF8000000000000#64 = true) ∧
    realFinite (realDiv (realOfNat 60) (realMul (realOfNat configA.stepsPerRev.toNat) 2024#64)) = false ∧
    8 < 2 * ((10 : Count).toNat / 2) ∧ ¬8 < 2 * ((9 : Count).toNat / 2) ∧ 8 < (9 : Count).toNat := by decide +kernel
theorem witness_InvalidArgumentsRejected : let s := stepperA configA .asleep
    (s.stepper.busy = false ∧ s.stepper.cfgd = true ∧ s.stepper.config = some configA ∧ (64 : Count) ∉ msKeys
        configA.model ∧
      1 ≤ s.quantum) ∧ (hxB []).hx.busy = false ∧ (hxB []).hx.cfgd = true ∧ 1 ≤ (hxB []).quantum := by decide +kernel
/-- Two roles of one pin; a pin held outside; a pin of the other unit, configured or with its configuration in progress. -/
theorem witness_OverlappingPinsRefused :
    (stpConfigLegal { argsA with stepPin := 20 } = true ∧ ¬(argPins { argsA with stepPin := 20 }).Nodup) ∧
    (∃ p ∈ argPins argsA, p ∈ ({ answering [] [] with outsidePins := [20] } : State).outsidePins) ∧
    (stpConfigLegal { argsA with stepPin := 6 } = true ∧ (hxB []).stepper.busy = false ∧ configsSet (hxB []) ∧
      ∃ p ∈ argPins { argsA with stepPin := 6 }, hxUses (hxB []).hx p) ∧
    (configsSet hxConfiguring ∧ ∃ p ∈ argPins { argsA with stepPin := 6 }, hxUses hxConfiguring.hx p) ∧
    hxConfigLegal ⟨5, 5, .b, 32, true⟩ = true ∧
    (let s := stepperA configA .asleep
     hxConfigLegal ⟨5, 21, .b, 32, true⟩ = true ∧ s.hx.busy = false ∧ s.hx.reading = false ∧ configsSet s ∧
     ∃ p ∈ [(5 : Pin), 21], stepperUses s.stepper p) ∧
    ((turning (.outside 6) (hxB [])).turns = ⟨.outside 6, 100⟩ :: [] ∧ pinInUse (turning (.outside 6) (hxB [])) 6 ∧
      ¬pinInUse (turning (.outside 18) (hxB [])) 18) ∧
    (turning (.release 6) (hxB [])).turns = ⟨.release 6, 100⟩ :: [] ∧
    (let s := onHx (fun x => { x with cfgd := true }) (answering [] [])
     s.stepper.busy = false ∧ stpConfigLegal argsA = true ∧ (argPins argsA).Nodup ∧
     (∀ p ∈ argPins argsA, p ∉ s.outsidePins) ∧ s.hx.cfgd = true ∧ s.hx.config = none) ∧
    (let s := onStepper (fun x => { x with cfgd := true }) (turning (.outside 6) State.reset)
     s.hx.busy = false ∧ s.hx.reading = false ∧ hxConfigLegal ⟨5, 6, .b, 32, true⟩ = true ∧ (5 : Pin) ≠ 6 ∧
     (∀ p ∈ [(5 : Pin), 6], p ∉ s.outsidePins) ∧ s.stepper.cfgd = true ∧ s.stepper.config = none ∧
     s.turns = ⟨.outside 6, 100⟩ :: []) := by
  refine ⟨by decide +kernel, by decide, ⟨by decide +kernel, rfl, by unfold configsSet; decide,
      6, by decide, .inl ⟨configB, rfl, rfl, by decide⟩⟩,
    ⟨by unfold configsSet; decide, 6, by decide, .inr ⟨hxConfigOf ⟨5, 6, .b, 32, true⟩ 2, true, by decide, by decide⟩⟩,
    by decide +kernel,
    ⟨by decide +kernel, rfl, rfl, by unfold configsSet; decide, 21, by decide, .inl ⟨configA, rfl, rfl, by decide⟩⟩,
    ⟨rfl, .inr (.inl ⟨configB, rfl, rfl, by decide⟩), ?_⟩, rfl, by decide +kernel, by decide +kernel⟩
  rintro ((⟨_, h, _⟩ | ⟨_, h, _⟩) | (⟨c, _, h, hp⟩ | ⟨_, _, h, _⟩)) <;> cases h
  exact absurd hp (by decide)
theorem witness_StpConfigCompletes : let s := answering (List.replicate 6 true) []
    s.stepper.busy = false ∧ stpConfigLegal argsA = true ∧ msEncode argsA.model argsA.microstep = some 0 ∧
    stepperMayTake (argPins argsA) s ∧ ({ s with quantum := 0 } : State).quantum = 0 ∧
    s.stepper.answers = List.replicate (argPins argsA).length true ++ [] ∧ (argPins argsA).length + 5 ≤ s.quantum :=
  ⟨rfl, by decide +kernel, by decide +kernel, stepperMayTake_of (held := []) (by decide) rfl (by decide),
    by decide +kernel⟩
theorem witness_MsEncodeCompletes : (answering [] []).stepper.busy = false ∧ 1 ≤ (answering [] []).quantum ∧
    msEncode .a4988 16 = some 0b111 ∧ (32 : Count) ∉ msKeys .a4988 := by decide +kernel
theorem witness_StpSetMicrostepCompletes : let s := stepperA configA .awake
    s.stepper.busy = false ∧ s.stepper.cfgd = true ∧ s.stepper.config = some configA ∧
    msEncode configA.model 32 = some 0b101 ∧ s.stepper.answers = true :: true :: true :: List.replicate 3 true ∧
    8 ≤ s.quantum := by decide +kernel
theorem witness_HxConfigCompletes : let s := answering [] (List.replicate 3 true)
    let a : HxConfigArgs := ⟨5, 6, .b, 32, true⟩
    s.hx.busy = false ∧ s.hx.reading = false ∧ hxConfigLegal a = true ∧ extraPulses a.channel a.gain = some 2 ∧
    hxMayTake [a.dataPin, a.clockPin] s ∧ ({ s with quantum := 0 } : State).quantum = 0 ∧
    s.hx.answers = List.replicate (if a.useEdge then 3 else 2) true ++ [] ∧ 6 ≤ s.quantum :=
  ⟨rfl, rfl, by decide +kernel, by decide +kernel, hxMayTake_of (held := []) (by decide) rfl (by decide),
    by decide +kernel⟩
/-- V-R8's single step and V-R1. -/
theorem witness_RampCompletes : let s := stepperA configA .asleep
    s.stepper.busy = false ∧ s.stepper.cfgd = true ∧ s.stepper.config = some configA ∧ 1 ≤ s.quantum ∧
    rampLegal s.params configA.stepsPerRev 1 0x408F400000000000#64 = true ∧
    rampLegal s.params configA.stepsPerRev 10 0x408F400000000000#64 = true := by decide +kernel
theorem witness_ProfileIsHeldInMemory : let s : State := { stepperA configA .asleep with quantum := 0 }
    s.stepper.busy = false ∧ s.stepper.cfgd = true ∧ s.stepper.config = some configA ∧
    s.stepper.power = some .asleep ∧ s.quantum = 0 ∧
    rampLegal s.params configA.stepsPerRev 10 0x408F400000000000#64 = true ∧
    constantLegal s.params configA.stepsPerRev 3 0x404E000000000000#64 = true := by decide +kernel
/-- V-R2 (n = 12, target 20): the loop goes on up to entry 4, and ends on speed before entry 5. -/
theorem witness_RampFirstHalfFollowsTheLoop : 5 < (12 : Count).toNat / 2 ∧
    (∀ j ≤ 4, realLt (rampAfter configA 12 0x4034000000000000#64 j).curRpm 0x4034000000000000#64 = true) ∧
    ∃ j ≤ 5, realLt (rampAfter configA 12 0x4034000000000000#64 j).curRpm 0x4034000000000000#64 = false := by
  unfold rampAfter; decide +kernel
/-- V-T7 and V-R9: a target at the starting speed and one below it. -/
theorem witness_DegenerateRampIsConstant : realLe 0x4024000000000000#64 configA.startingRpm = true ∧
    realLe 0x4022000000000000#64 configA.startingRpm = true := by decide +kernel
theorem witness_RampUpDelaysDoNotIncrease : stepperConfigGood configA ∧
    speedLegal configA.stepsPerRev 0x4034000000000000#64 = true ∧ 4 + 1 < (12 : Count).toNat / 2 ∧
    (rampProfile configA 12 0x4034000000000000#64).1[4]? = some 0x3F902A0EAB751031#64 ∧
    (rampProfile configA 12 0x4034000000000000#64).1[5]? = some 0x3F8EB851EB851EB8#64 :=
  ⟨configA_good, by decide +kernel, by decide +kernel, by decide +kernel, by decide +kernel⟩
/-- An entry of the ramp, and the target delay. -/
theorem witness_RampDelaysAreFinite : stepperConfigGood configA ∧
    speedLegal configA.stepsPerRev 0x4034000000000000#64 = true ∧
    0x3F902A0EAB751031#64 ∈ (rampProfile configA 12 0x4034000000000000#64).1 ∧
    delayAt configA.stepsPerRev 0x4034000000000000#64 ∈ (rampProfile configA 12 0x4034000000000000#64).1 :=
  ⟨configA_good, by decide +kernel, by decide +kernel, by decide +kernel⟩
theorem witness_WakeCompletes : let s := stepperA configN .awake
    s.stepper.busy = false ∧ s.stepper.cfgd = true ∧ s.stepper.config = some configN ∧ 4 ≤ s.quantum ∧
    configN.sleepPin.getLsbD 8 = false ∧ configA.sleepPin.getLsbD 8 = true ∧
    (let u := answering [] []
     u.stepper.busy = false ∧ 4 ≤ u.quantum ∧ u.stepper.cfgd = false) := by decide +kernel
theorem witness_SleepCompletes : let s := stepperA configA .asleep
    s.stepper.busy = false ∧ s.stepper.cfgd = true ∧ s.stepper.config = some configA ∧ 3 ≤ s.quantum ∧
    (let u := answering [] []
     u.stepper.busy = false ∧ 3 ≤ u.quantum ∧ u.stepper.cfgd = false) := by decide +kernel
/-- V-T6 (an empty profile) and V-T3. -/
theorem witness_StepCompletes : let s := stepperA configA .asleep
    s.stepper.busy = false ∧ s.stepper.cfgd = true ∧ s.stepper.config = some configA ∧
    s.stepper.power = some .asleep ∧
    (rampLegal s.params configA.stepsPerRev 1 0x408F400000000000#64 = true ∧
      8 + 5 * (rampProfile configA 1 0x408F400000000000#64).1.length ≤ s.quantum) ∧
    constantLegal s.params configA.stepsPerRev 3 0x404E000000000000#64 = true ∧
    8 + 5 * (List.replicate (3 : Count).toNat (delayAt configA.stepsPerRev 0x404E000000000000#64)).length ≤ s.quantum
        := by
  decide +kernel
theorem witness_StpCancelCompletes : (pulsing false).params.hasCancel = true ∧
    (pulsing false).stepper.sqPhase ≠ .idle ∧ State.reset.stepper.sqPhase = .idle ∧
    ({ answering [] [] with params := { Params.reference with hasCancel := false } } : State).params.hasCancel = false ∧
    (answering [] []).stepper.busy = false ∧ 1 ≤ (answering [] []).quantum := by decide +kernel
/-- Before the first pulse of two, and before the last. -/
theorem witness_CancelIsHonouredBeforeAPulse :
    let s := onStepper (fun x => { x with todo := [.pulse] }) (pulsing true)
    s.stepper.todo = [.pulse] ∧ s.stepper.profLen = some 2 ∧ s.stepper.sqIndex.toNat < (2 : Count).toNat ∧
    (1 : Count).toNat < (2 : Count).toNat ∧ s.params.hasCancel = true ∧ s.stepper.cancelReq = true ∧ 1 ≤ 1 := by
  decide +kernel
theorem witness_PulseIsNeverCutShort : let s := pulsing true
    s.stepper.todo = pulseRest s.params 0 ∧ s.stepper.config = some configA ∧ 0 < s.params.profileDepth ∧
    memRead s.stepper.prof 0 = some 0x3F9EB851EB851EB8#64 := by decide +kernel
theorem witness_CancelDuringPulseEndsAfterIt : let s := pulsing true
    s.stepper.todo = pulseRest s.params 0 ∧ s.stepper.config = some configA ∧ 0 < s.params.profileDepth ∧
    memRead s.stepper.prof 0 = some 0x3F9EB851EB851EB8#64 ∧ s.stepper.profLen = some 2 ∧
    s.stepper.sqIndex = BitVec.ofNat 32 0 ∧ 0 + 1 < (2 : Count).toNat ∧ s.params.hasCancel = true ∧
    s.stepper.cancelReq = true := by decide +kernel
/-- V-X2: two reads of 1 at the gate, raw 0x800000. -/
theorem witness_HxReadCycleCompletes : let s := hxB ([true, true, false] ++ true :: List.replicate 23 false)
    s.hx.busy = false ∧ s.hx.cfgd = true ∧ s.hx.config = some configB ∧ s.hx.reading = false ∧
    s.hx.levels = cycleLevels (2, 0x800000) ++ [] ∧ cycleQuantum (2, 0x800000) ≤ s.quantum := by decide +kernel
/-- V-G3. -/
theorem witness_HxGetReadingCompletes :
    let s := hxB (false :: List.replicate 23 true ++ [false] ++ false :: List.replicate 24 true)
    let cycles : List (Nat × BitVec 24) := [(0, 0xFFFFFE), (0, 0xFFFFFF)]
    (2 : Count) ≠ 0 ∧ cycles.length = (2 : Count).toNat ∧ s.hx.busy = false ∧ s.hx.cfgd = true ∧
    s.hx.config = some configB ∧ s.hx.reading = false ∧ s.hx.levels = cycles.flatMap cycleLevels ++ [] ∧
    (cycles.map cycleQuantum).sum ≤ s.quantum := by decide +kernel
/-- Three reads of 1, and three polls while an edge-triggered cycle runs. -/
theorem witness_PollHasNoTimeout : let s : State := { hxB [true, true, true] with quantum := 3 }
    s.hx.busy = false ∧ s.hx.cfgd = true ∧ (2 : Count) ≠ 0 ∧
    s.quantum = 3 * (1 + (waitEvents s.params.tPoll).length) ∧
    (s.hx.config = some configB ∧ s.hx.reading = false ∧ s.hx.levels = List.replicate 3 true ++ []) ∧
    (onHx (fun x => { x with reading := true, phase := .reading, edgeTodo := [.clear .emit] }) s).hx.reading = true := by
  decide +kernel
/-- V-E1. -/
theorem witness_HxEdgeCompletes : let s := hxB (List.replicate 24 false ++ [true])
    s.hx.cfgd = true ∧ s.hx.edgeEn = true ∧ s.hx.config = some configB ∧ s.hx.reading = false ∧ s.hx.edgeTodo = [] ∧
    s.hx.levels = cycleLevels (0, 1) ++ [] ∧ cycleQuantum (0, 1) ≤ s.quantum := by decide +kernel
/-- V-E2 to V-E5. -/
theorem witness_HxEdgeIgnored : State.reset.hx.cfgd = false ∧
    (onHx (fun x => { x with edgeEn := false }) (hxB [])).hx.edgeEn = false ∧
    (onHx (fun x => { x with reading := true }) (hxB [])).hx.reading = true ∧
    (let s := hxB [true]
     s.hx.cfgd = true ∧ s.hx.edgeEn = true ∧ s.hx.config = some configB ∧ s.hx.reading = false ∧
     s.hx.levels = true :: []) := by decide +kernel
/-- The overflow bound itself, and below it a value halfway between two patterns; then operands of each kind: 1.0 is
0x3FF0000000000000, -infinity 0xFFF0000000000000. -/
theorem witness_RoundingIsToNearestEven : (0 < 1 ∧ overflowFrom * 1 ≤ overflowFrom ∧ 0 < 2 ∧ ¬overflowFrom * 2 ≤ 1 ∧
      realUnpack (realRound false 1 2) = .fin false 0 ∧ realUnpack 1#64 = .fin false 1) ∧
    realUnpack 0x3FF0000000000000#64 = .fin false realOne ∧ realOne ≠ 0 ∧ 60 < 2 ^ 53 ∧
    realUnpack 0xFFF0000000000000#64 = .inf true ∧ realUnpack 0x7FF8000000000000#64 = .nan := by
  unfold overflowFrom; decide +kernel
theorem witness_CommandsLeaveTheOtherUnitAlone : (∃ t, exec .wake (stepperA configA .asleep) = .next t) ∧
    ∃ t, exec .hxReadCycle { hxB [] with quantum := 0 } = .next t := ⟨⟨_, rfl⟩, ⟨_, rfl⟩⟩
theorem witness_StepperRegisterFrame : (∃ t, exec .stpCancel (pulsing false) = .next t) ∧
    ∃ t, exec (.msEncode .a4988 16) (answering [] []) = .next t := ⟨⟨_, rfl⟩, ⟨_, rfl⟩⟩
theorem witness_ProfileMemoryFrame : (∃ t, exec .wake (pulsing false) = .next t) ∧
    ∃ t, exec (.step 3 false 0x404E000000000000#64 false) (stepperA configA .asleep) = .next t :=
  ⟨⟨_, rfl⟩, next_of_after (by decide +kernel)⟩
theorem witness_SetMicrostepWritesTwoRegisters : (∃ t, exec (.stpSetMicrostep 4) (stepperA configA .awake) = .next t) ∧
    (stepperA configA .awake).stepper.config = some configA := ⟨⟨_, rfl⟩, rfl⟩
theorem witness_HxCommandFrame : (∃ t, exec .hxReadCycle { hxB [] with quantum := 0 } = .next t) ∧
    ∃ t, exec (.hxConfig ⟨5, 6, .b, 32, true⟩) (answering [] (List.replicate 3 true)) = .next t := ⟨⟨_, rfl⟩, ⟨_, rfl⟩⟩
theorem witness_HxEdgeFrame : (∃ t, exec .hxEdge (hxB [true]) = .next t) ∧ (hxB [true]).hx.edgeTodo = [] :=
    ⟨⟨_, rfl⟩, rfl⟩
theorem witness_UnitMovesCommute :
    (∃ a b a' b', runStepper 3 (pulsing false) = .next a ∧ runHx 1 a = .next b ∧
      runHx 1 (pulsing false) = .next a' ∧ runStepper 3 a' = .next b') ∧
    ∃ a b a' b', runStepper 3 (pulsing false) = .next a ∧ runEdge 1 a = .next b ∧
      runEdge 1 (pulsing false) = .next a' ∧ runStepper 3 a' = .next b' :=
  ⟨⟨_, _, _, _, rfl, rfl, rfl, rfl⟩, ⟨_, _, _, _, rfl, rfl, rfl, rfl⟩⟩

end Sys2Proof.Tests
end

section
/-! SUPPORT. Decoding a command word is the inverse of R82's table of words (spec/30_encoding.md R90). -/

namespace Sys2Proof

/-- Every mnemonic stands in the command table, and no earlier row has its word. -/
@[simp] theorem decodeWord_word (o : Opcode) : decodeWord o.word = some o := by
  cases o <;> rfl

theorem decodeWord_eq_some_iff {w : BitVec 8} {o : Opcode} : decodeWord w = some o ↔ o.word = w := by
  constructor
  · exact word_of_decodeWord
  · rintro rfl
    exact decodeWord_word o

/-- A mnemonic is recovered from its word by decoding, so no two rows share a word. -/
theorem Opcode.word_injective : Function.Injective Opcode.word := by
  intro o o' h
  apply Option.some_injective
  calc some o = decodeWord o.word := (decodeWord_word o).symm
    _ = decodeWord o'.word := by rw [h]
    _ = some o' := decodeWord_word o'

/-- Settles O2: the look-up answers only a row with the word asked for, and it finds every row again by its word. -/
theorem decodeTotalAndUnique : Obligations.DecodeTotalAndUnique :=
  ⟨fun _ _ => decodeWord_eq_some_iff, fun _ _ h => Opcode.word_injective h⟩

end Sys2Proof
end

section
/-! SUPPORT. The Microstep Encoder, `STP_CONFIG` and `MS_ENCODE` (spec/40_stepper_config.md R100 to R107). -/

namespace Sys2Proof.Machine

/-! ### The encoders -/

/-- `Keys(model)` of R100 are the keys of the pattern table. -/
theorem msKeys_eq (m : Model) : msKeys m = (msTable m).map Prod.fst := by cases m <;> rfl

theorem msEncode_eq_none_iff {m : Model} {d : Count} : msEncode m d = none ↔ d ∉ msKeys m := by
  rw [msKeys_eq, msEncode, List.lookup_eq_none_iff, List.mem_map]
  constructor
  · rintro h ⟨e, he, rfl⟩
    simpa using h e he
  · exact fun h e he => bne_iff_ne.2 fun hd => h ⟨e, he, hd.symm⟩

/-- Looking a denominator up in a pattern table compares it with the keys one by one. -/
theorem lookup_cons_ite (d k : Count) (p : BitVec 3) (l : List (Count × BitVec 3)) :
    ((k, p) :: l).lookup d = if d = k then some p else l.lookup d := by
  rw [List.lookup_cons]
  by_cases h : d = k
  · simp [h]
  · simp [h, beq_eq_false_iff_ne.2 h]

/-- Settles O26: each table looked up row by row, and the pairs of R181 channel by channel. -/
theorem encoderTables : Obligations.EncoderTables := by
  refine ⟨fun d => ?_, fun d => ?_, fun ch g => ?_⟩
  · simp only [msEncode, msTable, lookup_cons_ite, List.lookup_nil]
  · simp only [msEncode, msTable, lookup_cons_ite, List.lookup_nil]
  · cases ch <;> simp [extraPulses]

/-! ### A command that only responds -/

/-- What a response leaves is the state of claims, where `u` differs from `s` in the unit's registers and in the events
`es`. -/
theorem stpRespond_eq_stepperDone {s u : State} {es : List Event} (st : Status) (r : Result)
    (hu : u = { s with stepper := u.stepper, order := s.order ++ List.replicate es.length .stepper })
    (ht : u.stepper.trace = s.stepper.trace ++ es) : stpRespond st r u = stepperDone s es st r u.stepper := by
  rw [hu]
  simp [stpRespond, stpLog, onStepper, stepperDone, ht, List.replicate_succ']

/-- A command whose rule leaves nothing to do but its response: no event before it, every register as it was. -/
theorem acceptStepper_responds {s : State} {body : State → Outcome} {st : Status} {r : Result}
    (hb : s.stepper.busy = false) (hq : 1 ≤ s.quantum)
    (h : ∀ u, body u = .next (stpTodo [.resp st r] u)) :
    acceptStepper s body = .next (stepperDone s [] st r s.stepper) := by
  rw [acceptStepper_idle hb, h, andThen_next]
  refine runStepper_to hq ?_ rfl
  rw [runStepper_resp rfl, stpRespond_eq_stepperDone (s := s) (es := []) st r (by simp [stpTodo, onStepper]) (by simp)]
  rfl

/-- Settles O28: the encoder's answer alone decides which response is left to do. -/
theorem msEncodeCompletes : Obligations.MsEncodeCompletes := by
  refine ⟨fun m d => by cases m <;> rfl, fun m d s hb hq => ⟨fun pattern hp => ?_, fun hd => ?_⟩⟩
  · simp only [exec, execMsEncode, hp]
    exact acceptStepper_responds hb hq fun _ => rfl
  · simp only [exec, execMsEncode, msEncode_eq_none_iff.2 hd]
    exact acceptStepper_responds hb hq fun _ => rfl

/-! ### The checks of `STP_CONFIG` -/

/-- V1 to V5 of R103, one by one. -/
theorem stpConfigLegal_iff {a : StpConfigArgs} : stpConfigLegal a = true ↔
    a.stepsPerRev ≠ 0 ∧ (realFinite a.acceleration = true ∧ realLt 0#64 a.acceleration = true) ∧
    (realFinite a.startingRpm = true ∧ realLt 0#64 a.startingRpm = true) ∧
    realFinite (delayAt a.stepsPerRev a.startingRpm) = true ∧ a.microstep ∈ msKeys a.model := by
  simp [stpConfigLegal, realPositive, and_assoc]

theorem exec_stpConfig_illegal {a : StpConfigArgs} {s : State} (hb : s.stepper.busy = false) (hq : 1 ≤ s.quantum)
    (hl : stpConfigLegal a = false) :
    exec (.stpConfig a) s = .next (stepperDone s [] .invalidConfiguration .none s.stepper) := by
  simp only [exec, execStpConfig, hl]
  exact acceptStepper_responds hb hq fun _ => rfl

/-- Settles O21: whichever check fails, the arguments are not legal. -/
theorem invalidStepperConfigurationRejected : Obligations.InvalidStepperConfigurationRejected := by
  intro a s hb hq hbad
  refine exec_stpConfig_illegal hb hq (Bool.eq_false_iff.2 fun hl => ?_)
  obtain ⟨hspr, haccel, hrpm, hdelay, hkey⟩ := stpConfigLegal_iff.1 hl
  rcases hbad with h | h | h | h | h
  · exact hspr h
  · exact h haccel
  · exact h hrpm
  · exact Bool.false_ne_true (h.symm.trans hdelay)
  · exact h hkey

/-! ### The actions of a legal `STP_CONFIG` -/

/-- The events of R104, every configure request answered ok: the requests, then `b_i` on select pin `i`. -/
def configEvents (a : StpConfigArgs) (pattern : BitVec 3) : List Event :=
  (argPins a).map (.cfgOut · true) ++
    [.wr a.msPin0 (pattern.getLsbD 0), .wr a.msPin1 (pattern.getLsbD 1), .wr a.msPin2 (pattern.getLsbD 2)]

theorem runStepper_selectWrites {p0 p1 p2 : Pin} {pattern : BitVec 3} {rest : List StpOp} {s : State}
    (h : s.stepper.todo = selectWrites p0 p1 p2 pattern ++ rest) :
    runStepper 3 s = .next (stpDid
      [.wr p0 (pattern.getLsbD 0), .wr p1 (pattern.getLsbD 1), .wr p2 (pattern.getLsbD 2)] rest s) := by
  have htwo := runStepper_trans (runStepper_wr h) (runStepper_wr rfl)
  rw [runStepper_trans htwo (runStepper_wr rfl), stpDid_stpDid, stpDid_stpDid]
  rfl

theorem runStepper_store_resp {c : StepperConfig} {st : Status} {r : Result} {s : State}
    (h : s.stepper.todo = [.store c, .resp st r]) :
    runStepper 2 s = .next (stpRespond st r (storeConfig c s)) := by
  rw [runStepper_act 1 h rfl, runStepper_resp rfl]
  rfl

/-- R104's actions: the requests, the three writes, the registers, the response. -/
theorem runStepper_configBody {a : StpConfigArgs} {pattern : BitVec 3} {rest : List Bool} {s : State}
    (ht : s.stepper.todo = configBody a pattern)
    (ha : s.stepper.answers = List.replicate (argPins a).length true ++ rest) :
    runStepper ((argPins a).length + 5) s = .next (stpRespond .ok .none (storeConfig (configOf a pattern)
      (onStepper (fun x => { x with answers := rest }) (stpDid (configEvents a pattern) [] s)))) := by
  have hcfg := runStepper_cfgOuts (argPins a) (by rw [ht, configBody, List.append_assoc]) ha
  have hsel := runStepper_trans hcfg (runStepper_selectWrites rfl)
  rw [runStepper_trans (a := (argPins a).length + 3) hsel (runStepper_store_resp rfl), configEvents,
    ← stpDid_stpDid _ _ []]
  rfl

/-- Settles O27: a legal `STP_CONFIG` is R104's actions, run from the dropped configuration. -/
theorem stpConfigCompletes : Obligations.StpConfigCompletes := by
  intro a s pattern hb hl hm hp
  rw [exec_stpConfig_accepted hb hl hm hp]
  refine ⟨fun hq => ⟨_, congrArg (runStepper · _) hq, rfl, rfl⟩, fun rest ha hq => runStepper_to hq ?_ rfl⟩
  refine (runStepper_configBody rfl ?_).trans <| congrArg _ <|
    stpRespond_eq_stepperDone (s := s) (es := configEvents a pattern) .ok .none rfl rfl
  exact ha

end Sys2Proof.Machine
end

section
/-! SUPPORT. `WAKE` and `SLEEP` (spec/42_motion_sequencer.md R151, R153). -/

namespace Sys2Proof.Machine

/-! ### A command that needs the configuration (R222) -/

theorem acceptStepper_unconfigured {s : State} {k : State → StepperConfig → Outcome} (hb : s.stepper.busy = false)
    (hq : 1 ≤ s.quantum) (hu : s.stepper.cfgd = false) :
    acceptStepper s (fun u => stpConfigured u (k u)) = .next (stepperDone s [] .notConfigured .none s.stepper) := by
  have hraise : acceptStepper s (fun u => stpConfigured u (k u)) =
      acceptStepper s fun u => .next (stpRaise .notConfigured u) := by
    simp [acceptStepper, stpConfigured, hu]
  rw [hraise]
  exact acceptStepper_responds hb hq fun _ => rfl

theorem acceptStepper_configured {s : State} {c : StepperConfig} {k : State → StepperConfig → Outcome}
    (hb : s.stepper.busy = false) (hg : s.stepper.cfgd = true) (hc : s.stepper.config = some c) :
    acceptStepper s (fun u => stpConfigured u (k u)) =
      andThen (k (onStepper (fun x => { x with busy := true }) s) c) (runStepper s.quantum) := by
  simp [acceptStepper_idle hb, stpConfigured, hg, hc]

/-! ### Driving the sleep pin -/

/-- The events of `SLEEP` (R153). -/
def sleepEvents (c : StepperConfig) : List Event :=
  if sleepValid c.sleepPin then [.wr (sleepPinOf c.sleepPin) false] else []

theorem length_wakeEvents_le (p : Params) (c : StepperConfig) : (wakeEvents p c).length ≤ 2 := by
  unfold wakeEvents; split <;> simp

theorem length_sleepEvents_le (c : StepperConfig) : (sleepEvents c).length ≤ 1 := by
  unfold sleepEvents; split <;> simp

/-- `WakeBody` up to the power state, whichever it was. -/
theorem runStepper_wakeEvents {p : Params} {c : StepperConfig} {rest : List StpOp} {s : State}
    (h : s.stepper.todo = wakeBody p c ++ rest) :
    runStepper (wakeEvents p c).length s = .next (stpDid (wakeEvents p c) (.setPower .awake :: rest) s) := by
  unfold wakeBody at h
  unfold wakeEvents
  by_cases hv : sleepValid c.sleepPin = true
  · rw [if_pos hv] at h ⊢
    exact (runStepper_trans (runStepper_wr h) (runStepper_wait rfl)).trans (by rw [stpDid_stpDid]; rfl)
  · rw [if_neg hv] at h ⊢
    exact congrArg Host.Outcome.next (stpDid_nil h).symm

/-- `SLEEP`'s body up to the power state, whichever it was. -/
theorem runStepper_sleepEvents {c : StepperConfig} {rest : List StpOp} {s : State}
    (h : s.stepper.todo = sleepBody c ++ rest) :
    runStepper (sleepEvents c).length s = .next (stpDid (sleepEvents c) (.setPower .asleep :: rest) s) := by
  unfold sleepBody at h
  unfold sleepEvents
  by_cases hv : sleepValid c.sleepPin = true
  · rw [if_pos hv] at h ⊢
    exact runStepper_wr h
  · rw [if_neg hv] at h ⊢
    exact congrArg Host.Outcome.next (stpDid_nil h).symm

/-! ### The power state and the response -/

theorem runStepper_setPower_resp {w : Power} {st : Status} {r : Result} {s : State}
    (h : s.stepper.todo = [.setPower w, .resp st r]) :
    runStepper 2 s = .next (stpRespond st r (onStepper (fun x => { x with power := some w }) s)) := by
  rw [runStepper_act 1 h rfl, runStepper_resp rfl]
  rfl

/-- An accepted command whose actions are events `es`, then the power state, then its response: it writes no other
register. -/
theorem runStepper_powerCommand {s : State} {l : List StpOp} {es : List Event} {w : Power} {k : Nat}
    (hk : es.length + 2 ≤ k)
    (hes : ∀ u : State, u.stepper.todo = l →
      runStepper es.length u = .next (stpDid es [.setPower w, .resp .ok .none] u)) :
    runStepper k (stpTodo l (onStepper (fun x => { x with busy := true }) s)) =
      .next (stepperDone s es .ok .none { s.stepper with power := some w }) := by
  refine runStepper_to hk ?_ rfl
  rw [runStepper_trans (hes _ rfl) (runStepper_setPower_resp rfl),
    stpRespond_eq_stepperDone (s := s) (es := es) .ok .none rfl rfl]
  rfl

/-- Settles O40: `WakeBody` runs whatever the power state was, and an unconfigured unit answers before it. -/
theorem wakeCompletes : Obligations.WakeCompletes := by
  refine ⟨rfl, fun s hb hq => ?_⟩
  simp only [exec, execWake]
  refine ⟨fun c hg hc => ?_, acceptStepper_unconfigured hb (by omega)⟩
  have hlen := length_wakeEvents_le s.params c
  rw [acceptStepper_configured hb hg hc]
  exact runStepper_powerCommand (es := wakeEvents s.params c) (by omega) fun _ => runStepper_wakeEvents

/-- Settles O41: the one write is all that comes before the power state, whatever it was. -/
theorem sleepCompletes : Obligations.SleepCompletes := by
  refine ⟨rfl, fun s hb hq => ?_⟩
  simp only [exec, execSleep]
  refine ⟨fun c hg hc => ?_, acceptStepper_unconfigured hb (by omega)⟩
  have hlen := length_sleepEvents_le c
  rw [acceptStepper_configured hb hg hc]
  exact runStepper_powerCommand (es := sleepEvents c) (by omega) fun _ => runStepper_sleepEvents

end Sys2Proof.Machine
end

section
/-! SUPPORT. `HX_CONFIG` and the sign extension of readings (spec/43_hx711_decoder.md R181 to R188). -/

namespace Sys2Proof.Machine

/-! ### A command that only responds -/

/-- What a response that ends the list of actions leaves is the state of claims, where `u` differs from `s` in the
unit's registers and in the events `es`. -/
theorem hxTodo_hxRespond_eq_hxDone {s u : State} {es : List Event} (st : Status) (r : Result)
    (hu : u = { s with hx := u.hx, order := s.order ++ List.replicate es.length .hx711 })
    (ht : u.hx.trace = s.hx.trace ++ es) : hxTodo [] (hxRespond st r u) = hxDone s es st r u.hx := by
  rw [hu]
  simp [hxTodo, hxRespond, hxLog, onHx, hxDone, ht, List.replicate_succ']

/-- A list of actions that ends in a response, within the quantum: the state of claims. -/
theorem runHx_responds {s u v : State} {n k : Nat} {es : List Event} {st : Status} {r : Result} (hk : n ≤ k)
    (h : hxSteps n u.hx.todo u = .next ([], hxRespond st r v))
    (hv : v = { s with hx := v.hx, order := s.order ++ List.replicate es.length .hx711 })
    (ht : v.hx.trace = s.hx.trace ++ es) : runHx k u = .next (hxDone s es st r v.hx) := by
  rw [runHx_eq, hxSteps_to hk h, andThen_next, hxTodo_hxRespond_eq_hxDone st r hv ht]

/-- A host command whose rule leaves nothing to do but its response: no event before it, every register as it was. -/
theorem acceptHx_responds {s : State} {body : State → Outcome} {st : Status} {r : Result}
    (hb : s.hx.busy = false) (hq : 1 ≤ s.quantum) (h : ∀ u, body u = .next (hxTodo [.resp st r] u)) :
    acceptHx s body = .next (hxDone s [] st r s.hx) := by
  rw [acceptHx_idle hb, h, andThen_next,
    runHx_responds (s := s) (es := []) hq (hxSteps_act rfl) (by simp [hxTodo, onHx]) (by simp)]
  rfl

/-! ### The checks of `HX_CONFIG` -/

/-- The pairs of channel and gain that R181 gives a number of extra pulses. -/
theorem extraPulses_isSome_iff {ch : Channel} {g : BitVec 8} :
    (extraPulses ch g).isSome = true ↔ (ch, g) ∈ [(Channel.a, 128), (Channel.b, 32), (Channel.a, 64)] := by
  cases ch with
  | a => simp [extraPulses, apply_ite Option.isSome]
  | b => simp [extraPulses, apply_ite Option.isSome]

/-- The two checks of R183, one by one. -/
theorem hxConfigLegal_iff {a : HxConfigArgs} : hxConfigLegal a = true ↔
    a.gain ∈ [32, 64, 128] ∧ (a.channel, a.gain) ∈ [(Channel.a, 128), (Channel.b, 32), (Channel.a, 64)] := by
  rw [hxConfigLegal, Bool.and_eq_true, List.contains_iff_mem, extraPulses_isSome_iff]

theorem exec_hxConfig_illegal {a : HxConfigArgs} {s : State} (hb : s.hx.busy = false) (hr : s.hx.reading = false)
    (hq : 1 ≤ s.quantum) (hl : hxConfigLegal a = false) :
    exec (.hxConfig a) s = .next (hxDone s [] .invalidConfiguration .none s.hx) := by
  simp only [exec, execHxConfig, hr, hl, Bool.false_eq_true, if_false]
  exact acceptHx_responds hb hq fun _ => rfl

/-- Settles O22: whichever check fails, the arguments are not legal. -/
theorem invalidHxConfigurationRejected : Obligations.InvalidHxConfigurationRejected := by
  intro a s hb hr hq hbad
  refine exec_hxConfig_illegal hb hr hq (Bool.eq_false_iff.2 fun hl => ?_)
  obtain ⟨hgain, hpair⟩ := hxConfigLegal_iff.1 hl
  rcases hbad with h | h
  · exact h hgain
  · exact h hpair

/-! ### The actions of a legal `HX_CONFIG` -/

/-- The events of R184, every request answered ok. -/
def hxConfigEvents (p : Params) (a : HxConfigArgs) : List Event :=
  [.cfgIn a.dataPin p.hxDataPull true, .cfgOut a.clockPin true, .wr a.clockPin false]
    ++ (if a.useEdge then [.edge a.dataPin .falling true] else [])

/-- A request of the Pin Controller that is answered ok (R63). -/
theorem hxSteps_request_ok {op : HxOp} {e : Bool → Event} {l : List HxOp} {rest : List Bool} {s : State}
    (hop : hxAct op l s = hxConfigure e l s) (ha : s.hx.answers = true :: rest) :
    hxSteps 1 (op :: l) s = .next (l, hxDid [e true] (onHx (fun x => { x with answers := rest }) s)) :=
  hxSteps_act (hop.trans (hxConfigure_cons e l ha))

/-- The falling edge is registered where `use_edge` is 1, and that takes one more answer. -/
theorem hxSteps_register_if (p : Pin) (useEdge : Bool) (l : List HxOp) {rest : List Bool} {s : State}
    (ha : s.hx.answers = List.replicate useEdge.toNat true ++ rest) :
    hxSteps useEdge.toNat ((if useEdge then [.register p] else []) ++ l) s =
      .next (l, hxDid (if useEdge then [.edge p .falling true] else [])
        (onHx (fun x => { x with answers := rest }) s)) := by
  cases useEdge with
  | false =>
    obtain rfl : s.hx.answers = rest := ha
    exact congrArg (fun t => Host.Outcome.next (l, t)) (hxDid_nil s).symm
  | true => exact hxSteps_request_ok rfl ha

/-- The two requests and the write of 0 to the clock. -/
theorem hxSteps_pinSetup (d c : Pin) (pull : Pull) (l : List HxOp) {rest : List Bool} {s : State}
    (ha : s.hx.answers = true :: true :: rest) :
    hxSteps 3 (.cfgIn d pull :: .cfgOut c :: .wr c false :: l) s =
      .next (l, hxDid [.cfgIn d pull true, .cfgOut c true, .wr c false]
        (onHx (fun x => { x with answers := rest }) s)) := by
  have hdata := hxSteps_request_ok (op := .cfgIn d pull) (l := .cfgOut c :: .wr c false :: l) rfl ha
  have hclock := hxSteps_trans hdata (hxSteps_request_ok (op := .cfgOut c) rfl rfl)
  rw [hxSteps_trans hclock (hxSteps_wr c false l _)]
  simp [hxDid, onHx]

/-- R184's actions: the requests and the write, the registration where asked, the registers, the response. -/
theorem hxSteps_hxConfigBody {a : HxConfigArgs} {extra : BitVec 2} {rest : List Bool} {s : State}
    (ha : s.hx.answers = true :: true :: (List.replicate a.useEdge.toNat true ++ rest)) :
    hxSteps (3 + a.useEdge.toNat + 2) (hxConfigBody s.params a extra) s =
      .next ([], hxRespond .ok .none (hxStore (hxConfigOf a extra) a.useEdge
        (hxDid (hxConfigEvents s.params a) (onHx (fun x => { x with answers := rest }) s)))) := by
  have hpins := hxSteps_pinSetup a.dataPin a.clockPin s.params.hxDataPull
    ((if a.useEdge then [.register a.dataPin] else []) ++ [.store (hxConfigOf a extra) a.useEdge, .resp .ok .none]) ha
  have hedge := hxSteps_trans hpins (hxSteps_register_if a.dataPin a.useEdge _ rfl)
  rw [hxConfigBody, List.append_assoc, hxConfigEvents, ← hxDid_hxDid]
  exact hxSteps_trans (b := 2) hedge rfl

/-- Settles O30: a legal `HX_CONFIG` is R184's actions, run from the dropped configuration. -/
theorem hxConfigCompletes : Obligations.HxConfigCompletes := by
  intro a s extra hb hr hl hm hp
  rw [exec_hxConfig_accepted hb hr hl hm hp]
  refine ⟨fun hq => ⟨_, congrArg (runHx · _) hq, rfl, rfl, rfl⟩, fun rest ha hq => ?_⟩
  have ha' : s.hx.answers = true :: true :: (List.replicate a.useEdge.toNat true ++ rest) := by
    rw [ha]; cases a.useEdge <;> rfl
  have hlen : 3 + a.useEdge.toNat + 2 ≤ s.quantum := by have := a.useEdge.toNat_le; omega
  refine (runHx_responds (s := s) (es := hxConfigEvents s.params a) hlen (hxSteps_hxConfigBody ?_) rfl rfl).trans rfl
  exact ha'

/-! ### The sign extension -/

/-- Settles O52: the OR of R188 is the sign extension, which keeps the signed value, and bit 23 is the sign bit. -/
theorem signExtensionOfReadings : Obligations.SignExtensionOfReadings := by
  intro a
  refine ⟨signExtend24_eq a, ?_⟩
  rw [signExtend24_eq, BitVec.toInt_signExtend_of_le (by decide), BitVec.toInt_eq_msb_cond, BitVec.msb_eq_getLsbD_last]
  rfl

end Sys2Proof.Machine
end

section
/-! SUPPORT. The commands that need their unit configured, and those that do not (spec/60_exceptions.md R222). -/

namespace Sys2Proof.Machine

theorem acceptHx_unconfigured {s : State} {k : State → Outcome} (hb : s.hx.busy = false) (hq : 1 ≤ s.quantum)
    (hu : s.hx.cfgd = false) :
    acceptHx s (fun u => hxConfigured u (k u)) = .next (hxDone s [] .notConfigured .none s.hx) := by
  have hraise : acceptHx s (fun u => hxConfigured u (k u)) = acceptHx s fun u => .next (hxRaise .notConfigured u) := by
    simp [acceptHx, hxConfigured, hu]
  rw [hraise]
  exact acceptHx_responds hb hq fun _ => rfl

/-- Each of the five commands opens with the test of `STP.CFGD`, whatever its operands are. -/
theorem exec_stepper_unconfigured {i : Instr} {s : State}
    (hi : i.opcode ∈ [.stpSetMicrostep, .ramp, .wake, .sleep, .step]) (hb : s.stepper.busy = false)
    (hq : 1 ≤ s.quantum) (hu : s.stepper.cfgd = false) :
    exec i s = .next (stepperDone s [] .notConfigured .none s.stepper) := by
  cases i with
  | stpSetMicrostep _ | ramp _ _ | wake | sleep | step _ _ _ _ =>
    simp only [exec, execStpSetMicrostep, execRamp, execWake, execSleep, execStep]
    exact acceptStepper_unconfigured hb hq hu
  | stpConfig _ | msEncode _ _ | stpCancel | hxConfig _ | hxReadCycle | hxGetReading _ | hxEdge =>
    simp [Instr.opcode] at hi

/-- Both commands open with the test of `HX.CFGD`, whatever the operand is. -/
theorem exec_hx_unconfigured {i : Instr} {s : State} (hi : i.opcode ∈ [.hxReadCycle, .hxGetReading])
    (hb : s.hx.busy = false) (hq : 1 ≤ s.quantum) (hu : s.hx.cfgd = false) :
    exec i s = .next (hxDone s [] .notConfigured .none s.hx) := by
  cases i with
  | hxReadCycle | hxGetReading _ =>
    simp only [exec, execHxReadCycle, execHxGetReading]
    exact acceptHx_unconfigured hb hq hu
  | stpConfig _ | msEncode _ _ | stpSetMicrostep _ | ramp _ _ | wake | sleep | step _ _ _ _ | stpCancel | hxConfig _
  | hxEdge => simp [Instr.opcode] at hi

/-- Acceptance at the STEPPER unit asks for `STP.BUSY = 0` at most (R231). -/
theorem canAccept_of_stepper_idle {i : Instr} {s : State} (hi : i.opcode ∈ [.stpConfig, .msEncode, .stpCancel])
    (hb : s.stepper.busy = false) : canAccept i s = true := by
  cases i with
  | stpConfig _ | msEncode _ _ | stpCancel => simp [canAccept, hb]
  | stpSetMicrostep _ | ramp _ _ | wake | sleep | step _ _ _ _ | hxConfig _ | hxReadCycle | hxGetReading _ | hxEdge =>
    simp [Instr.opcode] at hi

/-- `HX_CONFIG` asks for an idle unit with no cycle running, and for nothing else (R231). -/
theorem canAccept_of_hxConfig {i : Instr} {s : State} (hi : i.opcode = .hxConfig) (hb : s.hx.busy = false)
    (hr : s.hx.reading = false) : canAccept i s = true := by
  cases i with
  | hxConfig _ => simp [canAccept, hb, hr]
  | stpConfig _ | msEncode _ _ | stpSetMicrostep _ | ramp _ _ | wake | sleep | step _ _ _ _ | stpCancel | hxReadCycle
  | hxGetReading _ | hxEdge => cases hi

/-- Settles O19: the configuration is the first thing the seven commands test, and the acceptance of the other four
does not look at it. -/
theorem unconfiguredUnitAnswersNotConfigured : Obligations.UnconfiguredUnitAnswersNotConfigured := by
  intro i s hq
  exact ⟨fun hi hb => exec_stepper_unconfigured hi hb hq, fun hi hb => exec_hx_unconfigured hi hb hq,
    canAccept_of_stepper_idle, canAccept_of_hxConfig⟩

end Sys2Proof.Machine
end

section
/-! SUPPORT. The power-on values of the registers (spec/70_reset_and_hazards.md R251). -/

namespace Sys2Proof.Machine

/-- `PROF[*]` is unset at power-on (R251): the profile memory holds no entry. -/
theorem memRead_reset (i : Nat) : memRead State.reset.stepper.prof i = none := memRead_nil i

/-- Settles O12: each scalar register is a field of a unit's reset record, every entry of the profile memory is unset
by `memRead_reset`, and a read of an unset register is `readReg_none`. -/
theorem powerOnRegisterValues : Obligations.PowerOnRegisterValues := by
  unfold Obligations.PowerOnRegisterValues
  intro u h
  -- The rows of R251's table in its order: the STEPPER unit, the HX711 unit, then the read of an unset register.
  refine ⟨rfl, rfl, rfl, rfl, rfl, rfl, rfl, ?prof, rfl, rfl, rfl,
    rfl, rfl, rfl, rfl, rfl, rfl, rfl, rfl, rfl, rfl, rfl, ?unsetRead⟩
  case prof => exact memRead_reset
  case unsetRead => exact fun r k => readReg_none r k

end Sys2Proof.Machine
end

section
/-! SUPPORT. Encoding and decoding are inverse, and which words are reserved (spec/30_encoding.md R82 to R93). -/

namespace Sys2Proof

open Machine

/-- A command's own record is read back as the command (R83, R93). -/
@[simp] theorem readRecord_record (i : Instr) : readRecord i.opcode i.record = some i := by
  cases i <;> simp [Instr.opcode, Instr.record, readRecord]

/-- Settles O3: the word is found in its own row, on its own port, and the record is read back field by field. -/
theorem decodeOfEncode : Obligations.DecodeOfEncode := by
  intro p i hp
  have hport : (i.opcode.port == p) = true := hp
  simp [decode, encode, hport]

/-- Settles O4: decoding answers a command only for its mnemonic's word, its own port and its own record. -/
theorem encodeOfDecode : Obligations.EncodeOfDecode := by
  intro p w args i h
  obtain ⟨hword, hport, hrecord⟩ := decode_eq_instr h
  exact ⟨by rw [encode, word_of_decodeWord hword, hrecord], beq_iff_eq.2 hport⟩

/-- A word is reserved on a port where no row of that port has it, whatever record stands beside it. -/
theorem decode_eq_reserved_iff {p : Port} {w : BitVec 8} {args : List ArgVal} :
    decode p w args = .reserved ↔ ∀ o, decodeWord w = some o → o.port ≠ p := by
  unfold decode
  cases hw : decodeWord w with
  | none => simp
  | some o =>
    by_cases hp : o.port = p
    · cases hr : readRecord o args <;> simp [hp, hr]
    · simp [hp]

/-- The words of R89 are those that no row of the command port has. -/
theorem reservedWord_iff (w : BitVec 8) :
    reservedWord w ↔ ∀ o, decodeWord w = some o → o.port ≠ .command := by
  have hcheck : ∀ w : BitVec 8, reservedWord w ↔ (decodeWord w).all (fun o => o.port != .command) = true := by
    unfold reservedWord
    decide
  rw [hcheck w, Option.all_eq_true]
  simp

/-- Settles O5: on the command port `Reserved` is the answer for the words without a row there, which R89 lists. -/
theorem reservedWordsListed : Obligations.ReservedWordsListed := fun w _ =>
  decode_eq_reserved_iff.trans (reservedWord_iff w).symm

/-- Settles O1: each word is the word of its row. -/
theorem commandWordsDecode : Obligations.CommandWordsDecode :=
  ⟨decodeWord_word .stpConfig, decodeWord_word .msEncode, decodeWord_word .stpSetMicrostep, decodeWord_word .ramp,
    decodeWord_word .wake, decodeWord_word .sleep, decodeWord_word .step, decodeWord_word .stpCancel,
    decodeWord_word .hxConfig, decodeWord_word .hxReadCycle, decodeWord_word .hxGetReading, decodeWord_word .hxEdge⟩

end Sys2Proof
end

section
/-! SUPPORT. What one step can do, and what every step keeps (spec/60_exceptions.md R231, R235, R242, spec/20_memory.md
R60, R74). -/

namespace Sys2Proof.Machine

/-! ### Turns and the moves they bring -/

/-- What a turn comes to, performed: `step` is this of the turn it draws (`step_eq_outcome`). -/
def Fetched.outcome : Fetched → Outcome
  | .run i s => exec i s
  | .act o => o

@[simp] theorem Fetched.outcome_run (i : Instr) (s : State) : (Fetched.run i s).outcome = exec i s := rfl

@[simp] theorem Fetched.outcome_act (o : Outcome) : (Fetched.act o).outcome = o := rfl

theorem step_eq_outcome (s : State) : step s = (fetch s).outcome := by
  unfold step
  cases fetch s <;> rfl

/-- The step of a listed turn is the move it names, at the state with the turn taken. -/
theorem step_turn {s : State} {m : Move} {k : Nat} {ts : List Turn} (h : s.turns = ⟨m, k⟩ :: ts) :
    step s = (moveOf m { s with turns := ts, quantum := k }).outcome := by
  simp [step_eq_outcome, fetch, drawTurn, h]

/-- HOST presents a word that decodes to a command. -/
theorem presentNext_instr {s : State} {c : HostCommand} {ps : List HostCommand} {i : Instr} (hp : s.program = c :: ps)
    (hd : decode .command c.word c.args = .instr i) :
    presentNext s = if canAccept i s then .run i { s with program := ps } else .act (.next s) := by
  simp [presentNext, hp, hd]

/-- Settles O6: the decoded command is run where the unit can accept it, and else stays in the program. -/
theorem presentTurnRunsCommand : Obligations.PresentTurnRunsCommand := by
  intro s k ts c ps i ht hp hd
  rw [step_turn ht, moveOf, presentNext_instr (s := { s with turns := ts, quantum := k }) hp hd]
  have hcan : canAccept i { s with turns := ts, quantum := k } = canAccept i s := by cases i <;> rfl
  rw [hcan, apply_ite Fetched.outcome]
  rfl

/-- Settles O7: the dispatcher has no cycle to go on with, and `HAS_CANCEL` lets `STP_CANCEL` be taken at any time. -/
theorem eventTurnsRunTheirCommands : Obligations.EventTurnsRunTheirCommands := by
  refine fun s k ts => ⟨fun ht he => ?_, fun ht hc => ?_⟩
  · rw [step_turn ht]
    simp [moveOf, he]
  · rw [step_turn ht]
    simp [moveOf, canAccept, hc]

/-- Settles O8: the turn's quantum bounds the actions of the unit it names. -/
theorem unitTurnsContinueTheirCommands : Obligations.UnitTurnsContinueTheirCommands := by
  refine fun s k ts => ⟨fun ht => ?_, fun ht => ?_, fun ht he => ?_⟩
  · rw [step_turn ht]; rfl
  · rw [step_turn ht]; rfl
  · rw [step_turn ht]
    simp [moveOf, he]

/-! ### Acceptance (spec/60_exceptions.md R231) -/

theorem acceptStepper_busy {s : State} (body : State → Outcome) (h : s.stepper.busy = true) :
    acceptStepper s body = .next s := by
  simp [acceptStepper, h]

theorem acceptHx_busy {s : State} (body : State → Outcome) (h : s.hx.busy = true) : acceptHx s body = .next s := by
  simp [acceptHx, h]

/-- The seven STEPPER commands but `STP_CANCEL` are refused entry by a busy unit. -/
theorem stepper_busy_waits {i : Instr} {s : State}
    (hi : i.opcode ∈ [.stpConfig, .msEncode, .stpSetMicrostep, .ramp, .wake, .sleep, .step])
    (hb : s.stepper.busy = true) : canAccept i s = false ∧ exec i s = .next s := by
  cases i with
  | stpConfig _ | msEncode _ _ | stpSetMicrostep _ | ramp _ _ | wake | sleep | step _ _ _ _ =>
    simp only [exec, execStpConfig, execMsEncode, execStpSetMicrostep, execRamp, execWake, execSleep, execStep]
    exact ⟨by simp [canAccept, hb], acceptStepper_busy _ hb⟩
  | stpCancel | hxConfig _ | hxReadCycle | hxGetReading _ | hxEdge => simp [Instr.opcode] at hi

/-- A running cycle keeps `HX_CONFIG` waiting. -/
theorem execHxConfig_reading {a : HxConfigArgs} {s : State} (hr : s.hx.reading = true) :
    canAccept (.hxConfig a) s = false ∧ exec (.hxConfig a) s = .next s := by
  simp [canAccept, exec, execHxConfig, hr]

theorem hx_busy_waits {i : Instr} {s : State} (hi : i.opcode ∈ [.hxConfig, .hxReadCycle, .hxGetReading])
    (hb : s.hx.busy = true) : canAccept i s = false ∧ exec i s = .next s := by
  cases i with
  | hxConfig a =>
    by_cases hr : s.hx.reading = true
    · exact execHxConfig_reading hr
    · exact ⟨by simp [canAccept, hb], by simp [exec, execHxConfig, hr, acceptHx_busy _ hb]⟩
  | hxReadCycle | hxGetReading _ =>
    simp only [exec, execHxReadCycle, execHxGetReading]
    exact ⟨by simp [canAccept, hb], acceptHx_busy _ hb⟩
  | stpConfig _ | msEncode _ _ | stpSetMicrostep _ | ramp _ _ | wake | sleep | step _ _ _ _ | stpCancel | hxEdge =>
    simp [Instr.opcode] at hi

/-- An idle STEPPER unit accepts any of its commands. -/
theorem stepper_idle_accepts {i : Instr} {s : State}
    (hi : i.opcode ∈ [.stpConfig, .msEncode, .stpSetMicrostep, .ramp, .wake, .sleep, .step, .stpCancel])
    (hb : s.stepper.busy = false) : canAccept i s = true := by
  cases i with
  | stpConfig _ | msEncode _ _ | stpSetMicrostep _ | ramp _ _ | wake | sleep | step _ _ _ _ | stpCancel =>
    simp [canAccept, hb]
  | hxConfig _ | hxReadCycle | hxGetReading _ | hxEdge => simp [Instr.opcode] at hi

/-- An idle HX711 unit accepts the two commands that read. -/
theorem hx_idle_accepts {i : Instr} {s : State} (hi : i.opcode ∈ [.hxReadCycle, .hxGetReading])
    (hb : s.hx.busy = false) : canAccept i s = true := by
  cases i with
  | hxReadCycle | hxGetReading _ => simp [canAccept, hb]
  | stpConfig _ | msEncode _ _ | stpSetMicrostep _ | ramp _ _ | wake | sleep | step _ _ _ _ | stpCancel | hxConfig _
  | hxEdge => simp [Instr.opcode] at hi

/-- Settles O9: acceptance tests BUSY, and for `HX_CONFIG` also `HX.READING`. -/
theorem busyUnitMakesHostWait : Obligations.BusyUnitMakesHostWait := by
  refine fun i s => ⟨stepper_busy_waits, hx_busy_waits, fun hi hr => ?_, stepper_idle_accepts, hx_idle_accepts,
    canAccept_of_hxConfig⟩
  cases i with
  | hxConfig a => exact execHxConfig_reading hr
  | stpConfig _ | msEncode _ _ | stpSetMicrostep _ | ramp _ _ | wake | sleep | step _ _ _ _ | stpCancel | hxReadCycle
  | hxGetReading _ | hxEdge => cases hi

/-- Settles O10: with no action to take, the unit stands where its command's rule has put it. -/
theorem acceptanceSetsBusy : Obligations.AcceptanceSetsBusy := by
  intro i s t hq h
  have hx : i.opcode ∈ [.hxConfig, .hxReadCycle, .hxGetReading] → s.hx.busy = false →
      (i.opcode = .hxConfig → s.hx.reading = false) →
      t.hx.busy = true ∧ t.hx.todo ≠ [] ∧ t.hx.trace = s.hx.trace ∧ t.hx.response = s.hx.response := by
    intro hi hb hr
    rcases exec_hxBegun hi h with ⟨hbusy | ⟨ho, hreading⟩, -⟩ | ⟨-, -, u, hu, hrun⟩
    · simp [hb] at hbusy
    · simp [hr ho] at hreading
    · rw [hq] at hrun
      cases hrun
      exact ⟨hu.busy, hu.todo, hu.trace, hu.response⟩
  refine ⟨fun hi hb => ?_, fun hi hb => ?_, fun hi hb hr => ?_⟩
  · rcases exec_begun hi h with ⟨hbusy, -⟩ | ⟨-, u, hu, hrun⟩
    · simp [hb] at hbusy
    · rw [hq] at hrun
      cases hrun
      exact ⟨hu.busy, hu.todo, hu.trace, hu.response⟩
  · refine hx (List.mem_cons_of_mem _ hi) hb fun ho => ?_
    simp [ho] at hi
  · exact hx (by simp [hi]) hb fun _ => hr

/-! ### The invariant (spec/10_state.md, spec/20_memory.md R67) -/

/-- The invariant does not look at the program, the turns and the traces of the host. -/
theorem Inv.congr {s t : State} (hi : Inv s) (hs : t.stepper = s.stepper) (hh : t.hx = s.hx)
    (hp : t.params = s.params) (ho : t.outsidePins = s.outsidePins) : Inv t :=
  hi.ofStepper hh hp ho (hs ▸ hi.stepper) (fun _ h => hs ▸ h)

/-- A command of the host's port is not the dispatcher's. -/
theorem decode_command_ne_hxEdge {w : BitVec 8} {args : List ArgVal} {i : Instr}
    (h : decode .command w args = .instr i) : i ≠ .hxEdge := by
  rintro rfl
  exact absurd (decode_eq_instr h).2.1 (by decide)

/-- Every step under the invariant. -/
theorem step_noFault {s : State} (hi : Inv s) : NoFault Inv (step s) := by
  obtain ⟨turns, quantum, tick, hm⟩ := step_cases s
  have hd : Inv { s with turns := turns, quantum := quantum, tick := tick } := hi.congr rfl rfl rfl rfl
  generalize { s with turns := turns, quantum := quantum, tick := tick } = d at hm hd
  cases hm with
  | idle h => rw [h]; exact hd
  | present i c ps hp hdec hc h =>
    rw [h]
    exact exec_noFault (hd.congr rfl rfl rfl rfl) fun e => absurd e (decode_command_ne_hxEdge hdec)
  | reserved c ps hp hdec h =>
    have hp : Inv { d with program := ps } := hd.congr rfl rfl rfl rfl
    rcases h with ⟨-, -, h⟩ | ⟨-, hb, h⟩ | ⟨-, -, h⟩
    · rw [h]; exact runStepper_noFault (stpRaise_noFault hp _)
    · rw [h]; exact runHx_noFault (hxRaise_noFault hp hb _)
    · rw [h]; exact hd.congr rfl rfl rfl rfl
  | malformed h => rw [h]; trivial
  | cancel hc h => rw [h]; exact exec_noFault hd fun e => by cases e
  | edge he h => rw [h]; exact exec_noFault hd fun _ => he
  | stepper h => rw [h]; exact runStepper_noFault hd
  | hx711 h => rw [h]; exact runHx_noFault hd
  | cycle h => rw [h]; exact runEdge_noFault hd
  | outside p h => rw [h]; exact outsideWrite_noFault hd p
  | release p h => rw [h]; exact outsideRelease_inv hd p

/-- Settles O14: no move leaves the invariant. -/
theorem everyStepKeepsTheInvariant : Obligations.EveryStepKeepsTheInvariant := by
  intro s t hi h
  have hs := step_noFault hi
  rwa [h] at hs

/-- Settles O13: every unit is idle and unconfigured at power-on, with nothing to do and no pin in use. -/
theorem powerOnMeetsTheInvariant : Obligations.PowerOnMeetsTheInvariant := by
  refine ⟨⟨?stepper, ?hx, ⟨?apart, ?outside⟩, List.nodup_nil⟩, ⟨rfl, rfl, rfl⟩, rfl, rfl, rfl, rfl⟩
  case stepper => exact ⟨nofun, rfl, fun _ => ⟨rfl, rfl⟩, reset_memory_wf, trivial⟩
  case hx => exact ⟨nofun, nofun, rfl, rfl, trivial, trivial, rfl, rfl⟩
  case apart =>
    rintro p (⟨c, h, -⟩ | ⟨c, h, -⟩)
    · cases h
    · cases h
  case outside => exact fun p h => by cases h

/-- Settles O18: with no program and no command in progress the three moves have nothing to do. -/
theorem endedRunIsQuiet : Obligations.EndedRunIsQuiet := by
  rintro s ⟨m, k⟩ ts hi he ht hm
  simp only [runEnded, Bool.and_eq_true, List.isEmpty_iff, Bool.not_eq_true'] at he
  obtain ⟨⟨⟨hp, hs⟩, hx⟩, -⟩ := he
  have hstp : s.stepper.todo = [] := by simpa [hs] using hi.stepper.busyTodo
  have hhx : s.hx.todo = [] := idle_host hi hx
  rw [step_turn ht]
  cases m with
  | present => simp [moveOf, presentNext, hp]
  | stepper => exact runStepper_nil k hstp
  | hx711 => exact runHx_nil k hhx
  | cancel | edge | outside _ | release _ => simp at hm

/-! ### Refusals -/

/-- The outcome is no refusal but one of `P`. -/
def RefusesOnly {α : Type} (P : Refusal → Prop) : Host.Outcome α Fault Refusal → Prop
  | .refused r => P r
  | .next _ | .fault _ => True

theorem RefusesOnly.next {α : Type} {P : Refusal → Prop} (a : α) : RefusesOnly P (.next a) := trivial

theorem RefusesOnly.andThen {α β : Type} {P : Refusal → Prop} {o : Host.Outcome α Fault Refusal}
    {k : α → Host.Outcome β Fault Refusal} (h : RefusesOnly P o) (hk : ∀ a, RefusesOnly P (k a)) :
    RefusesOnly P (andThen o k) := by
  cases o with
  | next a => exact hk a
  | fault _ => trivial
  | refused _ => exact h

theorem RefusesOnly.readReg {α β : Type} {P : Refusal → Prop} {v : Option α} {r : RegName}
    {k : α → Host.Outcome β Fault Refusal} (hk : ∀ a, RefusesOnly P (k a)) : RefusesOnly P (readReg v r k) := by
  cases v with
  | some a => exact hk a
  | none => trivial

theorem RefusesOnly.ite {α : Type} {P : Refusal → Prop} {c : Prop} [Decidable c]
    {o o' : Host.Outcome α Fault Refusal} (h : RefusesOnly P o) (h' : RefusesOnly P o') :
    RefusesOnly P (if c then o else o') := by
  split
  · exact h
  · exact h'

theorem stpAct_refusesOnly (P : Refusal → Prop) (op : StpOp) (rest : List StpOp) (s : State) :
    RefusesOnly P (stpAct op rest s) := by
  cases op with
  | cfgOut _ | wr _ _ | wait _ | setPower _ | setPhase _ | store _ | startPulses | respProfile _ | resp _ _ => trivial
  | storeMicrostep _ _ | pulseLow => exact .readReg fun _ => trivial
  | pulse => exact .readReg fun _ => .ite (.ite trivial (.readReg fun _ => trivial)) trivial
  | hold _ => exact .ite (.readReg fun _ => trivial) trivial

theorem runStepper_refusesOnly (P : Refusal → Prop) (k : Nat) (s : State) : RefusesOnly P (runStepper k s) := by
  induction k generalizing s with
  | zero => trivial
  | succ k ih =>
    cases ht : s.stepper.todo with
    | nil => rw [runStepper_nil _ ht]; trivial
    | cons op rest => rw [runStepper_cons k ht]; exact (stpAct_refusesOnly P op rest s).andThen ih

theorem tryEnter_refusesOnly (P : Refusal → Prop) (s : State) : RefusesOnly P (tryEnter s) := by
  refine .ite trivial (.readReg fun c => ?_)
  split <;> trivial

theorem hxAct_refusesOnly (P : Refusal → Prop) (op : HxOp) (rest : List HxOp) (s : State) :
    RefusesOnly P (hxAct op rest s) := by
  have request : ∀ e, RefusesOnly P (hxConfigure e rest s) := fun e => by
    obtain ⟨_, _, _, h⟩ := hxConfigure_eq e rest s
    rw [h]; trivial
  cases op with
  | wr _ _ | wait _ | store _ _ | clear _ | resp _ _ => trivial
  | cfgIn _ _ | cfgOut _ | register _ => exact request _
  | poll u => exact (tryEnter_refusesOnly P s).andThen fun _ => .ite trivial trivial
  | dataClock u => exact .readReg fun _ => .readReg fun _ => .ite trivial (.readReg fun _ => trivial)
  | sample => exact .readReg fun _ => trivial
  | shift l => exact .readReg fun _ => .readReg fun _ => trivial
  | extraClock u v => exact .readReg fun _ => .readReg fun _ => .ite trivial trivial
  | countPulse => exact .readReg fun _ => trivial
  | deliver u v =>
    cases u with
    | respond | emit => trivial
    | average n => exact .readReg fun _ => .readReg fun _ => .ite trivial trivial

theorem hxSteps_refusesOnly (P : Refusal → Prop) (k : Nat) (l : List HxOp) (s : State) :
    RefusesOnly P (hxSteps k l s) := by
  induction k generalizing l s with
  | zero => trivial
  | succ k ih =>
    cases l with
    | nil => trivial
    | cons op rest => exact (hxAct_refusesOnly P op rest s).andThen fun t => ih t.1 t.2

theorem runHx_refusesOnly (P : Refusal → Prop) (k : Nat) (s : State) : RefusesOnly P (runHx k s) := by
  rw [runHx_eq]
  exact (hxSteps_refusesOnly P k _ s).andThen fun _ => trivial

theorem runEdge_refusesOnly (P : Refusal → Prop) (k : Nat) (s : State) : RefusesOnly P (runEdge k s) := by
  rw [runEdge_eq]
  exact (hxSteps_refusesOnly P k _ s).andThen fun _ => trivial

theorem acceptStepper_refusesOnly {P : Refusal → Prop} {s : State} {body : State → Outcome}
    (h : ∀ u, RefusesOnly P (body u)) : RefusesOnly P (acceptStepper s body) :=
  .ite trivial ((h _).andThen (runStepper_refusesOnly P _))

theorem acceptHx_refusesOnly {P : Refusal → Prop} {s : State} {body : State → Outcome}
    (h : ∀ u, RefusesOnly P (body u)) : RefusesOnly P (acceptHx s body) :=
  .ite trivial ((h _).andThen (runHx_refusesOnly P _))

theorem stpConfigured_refusesOnly {P : Refusal → Prop} {s : State} {k : StepperConfig → Outcome}
    (h : ∀ c, RefusesOnly P (k c)) : RefusesOnly P (stpConfigured s k) := .ite (.readReg h) trivial

theorem hxConfigured_refusesOnly {P : Refusal → Prop} {s : State} {k : Outcome} (h : RefusesOnly P k) :
    RefusesOnly P (hxConfigured s k) := .ite h trivial

theorem clearOfStepper_refusesOnly {P : Refusal → Prop} {r : Refusal} (hr : P r) {ps : List Pin} {s : State}
    {k : Outcome} (h : RefusesOnly P k) : RefusesOnly P (clearOfStepper ps r s k) :=
  .readReg fun _ => .ite h hr

theorem clearOfHx_refusesOnly {P : Refusal → Prop} {r : Refusal} (hr : P r) {ps : List Pin} {s : State}
    {k : Outcome} (h : RefusesOnly P k) : RefusesOnly P (clearOfHx ps r s k) :=
  .readReg fun _ => .ite h hr

theorem storeProfile_refusesOnly {P : Refusal → Prop} {p : List F64} {s : State} {k : State → Outcome}
    (h : ∀ u, RefusesOnly P (k u)) : RefusesOnly P (storeProfile p s k) := .ite (h _) trivial

/-- Of all commands only the two configurations are ever refused, for their pins. -/
theorem exec_refusesOnly (i : Instr) (s : State) : RefusesOnly (· = .pinOverlap) (exec i s) := by
  cases i with
  | stpConfig a =>
    simp only [exec, execStpConfig]
    refine acceptStepper_refusesOnly fun u => ?_
    split
    · exact .ite (clearOfHx_refusesOnly (P := (· = .pinOverlap)) rfl (.next _)) rfl
    · exact .next _
  | msEncode m d =>
    simp only [exec, execMsEncode]
    refine acceptStepper_refusesOnly fun u => ?_
    split <;> exact .next _
  | stpSetMicrostep d =>
    simp only [exec, execStpSetMicrostep]
    refine acceptStepper_refusesOnly fun u => stpConfigured_refusesOnly fun c => ?_
    split <;> exact .next _
  | ramp n rpm =>
    simp only [exec, execRamp, buildRamp]
    exact acceptStepper_refusesOnly fun u => stpConfigured_refusesOnly fun c =>
      .ite (storeProfile_refusesOnly fun _ => .next _) (.next _)
  | wake | sleep =>
    simp only [exec, execWake, execSleep]
    exact acceptStepper_refusesOnly fun u => stpConfigured_refusesOnly fun c => .next _
  | step n d rpm useRamp =>
    simp only [exec, execStep, startStep, buildRamp]
    exact acceptStepper_refusesOnly fun u => stpConfigured_refusesOnly fun c => .readReg fun w =>
      .ite (.ite (storeProfile_refusesOnly fun _ => .next _) (.next _))
        (.ite (storeProfile_refusesOnly fun _ => .next _) (.next _))
  | stpCancel => exact .ite (.next _) (acceptStepper_refusesOnly fun _ => .next _)
  | hxConfig a =>
    refine .ite (.next _) (acceptHx_refusesOnly fun u => ?_)
    split
    · exact .ite (clearOfStepper_refusesOnly (P := (· = .pinOverlap)) rfl (.next _)) rfl
    · exact .next _
  | hxReadCycle =>
    simp only [exec, execHxReadCycle]
    exact acceptHx_refusesOnly fun u => hxConfigured_refusesOnly (.next _)
  | hxGetReading n =>
    simp only [exec, execHxGetReading]
    exact acceptHx_refusesOnly fun u => hxConfigured_refusesOnly (.ite (.next _) (.next _))
  | hxEdge =>
    exact .ite ((tryEnter_refusesOnly _ s).andThen fun t => .ite (runEdge_refusesOnly _ _ _) (.next _)) (.next _)

/-- The three refusals of a step. -/
theorem step_refusesOnly (s : State) :
    RefusesOnly (fun r => r = .pinOverlap ∨ r = .outsideWriter ∨ r = .malformedRecord) (step s) := by
  have command : ∀ i u,
      RefusesOnly (fun r => r = .pinOverlap ∨ r = .outsideWriter ∨ r = .malformedRecord) (exec i u) := by
    intro i u
    have h := exec_refusesOnly i u
    cases hr : exec i u with
    | refused r => rw [hr] at h; exact .inl h
    | next _ | fault _ => trivial
  obtain ⟨turns, quantum, tick, hm⟩ := step_cases s
  cases hm with
  | idle h | release p h => rw [h]; trivial
  | present i c ps hp hdec hc h => rw [h]; exact command i _
  | reserved c ps hp hdec h =>
    rcases h with ⟨-, -, h⟩ | ⟨-, -, h⟩ | ⟨-, -, h⟩
    · rw [h]; exact runStepper_refusesOnly _ _ _
    · rw [h]; exact runHx_refusesOnly _ _ _
    · rw [h]; trivial
  | malformed h => rw [h]; exact .inr (.inr rfl)
  | cancel hc h | edge he h => rw [h]; exact command _ _
  | stepper h => rw [h]; exact runStepper_refusesOnly _ _ _
  | hx711 h => rw [h]; exact runHx_refusesOnly _ _ _
  | cycle h => rw [h]; exact runEdge_refusesOnly _ _ _
  | outside p h =>
    rw [h]
    exact clearOfStepper_refusesOnly (.inr (.inl rfl)) (clearOfHx_refusesOnly (.inr (.inl rfl)) trivial)

/-- Settles O15: under the invariant no move faults, and from any state the refusals are those of pins and records. -/
theorem noStepReadsAnUnsetRegister : Obligations.NoStepReadsAnUnsetRegister := by
  refine ⟨fun s f hi h => ?_, fun s r h => ?_⟩
  · have hs := step_noFault hi
    rwa [h] at hs
  · have hs := step_refusesOnly s
    rwa [h] at hs

/-! ### What a step leaves alone, and the traces (spec/20_memory.md R60, R73) -/

/-- Everything outside the units that a step can write, before what its move does. -/
theorem step_frame {s t : State} (h : step s = .next t) : ∃ program turns quantum tick,
    (program = s.program ∨ program = s.program.tail) ∧
    let u : State := { s with program := program, turns := turns, quantum := quantum, tick := tick }
    StpFrame u t ∨ HxFrame u t ∨ t = hostUnknown u ∨ ∃ p, t = outsideHold p u ∨ t = outsideRelease p u := by
  obtain ⟨turns, quantum, tick, hm⟩ := step_cases s
  have command : ∀ {u : State} {i : Instr}, exec i u = .next t → StpFrame u t ∨ HxFrame u t := fun he =>
    (exec_frame he).imp And.right And.right
  have presented : ∀ {c : HostCommand} {ps : List HostCommand}, s.program = c :: ps →
      ps = s.program ∨ ps = s.program.tail := fun hp => .inr (by rw [hp]; rfl)
  cases hm with
  | idle he =>
    cases he.symm.trans h
    exact ⟨s.program, turns, quantum, tick, .inl rfl, .inl (StpFrame.refl _)⟩
  | present i c ps hp hdec hc he =>
    refine ⟨ps, turns, quantum, tick, presented hp, ?_⟩
    exact (command (he.symm.trans h)).imp id .inl
  | reserved c ps hp hdec he =>
    refine ⟨ps, turns, quantum, tick, presented hp, ?_⟩
    rcases he with ⟨-, -, he⟩ | ⟨-, -, he⟩ | ⟨-, -, he⟩
    · exact .inl (((StpFrame.of_stepper (fun x => { x with busy := true }) rfl).trans (StpFrame.todo _ _)).trans
        (runStepper_frame (he.symm.trans h)))
    · exact .inr (.inl ((HxFrame.of_hx (fun x => { x with busy := true, todo := [.resp .unknownCommand .none] })
        rfl).trans (runHx_frame (he.symm.trans h))))
    · cases he.symm.trans h
      exact .inr (.inr (.inl rfl))
  | malformed he => cases he.symm.trans h
  | cancel hc he | edge hc he =>
    exact ⟨s.program, turns, quantum, tick, .inl rfl, (command (he.symm.trans h)).imp id .inl⟩
  | stepper he => exact ⟨s.program, turns, quantum, tick, .inl rfl, .inl (runStepper_frame (he.symm.trans h))⟩
  | hx711 he => exact ⟨s.program, turns, quantum, tick, .inl rfl, .inr (.inl (runHx_frame (he.symm.trans h)))⟩
  | cycle he => exact ⟨s.program, turns, quantum, tick, .inl rfl, .inr (.inl (runEdge_frame (he.symm.trans h)))⟩
  | outside p he =>
    refine ⟨s.program, turns, quantum, tick, .inl rfl, .inr (.inr (.inr ⟨p, .inl ?_⟩))⟩
    rcases outsideWrite_eq p { s with turns := turns, quantum := quantum, tick := tick } with
      ⟨-, ho⟩ | ⟨-, ho⟩ | ⟨r, -, ho⟩
    · cases (he.trans ho).symm.trans h; rfl
    · cases (he.trans ho).symm.trans h
    · cases (he.trans ho).symm.trans h
  | release p he =>
    cases he.symm.trans h
    exact ⟨s.program, turns, quantum, tick, .inl rfl, .inr (.inr (.inr ⟨p, .inr rfl⟩))⟩

/-- Settles O16: the move of a unit appends to its own trace, the host's port to its own, an outside agent to none. -/
theorem tracesOnlyGrow : Obligations.TracesOnlyGrow := by
  intro s t h
  obtain ⟨_, _, _, _, -, hf | hf | rfl | ⟨p, rfl | rfl⟩⟩ := step_frame h
  · obtain ⟨es, htrace, horder⟩ := hf.grows
    exact ⟨es, [], [], _, htrace, by simp [hf.hx], by simp [hf.hostTrace], horder, by simp [List.count_replicate]⟩
  · obtain ⟨fs, htrace, horder⟩ := hf.grows
    exact ⟨[], fs, [], _, by simp [hf.stepper], htrace, by simp [hf.hostTrace], horder,
      by simp [List.count_replicate]⟩
  · exact ⟨[], [], [.resp .unknownCommand .none], [.hostPort], by simp⟩
  · exact ⟨[], [], [], [], by simp⟩
  · exact ⟨[], [], [], [], by simp⟩

/-- Settles O17: no move writes a parameter, and only HOST's presenting takes an entry off the program. -/
theorem parametersNeverChange : Obligations.ParametersNeverChange := by
  intro s t h
  obtain ⟨program, _, _, _, hp, hf | hf | rfl | ⟨p, rfl | rfl⟩⟩ := step_frame h
  · exact ⟨hf.params, hf.program ▸ hp⟩
  · exact ⟨hf.params, hf.program ▸ hp⟩
  · exact ⟨rfl, hp⟩
  · exact ⟨rfl, hp⟩
  · exact ⟨rfl, hp⟩

end Sys2Proof.Machine
end

section
/-! SUPPORT. Errors: reserved words, failed checks, failed configure requests and pins in use (spec/60_exceptions.md
R220 to R225, spec/20_memory.md R67). -/

namespace Sys2Proof.Machine

/-! ### Reserved words -/

/-- A reserved word goes to its addressee, also where it is `0x17` without `HAS_CANCEL`, whatever its record is. -/
theorem presentNext_reserved {s : State} {c : HostCommand} {ps : List HostCommand} (hp : s.program = c :: ps)
    (hw : reservedWord c.word ∨ c.word = 0x17 ∧ s.params.hasCancel = false) :
    (presentNext s).outcome = presentReserved c.word { s with program := ps } s := by
  unfold presentNext
  rw [hp]
  cases hd : decode .command c.word c.args with
  | reserved => simp [hd]
  | malformed =>
    rcases hw with hw | ⟨hw, hc⟩
    · simp [(reservedWordsListed c.word c.args).2 hw] at hd
    · have hres : cancelReserved c.word s = true := by simp [cancelReserved, hw, hc, Opcode.word]
      simp [hd, hres]
  | instr i =>
    rcases hw with hw | ⟨hw, hc⟩
    · simp [(reservedWordsListed c.word c.args).2 hw] at hd
    · have ho : i.opcode = .stpCancel := by
        have hi := (decode_eq_instr hd).1
        rw [hw] at hi
        exact (Option.some.inj hi).symm
      cases i with
      | stpCancel =>
        have hu : unitField c.word = 1 := by rw [hw]; decide
        cases hb : s.stepper.busy <;>
          simp [hd, canAccept, hc, hb, presentReserved, hu, exec, execStpCancel]
      | stpConfig _ | msEncode _ _ | stpSetMicrostep _ | ramp _ _ | wake | sleep | step _ _ _ _ | hxConfig _
      | hxReadCycle | hxGetReading _ | hxEdge => cases ho

theorem stpUnknown_responds {s : State} (hb : s.stepper.busy = false) (hq : 1 ≤ s.quantum) :
    stpUnknown s = .next (stepperDone s [] .unknownCommand .none s.stepper) :=
  acceptStepper_responds hb hq fun _ => rfl

theorem hxUnknown_responds {s : State} (hb : s.hx.busy = false) (hq : 1 ≤ s.quantum) :
    hxUnknown s = .next (hxDone s [] .unknownCommand .none s.hx) :=
  acceptHx_responds hb hq fun _ => rfl

/-- Settles O11: UNIT chooses who answers, and a busy unit leaves the word where it is. -/
theorem reservedWordAnswered : Obligations.ReservedWordAnswered := by
  intro s k ts c ps ht hp hw u
  have hstep : step s = presentReserved c.word u { s with turns := ts, quantum := k + 1 } :=
    (step_turn ht).trans (presentNext_reserved (s := { s with turns := ts, quantum := k + 1 }) hp hw)
  rw [hstep]
  refine ⟨fun hu hb => ?_, fun hu hb => ?_, ?_, fun h1 h2 => ?_⟩
  · simp only [presentReserved, hu, hb, if_true, Bool.false_eq_true, if_false]
    exact stpUnknown_responds (s := u) hb (Nat.le_add_left 1 k)
  · simp only [presentReserved, hu, hb, if_true, Bool.false_eq_true, if_false]
    exact hxUnknown_responds (s := u) hb (Nat.le_add_left 1 k)
  · rintro (⟨hu, hb⟩ | ⟨hu, hb⟩)
    · simp [presentReserved, hu, hb]
    · simp [presentReserved, hu, hb]
  · simp only [presentReserved, h1, h2, if_false]
    rfl

/-! ### Checks that fail after acceptance -/

/-- A STEPPER command that has its response alone left to do, where it has performed no event yet. -/
theorem runStepper_responds {s u : State} {k : Nat} {st : Status} {r : Result} (hk : 1 ≤ k)
    (ht : u.stepper.todo = [.resp st r]) (hu : u = { s with stepper := u.stepper })
    (htr : u.stepper.trace = s.stepper.trace) : runStepper k u = .next (stepperDone s [] st r u.stepper) := by
  refine runStepper_to hk ?_ rfl
  rw [runStepper_resp ht, stpRespond_eq_stepperDone (s := s) (es := []) st r (by simpa using hu) (by simpa using htr)]

/-- An error raised at acceptance: no event before the response, and the registers as the rule left them. -/
theorem runStepper_stpRaise {s u : State} {k : Nat} (st : Status) (hk : 1 ≤ k)
    (hu : u = { s with stepper := u.stepper }) (htr : u.stepper.trace = s.stepper.trace) :
    runStepper k (stpRaise st u) = .next (stepperDone s [] st .none u.stepper) :=
  runStepper_responds (u := stpRaise st u) hk rfl (congrArg (stpRaise st) hu) htr

/-- P1 to P4 of spec/41_ramp_generator.md R122, one by one. -/
theorem rampLegal_iff {p : Params} {spr n : Count} {rpm : F64} : rampLegal p spr n rpm = true ↔
    n ≠ 0 ∧ (realFinite rpm = true ∧ realLt 0#64 rpm = true) ∧ realFinite (delayAt spr rpm) = true ∧
    2 * (n.toNat / 2) ≤ p.profileDepth := by
  simp [rampLegal, speedLegal, realPositive, and_assoc]

/-- The checks of spec/42_motion_sequencer.md R156 without the ramp, one by one. -/
theorem constantLegal_iff {p : Params} {spr n : Count} {rpm : F64} : constantLegal p spr n rpm = true ↔
    n ≠ 0 ∧ (realFinite rpm = true ∧ realLt 0#64 rpm = true) ∧ realFinite (delayAt spr rpm) = true ∧
    n.toNat ≤ p.profileDepth := by
  simp [constantLegal, speedLegal, realPositive, and_assoc]

theorem exec_ramp_illegal {n : Count} {rpm : F64} {s : State} {c : StepperConfig} (hb : s.stepper.busy = false)
    (hg : s.stepper.cfgd = true) (hc : s.stepper.config = some c) (hq : 1 ≤ s.quantum)
    (hl : rampLegal s.params c.stepsPerRev n rpm = false) :
    exec (.ramp n rpm) s = .next (stepperDone s [] .invalidConfiguration .none s.stepper) := by
  simp only [exec, execRamp]
  rw [acceptStepper_configured hb hg hc]
  simp only [onStepper_params, hl, Bool.false_eq_true, if_false, andThen_next]
  exact runStepper_stpRaise .invalidConfiguration hq rfl rfl

/-- An accepted `STEP` at a configured unit: the cancellation request is cleared, and the profile is to be built
(spec/42_motion_sequencer.md R156, R157). -/
theorem exec_step_configured {n : Count} {d : Bool} {rpm : F64} {useRamp : Bool} {s : State} {c : StepperConfig}
    {w : Power} (hb : s.stepper.busy = false) (hg : s.stepper.cfgd = true) (hc : s.stepper.config = some c)
    (hw : s.stepper.power = some w) :
    exec (.step n d rpm useRamp) s = andThen (startStep n d rpm useRamp c w
      (onStepper (fun x => { x with busy := true, cancelReq := false, sqPhase := .build }) s))
      (runStepper s.quantum) := by
  simp only [exec, execStep]
  rw [acceptStepper_configured hb hg hc]
  simp only [onStepper_stepper, hw, readReg_some]
  rfl

/-- A `STEP` that fails a check has its error left to do. -/
theorem startStep_illegal {n : Count} {d : Bool} {rpm : F64} {useRamp : Bool} {c : StepperConfig} {w : Power}
    {s : State} (hr : useRamp = true → rampLegal s.params c.stepsPerRev n rpm = false)
    (hk : useRamp = false → constantLegal s.params c.stepsPerRev n rpm = false) :
    startStep n d rpm useRamp c w s = .next (stpRaise .invalidConfiguration s) := by
  cases useRamp with
  | true => simp [startStep, hr rfl]
  | false => simp [startStep, hk rfl]

theorem exec_step_illegal {n : Count} {d : Bool} {rpm : F64} {useRamp : Bool} {s : State} {c : StepperConfig}
    {w : Power} (hb : s.stepper.busy = false) (hg : s.stepper.cfgd = true) (hc : s.stepper.config = some c)
    (hw : s.stepper.power = some w) (hq : 1 ≤ s.quantum)
    (hr : useRamp = true → rampLegal s.params c.stepsPerRev n rpm = false)
    (hk : useRamp = false → constantLegal s.params c.stepsPerRev n rpm = false) :
    exec (.step n d rpm useRamp) s =
      .next (stepperDone s [] .invalidConfiguration .none { s.stepper with cancelReq := false }) := by
  rw [exec_step_configured hb hg hc hw, startStep_illegal (s := onStepper _ s) hr hk, andThen_next]
  exact runStepper_stpRaise .invalidConfiguration hq rfl rfl

/-- Settles O23: whichever check fails, the arguments are not legal, and only `STEP` has cleared the request by then. -/
theorem invalidMotionRejected : Obligations.InvalidMotionRejected := by
  intro n rpm d s c w hb hg hc hw hq bad cleared
  have speed : bad → ¬(n ≠ 0 ∧ (realFinite rpm = true ∧ realLt 0#64 rpm = true) ∧
      realFinite (delayAt c.stepsPerRev rpm) = true) := by
    rintro (h | h | h) ⟨hn, hrpm, hdelay⟩
    · exact hn h
    · exact h hrpm
    · exact Bool.false_ne_true (h.symm.trans hdelay)
  refine ⟨fun h => ?_, fun h => ?_⟩
  · have hl : rampLegal s.params c.stepsPerRev n rpm = false := by
      refine Bool.eq_false_iff.2 fun hl => ?_
      obtain ⟨hn, hrpm, hdelay, hdepth⟩ := rampLegal_iff.1 hl
      exact h.elim (speed · ⟨hn, hrpm, hdelay⟩) (not_lt.2 hdepth)
    exact ⟨exec_ramp_illegal hb hg hc hq hl, exec_step_illegal hb hg hc hw hq (fun _ => hl) nofun⟩
  · have hl : constantLegal s.params c.stepsPerRev n rpm = false := by
      refine Bool.eq_false_iff.2 fun hl => ?_
      obtain ⟨hn, hrpm, hdelay, hdepth⟩ := constantLegal_iff.1 hl
      exact h.elim (speed · ⟨hn, hrpm, hdelay⟩) (not_lt.2 hdepth)
    exact exec_step_illegal hb hg hc hw hq nofun fun _ => hl

/-- An error the HX711 unit raises at acceptance, in the same way. -/
theorem runHx_hxRaise {s u : State} {k : Nat} (st : Status) (hk : 1 ≤ k) (hu : u = { s with hx := u.hx })
    (htr : u.hx.trace = s.hx.trace) : runHx k (hxRaise st u) = .next (hxDone s [] st .none u.hx) := by
  refine runHx_responds (s := s) (v := hxRaise st u) (es := []) hk (hxSteps_act rfl) ?_ (by simpa using htr)
  rw [List.length_nil, List.replicate_zero, List.append_nil]
  exact congrArg (hxRaise st) hu

theorem acceptHx_configured {s : State} {k : State → Outcome} (hb : s.hx.busy = false) (hg : s.hx.cfgd = true) :
    acceptHx s (fun u => hxConfigured u (k u)) =
      andThen (k (onHx (fun x => { x with busy := true }) s)) (runHx s.quantum) := by
  simp [acceptHx_idle hb, hxConfigured, hg]

/-- Settles O24: the table has no row for the denominator, and 0 observations are refused before the first gate. -/
theorem invalidArgumentsRejected : Obligations.InvalidArgumentsRejected := by
  refine ⟨fun d s c hb hg hc hd hq => ?_, fun s hb hg hq => ?_⟩
  · simp only [exec, execStpSetMicrostep]
    rw [acceptStepper_configured hb hg hc]
    simp only [msEncode_eq_none_iff.2 hd, andThen_next]
    exact runStepper_stpRaise .invalidConfiguration hq rfl rfl
  · simp only [exec, execHxGetReading]
    rw [acceptHx_configured hb hg, if_pos trivial, andThen_next]
    exact runHx_hxRaise .invalidConfiguration hq rfl rfl

/-! ### Configure requests that fail (R225) -/

/-- The requests of a list are answered ok up to one that fails: the command ends there. -/
theorem runStepper_cfgOuts_fail {ps : List Pin} {ops : List StpOp} {rest : List Bool} {k : Nat} {p : Pin} {s : State}
    (ht : s.stepper.todo = ps.map .cfgOut ++ ops) (ha : s.stepper.answers = List.replicate k true ++ false :: rest)
    (hp : ps[k]? = some p) :
    runStepper (k + 2) s = .next (stpRespond .hardwareUnavailable .none (onStepper (fun x => { x with answers := rest })
      (stpDid ((ps.take k).map (.cfgOut · true) ++ [.cfgOut p false]) [] s))) := by
  obtain ⟨hk, rfl⟩ := List.getElem?_eq_some_iff.1 hp
  have hlen : (ps.take k).length = k := List.length_take_of_le hk.le
  have hps : ps = ps.take k ++ ps[k] :: ps.drop (k + 1) := by rw [List.getElem_cons_drop, List.take_append_drop]
  have hsplit : s.stepper.todo =
      (ps.take k).map .cfgOut ++ (.cfgOut ps[k] :: ((ps.drop (k + 1)).map .cfgOut ++ ops)) := by
    have hmap := congrArg (List.map StpOp.cfgOut) hps
    rw [List.map_append, List.map_cons] at hmap
    rw [ht, hmap, List.append_assoc, List.cons_append]
  have hok := runStepper_cfgOuts (ps.take k) hsplit (by rw [hlen]; exact ha)
  rw [hlen] at hok
  rw [runStepper_trans hok (runStepper_cfgOut_fail rfl rfl), ← stpDid_stpDid _ _ [] []]
  rfl

/-- A command that ends at a failed request, in the terms of claims: `u` is the state in which its requests begin. -/
theorem runStepper_cfgOuts_fail_done {ps : List Pin} {ops : List StpOp} {rest : List Bool} {k m : Nat} {p : Pin}
    {s u : State} (ht : u.stepper.todo = ps.map .cfgOut ++ ops)
    (ha : u.stepper.answers = List.replicate k true ++ false :: rest) (hp : ps[k]? = some p) (hm : k + 2 ≤ m)
    (hu : u = { s with stepper := u.stepper }) (htr : u.stepper.trace = s.stepper.trace) :
    runStepper m u = .next (stepperDone s ((ps.take k).map (.cfgOut · true) ++ [.cfgOut p false]) .hardwareUnavailable
      .none { u.stepper with answers := rest }) := by
  refine runStepper_to hm ((runStepper_cfgOuts_fail ht ha hp).trans (congrArg _ ?_)) rfl
  rw [stpRespond_eq_stepperDone (s := s) (es := (ps.take k).map (.cfgOut · true) ++ [.cfgOut p false])]
  · rfl
  · rw [hu]; rfl
  · simp [stpDid, htr]

/-- Legal arguments have a pattern (V5 of spec/40_stepper_config.md R103). -/
theorem exists_pattern_of_stpConfigLegal {a : StpConfigArgs} (h : stpConfigLegal a = true) :
    ∃ pattern, msEncode a.model a.microstep = some pattern := by
  obtain ⟨-, -, -, -, hkey⟩ := stpConfigLegal_iff.1 h
  exact Option.ne_none_iff_exists'.1 fun hn => msEncode_eq_none_iff.1 hn hkey

/-- Legal arguments have a number of extra pulses (spec/43_hx711_decoder.md R183). -/
theorem exists_extra_of_hxConfigLegal {a : HxConfigArgs} (h : hxConfigLegal a = true) :
    ∃ extra, extraPulses a.channel a.gain = some extra :=
  Option.isSome_iff_exists.1 (extraPulses_isSome_iff.2 (hxConfigLegal_iff.1 h).2)

theorem exec_stpSetMicrostep_accepted {d : Count} {s : State} {c : StepperConfig} {pattern : BitVec 3}
    (hb : s.stepper.busy = false) (hg : s.stepper.cfgd = true) (hc : s.stepper.config = some c)
    (hm : msEncode c.model d = some pattern) : exec (.stpSetMicrostep d) s = runStepper s.quantum
      (stpTodo (setMicrostepBody c d pattern) (onStepper (fun x => { x with busy := true }) s)) := by
  simp only [exec, execStpSetMicrostep]
  rw [acceptStepper_configured hb hg hc]
  simp [hm]

/-- A request of the HX711 unit that is answered fail ends the command. -/
theorem hxSteps_request_fail {op : HxOp} {e : Bool → Event} {l : List HxOp} {rest : List Bool} {s : State}
    (hop : hxAct op l s = hxConfigure e l s) (ha : s.hx.answers = false :: rest) :
    hxSteps 2 (op :: l) s = .next ([], hxRespond .hardwareUnavailable .none
      (hxDid [e false] (onHx (fun x => { x with answers := rest }) s))) :=
  hxSteps_trans (b := 1) (hxSteps_act (hop.trans (hxConfigure_cons e l ha))) rfl

/-- `HX_CONFIG`'s first request fails. -/
theorem hxSteps_hxConfigBody_fail_data {a : HxConfigArgs} {extra : BitVec 2} {rest : List Bool} {s : State}
    (ha : s.hx.answers = false :: rest) :
    hxSteps 2 (hxConfigBody s.params a extra) s = .next ([], hxRespond .hardwareUnavailable .none
      (hxDid [.cfgIn a.dataPin s.params.hxDataPull false] (onHx (fun x => { x with answers := rest }) s))) :=
  hxSteps_request_fail rfl ha

/-- `HX_CONFIG`'s second request fails. -/
theorem hxSteps_hxConfigBody_fail_clock {a : HxConfigArgs} {extra : BitVec 2} {rest : List Bool} {s : State}
    (ha : s.hx.answers = true :: false :: rest) :
    hxSteps 3 (hxConfigBody s.params a extra) s = .next ([], hxRespond .hardwareUnavailable .none
      (hxDid [.cfgIn a.dataPin s.params.hxDataPull true, .cfgOut a.clockPin false]
        (onHx (fun x => { x with answers := rest }) s))) := by
  have hdata := hxSteps_request_ok (op := .cfgIn a.dataPin s.params.hxDataPull)
    (e := .cfgIn a.dataPin s.params.hxDataPull)
    (l := (hxConfigBody s.params a extra).tail) rfl ha
  refine (hxSteps_trans hdata (hxSteps_request_fail (op := .cfgOut a.clockPin) rfl rfl)).trans ?_
  simp [hxDid, onHx]

/-- `HX_CONFIG`'s edge registration fails, after the clock's write. -/
theorem hxSteps_hxConfigBody_fail_edge {a : HxConfigArgs} {extra : BitVec 2} {rest : List Bool} {s : State}
    (he : a.useEdge = true) (ha : s.hx.answers = true :: true :: false :: rest) :
    hxSteps 5 (hxConfigBody s.params a extra) s = .next ([], hxRespond .hardwareUnavailable .none
      (hxDid [.cfgIn a.dataPin s.params.hxDataPull true, .cfgOut a.clockPin true, .wr a.clockPin false,
        .edge a.dataPin .falling false] (onHx (fun x => { x with answers := rest }) s))) := by
  have hpins := hxSteps_pinSetup a.dataPin a.clockPin s.params.hxDataPull
    [.register a.dataPin, .store (hxConfigOf a extra) a.useEdge, .resp .ok .none] ha
  rw [hxConfigBody, he, if_pos rfl]
  rw [he] at hpins
  refine (hxSteps_trans hpins (hxSteps_request_fail (op := .register a.dataPin) rfl rfl)).trans ?_
  simp [hxDid, onHx]

/-- Settles O20: the requests up to the failed one are all that is performed before the response. -/
theorem failedConfigureRequestEndsCommand : Obligations.FailedConfigureRequestEndsCommand := by
  refine ⟨fun a s k rest p hb hl hmay ha hp hq => ?_, fun d s c pattern k rest p hb hg hc hm ha hp hq => ?_,
    fun a s rest hb hr hl hmay hq => ?_⟩
  · obtain ⟨pattern, hm⟩ := exists_pattern_of_stpConfigLegal hl
    rw [exec_stpConfig_accepted hb hl hm hmay]
    exact runStepper_cfgOuts_fail_done (ps := argPins a) (by simp [configBody]; rfl) ha hp hq rfl rfl
  · rw [exec_stpSetMicrostep_accepted hb hg hc hm]
    exact runStepper_cfgOuts_fail_done (ps := [c.msPin0, c.msPin1, c.msPin2]) rfl ha hp hq rfl rfl
  · obtain ⟨extra, hm⟩ := exists_extra_of_hxConfigLegal hl
    rw [exec_hxConfig_accepted hb hr hl hm hmay]
    refine ⟨fun ha => ?_, fun ha => ?_, fun he ha => ?_⟩
    · refine (runHx_responds (s := s) (n := 2) (es := [.cfgIn a.dataPin s.params.hxDataPull false]) (by omega)
        (hxSteps_hxConfigBody_fail_data ?_) rfl rfl).trans rfl
      exact ha
    · refine (runHx_responds (s := s) (n := 3)
        (es := [.cfgIn a.dataPin s.params.hxDataPull true, .cfgOut a.clockPin false]) (by omega)
        (hxSteps_hxConfigBody_fail_clock ?_) rfl rfl).trans rfl
      exact ha
    · refine (runHx_responds (s := s) (n := 5)
        (es := [.cfgIn a.dataPin s.params.hxDataPull true, .cfgOut a.clockPin true, .wr a.clockPin false,
          .edge a.dataPin .falling false]) hq (hxSteps_hxConfigBody_fail_edge he ?_) rfl rfl).trans rfl
      exact ha

/-! ### Pins in use (spec/20_memory.md R67) -/

/-- A legal `STP_CONFIG` at an idle unit is decided by its pins. -/
theorem exec_stpConfig_legal {a : StpConfigArgs} {s : State} (hb : s.stepper.busy = false)
    (hl : stpConfigLegal a = true) : ∃ t, exec (.stpConfig a) s = andThen
      (if pinsFree (argPins a) s then
        clearOfHx (argPins a) .pinOverlap s (.next t)
      else .refused .pinOverlap) (runStepper s.quantum) := by
  obtain ⟨pattern, hm⟩ := exists_pattern_of_stpConfigLegal hl
  simp only [exec, execStpConfig, acceptStepper_idle hb, hl, hm]
  exact ⟨_, rfl⟩

/-- A legal `HX_CONFIG` at an idle unit is decided by its pins. -/
theorem exec_hxConfig_legal {a : HxConfigArgs} {s : State} (hb : s.hx.busy = false) (hr : s.hx.reading = false)
    (hl : hxConfigLegal a = true) : ∃ t, exec (.hxConfig a) s = andThen
      (if pinsFree [a.dataPin, a.clockPin] s then
        clearOfStepper [a.dataPin, a.clockPin] .pinOverlap s (.next t)
      else .refused .pinOverlap) (runHx s.quantum) := by
  obtain ⟨extra, hm⟩ := exists_extra_of_hxConfigLegal hl
  simp only [exec, execHxConfig, hr, acceptHx_idle hb, hl, hm, Bool.false_eq_true, if_false]
  exact ⟨_, rfl⟩

theorem pinsFree_eq_false {ps : List Pin} {s : State} (h : ¬ps.Nodup ∨ ∃ p ∈ ps, p ∈ s.outsidePins) :
    pinsFree ps s = false := by
  refine Bool.eq_false_iff.2 fun hf => ?_
  obtain ⟨hnodup, hfree⟩ := pinsFree_iff.1 hf
  rcases h with h | ⟨p, hp, ho⟩
  · exact h hnodup
  · exact hfree p hp ho

/-- The check of the other unit's pins reads its configuration, where that counts and is unset
(spec/10_state.md R22). -/
theorem clearOfHx_unset {ps : List Pin} {r : Refusal} {s : State} {k : Outcome} (hg : s.hx.cfgd = true)
    (hc : s.hx.config = none) : clearOfHx ps r s k = .fault (.unsetRegister .hxConfig) := by
  simp [clearOfHx, hxHeld, hg, hc]

theorem clearOfStepper_unset {ps : List Pin} {r : Refusal} {s : State} {k : Outcome} (hg : s.stepper.cfgd = true)
    (hc : s.stepper.config = none) : clearOfStepper ps r s k = .fault (.unsetRegister .stpConfig) := by
  simp [clearOfStepper, stepperHeld, hg, hc]

theorem exec_stpConfig_overlap {a : StpConfigArgs} {s : State} (hb : s.stepper.busy = false)
    (hl : stpConfigLegal a = true) (h : ¬(argPins a).Nodup ∨ (∃ p ∈ argPins a, p ∈ s.outsidePins) ∨
      (configsSet s ∧ ∃ p ∈ argPins a, hxUses s.hx p)) : exec (.stpConfig a) s = .refused .pinOverlap := by
  obtain ⟨t, he⟩ := exec_stpConfig_legal hb hl
  rw [he]
  by_cases hf : pinsFree (argPins a) s = true
  · obtain ⟨hset, hu⟩ := ((or_assoc.2 h).resolve_left fun h => by simp [pinsFree_eq_false h] at hf)
    rw [if_pos hf, clearOfHx_used .pinOverlap _ hset.2 hu, andThen_refused]
  · rw [if_neg hf, andThen_refused]

theorem exec_hxConfig_overlap {a : HxConfigArgs} {s : State} (hb : s.hx.busy = false) (hr : s.hx.reading = false)
    (hl : hxConfigLegal a = true) (h : a.dataPin = a.clockPin ∨ (∃ p ∈ [a.dataPin, a.clockPin], p ∈ s.outsidePins) ∨
      (configsSet s ∧ ∃ p ∈ [a.dataPin, a.clockPin], stepperUses s.stepper p)) :
    exec (.hxConfig a) s = .refused .pinOverlap := by
  obtain ⟨t, he⟩ := exec_hxConfig_legal hb hr hl
  have h' : ¬[a.dataPin, a.clockPin].Nodup ∨ _ := h.imp_left fun he => by simp [he]
  rw [he]
  by_cases hf : pinsFree [a.dataPin, a.clockPin] s = true
  · obtain ⟨hset, hu⟩ := ((or_assoc.2 h').resolve_left fun h => by simp [pinsFree_eq_false h] at hf)
    rw [if_pos hf, clearOfStepper_used .pinOverlap _ hset.1 hu, andThen_refused]
  · rw [if_neg hf, andThen_refused]

/-- Settles O25: the pins' own clashes come first, then the other unit's configuration is read. -/
theorem overlappingPinsRefused : Obligations.OverlappingPinsRefused := by
  refine ⟨fun a s hb hl h => exec_stpConfig_overlap hb hl h, fun a s hb hl hn ho hg hc => ?_,
    fun a s hb hr hl h => exec_hxConfig_overlap hb hr hl h, fun a s hb hr hl hne ho hg hc => ?_,
    fun s p k ts => ⟨fun ht hset => ?_, fun ht hg hc => ?_, fun ht => step_turn ht⟩⟩
  · obtain ⟨t, he⟩ := exec_stpConfig_legal hb hl
    rw [he, if_pos (pinsFree_iff.2 ⟨hn, ho⟩), clearOfHx_unset hg hc, andThen_fault]
  · obtain ⟨t, he⟩ := exec_hxConfig_legal hb hr hl
    rw [he, if_pos (pinsFree_iff.2 ⟨by simp [hne], ho⟩), clearOfStepper_unset hg hc, andThen_fault]
  · rw [step_turn ht, moveOf, Fetched.outcome_act]
    rcases outsideWrite_eq p { s with turns := ts, quantum := k } with ⟨hu, h⟩ | ⟨hu, h⟩ | ⟨r, hbad, -⟩
    · exact ⟨fun hp => absurd hp hu, fun _ => h⟩
    · exact ⟨fun _ => h, fun hp => absurd hu hp⟩
    · exact absurd hset hbad
  · rw [step_turn ht, moveOf, Fetched.outcome_act, outsideWrite,
      clearOfStepper_unset (s := { s with turns := ts, quantum := k }) hg hc]

end Sys2Proof.Machine
end

section
/-! SUPPORT. Properties of the ramp profile (spec/41_ramp_generator.md R121 to R133). -/

namespace Sys2Proof.Machine

/-! ### The profile, entry by entry -/

/-- The first half of the profile of which `m` passes of R123's loop are made: their delays, then the target delay. -/
def rampEntry (c : StepperConfig) (n : Count) (rpm : F64) (m i : Nat) : F64 :=
  if i < m then (rampAfter c n rpm i).delay else delayAt c.stepsPerRev rpm

/-- The loop makes `m` passes: it passes while the speed is below the target, `floor(n / 2)` times at most (R123). -/
structure RampPasses (c : StepperConfig) (n : Count) (rpm : F64) (m : Nat) : Prop where
  le_half : m ≤ n.toNat / 2
  below : ∀ i < m, realLt (rampAfter c n rpm i).curRpm rpm = true
  reached : m < n.toNat / 2 → realLt (rampAfter c n rpm m).curRpm rpm = false

/-- The profile is its first half and the mirror of that (R124, R125). -/
theorem rampProfile_eq (c : StepperConfig) (n : Count) (rpm : F64) : ∃ m, RampPasses c n rpm m ∧
    (rampProfile c n rpm).1 = (List.range (n.toNat / 2)).map (rampEntry c n rpm m) ++
      ((List.range (n.toNat / 2)).map (rampEntry c n rpm m)).reverse := by
  obtain ⟨l, hle, hl, hreached, hp⟩ := rampProfile_halves c n rpm
  have hhalf : l ++ List.replicate (n.toNat / 2 - l.length) (delayAt c.stepsPerRev rpm) =
      (List.range (n.toNat / 2)).map (rampEntry c n rpm l.length) := by
    refine List.ext_getElem? fun i => ?_
    by_cases hi : i < n.toNat / 2
    · by_cases him : i < l.length
      · rw [List.getElem?_append_left him, (hl i him).1]
        simp [rampEntry, him, hi]
      · have hidx : i - l.length < n.toNat / 2 - l.length := by omega
        rw [List.getElem?_append_right (not_lt.1 him), List.getElem?_replicate, if_pos hidx]
        simp [rampEntry, him, hi]
    · rw [List.getElem?_eq_none (by simp; omega), List.getElem?_eq_none (by simp; omega)]
  exact ⟨l.length, ⟨hle, fun i hi => (hl i hi).2, hreached⟩, by rw [hp, hhalf]⟩

/-- Settles O33: each half has `floor(n / 2)` entries. -/
theorem rampLengthIsTwiceTheHalf : Obligations.RampLengthIsTwiceTheHalf := by
  intro c n rpm
  obtain ⟨m, -, hp⟩ := rampProfile_eq c n rpm
  rw [hp]
  simp
  omega

/-- Settles O34: the second half is the mirror of the first. -/
theorem rampIsPalindrome : Obligations.RampIsPalindrome := by
  intro c n rpm
  obtain ⟨m, -, hp⟩ := rampProfile_eq c n rpm
  rw [hp, List.reverse_append, List.reverse_reverse]

theorem rampProfile_getElem?_half {c : StepperConfig} {n : Count} {rpm : F64} {m i : Nat}
    (hp : (rampProfile c n rpm).1 = (List.range (n.toNat / 2)).map (rampEntry c n rpm m) ++
      ((List.range (n.toNat / 2)).map (rampEntry c n rpm m)).reverse) (hi : i < n.toNat / 2) :
    (rampProfile c n rpm).1[i]? = some (rampEntry c n rpm m i) := by
  rw [hp, List.getElem?_append_left (by simpa using hi)]
  simp [hi]

/-- Settles O35: a pass is made for entry `i` exactly where no speed up to it has reached the target. -/
theorem rampFirstHalfFollowsTheLoop : Obligations.RampFirstHalfFollowsTheLoop := by
  intro c n rpm i hi
  obtain ⟨m, hm, hp⟩ := rampProfile_eq c n rpm
  rw [rampProfile_getElem?_half hp hi]
  refine ⟨fun hbelow => ?_, fun ⟨j, hji, hj⟩ => ?_⟩
  · have him : i < m := by
      by_contra hge
      have hreached := hm.reached (by omega)
      rw [hbelow m (by omega)] at hreached
      exact Bool.false_ne_true hreached.symm
    rw [rampEntry, if_pos him]
  · have hmj : m ≤ j := by
      by_contra hlt
      rw [hm.below j (by omega)] at hj
      exact Bool.false_ne_true hj.symm
    rw [rampEntry, if_neg (by omega)]

/-- Settles O36: the registers of R122, and the writes of one pass in R123's order. -/
theorem rampPassRecurrence : Obligations.RampPassRecurrence := by
  intro c n rpm k r r'
  have hpass : r' = rampPass c r := Function.iterate_succ_apply' (rampPass c) k _
  rw [hpass]
  exact ⟨rfl, rfl, rfl, rampPass_elapsed c r, rampPass_curRpm c r, rampPass_delay c r⟩

/-! ### Comparisons -/

/-- The two comparisons exclude each other. -/
theorem realLt_eq_false_of_realLe {x y : F64} (h : realLe x y = true) : realLt y x = false := by
  unfold realLe at h
  unfold realLt
  cases hx : realKey x with
  | none => simp [hx] at h
  | some a =>
    cases hy : realKey y with
    | none => simp [hx, hy] at h
    | some b => simpa [hx, hy] using h

/-- Settles O37: the starting speed has reached the target already, so no pass is made. -/
theorem degenerateRampIsConstant : Obligations.DegenerateRampIsConstant := by
  intro c n rpm h
  obtain ⟨m, hm, hp⟩ := rampProfile_eq c n rpm
  have hm0 : m = 0 := by
    by_contra hne
    have hbelow : realLt c.startingRpm rpm = true := hm.below 0 (by omega)
    rw [realLt_eq_false_of_realLe h] at hbelow
    exact Bool.false_ne_true hbelow
  have hentry : rampEntry c n rpm m = fun _ => delayAt c.stepsPerRev rpm := by
    funext i
    simp [rampEntry, hm0]
  rw [hp, hentry, List.map_const', List.length_range, List.reverse_replicate, ← List.replicate_add, two_mul]

/-! ### Over a legal configuration (R132, R133) -/

section

variable {c : StepperConfig} {n : Count} {rpm : F64} (hc : stepperConfigGood c)
include hc

/-- A higher speed has no longer delay. -/
theorem realLe_delayAt {x y : F64} (hx : realNonneg x) (hy : realNonneg y) (h : x.toNat ≤ y.toNat) :
    realLe (delayAt c.stepsPerRev y) (delayAt c.stepsPerRev x) = true := by
  obtain ⟨hspr, -⟩ := hc
  obtain ⟨hdx, hanti⟩ := delayAt_nonneg hspr hx
  rw [realLe_nonneg (delayAt_nonneg hspr hy).1 hdx]
  exact decide_eq_true (hanti hy h)

/-- No speed of the ramp is below the starting speed. -/
theorem startingRpm_le_rampAfter (n : Count) (rpm : F64) (k : Nat) :
    c.startingRpm.toNat ≤ (rampAfter c n rpm k).curRpm.toNat := by
  induction k with
  | zero => exact le_rfl
  | succ k ih =>
    obtain ⟨-, -, -, -, hle⟩ := rampAfter_nonneg hc n rpm k
    exact ih.trans hle

/-- From one entry of the first half to the next the delay does not grow: the speed has not fallen, or the target is
reached. -/
theorem realLe_rampEntry_succ (hr : realNonneg rpm) {m : Nat} (hm : RampPasses c n rpm m) (i : Nat) :
    realLe (rampEntry c n rpm m (i + 1)) (rampEntry c n rpm m i) = true := by
  obtain ⟨-, hrpm, hdelay, -, hle⟩ := rampAfter_nonneg hc n rpm i
  unfold rampEntry
  by_cases hi : i < m
  · rw [if_pos hi, hdelay]
    by_cases hi' : i + 1 < m
    · obtain ⟨-, hrpm', hdelay', -⟩ := rampAfter_nonneg hc n rpm (i + 1)
      rw [if_pos hi', hdelay']
      exact realLe_delayAt hc hrpm hrpm' hle
    · have hlt := hm.below i hi
      rw [realLt_nonneg hrpm hr, decide_eq_true_iff] at hlt
      rw [if_neg hi']
      exact realLe_delayAt hc hrpm hr hlt.le
  · rw [if_neg hi, if_neg (by omega)]
    exact realLe_delayAt hc hr hr le_rfl

/-- Every entry is finite and at least 0, and is the target delay or at most the starting delay. -/
theorem rampEntry_finite (hs : speedLegal c.stepsPerRev rpm = true) (n : Count) (m i : Nat) :
    realFinite (rampEntry c n rpm m i) = true ∧ realLe 0#64 (rampEntry c n rpm m i) = true ∧
    (rampEntry c n rpm m i = delayAt c.stepsPerRev rpm ∨
      realLe (rampEntry c n rpm m i) (delayAt c.stepsPerRev c.startingRpm) = true) := by
  obtain ⟨hspr, -, hstart, hfinite, -⟩ := id hc
  obtain ⟨hpos, htarget⟩ := Bool.and_eq_true_iff.1 hs
  have nonneg : ∀ {x : F64}, realNonneg x → realLe 0#64 (delayAt c.stepsPerRev x) = true := fun hx => by
    rw [realLe_nonneg (by decide) (delayAt_nonneg hspr hx).1]
    exact decide_eq_true (Nat.zero_le _)
  unfold rampEntry
  split
  · obtain ⟨-, hrpm, hdelay, -⟩ := rampAfter_nonneg hc n rpm i
    obtain ⟨hd, hanti⟩ := delayAt_nonneg hspr (realNonneg_of_positive hstart)
    have hle := hanti hrpm (startingRpm_le_rampAfter hc n rpm i)
    rw [hdelay]
    refine ⟨(realFinite_nonneg (delayAt_nonneg hspr hrpm).1).2 (hle.trans_lt ((realFinite_nonneg hd).1 hfinite)),
      nonneg hrpm, .inr ?_⟩
    exact realLe_delayAt hc (realNonneg_of_positive hstart) hrpm (startingRpm_le_rampAfter hc n rpm i)
  · exact ⟨htarget, nonneg (realNonneg_of_positive hpos), .inl rfl⟩

end

/-- Settles O38: rounding keeps the order, so the speeds do not fall and the delays do not grow. -/
theorem rampUpDelaysDoNotIncrease : Obligations.RampUpDelaysDoNotIncrease := by
  intro c n rpm i x y hc hs hi hx hy
  obtain ⟨m, hm, hp⟩ := rampProfile_eq c n rpm
  rw [rampProfile_getElem?_half hp (by omega)] at hx hy
  obtain rfl := Option.some.inj hx
  obtain rfl := Option.some.inj hy
  exact realLe_rampEntry_succ hc (realNonneg_of_positive (Bool.and_eq_true_iff.1 hs).1) hm i

/-- Settles O39: every entry of either half is an entry of the first. -/
theorem rampDelaysAreFinite : Obligations.RampDelaysAreFinite := by
  intro c n rpm x hc hs hx
  obtain ⟨m, -, hp⟩ := rampProfile_eq c n rpm
  have hmem : x ∈ (List.range (n.toNat / 2)).map (rampEntry c n rpm m) := by
    rw [hp, List.mem_append, List.mem_reverse] at hx
    exact hx.elim id id
  obtain ⟨i, -, rfl⟩ := List.mem_map.1 hmem
  exact rampEntry_finite hc hs n m i

end Sys2Proof.Machine
end

section
/-! SUPPORT. Frames: what each command leaves unchanged, and that the units' moves commute (spec/10_state.md R42,
spec/20_memory.md R74). -/

namespace Sys2Proof.Machine

/-! ### Between the units -/

theorem StpFrame.outsideKept {s t : State} (h : StpFrame s t) : outsideKept s t :=
  ⟨h.params, h.program, h.hostResponse, h.hostTrace, h.turns, h.quantum, h.tick, h.outsidePins⟩

theorem HxFrame.outsideKept {s t : State} (h : HxFrame s t) : outsideKept s t :=
  ⟨h.params, h.program, h.hostResponse, h.hostTrace, h.turns, h.quantum, h.tick, h.outsidePins⟩

/-- A command is the STEPPER unit's or the HX711 unit's, not both (R82). -/
theorem opcode_of_one_unit {o : Opcode}
    (h : o ∈ [.stpConfig, .msEncode, .stpSetMicrostep, .ramp, .wake, .sleep, .step, .stpCancel]) :
    o ∉ [.hxConfig, .hxReadCycle, .hxGetReading, .hxEdge] := by
  cases o <;> simp at h ⊢

/-- Settles O54: a command's frame is that of the unit its opcode names. -/
theorem commandsLeaveTheOtherUnitAlone : Obligations.CommandsLeaveTheOtherUnitAlone := by
  intro i s t h
  rcases exec_frame h with ⟨hi, hf⟩ | ⟨hi, hf⟩
  · exact ⟨hf.outsideKept, fun _ => hf.hx, fun hj => absurd hj (opcode_of_one_unit hi)⟩
  · exact ⟨hf.outsideKept, fun hj => absurd hi (opcode_of_one_unit hj), fun _ => hf.stepper⟩

/-- Settles O60: each unit's moves depend on its own registers and the parameters, and the other unit's moves leave
both alone. -/
theorem unitMovesCommute : Obligations.UnitMovesCommute := by
  refine fun j k s a b a' b' => ⟨fun ha hb ha' hb' => ?_, fun ha hb ha' hb' => ?_⟩
  · have hs := runStepper_frame ha
    have hx := runHx_frame ha'
    constructor
    · exact (runStepper_local hx.stepper hx.params ha hb').trans (runHx_frame hb).stepper.symm
    · exact (runStepper_frame hb').hx.trans (runHx_local hs.hx hs.params ha' hb).symm
  · have hs := runStepper_frame ha
    have hx := runEdge_frame ha'
    constructor
    · exact (runStepper_local hx.stepper hx.params ha hb').trans (runEdge_frame hb).stepper.symm
    · exact (runStepper_frame hb').hx.trans (runEdge_local hs.hx hs.params ha' hb).symm

/-! ### The STEPPER unit's registers -/

/-- `STP_CANCEL` writes its request and the port alone, whether its word is reserved or not (R160). -/
theorem exec_stpCancel_registers {s t : State} (h : exec .stpCancel s = .next t) :
    t.stepper.config = s.stepper.config ∧ t.stepper.cfgd = s.stepper.cfgd ∧ t.stepper.power = s.stepper.power ∧
    (t.stepper.prof = s.stepper.prof ∧ t.stepper.profLen = s.stepper.profLen) ∧
    t.stepper.ramp = s.stepper.ramp ∧ t.stepper.rampPhase = s.stepper.rampPhase := by
  rcases exec_stpCancel h with ⟨-, rfl⟩ | ⟨-, -, rfl⟩ | ⟨-, -, hr⟩
  · exact ⟨rfl, rfl, rfl, ⟨rfl, rfl⟩, rfl, rfl⟩
  · exact ⟨rfl, rfl, rfl, ⟨rfl, rfl⟩, rfl, rfl⟩
  · obtain ⟨hconfig, hcfgd, hpower, -, hprof, hramp⟩ := runStepper_registers hr
    exact ⟨hconfig rfl, hcfgd rfl, hpower rfl, hprof rfl, hramp rfl⟩

/-- The registers of the other STEPPER commands, by the opcodes that can write them. -/
theorem exec_stepper_registers {i : Instr} {s t : State}
    (hi : i.opcode ∈ [.stpConfig, .msEncode, .stpSetMicrostep, .ramp, .wake, .sleep, .step])
    (h : exec i s = .next t) :
    (i.opcode ≠ .stpConfig → i.opcode ≠ .stpSetMicrostep → t.stepper.config = s.stepper.config) ∧
    (i.opcode ≠ .stpConfig → t.stepper.cfgd = s.stepper.cfgd) ∧
    (i.opcode ∈ [.msEncode, .stpSetMicrostep, .ramp, .stpCancel] → t.stepper.power = s.stepper.power) ∧
    (i.opcode ≠ .step → i.opcode ≠ .stpConfig → t.stepper.cancelReq = s.stepper.cancelReq) ∧
    (i.opcode ≠ .step → i.opcode ≠ .ramp →
      t.stepper.prof = s.stepper.prof ∧ t.stepper.profLen = s.stepper.profLen) ∧
    ((i.opcode ≠ .step ∨ ∃ n d rpm, i = .step n d rpm false) → i.opcode ≠ .ramp →
      t.stepper.ramp = s.stepper.ramp ∧ t.stepper.rampPhase = s.stepper.rampPhase) := by
  rcases exec_begun hi h with ⟨-, rfl⟩ | ⟨-, u, hu, hr⟩
  · exact ⟨fun _ _ => rfl, fun _ => rfl, fun _ => rfl, fun _ _ => rfl, fun _ _ => ⟨rfl, rfl⟩, fun _ _ => ⟨rfl, rfl⟩⟩
  · obtain ⟨hconfig, hcfgd, hpower, hcancel, hprof, hramp⟩ := runStepper_registers hr
    refine ⟨fun h1 h2 => (hconfig (hu.keepsConfig h1 h2)).trans hu.config,
      fun h1 => (hcfgd (hu.keepsCfgd h1)).trans (hu.cfgd h1), fun h1 => (hpower (hu.keepsPower h1)).trans hu.power,
      fun h1 h2 => (hcancel (hu.keepsCancel h1 h2)).trans (hu.cancel h1), fun h1 h2 => ?_, fun h1 h2 => ?_⟩
    · obtain ⟨hmem, hlen⟩ := hprof (hu.keepsProfile h1 h2)
      obtain ⟨hmem', hlen'⟩ := hu.prof h1 h2
      exact ⟨hmem.trans hmem', hlen.trans hlen'⟩
    · obtain ⟨hregs, hphase⟩ := hramp (hu.keepsRamp h2)
      obtain ⟨hregs', hphase'⟩ := hu.ramp h1 h2
      exact ⟨hregs.trans hregs', hphase.trans hphase'⟩

/-- Settles O55: clause by clause, the opcodes listed are none of those that can write the register. -/
theorem stepperRegisterFrame : Obligations.StepperRegisterFrame := by
  intro i s t h
  cases i with
  | stpCancel =>
    obtain ⟨hconfig, hcfgd, hpower, -, -⟩ := exec_stpCancel_registers h
    exact ⟨fun _ => hconfig, fun _ => hcfgd, fun _ => hpower, fun hi => by simp [Instr.opcode] at hi⟩
  | hxConfig _ | hxReadCycle | hxGetReading _ | hxEdge => simp [Instr.opcode]
  | stpConfig _ | msEncode _ _ | stpSetMicrostep _ | ramp _ _ | wake | sleep | step _ _ _ _ =>
    obtain ⟨hconfig, hcfgd, hpower, hcancel, -, -⟩ := exec_stepper_registers (by simp [Instr.opcode]) h
    simp_all [Instr.opcode]

/-- Settles O56: only `RAMP` and `STEP` build or release a profile, and a `STEP` without the ramp runs no ramp. -/
theorem profileMemoryFrame : Obligations.ProfileMemoryFrame := by
  intro i s t h
  cases i with
  | stpCancel =>
    obtain ⟨-, -, -, ⟨hprof, hlen⟩, hramp⟩ := exec_stpCancel_registers h
    exact ⟨fun _ => ⟨fun _ => by rw [hprof], hlen⟩, fun _ => hramp⟩
  | hxConfig _ | hxReadCycle | hxGetReading _ | hxEdge => simp [Instr.opcode]
  | stpConfig _ | msEncode _ _ | stpSetMicrostep _ | ramp _ _ | wake | sleep | step _ _ _ _ =>
    obtain ⟨-, -, -, -, hprof, hramp⟩ := exec_stepper_registers (by simp [Instr.opcode]) h
    simp_all [Instr.opcode]

/-! ### `STP_SET_MICROSTEP` -/

/-- What `STP_SET_MICROSTEP` of `d` may have left to do, of a configuration `c`: a register write of R109, or an action
that leaves the configuration alone and begins no pulse. -/
def StpOp.setsMicrostep (c : StepperConfig) (d : Count) : StpOp → Bool
  | .storeMicrostep e pattern => decide (e = d.setWidth 6 ∧ msEncode c.model d = some pattern)
  | .store _ | .pulse => false
  | .cfgOut _ | .wr _ _ | .wait _ | .setPower _ | .setPhase _ | .startPulses | .pulseLow | .hold _ | .respProfile _
  | .resp _ _ => true

/-- The configuration is as before, or differs in the denominator and its pattern alone. -/
def microstepSet (c : StepperConfig) (d : Count) (config : Option StepperConfig) : Prop :=
  config = some c ∨ ∃ pattern, msEncode c.model d = some pattern ∧
    config = some { c with microstep := d.setWidth 6, msPattern := pattern }

theorem stpAct_microstepSet {c : StepperConfig} {d : Count} {op : StpOp} {rest : List StpOp} {s t : State}
    (ho : op.setsMicrostep c d = true) (hs : microstepSet c d s.stepper.config)
    (h : stpAct op rest s = .next t) : microstepSet c d t.stepper.config := by
  by_cases hk : op.keepsConfig = true
  · obtain ⟨hconfig, -⟩ := stpAct_registers h
    rwa [hconfig hk]
  · cases op with
    | storeMicrostep e pattern =>
      obtain ⟨rfl, hm⟩ := of_decide_eq_true ho
      obtain ⟨c', hc', ht⟩ := readReg_eq_next.1 h
      cases ht
      refine .inr ⟨pattern, hm, ?_⟩
      rcases hs with hs | ⟨p, -, hs⟩
      · obtain rfl := Option.some.inj (hc'.symm.trans hs)
        rfl
      · obtain rfl := Option.some.inj (hc'.symm.trans hs)
        rfl
    | store _ => cases ho
    | cfgOut _ | wr _ _ | wait _ | setPower _ | setPhase _ | startPulses | pulse | pulseLow | hold _ | respProfile _
    | resp _ _ => exact absurd rfl hk

theorem runStepper_microstepSet {c : StepperConfig} {d : Count} {k : Nat} {s t : State}
    (h : runStepper k s = .next t) (ho : s.stepper.todo.all (StpOp.setsMicrostep c d) = true)
    (hs : microstepSet c d s.stepper.config) : microstepSet c d t.stepper.config := by
  refine (runStepper_keeps (P := fun u => microstepSet c d u.stepper.config ∧
    u.stepper.todo.all (StpOp.setsMicrostep c d) = true) (fun op rest u v hu hp hact => ?_) ⟨hs, ho⟩ h).1
  obtain ⟨hconfig, htodo⟩ := hp
  rw [hu] at htodo
  exact ⟨stpAct_microstepSet (Bool.and_eq_true_iff.1 htodo).1 hconfig hact,
    stpAct_todo_all rfl (fun hf => by simp [StpOp.setsMicrostep] at hf) htodo hact⟩

/-- Settles O57: R109's one register write gives the denominator and its pattern together. -/
theorem setMicrostepWritesTwoRegisters : Obligations.SetMicrostepWritesTwoRegisters := by
  intro d s t c h hc
  change microstepSet c d t.stepper.config
  simp only [exec, execStpSetMicrostep] at h
  rcases acceptStepper_eq h with ⟨-, rfl⟩ | ⟨-, u, hu, hr⟩
  · exact .inl hc
  · rcases stpConfigured_eq hu with ⟨-, rfl⟩ | ⟨-, c', hc', hu⟩
    · exact runStepper_microstepSet hr rfl (.inl hc)
    · obtain rfl := Option.some.inj (hc'.symm.trans hc)
      cases hm : msEncode c'.model d with
      | none =>
        simp only [hm] at hu
        cases hu
        exact runStepper_microstepSet hr rfl (.inl hc)
      | some pattern =>
        simp only [hm] at hu
        cases hu
        refine runStepper_microstepSet hr ?_ (.inl hc)
        simp [setMicrostepBody, selectWrites, StpOp.setsMicrostep, hm]

/-! ### The HX711 unit's registers -/

/-- Settles O58: what a command's rule and its actions keep, by its opcode. -/
theorem hxCommandFrame : Obligations.HxCommandFrame := by
  intro i s t h
  by_cases hi : i.opcode ∈ [.hxConfig, .hxReadCycle, .hxGetReading]
  · rcases exec_hxBegun hi h with ⟨-, rfl⟩ | ⟨-, -, u, hu, hr⟩
    · simp
    · obtain ⟨hedge, hconfig, hcycle, hport, hsum⟩ := runHx_registers hr
      refine ⟨fun ho => ?_, fun ho => ?_, fun _ => ⟨(hport hu.keepsPort).trans hu.resultPort, hedge.trans hu.edgeTodo⟩,
        fun ho => ?_⟩
      · have hne : i.opcode ≠ .hxConfig := fun e => by simp [e] at ho
        obtain ⟨h1, h2, h3⟩ := hconfig (hu.keepsConfig hne)
        obtain ⟨hcfgd, hen⟩ := hu.flags hne
        exact ⟨h1.trans hcfgd, h2.trans hu.config, h3.trans hen⟩
      · have hne : i.opcode ≠ .hxGetReading := fun e => by simp [e] at ho
        obtain ⟨h1, h2, h3, h4, h5, h6⟩ := hcycle (hu.keepsCycle ho)
        obtain ⟨hacc, hbits, hpulses, hlevels⟩ := hu.cycle
        obtain ⟨hs, hob⟩ := hu.sum hne
        exact ⟨h1.trans hacc, h2.trans hbits, h3.trans hpulses, h4.trans hs, h5.trans hob, h6.trans hlevels⟩
      · have hne : i.opcode ≠ .hxGetReading := fun e => by simp [e] at ho
        obtain ⟨h1, h2⟩ := hsum (hu.keepsSum hne)
        obtain ⟨hs, hob⟩ := hu.sum hne
        exact ⟨h1.trans hs, h2.trans hob⟩
  · simp only [List.mem_cons, List.not_mem_nil, or_false, not_or] at hi
    obtain ⟨hconfig, hread, hget⟩ := hi
    simp [hconfig, hread, hget]

/-- The gate writes the two flags, its read's level and the trace alone (R186). -/
theorem tryEnter_registers {s : State} {t : Bool × State} (h : tryEnter s = .next t) :
    t.2.hx.cfgd = s.hx.cfgd ∧ t.2.hx.config = s.hx.config ∧ t.2.hx.edgeEn = s.hx.edgeEn ∧ t.2.hx.busy = s.hx.busy ∧
    t.2.hx.response = s.hx.response ∧ t.2.hx.sum = s.hx.sum ∧ t.2.hx.obs = s.hx.obs ∧ t.2.hx.todo = s.hx.todo ∧
    t.2.hx.edgeTodo = s.hx.edgeTodo := by
  rcases tryEnter_eq h with ⟨-, rfl⟩ | ⟨-, c, levels, tick, -, rfl | rfl⟩
  · simp
  · simp
  · simp

/-- Settles O59: the gate and the cycle's actions write none of these registers. -/
theorem hxEdgeFrame : Obligations.HxEdgeFrame := by
  intro s t h he
  rcases exec_hxEdge h with ⟨-, rfl⟩ | ⟨-, -, ht | ⟨u, hu, hr⟩⟩
  · exact ⟨rfl, rfl, rfl, rfl, rfl, rfl, rfl, rfl⟩
  · obtain ⟨h1, h2, h3, h4, h5, h6, h7, h8, -⟩ := tryEnter_registers ht
    exact ⟨h1, h2, h3, h4, h5, h6, h7, h8⟩
  · obtain ⟨h1, h2, h3, h4, h5, h6, h7, h8, h9⟩ := tryEnter_registers hu
    have htodo : u.hx.edgeTodo ++ [.clear .emit] = [.clear .emit] := by
      rw [show u.hx.edgeTodo = [] from h9.trans he]
      rfl
    rw [htodo] at hr
    obtain ⟨hl, hconfig, hhost⟩ := runEdge_registers hr
    obtain ⟨k1, k2, k3⟩ := hconfig rfl
    obtain ⟨k4, k5, k6, k7⟩ := hhost rfl
    exact ⟨k1.trans h1, k2.trans h2, k3.trans h3, k6.trans h4, k7.trans h5, k4.trans h6, k5.trans h7, hl.trans h8⟩

end Sys2Proof.Machine
end

section
/-! SUPPORT. `STP_SET_MICROSTEP`, `RAMP`, `STEP` and `STP_CANCEL` (spec/40_stepper_config.md R109,
spec/41_ramp_generator.md R127, spec/42_motion_sequencer.md R155 to R161). -/

namespace Sys2Proof.Machine

/-! ### `STP_SET_MICROSTEP` -/

/-- The events of R109, every configure request answered ok. -/
def setMicrostepEvents (c : StepperConfig) (pattern : BitVec 3) : List Event :=
  [.cfgOut c.msPin0 true, .cfgOut c.msPin1 true, .cfgOut c.msPin2 true, .wr c.msPin0 (pattern.getLsbD 0),
    .wr c.msPin1 (pattern.getLsbD 1), .wr c.msPin2 (pattern.getLsbD 2)]

theorem runStepper_storeMicrostep_resp {e : BitVec 6} {pattern : BitVec 3} {st : Status} {r : Result} {s : State}
    {c : StepperConfig} (h : s.stepper.todo = [.storeMicrostep e pattern, .resp st r])
    (hc : s.stepper.config = some c) : runStepper 2 s = .next (stpRespond st r
      (onStepper (fun x => { x with config := some { c with microstep := e, msPattern := pattern } }) s)) := by
  rw [runStepper_act 1 h (readReg_eq_next.2 ⟨c, hc, rfl⟩), runStepper_resp rfl]
  rfl

/-- R109's actions: the requests, the three writes, the two registers, the response. -/
theorem runStepper_setMicrostepBody {c : StepperConfig} {d : Count} {pattern : BitVec 3} {rest : List Bool} {s : State}
    (ht : s.stepper.todo = setMicrostepBody c d pattern) (hc : s.stepper.config = some c)
    (ha : s.stepper.answers = true :: true :: true :: rest) :
    runStepper 8 s = .next (stpRespond .ok .none (onStepper (fun x => { x with
      config := some { c with microstep := d.setWidth 6, msPattern := pattern }, answers := rest })
      (stpDid (setMicrostepEvents c pattern) [] s))) := by
  have hcfg := runStepper_cfgOuts [c.msPin0, c.msPin1, c.msPin2] (ops := selectWrites c.msPin0 c.msPin1 c.msPin2 pattern
    ++ [.storeMicrostep (d.setWidth 6) pattern, .resp .ok .none]) ht ha
  have hsel := runStepper_trans hcfg (runStepper_selectWrites rfl)
  rw [runStepper_trans (a := 6) (b := 2) hsel (runStepper_storeMicrostep_resp rfl hc)]
  simp [stpRespond, stpLog, onStepper, stpDid, setMicrostepEvents]

/-- Settles O29: R109's actions, run from the acceptance. -/
theorem stpSetMicrostepCompletes : Obligations.StpSetMicrostepCompletes := by
  intro d s c pattern rest hb hg hc hm ha hq
  rw [exec_stpSetMicrostep_accepted hb hg hc hm]
  refine runStepper_to hq ?_ rfl
  refine (runStepper_setMicrostepBody rfl ?config ?answers).trans <| congrArg _ <|
    stpRespond_eq_stepperDone (s := s) (es := setMicrostepEvents c pattern) .ok .none rfl rfl
  case config => exact hc
  case answers => exact ha

/-! ### Building a profile -/

/-- The unit with a profile just built and put into its memory (spec/41_ramp_generator.md R125). -/
def profileStored (p : List F64) (u : Stepper) : Stepper :=
  { u with prof := memWriteList u.prof 0 p, profLen := some (BitVec.ofNat 32 p.length) }

/-- A profile within `PROFILE_DEPTH` is stored. -/
theorem storeProfile_of_le {p : List F64} {s : State} (k : State → Outcome) (h : p.length ≤ s.params.profileDepth) :
    storeProfile p s k = k (onStepper (profileStored p) s) := if_pos h

/-- A ramp within `PROFILE_DEPTH` is run and stored (spec/41_ramp_generator.md R134). -/
theorem buildRamp_of_le {c : StepperConfig} {n : Count} {rpm : F64} {s : State} (k : List F64 → State → Outcome)
    (h : (rampProfile c n rpm).1.length ≤ s.params.profileDepth) :
    buildRamp c n rpm s k = k (rampProfile c n rpm).1 (onStepper (fun x => profileStored (rampProfile c n rpm).1
      { x with ramp := some (rampProfile c n rpm).2, rampPhase := .done }) s) := if_pos h

/-- The memory holds a stored profile, and every other entry is as before. -/
theorem profileHeld_of_stored {s t : State} {p : List F64} (hm : t.stepper.prof = memWriteList s.stepper.prof 0 p)
    (hl : t.stepper.profLen = some (BitVec.ofNat 32 p.length)) : profileHeld s t p := by
  refine ⟨hl, fun i hi => ?_, fun i hi => ?_⟩
  · rw [hm]
    simpa using memRead_memWriteList s.stepper.prof 0 p hi
  · rw [hm]
    exact memRead_memWriteList_above _ _ _ (by omega)

/-- A legal ramp fits the memory: P4 of R122. -/
theorem rampProfile_length_le {p : Params} {c : StepperConfig} {n : Count} {rpm : F64}
    (hl : rampLegal p c.stepsPerRev n rpm = true) : (rampProfile c n rpm).1.length ≤ p.profileDepth := by
  obtain ⟨-, -, -, hdepth⟩ := rampLegal_iff.1 hl
  rwa [rampLengthIsTwiceTheHalf]

theorem constantProfile_length_le {p : Params} {c : StepperConfig} {n : Count} {rpm : F64}
    (hl : constantLegal p c.stepsPerRev n rpm = true) : (constantProfile c n rpm).length ≤ p.profileDepth := by
  obtain ⟨-, -, -, hdepth⟩ := constantLegal_iff.1 hl
  rwa [constantProfile, List.length_replicate]

theorem rampProfile_length_lt (c : StepperConfig) (n : Count) (rpm : F64) :
    (rampProfile c n rpm).1.length < 2 ^ 32 := by
  rw [rampLengthIsTwiceTheHalf]
  omega

theorem constantProfile_length_lt (c : StepperConfig) (n : Count) (rpm : F64) :
    (constantProfile c n rpm).length < 2 ^ 32 := by
  rw [constantProfile, List.length_replicate]
  exact n.isLt

/-! ### `RAMP` -/

/-- An accepted legal `RAMP`: the profile stands in the memory, and the response is to be made (R127). -/
theorem exec_ramp_accepted {n : Count} {rpm : F64} {s : State} {c : StepperConfig} (hb : s.stepper.busy = false)
    (hg : s.stepper.cfgd = true) (hc : s.stepper.config = some c)
    (hl : rampLegal s.params c.stepsPerRev n rpm = true) :
    exec (.ramp n rpm) s = runStepper s.quantum (stpTodo [.respProfile (rampProfile c n rpm).1]
      (onStepper (fun x => profileStored (rampProfile c n rpm).1
        { x with busy := true, ramp := some (rampProfile c n rpm).2, rampPhase := .done }) s)) := by
  simp only [exec, execRamp]
  rw [acceptStepper_configured hb hg hc, onStepper_params, if_pos hl,
    buildRamp_of_le (s := onStepper _ s) _ (rampProfile_length_le hl)]
  rfl

/-- Settles O31: the one action left at acceptance is the response, which releases the ramp and the memory. -/
theorem rampCompletes : Obligations.RampCompletes := by
  intro n rpm s c hb hg hc hl hq
  rw [exec_ramp_accepted hb hg hc hl]
  generalize hu : stpTodo _ (onStepper _ s) = u
  have hrun : runStepper 1 u = .next (stpRespond .ok (.profile (rampProfile c n rpm).1)
      (releaseProfile (releaseRamp u))) := by rw [← hu]; exact runStepper_act 0 rfl rfl
  rw [stpRespond_eq_stepperDone (s := s) (es := []) .ok _
    (by rw [← hu]; simp [releaseProfile, releaseRamp, stpTodo, onStepper]) (by rw [← hu]; simp [profileStored])] at hrun
  rw [runStepper_to hq hrun rfl, ← hu]
  exact ⟨_, _, _, _, rfl⟩

/-! ### `STEP` -/

/-- The unit as a `STEP` that passes its checks finds it once its profile is built (R156, R157). -/
structure StepBegun (c : StepperConfig) (w : Power) (d : Bool) (profile : List F64) (s u : State) : Prop where
  outside : u = { s with stepper := u.stepper }
  todo : u.stepper.todo = stepBody s.params c w d
  config : u.stepper.config = some c
  power : u.stepper.power = some w
  cancelReq : u.stepper.cancelReq = false
  phase : u.stepper.sqPhase = .build
  trace : u.stepper.trace = s.stepper.trace
  prof : u.stepper.prof = memWriteList s.stepper.prof 0 profile
  profLen : u.stepper.profLen = some (BitVec.ofNat 32 profile.length)
  fits : profile.length ≤ s.params.profileDepth
  short : profile.length < 2 ^ 32
  /-- The registers the `STEP` leaves alone. -/
  cfgd : u.stepper.cfgd = s.stepper.cfgd
  answers : u.stepper.answers = s.stepper.answers

section

variable {n : Count} {d : Bool} {rpm : F64} {s : State} {c : StepperConfig} {w : Power}
  (hb : s.stepper.busy = false) (hg : s.stepper.cfgd = true) (hc : s.stepper.config = some c)
  (hw : s.stepper.power = some w)
include hb hg hc hw

/-- An accepted legal `STEP` with the ramp. -/
theorem exec_step_ramp_accepted (hl : rampLegal s.params c.stepsPerRev n rpm = true) : ∃ u,
    StepBegun c w d (rampProfile c n rpm).1 s u ∧ u.stepper.rampPhase = .idle ∧
    exec (.step n d rpm true) s = runStepper s.quantum u := by
  rw [exec_step_configured hb hg hc hw, startStep, if_pos rfl, onStepper_params, if_pos hl,
    buildRamp_of_le (s := onStepper _ s) _ (rampProfile_length_le hl), andThen_next]
  refine ⟨_, ?_, ?_, rfl⟩
  · exact ⟨rfl, rfl, hc, hw, rfl, rfl, rfl, rfl, rfl, rampProfile_length_le hl, rampProfile_length_lt c n rpm, rfl, rfl⟩
  · rfl

/-- An accepted legal `STEP` without the ramp. -/
theorem exec_step_constant_accepted (hl : constantLegal s.params c.stepsPerRev n rpm = true) : ∃ u,
    StepBegun c w d (constantProfile c n rpm) s u ∧
    (u.stepper.ramp = s.stepper.ramp ∧ u.stepper.rampPhase = s.stepper.rampPhase) ∧
    exec (.step n d rpm false) s = runStepper s.quantum u := by
  rw [exec_step_configured hb hg hc hw, startStep, if_neg Bool.false_ne_true, onStepper_params, if_pos hl,
    storeProfile_of_le (s := onStepper _ s) _ (constantProfile_length_le hl), andThen_next]
  refine ⟨_, ?_, ?_, rfl⟩
  · exact ⟨rfl, rfl, hc, hw, rfl, rfl, rfl, rfl, rfl, constantProfile_length_le hl, constantProfile_length_lt c n rpm,
      rfl, rfl⟩
  · exact ⟨rfl, rfl⟩

end

/-- Settles O32: with no action to take, the unit stands where its command's rule has put it. -/
theorem profileIsHeldInMemory : Obligations.ProfileIsHeldInMemory := by
  intro n rpm d s c w hb hg hc hw hq
  refine ⟨fun hl => ⟨?_, ?_⟩, fun hl => ?_⟩
  · rw [exec_ramp_accepted hb hg hc hl, hq]
    exact ⟨_, rfl, profileHeld_of_stored rfl rfl, rfl, rfl⟩
  · obtain ⟨u, hu, -, he⟩ := exec_step_ramp_accepted (d := d) hb hg hc hw hl
    rw [he, hq]
    exact ⟨u, rfl, profileHeld_of_stored hu.prof hu.profLen, hu.phase, hu.trace⟩
  · obtain ⟨u, hu, -, he⟩ := exec_step_constant_accepted (d := d) hb hg hc hw hl
    rw [he, hq]
    exact ⟨u, rfl, profileHeld_of_stored hu.prof hu.profLen, hu.phase, hu.trace⟩

/-- The end of a `STEP`, in the terms of claims: the profile memory holds free values (R30, log 2). -/
theorem finishStep_eq_stepperDone {s u : State} {es : List Event}
    (hu : u = { s with stepper := u.stepper, order := s.order ++ List.replicate es.length .stepper })
    (ht : u.stepper.trace = s.stepper.trace ++ es) : ∃ prof len tick, finishStep u =
      stepperDone s es .ok (.pulses u.stepper.sqIndex)
        { u.stepper with prof := prof, profLen := len, tick := tick } := by
  have hdone := stpRespond_eq_stepperDone (s := s) (u := releaseProfile u) (es := es) .ok (.pulses u.stepper.sqIndex)
    (by rw [hu]; rfl) ht
  exact ⟨_, _, _, hdone⟩

/-- A `STEP` that began at `u`, at the check after `i` pulses: it has performed `es` (R157). -/
def stepPulsing (es : List Event) (i : Count) (u : State) : State :=
  onStepper (fun x => { x with power := some .awake, sqPhase := .pulse, sqIndex := i }) (stpDid es [.pulse] u)

/-- More pulses. -/
theorem stepPulsing_stpDid (es fs : List Event) (i j : Count) (u : State) :
    onStepper (fun x => { x with sqIndex := j }) (stpDid fs [.pulse] (stepPulsing es i u)) =
      stepPulsing (es ++ fs) j u := by
  rw [stepPulsing, stepPulsing, ← stpDid_stpDid es fs [.pulse]]
  rfl

/-- The direction, and the start of the pulses (R157). -/
theorem runStepper_direction {p : Pin} {d : Level} {u : State}
    (h : u.stepper.todo = [.setPhase .dir, .wr p d, .startPulses, .pulse]) :
    runStepper 3 u = .next (onStepper (fun x => { x with sqPhase := .pulse, sqIndex := 0 })
      (stpDid [.wr p d] [.pulse] u)) := by
  rw [runStepper_act 2 h rfl, runStepper_act 1 rfl rfl, runStepper_act 0 rfl rfl]
  rfl

/-- The actions before the first pulse: the wake where the driver is asleep, and the direction (R157). -/
theorem runStepper_stepStart {c : StepperConfig} {w : Power} {d : Bool} {u : State}
    (ht : u.stepper.todo = stepBody u.params c w d) (hw : u.stepper.power = some w) : ∃ k ≤ 7,
    runStepper k u =
      .next (stepPulsing ((if w = .asleep then wakeEvents u.params c else []) ++ [.wr c.dirPin d]) 0 u) := by
  have ht' : u.stepper.todo = .setPhase .wake :: ((if w = .asleep then wakeBody u.params c else []) ++
      [.setPhase .dir, .wr c.dirPin d, .startPulses, .pulse]) := by rw [ht]; simp [stepBody]
  have hphase := runStepper_act 0 ht' rfl
  obtain ⟨k, hk, hwake⟩ := runStepper_wakeBody w c [.setPhase .dir, .wr c.dirPin d, .startPulses, .pulse]
    (s := stpTodo ((if w = .asleep then wakeBody u.params c else []) ++ [.setPhase .dir, .wr c.dirPin d, .startPulses,
      .pulse]) (onStepper (fun x => { x with sqPhase := .wake }) u)) rfl hw
  refine ⟨0 + 1 + k + 3, by omega,
    (runStepper_trans (runStepper_trans hphase hwake) (runStepper_direction rfl)).trans ?_⟩
  rw [stepPulsing, ← stpDid_stpDid _ [.wr c.dirPin d] [] [.pulse]]
  rfl

theorem length_pulseEvents_le (p : Params) (c : StepperConfig) (ds : List F64) :
    (ds.flatMap (pulseEvents p c)).length ≤ 4 * ds.length := by
  have hwait := waitEvents_length p.tStepHigh
  induction ds with
  | nil => simp
  | cons d ds ih =>
    rw [List.flatMap_cons, List.length_append, List.length_cons]
    simp only [pulseEvents, List.length_append, List.length_cons, List.length_nil] at ih ⊢
    omega

/-- R157's actions, from the acceptance of a `STEP` to its end. -/
theorem runStepper_stepBody {c : StepperConfig} {w : Power} {d : Bool} {profile : List F64} {s u : State}
    (hu : StepBegun c w d profile s u) : ∃ k ≤ 8 + 5 * profile.length, runStepper k u = .next (finishStep
      (stepPulsing (stepEvents s.params c w d profile) (BitVec.ofNat 32 profile.length) u)) := by
  have hp : u.params = s.params := by rw [hu.outside]
  have hlen : (BitVec.ofNat 32 profile.length).toNat = profile.length :=
    (BitVec.toNat_ofNat _ _).trans (Nat.mod_eq_of_lt hu.short)
  have hread : ∀ j < profile.length, memRead u.stepper.prof (0 + j) = profile[j]? := fun j hj => by
    rw [hu.prof]
    exact memRead_memWriteList _ 0 _ hj
  obtain ⟨k, hk, hstart⟩ := runStepper_stepStart (u := u) (by rw [hp]; exact hu.todo) hu.power
  have hpulses := runStepper_pulses profile (len := BitVec.ofNat 32 profile.length) 0
    (s := stepPulsing ((if w = .asleep then wakeEvents u.params c else []) ++ [.wr c.dirPin d]) 0 u)
    rfl hu.config hu.profLen rfl (by rw [hlen, Nat.zero_add]) (by rw [hlen]; exact hp ▸ hu.fits) hread hu.cancelReq
  rw [stepPulsing_stpDid] at hpulses
  have hend := runStepper_pulse_end (rest := []) (len := BitVec.ofNat 32 profile.length)
    (s := stepPulsing (stepEvents s.params c w d profile) (BitVec.ofNat 32 profile.length) u) rfl hu.profLen
    (lt_irrefl _)
  have hcount := length_pulseEvents_le s.params c profile
  have hparams : (stepPulsing ((if w = .asleep then wakeEvents u.params c else []) ++ [.wr c.dirPin d]) 0 u).params =
    s.params := hp
  rw [hparams, hp] at hpulses
  rw [hp] at hstart
  exact ⟨_, by omega, runStepper_trans (runStepper_trans hstart hpulses) hend⟩

/-- A `STEP` that is not cancelled, in the terms of claims. -/
theorem runStepper_step_done {c : StepperConfig} {w : Power} {d : Bool} {profile : List F64} {s u : State}
    (hu : StepBegun c w d profile s u) (hc : s.stepper.config = some c) (hq : 8 + 5 * profile.length ≤ s.quantum) :
    ∃ prof len tick, runStepper s.quantum u = .next (stepperDone s (stepEvents s.params c w d profile) .ok
      (.pulses (BitVec.ofNat 32 profile.length))
      { s.stepper with
        power := some .awake, cancelReq := false, ramp := u.stepper.ramp, rampPhase := u.stepper.rampPhase
        prof := prof, profLen := len, tick := tick }) := by
  obtain ⟨k, hk, hrun⟩ := runStepper_stepBody hu
  obtain ⟨prof, len, tick, hdone⟩ := finishStep_eq_stepperDone (s := s) (es := stepEvents s.params c w d profile)
    (u := stepPulsing (stepEvents s.params c w d profile) (BitVec.ofNat 32 profile.length) u)
    (by rw [hu.outside]; rfl) (by simp [stepPulsing, stpDid, hu.trace])
  refine ⟨prof, len, tick, (runStepper_to (hk.trans hq) hrun rfl).trans (congrArg _ (hdone.trans ?_))⟩
  simp [stepperDone, stepPulsing, stpDid, hu.cfgd, hu.config, hc, hu.answers, hu.cancelReq]

/-- Settles O42: both profiles are run by the same actions; the ramp's registers are written with the ramp alone. -/
theorem stepCompletes : Obligations.StepCompletes := by
  rintro n d rpm useRamp s c w profile hb hg hc hw (⟨rfl, hl, rfl⟩ | ⟨rfl, hl, rfl⟩) hq
  · obtain ⟨u, hu, hphase, he⟩ := exec_step_ramp_accepted (d := d) hb hg hc hw hl
    obtain ⟨prof, len, tick, hrun⟩ := runStepper_step_done hu hc hq
    exact ⟨u.stepper.ramp, u.stepper.rampPhase, prof, len, tick, he.trans hrun, fun _ => hphase, nofun⟩
  · obtain ⟨u, hu, hramp, he⟩ := exec_step_constant_accepted (d := d) hb hg hc hw hl
    obtain ⟨prof, len, tick, hrun⟩ := runStepper_step_done hu hc hq
    exact ⟨u.stepper.ramp, u.stepper.rampPhase, prof, len, tick, he.trans hrun, nofun, fun _ => hramp⟩

/-! ### Cancellation -/

/-- Settles O43: the request is the OR of R160, one write beside whatever runs. -/
theorem stpCancelCompletes : Obligations.StpCancelCompletes := by
  refine fun s => ⟨fun hc => ⟨by simp [canAccept, hc], ?_⟩, fun hc hb hq => ?_⟩
  · have hreq : (s.stepper.cancelReq || s.stepper.sqPhase != .idle) =
        if s.stepper.sqPhase = .idle then s.stepper.cancelReq else true := by
      by_cases hp : s.stepper.sqPhase = .idle
      · simp [hp]
      · simp [hp]
    rw [exec, execStpCancel, if_pos hc, ← hreq]
    rfl
  · rw [exec, execStpCancel, if_neg (by simp [hc])]
    exact stpUnknown_responds hb hq

/-- The check before a pulse, with a request recorded: no event but the response, with the pulses emitted so far. -/
theorem runStepper_cancelled {s : State} {len : Count} (ht : s.stepper.todo = [.pulse])
    (hl : s.stepper.profLen = some len) (hi : s.stepper.sqIndex.toNat < len.toNat)
    (hk : s.params.hasCancel = true) (hr : s.stepper.cancelReq = true) :
    runStepper 1 s = .next (finishStep (onStepper (fun x => { x with cancelReq := false }) s)) :=
  runStepper_pulse_cancel ht hl hi (by rw [hk, hr]; rfl)

/-- Settles O44: the check ends the `STEP` in the same action. -/
theorem cancelIsHonouredBeforeAPulse : Obligations.CancelIsHonouredBeforeAPulse := by
  intro s k len ht hl hi hk hr h1
  obtain ⟨prof, len', tick, hdone⟩ := finishStep_eq_stepperDone (s := s) (es := [])
    (u := onStepper (fun x => { x with cancelReq := false }) s) (by simp [onStepper]) (by simp)
  exact ⟨prof, len', tick, (runStepper_to h1 (runStepper_cancelled ht hl hi hk hr) rfl).trans (congrArg _ hdone)⟩

/-- The rest of a pulse after the rise of the step pin: its wait, the fall, and its hold. -/
def pulseRestEvents (p : Params) (c : StepperConfig) (d : F64) : List Event :=
  waitEvents p.tStepHigh ++ [.wr c.stepPin false, .wait d]

theorem runStepper_pulseRest {s : State} {c : StepperConfig} {i : Nat} {d : F64}
    (ht : s.stepper.todo = pulseRest s.params i) (hc : s.stepper.config = some c) (hi : i < s.params.profileDepth)
    (hd : memRead s.stepper.prof i = some d) : runStepper (pulseRestEvents s.params c d).length s =
      .next (onStepper (fun x => { x with sqIndex := x.sqIndex + 1 })
        (stpDid (pulseRestEvents s.params c d) [.pulse] s)) := by
  have hwait := runStepper_stpWait (t := s.params.tStepHigh) (rest := [.pulseLow, .hold i, .pulse]) ht
  have hlow := runStepper_trans hwait (runStepper_pulseLow (s := stpDid _ _ s) rfl hc)
  rw [stpDid_stpDid] at hlow
  have hhold := runStepper_trans hlow (runStepper_hold (i := i) (rest := [.pulse]) (d := d) rfl hi hd)
  have hlen : (pulseRestEvents s.params c d).length = (waitEvents s.params.tStepHigh).length + 1 + 1 := by
    simp [pulseRestEvents]
  have hes : pulseRestEvents s.params c d = waitEvents s.params.tStepHigh ++ [.wr c.stepPin false] ++ [.wait d] := by
    simp [pulseRestEvents]
  rw [hlen, hhold, hes, ← stpDid_stpDid _ [.wait d] [.hold i, .pulse]]
  rfl

/-- Settles O45: none of the three actions looks at the request. -/
theorem pulseIsNeverCutShort : Obligations.PulseIsNeverCutShort := by
  intro s c i d ht hc hi hd es
  exact runStepper_pulseRest ht hc hi hd

/-- Settles O46: the pulse and its hold come first, then the check. -/
theorem cancelDuringPulseEndsAfterIt : Obligations.CancelDuringPulseEndsAfterIt := by
  intro s c i d len ht hc hi hd hl hx hlen hk hr es
  have hnext : s.stepper.sqIndex + 1 = BitVec.ofNat 32 (i + 1) := by rw [hx, BitVec.ofNat_add]; rfl
  have hlt : (s.stepper.sqIndex + 1).toNat < len.toNat := by
    rw [hnext, BitVec.toNat_ofNat, Nat.mod_eq_of_lt (hlen.trans len.isLt)]
    exact hlen
  have hcancel := runStepper_cancelled (len := len)
    (s := onStepper (fun x => { x with sqIndex := x.sqIndex + 1 }) (stpDid es [.pulse] s)) rfl hl hlt hk hr
  obtain ⟨prof, len', tick, hdone⟩ := finishStep_eq_stepperDone (s := s) (es := es)
    (u := onStepper (fun x => { x with cancelReq := false })
      (onStepper (fun x => { x with sqIndex := x.sqIndex + 1 }) (stpDid es [.pulse] s))) rfl rfl
  refine ⟨prof, len', tick, ?_⟩
  refine (runStepper_trans (runStepper_pulseRest ht hc hi hd) hcancel).trans ?_
  rw [hdone, ← hnext]
  rfl

end Sys2Proof.Machine
end

section
/-! SUPPORT. `HX_READ_CYCLE`, `HX_GET_READING` and `HX_EDGE` (spec/43_hx711_decoder.md R186 to R196). -/

namespace Sys2Proof.Machine

/-! ### The two commands that read, from their acceptance -/

section

variable {s : State} (hb : s.hx.busy = false) (hg : s.hx.cfgd = true)
include hb hg

theorem exec_hxReadCycle_accepted :
    exec .hxReadCycle s = runHx s.quantum (hxTodo [.poll .respond] (onHx (fun x => { x with busy := true }) s)) := by
  simp only [exec, execHxReadCycle]
  rw [acceptHx_configured hb hg, andThen_next]

theorem exec_hxGetReading_accepted {n : Count} (hn : n ≠ 0) : exec (.hxGetReading n) s = runHx s.quantum
    (hxTodo [.poll (.average n)] (onHx (fun x => { x with busy := true, sum := some 0, obs := some 0 }) s)) := by
  simp only [exec, execHxGetReading]
  rw [acceptHx_configured hb hg, if_neg hn, andThen_next]
  rfl

end

/-- One gated cycle and its response (R186 to R189). -/
theorem hxSteps_cycle_respond {s : State} {c : HxConfig} {g : Nat} {raw : BitVec 24} {rest : List Level}
    (hr : s.hx.reading = false) (hc : s.hx.config = some c) (hl : s.hx.levels = cycleLevels (g, raw) ++ rest) :
    hxSteps (cycleQuantum (g, raw)) [.poll .respond] s = .next ([], hxRespond .ok (.reading (raw.signExtend 32))
      (hxDid (cycleEvents s.params c (g, raw))
        (releaseCycle (onHx (fun x => { x with levels := rest, reading := false, phase := .idle }) s)))) := by
  obtain ⟨k, hk, hcycle⟩ := hxSteps_cycle .respond g raw hr hc hl
  exact hxSteps_to hk (hxSteps_trans (b := 1) hcycle rfl)

/-- Settles O47: the one cycle, then the response with its Reading. -/
theorem hxReadCycleCompletes : Obligations.HxReadCycleCompletes := by
  intro s c g raw rest hb hg hc hr hl hq
  have hsteps := hxSteps_cycle_respond
    (s := hxTodo [.poll .respond] (onHx (fun x => { x with busy := true }) s)) hr hc hl
  have hdone := runHx_responds (s := s) (u := hxTodo [.poll .respond] (onHx (fun x => { x with busy := true }) s))
    (es := cycleEvents s.params c (g, raw)) hq hsteps rfl rfl
  rw [exec_hxReadCycle_accepted hb hg]
  exact ⟨_, _, _, _, hdone⟩

/-- Settles O48: the cycles one by one, the sum of their Readings exact, its quotient rounded once. -/
theorem hxGetReadingCompletes : Obligations.HxGetReadingCompletes := by
  intro n s c cycles rest hn hlen hb hg hc hr hl hq
  have hne : cycles ≠ [] := by
    rintro rfl
    exact hn (BitVec.eq_of_toNat_eq hlen.symm)
  obtain ⟨k, acc, bits, pulses, sum, obs, tick, hk, hsteps⟩ := hxSteps_cycles cycles (n := n) (obs := 0) (sum := 0)
    (s := hxTodo [.poll (.average n)] (onHx (fun x => { x with busy := true, sum := some 0, obs := some 0 }) s))
    hne hr hc hl rfl rfl (by rw [← hlen]; exact Nat.zero_add _) (by decide)
  have hdone := runHx_responds (s := s)
    (u := hxTodo [.poll (.average n)] (onHx (fun x => { x with busy := true, sum := some 0, obs := some 0 }) s))
    (es := cycles.flatMap (cycleEvents s.params c)) (hk.trans hq) hsteps rfl rfl
  have hzero : (0 : BitVec 64).toInt + readingSum cycles = readingSum cycles := Int.zero_add _
  rw [hzero] at hdone
  rw [exec_hxGetReading_accepted hb hg hn]
  exact ⟨acc, bits, pulses, sum, obs, tick, hdone⟩

/-! ### Polling (R186, spec/70_reset_and_hazards.md R259) -/

theorem length_flatten_replicate {α : Type} (g : Nat) (l : List α) :
    (List.replicate g l).flatten.length = g * l.length := by simp

/-- Where the gate reads 1 every time, the command is still polling after each read and its wait. -/
theorem runHx_polls {s : State} {u : CycleUse} {c : HxConfig} {g : Nat} {rest : List Level}
    (ht : s.hx.todo = [.poll u]) (hr : s.hx.reading = false) (hc : s.hx.config = some c)
    (hl : s.hx.levels = List.replicate g true ++ rest)
    (hq : s.quantum = g * (1 + (waitEvents s.params.tPoll).length)) :
    runHx s.quantum s = .next { s with
      hx := { s.hx with
        levels := rest
        trace := s.hx.trace ++ (List.replicate g ([Event.rd c.dataPin true] ++ waitEvents s.params.tPoll)).flatten }
      order := s.order ++ List.replicate s.quantum .hx711 } := by
  have hlen : (List.replicate g ([Event.rd c.dataPin true] ++ waitEvents s.params.tPoll)).flatten.length =
      s.quantum := by
    rw [length_flatten_replicate, hq, List.length_append]
    rfl
  have hsteps := hxSteps_polls g u hr hc hl
  rw [← hq] at hsteps
  rw [runHx_eq, ht, hsteps, andThen_next, hxDid, hlen, ← ht]
  rfl

/-- Where a cycle runs, the gate is not read: the command is still polling after each wait. -/
theorem runHx_polls_closed {s : State} {u : CycleUse} {g : Nat} (ht : s.hx.todo = [.poll u])
    (hr : s.hx.reading = true) (hq : s.quantum = g * (1 + (waitEvents s.params.tPoll).length)) :
    runHx s.quantum s = .next { s with
      hx := { s.hx with trace := s.hx.trace ++ (List.replicate g (waitEvents s.params.tPoll)).flatten }
      order := s.order ++ List.replicate (g * (waitEvents s.params.tPoll).length) .hx711 } := by
  have hsteps := hxSteps_polls_closed g u hr
  rw [← hq] at hsteps
  rw [runHx_eq, ht, hsteps, andThen_next, hxDid, length_flatten_replicate, ← ht]
  rfl

/-- Settles O49: a poll that does not open the gate leaves a poll to do. -/
theorem pollHasNoTimeout : Obligations.PollHasNoTimeout := by
  intro s g n hb hg hn w hq
  rw [exec_hxReadCycle_accepted hb hg, exec_hxGetReading_accepted hb hg hn]
  refine ⟨fun c rest hc hr hl => ⟨?_, ?_⟩, fun hr => ⟨?_, ?_⟩⟩
  · exact runHx_polls (s := hxTodo [.poll .respond] (onHx _ s)) rfl hr hc hl hq
  · exact runHx_polls (s := hxTodo [.poll (.average n)] (onHx _ s)) rfl hr hc hl hq
  · exact runHx_polls_closed (s := hxTodo [.poll .respond] (onHx _ s)) rfl hr hq
  · exact runHx_polls_closed (s := hxTodo [.poll (.average n)] (onHx _ s)) rfl hr hq

/-! ### Edges (R194 to R196) -/

theorem tryEnter_reading {s : State} (hr : s.hx.reading = true) : tryEnter s = .next (false, s) := by
  simp [tryEnter, hr]

theorem tryEnter_high {s : State} {c : HxConfig} {rest : List Level} (hr : s.hx.reading = false)
    (hc : s.hx.config = some c) (hl : s.hx.levels = true :: rest) : tryEnter s =
      .next (false, hxLog (.rd c.dataPin true) (onHx (fun x => { x with levels := rest }) s)) := by
  simp [tryEnter, hr, hc, hxLevel_cons hl]

theorem tryEnter_low {s : State} {c : HxConfig} {rest : List Level} (hr : s.hx.reading = false)
    (hc : s.hx.config = some c) (hl : s.hx.levels = false :: rest) : tryEnter s =
      .next (true, hxLog (.rd c.dataPin false)
        (onHx (fun x => { x with levels := rest, reading := true, phase := .reading }) s)) := by
  simp only [tryEnter, hr, hc, hxLevel_cons hl, readReg_some, Bool.false_eq_true, if_false]
  rfl

/-- `HX_EDGE` at a unit with edges on is the gate, and the cycle where that opens. -/
theorem exec_hxEdge_enabled {s : State} (hg : s.hx.cfgd = true) (he : s.hx.edgeEn = true) :
    exec .hxEdge s = andThen (tryEnter s) fun t =>
      if t.1 then runEdge t.2.quantum (hxEdgeTodo (t.2.hx.edgeTodo ++ [.clear .emit]) t.2) else .next t.2 := by
  simp [exec, execHxEdge, hg, he]

/-- Settles O51: nothing is begun unless the gate opens. -/
theorem hxEdgeIgnored : Obligations.HxEdgeIgnored := by
  refine fun s => ⟨fun h => ?_, fun c rest hg he hc hr hl => ?_⟩
  · by_cases hon : s.hx.cfgd = true ∧ s.hx.edgeEn = true
    · have hr : s.hx.reading = true := by simpa [hon.1, hon.2] using h
      rw [exec_hxEdge_enabled hon.1 hon.2, tryEnter_reading hr]
      rfl
    · have hoff : (s.hx.cfgd && s.hx.edgeEn) = false := by simpa using hon
      simp [exec, execHxEdge, hoff]
  · rw [exec_hxEdge_enabled hg he, tryEnter_high hr hc hl]
    rfl

/-- The read-out of an edge-triggered cycle and its `Emit` (R187, R195). -/
theorem hxSteps_readOut_emit {s : State} {c : HxConfig} {raw : BitVec 24} {rest : List Level}
    (hc : s.hx.config = some c) (hl : s.hx.levels = rawLevels raw ++ rest) :
    hxSteps 166 [.clear .emit] s = .next ([], hxEmit (raw.signExtend 32) (hxDid (readOutEvents s.params c raw)
      (releaseCycle (onHx (fun x => { x with levels := rest, reading := false, phase := .idle }) s)))) := by
  obtain ⟨k, hk, hread⟩ := hxSteps_readOut .emit raw hc hl
  exact hxSteps_to (Nat.succ_le_succ hk) (hxSteps_trans (b := 1) hread rfl)

/-- Settles O50: the gate's read of 0, the read-out, the `Emit`. -/
theorem hxEdgeCompletes : Obligations.HxEdgeCompletes := by
  intro s c raw rest hg he hc hr ht hl hq
  have hlow : s.hx.levels = false :: (rawLevels raw ++ rest) := by rw [hl]; rfl
  let u := hxLog (.rd c.dataPin false)
    (onHx (fun x => { x with levels := rawLevels raw ++ rest, reading := true, phase := .reading }) s)
  have hopen : tryEnter s = .next (true, u) := tryEnter_low hr hc hlow
  have htodo : u.hx.edgeTodo ++ [.clear .emit] = [.clear .emit] := by rw [show u.hx.edgeTodo = [] from ht]; rfl
  let v := hxEmit (raw.signExtend 32) (hxDid (readOutEvents s.params c raw) (releaseCycle
    (onHx (fun x => { x with levels := rest, reading := false, phase := .idle }) (hxEdgeTodo [.clear .emit] u))))
  have hsteps : hxSteps s.quantum [.clear .emit] (hxEdgeTodo [.clear .emit] u) = .next ([], v) :=
    hxSteps_to (le_trans (by simp [cycleQuantum]) hq) (hxSteps_readOut_emit hc rfl)
  have hrun : exec .hxEdge s = .next (hxEdgeTodo [] v) := by
    rw [exec_hxEdge_enabled hg he, hopen, andThen_next, if_pos rfl, htodo, runEdge_eq]
    exact congrArg (andThen · _) hsteps
  refine ⟨v.hx.acc, v.hx.bitCnt, v.hx.pulseCnt, v.hx.tick, hrun.trans (congrArg _ ?_)⟩
  have horder : List.replicate ((cycleEvents s.params c (0, raw)).length + 1) Source.hx711 =
      .hx711 :: (List.replicate (readOutEvents s.params c raw).length .hx711 ++ [.hx711]) := by
    rw [List.replicate_succ', ← List.cons_append, ← List.replicate_succ]
    rfl
  rw [horder]
  simp [v, u, hxEmit, hxLog, hxDid, onHx, hxEdgeTodo, releaseCycle, cycleEvents, gateEvents, ht]

end Sys2Proof.Machine
end

section
/-! SUPPORT. The real operators: one rounding to nearest, ties to even, of the exact result, and exact comparisons
(spec/00_scope.md R8, R11). -/

namespace Sys2Proof.Machine

/-! ### The one rounding -/

/-- Below halfway to 2^1024 the rounding packs the rounded bits. -/
theorem realRound_of_not_overflow {num den : Nat} (neg : Bool) (hd : 0 < den) (h : ¬overflowFrom * den ≤ num) :
    roundBits num den < 2047 * 2 ^ 52 ∧ realRound neg num den = realPack neg (roundBits num den) := by
  rw [roundBits_overflow num den hd] at h
  exact ⟨not_le.1 h, by rw [realRound_eq, if_neg h]⟩

theorem realUnpack_realRound_of_overflow {num den : Nat} (neg : Bool) (hd : 0 < den) (h : overflowFrom * den ≤ num) :
    realUnpack (realRound neg num den) = .inf neg := by
  rw [realRound_eq, if_pos ((roundBits_overflow num den hd).1 h), realUnpack_realInf]

theorem realUnpack_realRound_of_not_overflow {num den : Nat} (neg : Bool) (hd : 0 < den)
    (h : ¬overflowFrom * den ≤ num) :
    realUnpack (realRound neg num den) = .fin neg (bitsMag (roundBits num den)) := by
  obtain ⟨hlt, hround⟩ := realRound_of_not_overflow neg hd h
  rw [hround, realUnpack_realPack neg hlt]

/-- How far a magnitude is from an exact quotient, in units of 2^-1074 times the denominator. -/
def distTo (num den m : Nat) : Nat := Int.natAbs (((m * den : Nat) : Int) - (num : Int))

/-- Of the whole multiples of the rounding's own scale the rounded one is nearest, the even one of two as near. -/
theorem distTo_multiple {num den : Nat} (hd : 0 < den) (k : Nat) :
    distTo num den (bitsMag (roundBits num den)) ≤ distTo num den (k * 2 ^ realShift (num / den)) ∧
    (k * 2 ^ realShift (num / den) ≠ bitsMag (roundBits num den) →
      distTo num den (bitsMag (roundBits num den)) = distTo num den (k * 2 ^ realShift (num / den)) →
      roundBits num den % 2 = 0) := by
  rw [bitsMag_roundBits num den hd, roundBits]
  obtain ⟨hnear, heven⟩ := nearestEven_dist num (den * 2 ^ realShift (num / den)) k (by positivity)
  generalize nearestEven num (den * 2 ^ realShift (num / den)) = N at *
  generalize realShift (num / den) = e at *
  have hscale : ∀ j : Nat, j * 2 ^ e * den = j * (den * 2 ^ e) := fun j => by ring
  unfold distTo
  rw [hscale, hscale]
  refine ⟨hnear, fun hne heq => ?_⟩
  have hN := heven (fun h => hne (by rw [h])) heq
  omega

/-- A magnitude of fewer bits than the rounding keeps at its scale is farther than the scale's first such multiple. -/
theorem distTo_below {num den q : Nat} (hd : 0 < den) (he : 1 ≤ realShift (num / den))
    (hq : q < 2 ^ 52 * 2 ^ realShift (num / den)) :
    distTo num den (2 ^ 52 * 2 ^ realShift (num / den)) < distTo num den q := by
  rcases realShift_spec (num / den) with ⟨h0, -⟩ | ⟨-, hle, -⟩
  · omega
  · have hnum : 2 ^ 52 * 2 ^ realShift (num / den) * den ≤ num :=
      (Nat.mul_le_mul_right den hle).trans (Nat.div_mul_le_self num den)
    have hlt := Nat.mul_lt_mul_of_pos_right hq hd
    unfold distTo
    generalize 2 ^ 52 * 2 ^ realShift (num / den) * den = a at *
    generalize q * den = b at *
    omega

/-- The rounded quotient is nearest among all finite values, with an even last bit where another is as near. -/
theorem distTo_roundBits {num den : Nat} (hd : 0 < den) (b : Nat) :
    distTo num den (bitsMag (roundBits num den)) ≤ distTo num den (bitsMag b) ∧
    (bitsMag b ≠ bitsMag (roundBits num den) →
      distTo num den (bitsMag (roundBits num den)) = distTo num den (bitsMag b) → roundBits num den % 2 = 0) := by
  have multiple : ∀ k, bitsMag b = k * 2 ^ realShift (num / den) → _ := fun k hk => hk ▸ distTo_multiple hd k
  by_cases he : 1 ≤ realShift (num / den)
  · rcases bitsMag_lt_cases b (realShift (num / den)) he with hlt | ⟨k, hk⟩
    · have hfar := ((distTo_multiple hd (2 ^ 52)).1).trans_lt (distTo_below hd he hlt)
      exact ⟨hfar.le, fun _ heq => absurd heq hfar.ne⟩
    · exact multiple k hk
  · exact multiple (bitsMag b) (by rw [Nat.lt_one_iff.1 (not_le.1 he), pow_zero, mul_one])

theorem realPack_getLsbD_zero (neg : Bool) {bits : Nat} (h : bits % 2 = 0) : (realPack neg bits).getLsbD 0 = false := by
  have hsum : ((if neg then 2 ^ 63 else 0) + bits) % 2 = 0 := by split <;> omega
  rw [realPack, BitVec.getLsbD_ofNat, Nat.testBit_zero, hsum]
  rfl

/-! ### The operators on finite values -/

/-- The signed value of a finite magnitude. -/
def signed (neg : Bool) (m : Nat) : Int := if neg then -(m : Int) else m

theorem realKey_finite {x : F64} {a : Bool} {m : Nat} (h : realUnpack x = .fin a m) :
    realKey x = some (signed a m) := by
  rw [realKey, h]
  rfl

theorem realRound_zero : realRound false 0 1 = realPack false 0 := by
  rw [realRound_eq]
  decide

/-- The sum is the exact sum rounded once; an exact zero has the operands' sign where they agree. -/
theorem realAdd_finite {x y : F64} {a b : Bool} {m n : Nat} (hx : realUnpack x = .fin a m)
    (hy : realUnpack y = .fin b n) : realAdd x y =
      realRound (if signed a m + signed b n = 0 then a && b else decide (signed a m + signed b n < 0))
        (signed a m + signed b n).natAbs 1 := by
  have hsum : realAdd x y = if a = b then realRound a (m + n) 1 else if m = n then realPack false 0
      else if n < m then realRound a (m - n) 1 else realRound b (n - m) 1 := by
    unfold realAdd
    rw [hx, hy]
  have same : ∀ {neg neg' : Bool} {k : Nat} {z : Int}, neg = neg' → k = z.natAbs →
      realRound neg k 1 = realRound neg' z.natAbs 1 := by
    rintro _ _ _ _ rfl rfl
    rfl
  rw [hsum]
  by_cases hab : a = b
  · subst hab
    rw [if_pos rfl]
    refine same ?_ ?_
    · cases a <;> simp [signed] <;> omega
    · cases a <;> simp [signed] <;> omega
  · rw [if_neg hab]
    by_cases hmn : m = n
    · subst hmn
      have hz : signed a m + signed b m = 0 := by cases a <;> cases b <;> simp_all [signed]
      have hs : (a && b) = false := by cases a <;> cases b <;> simp_all
      rw [if_pos rfl, hz, if_pos rfl, hs, ← realRound_zero]
      rfl
    · have hz : signed a m + signed b n ≠ 0 := by cases a <;> cases b <;> simp_all [signed] <;> omega
      rw [if_neg hmn, if_neg hz]
      split
      · refine same ?_ ?_ <;> (cases a <;> cases b <;> simp_all [signed] <;> omega)
      · refine same ?_ ?_ <;> (cases a <;> cases b <;> simp_all [signed] <;> omega)

/-- Turning the sign bit over changes the sign alone. -/
theorem realUnpack_flip {x : F64} {b : Bool} {n : Nat} (h : realUnpack x = .fin b n) :
    realUnpack (x ^^^ 0x8000000000000000#64) = .fin (!b) n := by
  have hexp : realExponent (x ^^^ 0x8000000000000000#64) = realExponent x := by
    rw [realExponent, BitVec.extractLsb'_xor, show (0x8000000000000000#64).extractLsb' 52 11 = 0#11 from rfl,
      BitVec.xor_zero, realExponent]
  have hfrac : realFraction (x ^^^ 0x8000000000000000#64) = realFraction x := by
    rw [realFraction, BitVec.extractLsb'_xor, show (0x8000000000000000#64).extractLsb' 0 52 = 0#52 from rfl,
      BitVec.xor_zero, realFraction]
  have hmsb : (x ^^^ 0x8000000000000000#64).msb = !x.msb := by
    rw [BitVec.msb_xor, show (0x8000000000000000#64).msb = true from rfl, Bool.xor_true]
  rw [realUnpack] at h ⊢
  rw [hexp, hfrac, hmsb]
  split at h
  · split at h <;> cases h
  · rename_i hfin
    rw [if_neg hfin]
    split at h <;> (cases h; rename_i hsub; simp only [hsub, if_true, if_false])

theorem signed_not (b : Bool) (n : Nat) : signed (!b) n = -signed b n := by
  cases b <;> simp [signed]

/-- The difference is the exact difference rounded once, by the sum with the sign turned over. -/
theorem realSub_finite {x y : F64} {a b : Bool} {m n : Nat} (hx : realUnpack x = .fin a m)
    (hy : realUnpack y = .fin b n) : realSub x y =
      realRound (if signed a m - signed b n = 0 then a && !b else decide (signed a m - signed b n < 0))
        (signed a m - signed b n).natAbs 1 := by
  rw [realSub, realAdd_finite hx (realUnpack_flip hy), signed_not, ← Int.sub_eq_add_neg]

theorem realMul_finite {x y : F64} {a b : Bool} {m n : Nat} (hx : realUnpack x = .fin a m)
    (hy : realUnpack y = .fin b n) : realMul x y = realRound (a ^^ b) (m * n) realOne := by
  unfold realMul
  rw [hx, hy]

theorem realDiv_finite {x y : F64} {a b : Bool} {m n : Nat} (hx : realUnpack x = .fin a m)
    (hy : realUnpack y = .fin b n) (hn : n ≠ 0) : realDiv x y = realRound (a ^^ b) (realOne * m) n := by
  unfold realDiv
  rw [hx, hy]
  exact if_neg hn

theorem realLt_of_key {x y : F64} {a b : Int} (hx : realKey x = some a) (hy : realKey y = some b) :
    realLt x y = decide (a < b) := by
  rw [realLt, hx, hy]

theorem realLe_of_key {x y : F64} {a b : Int} (hx : realKey x = some a) (hy : realKey y = some b) :
    realLe x y = decide (a ≤ b) := by
  rw [realLe, hx, hy]

/-! ### Whole numbers -/

theorem eq_of_distTo_zero {num m : Nat} (h : distTo num 1 m = 0) : m = num := by
  unfold distTo at h
  omega

theorem two_mul_realOne_le {e : Nat} (h : 1075 ≤ e) : realOne * 2 ≤ 2 ^ e := by
  obtain ⟨d, rfl⟩ := Nat.exists_eq_add_of_le h
  rw [show 1075 + d = 1074 + (1 + d) by omega, Nat.pow_add, ← realOne]
  exact Nat.mul_le_mul_left _ (Nat.le_self_pow (by omega) 2)

/-- A number of units of 1 with fewer than 53 bits is a multiple of the rounding's scale, so it is its own rounding. -/
theorem bitsMag_roundBits_whole {n : Nat} (h : n < 2 ^ 53) : bitsMag (roundBits (realOne * n) 1) = realOne * n := by
  have hscale : realShift (realOne * n / 1) ≤ 1074 := by
    rw [Nat.div_one]
    rcases realShift_spec (realOne * n) with ⟨h0, -⟩ | ⟨-, hle, -⟩
    · omega
    · by_contra hbig
      have hpow : realOne * 2 ≤ 2 ^ realShift (realOne * n) :=
        two_mul_realOne_le (not_le.1 hbig)
      have hlt : realOne * n < 2 ^ 52 * 2 ^ realShift (realOne * n) :=
        calc realOne * n < realOne * 2 ^ 53 := Nat.mul_lt_mul_of_pos_left h realOne_pos
          _ = 2 ^ 52 * (realOne * 2) := by
            generalize realOne = one
            ring
          _ ≤ _ := Nat.mul_le_mul_left _ hpow
      exact absurd hle (not_le.2 hlt)
  have hmultiple : n * 2 ^ (1074 - realShift (realOne * n / 1)) * 2 ^ realShift (realOne * n / 1) = realOne * n := by
    rw [Nat.mul_assoc, ← Nat.pow_add, Nat.sub_add_cancel hscale, Nat.mul_comm, realOne]
  have hnear := (distTo_multiple (num := realOne * n) Nat.one_pos (n * 2 ^ (1074 - realShift (realOne * n / 1)))).1
  rw [hmultiple] at hnear
  have hself : distTo (realOne * n) 1 (realOne * n) = 0 := by
    rw [distTo, Nat.mul_one, Int.sub_self, Int.natAbs_zero]
  exact eq_of_distTo_zero (Nat.le_zero.1 (hself ▸ hnear))

theorem realUnpack_realOfNat {n : Nat} (h : n < 2 ^ 53) : realUnpack (realOfNat n) = .fin false (realOne * n) := by
  have hsmall : ¬overflowFrom * 1 ≤ realOne * n := by
    have hover : realOne * 2 ^ 53 ≤ overflowFrom := by
      unfold realOne overflowFrom
      decide +kernel
    have hlt : realOne * n < realOne * 2 ^ 53 := Nat.mul_lt_mul_of_pos_left h realOne_pos
    rw [Nat.mul_one]
    exact not_le.2 (hlt.trans_le hover)
  rw [realOfNat, realUnpack_realRound_of_not_overflow false Nat.one_pos hsmall, bitsMag_roundBits_whole h]

/-! ### A finite value and an infinity, and no number at all -/

theorem realKey_inf {x : F64} {b : Bool} (h : realUnpack x = .inf b) :
    realKey x = some (signed b (2 ^ 2099)) := by
  rw [realKey, h]
  cases b <;> simp only [signed, Nat.cast_pow] <;> rfl

/-- No finite magnitude reaches the key of an infinity. -/
theorem magnitude_lt_key {x : F64} {a : Bool} {m : Nat} (h : realUnpack x = .fin a m) : m < 2 ^ 2099 := by
  obtain ⟨bits, hlt, rfl, -⟩ := bitsMag_of_realUnpack h
  exact bitsMag_lt_key hlt

/-- A smaller magnitude is before or after a larger one as the larger one's sign says. -/
theorem signed_lt_of_lt {a b : Bool} {m k : Nat} (h : m < k) :
    decide (signed a m < signed b k) = !b ∧ decide (signed a m ≤ signed b k) = !b ∧
    decide (signed b k < signed a m) = b ∧ decide (signed b k ≤ signed a m) = b := by
  cases a <;> cases b <;> simp [signed] <;> omega

/-- An infinity compares with a finite value as its sign says. -/
theorem compare_inf {x y : F64} {a b : Bool} {m : Nat} (hx : realUnpack x = .fin a m) (hy : realUnpack y = .inf b) :
    realLt x y = !b ∧ realLe x y = !b ∧ realLt y x = b ∧ realLe y x = b := by
  rw [realLt_of_key (realKey_finite hx) (realKey_inf hy), realLe_of_key (realKey_finite hx) (realKey_inf hy),
    realLt_of_key (realKey_inf hy) (realKey_finite hx), realLe_of_key (realKey_inf hy) (realKey_finite hx)]
  exact signed_lt_of_lt (magnitude_lt_key hx)

theorem realAdd_inf {x y : F64} {a b : Bool} {m : Nat} (hx : realUnpack x = .fin a m) (hy : realUnpack y = .inf b) :
    realAdd x y = realInf b ∧ realAdd y x = realInf b := by
  unfold realAdd
  rw [hx, hy]
  exact ⟨rfl, rfl⟩

theorem realMul_inf {x y : F64} {a b : Bool} {m : Nat} (hx : realUnpack x = .fin a m) (hy : realUnpack y = .inf b)
    (hm : m ≠ 0) : realMul x y = realInf (a ^^ b) ∧ realMul y x = realInf (a ^^ b) := by
  rw [realMul_comm y x, and_self]
  unfold realMul
  rw [hx, hy]
  exact if_neg hm

theorem realDiv_inf {x y : F64} {a b : Bool} {m : Nat} (hx : realUnpack x = .fin a m) (hy : realUnpack y = .inf b) :
    realUnpack (realDiv x y) = .fin (a ^^ b) 0 := by
  have hdiv : realDiv x y = realPack (a ^^ b) 0 := by
    unfold realDiv
    rw [hx, hy]
  rw [hdiv, realUnpack_realPack _ (by omega)]
  rfl

/-- No comparison with a NaN is true. -/
theorem compare_nan {x y : F64} (h : realUnpack x = .nan ∨ realUnpack y = .nan) :
    realLt x y = false ∧ realLe x y = false := by
  have key : ∀ {z : F64}, realUnpack z = .nan → realKey z = none := fun hz => by rw [realKey, hz]
  unfold realLt realLe
  rcases h with h | h
  · rw [key h]
    exact ⟨rfl, rfl⟩
  · rw [key h]
    cases realKey x <;> exact ⟨rfl, rfl⟩

/-- Settles O53: the rounded bits are nearest among the multiples of their scale and every finite value below the scale
is farther; each operator is this rounding of the exact result, and comparisons are those of the exact keys. -/
theorem roundingIsToNearestEven : Obligations.RoundingIsToNearestEven := by
  unfold Obligations.RoundingIsToNearestEven
  refine ⟨fun neg num den hd => ?_, fun x y a b m n hx hy => ?_, fun n h => realUnpack_realOfNat h,
    fun x y a b m hx hy => ?_, fun x y h => compare_nan h⟩
  · split
    · next hover => exact realUnpack_realRound_of_overflow neg hd hover
    · next hsmall =>
      refine ⟨_, realUnpack_realRound_of_not_overflow neg hd hsmall, fun x b q hx => ?_⟩
      obtain ⟨bits, -, rfl, -⟩ := bitsMag_of_realUnpack hx
      obtain ⟨hnear, heven⟩ := distTo_roundBits (num := num) hd bits
      refine ⟨hnear, fun hne heq => ?_⟩
      rw [(realRound_of_not_overflow neg hd hsmall).2]
      exact realPack_getLsbD_zero neg (heven hne heq)
  · exact ⟨realAdd_finite hx hy, realSub_finite hx hy, realMul_finite hx hy, realDiv_finite hx hy,
      realLt_of_key (realKey_finite hx) (realKey_finite hy), realLe_of_key (realKey_finite hx) (realKey_finite hy)⟩
  · obtain ⟨hxy, hyx⟩ := realAdd_inf hx hy
    refine ⟨by rw [hxy, realUnpack_realInf], by rw [hyx, realUnpack_realInf], fun hm => ?_, realDiv_inf hx hy,
      compare_inf hx hy⟩
    obtain ⟨hmul, hmul'⟩ := realMul_inf hx hy hm
    rw [hmul, hmul', realUnpack_realInf]
    exact ⟨rfl, rfl⟩

end Sys2Proof.Machine
end
